-- ==== Sys2Proof/Word.lean ====
section
/-! DEFINITION. The widths of the part: bytes, data words, addresses, byte enables, and the numbers that name a
channel, a page, a gauge (00_scope.md, Conventions; R3, R100, R131). -/

namespace Sys2Proof

/-- One byte. -/
abbrev Byte := BitVec 8

/-- A 32-bit data word. On a port, lane k (the byte at the word address plus k) is bits 8k+7 to 8k (R1). -/
abbrev Word := BitVec 32

/-- A 16-bit field. -/
abbrev Half := BitVec 16

/-- A 24-bit byte address (00_scope.md, Conventions). -/
abbrev Addr := BitVec 24

/-- The four byte enables of an access; bit k enables lane k (R1). -/
abbrev Lanes := BitVec 4

/-- A channel, 0 to 7. -/
abbrev ChanId := Fin 8

/-- An uplift gauge, 0 to 3. -/
abbrev GaugeId := Fin 4

/-- A window page, 0 to 127 (R3). -/
abbrev PageId := BitVec 7

/-- Every element of a vector changed by one function; `Vector.map`, in the form that the kernel evaluates. -/
def mapVector {α β : Type} {n : Nat} (f : α → β) (v : Vector α n) : Vector β n := Vector.ofFn (fun i => f v[i])

end Sys2Proof
end

