-- ==== Sys2Proof/Syntax.lean ====
section
/-! DEFINITION. The commands of the block: one constructor of `Instr` for each row of spec/opcode_table.json, with
the operands that the rule of the row says the event carries (the table itself gives none; log entries 1, 23, 25). -/

namespace Sys2Proof

/-- One read or write on the processor port (R1): a word address, four byte enables, and the data of a write. -/
structure Access where
  addr  : Addr
  be    : Lanes
  /-- `none` for a read, the four lanes for a write. -/
  write : Option Word
  deriving DecidableEq, Repr

/-- The two stop lines (R125). -/
inductive StopLine
  | stopA
  | stopB
  deriving DecidableEq, Repr

/-- The debounced lines of the field interface (R124): two stop lines and a permit line for each channel. -/
inductive FieldLine
  | stop (l : StopLine)
  | permit (c : ChanId)
  deriving DecidableEq, Repr

/-- What one transducer loop delivers (R100): a pressure in kPa, or LOS. -/
inductive Loop
  | good (kPa : Nat)
  | los
  deriving DecidableEq, Repr

/-- One 100 ms sample of a channel's acquisition front-end (R100), with the level of the channel's two ramp select
lines as they stand at the sample arrival (R113). -/
structure Sample where
  loop       : Loop
  pulses     : Nat
  rampSelect : BitVec 2
  deriving DecidableEq, Repr

/-- The commands. Each constructor is the row of spec/opcode_table.json of the same name. -/
inductive Instr
  -- reset and setup (R178 to R184)
  | resetAssert
  | resetRelease
  | setupReadNoAck
  | setupRetryWaitExpiry
  | setupReadComplete (bytes : List Byte)
  -- accesses answered before classification (R1, R17)
  | loadingAccess (a : Access)
  | noEnableAccess (addr : Addr) (write : Option Word)
  -- plain, map-table and ring-header traffic (R6 to R10)
  | plainRead (addr : Addr) (be : Lanes)
  | plainWrite (addr : Addr) (be : Lanes) (data : Word)
  | mapTableRead (addr : Addr) (be : Lanes)
  | mapTableWrite (addr : Addr) (be : Lanes) (data : Word)
  | ringHeaderRead (addr : Addr) (be : Lanes)
  | producerWordWrite (addr : Addr) (be : Lanes) (data : Word)
  | consumerWordWrite (addr : Addr) (be : Lanes) (data : Word)
  -- PASS and INVALID pages (R11, R15)
  | passRead (addr : Addr) (be : Lanes)
  | passWrite (addr : Addr) (be : Lanes) (data : Word)
  | invalidPageAccess (a : Access)
  -- ORDER pages (R12, R52 to R57)
  | orderMemoryRead (addr : Addr) (be : Lanes)
  | orderAreaWrite (addr : Addr) (be : Lanes) (data : Word)
  | programAreaWrite (addr : Addr) (be : Lanes) (data : Word)
  | resultWordWrite (addr : Addr) (be : Lanes) (data : Word)
  | orderWriteProtected (addr : Addr) (be : Lanes) (data : Word)
  | orderWordWidth (addr : Addr) (be : Lanes) (data : Word)
  | orderWordUnknown (addr : Addr) (code tag : Byte) (arg : Half)
  | load (addr : Addr) (tag : Byte) (arg : Half)
  | start (addr : Addr) (tag : Byte) (arg : Half)
  | retarget (addr : Addr) (tag : Byte) (arg : Half)
  | extend (addr : Addr) (tag : Byte) (arg : Half)
  | park (addr : Addr) (tag : Byte) (arg : Half)
  | resume (addr : Addr) (tag : Byte) (arg : Half)
  | close (addr : Addr) (tag : Byte) (arg : Half)
  | release (addr : Addr) (tag : Byte) (arg : Half)
  -- SNAP pages and capture buffers (R13, R141 to R151)
  | snapWordRead (addr : Addr) (be : Lanes)
  | snapEndWordRead (addr : Addr) (be : Lanes)
  | snapFlushRead (addr : Addr) (be : Lanes)
  | snapWrite (addr : Addr) (be : Lanes) (data : Word)
  | armTimeout (c : ChanId)
  | bufferExpiry (c : ChanId) (fresh : Bool)
  -- STATUS page writes (R14, R171 to R174)
  | governorStatusWrite (addr : Addr) (be : Lanes) (data : Word)
  | restart (addr : Addr)
  | eventFilterMaskWrite (addr : Addr) (be : Lanes) (data : Word)
  | stopMaskWrite (addr : Addr) (be : Lanes) (data : Word)
  | rampOptionTableWrite (addr : Addr) (be : Lanes) (data : Word)
  | statusOtherWrite (addr : Addr) (be : Lanes) (data : Word)
  -- the memory port (R2, R8, R16, R28, R29, R40 to R45, R161 to R164)
  | arbiterGrant
  | memoryTimeout
  | heldReadComplete (data : Word)
  | heldReadError
  | drainComplete
  | drainError
  | fetchFirstReadComplete (data : Word)
  | fetchComplete (data : Word)
  | fetchReadError
  | staleFetchEnd (failed : Bool)
  | ringSlotWriteComplete
  | producerWriteComplete
  | ringAccessError
  | producerRewriteComplete
  -- the field and the clock (R85, R124, R131, R134, R176)
  | sampleArrival (c : ChanId) (smp : Sample)
  | neighbourReport (watched watcher : ChanId)
  | gaugeSample (g : GaugeId) (reading : Half) (valid : Bool)
  | rawLineChange (line : FieldLine) (level : Bool)
  | debounceExpiry (line : FieldLine)
  | governorClockTick
  -- reads answered live (R12, R14)
  | resultWordRead (addr : Addr) (be : Lanes)
  | statusPageRead (addr : Addr) (be : Lanes)
  deriving DecidableEq, Repr

end Sys2Proof
end

