-- ==== Sys2Proof/Decode.lean ====
section
/-! DEFINITION. The words of the commands. The rows of spec/opcode_table.json give no bits, so no word spells a command
(log entry 27). -/

namespace Sys2Proof

/-- The command a word of `nbits` bits spells: none, for the table gives bits to no row. -/
def decodeTableWord (_nbits _w : Nat) : Option Instr := none

end Sys2Proof
end

