-- ==== Sys2Proof/Config.lean ====
section
/-! DEFINITION. The free values: orders that the spec says are not fixed. Each is opaque, so no proof can see what it
is and a statement holds whatever it is. The first argument is the value of the plain counter `State.choices` at the
moment of the choice, so that each choice is a fresh one (log entries 10, 11, 12). -/

namespace Sys2Proof

/-- FREE VALUE. At choice `n`, the `k`-th pick among the blocks whose records reach the staging queue together:
"their order there is not fixed" (R125), "in either order" (R155). -/
opaque Config.arrivalPick : Nat → Nat → Nat

/-- FREE VALUE. At choice `n`, whether a record that is dropped for a full staging queue raises RINGDROP before the
flag of the same event is raised (R119, R130 and R68 give both and not their order). -/
opaque Config.recordFirst : Nat → Bool

/-- FREE VALUE. At choice `n`, whether for channel `c` the cause STOP_B arises before STOP_A when one write of the
stop word raises both (R127 gives no order). -/
opaque Config.stopBFirst : Nat → ChanId → Bool

end Sys2Proof
end

