-- ==== Sys2Proof/Machine/State.lean ====
section
/-! DEFINITION. The state of the IG8 as plain data, block by block, and the machine right after reset. INVENTORY.md
lists every piece with its rule and its reset value. -/

namespace Sys2Proof.Machine

/-! ### Setup loader (11_setup_stream_and_start_up.md) -/

/-- The loader's three states (R178). -/
inductive LoaderMode
  | loading
  | running
  | safePass
  deriving DecidableEq, Repr

/-- Where the read of the setup stream stands in LOADING (R178, R179). -/
inductive ReadPhase
  | notBegun
  | reading
  | waiting
  deriving DecidableEq, Repr

/-- The values of the setup stream (R180, R183). Addresses are held whole; `ringCode` names N. -/
structure Setup where
  bigEndian  : Bool
  pinMode    : Bool
  windowBase : BitVec 4
  autoPark   : Byte
  mapBase    : Addr
  ringBase   : Addr
  ringCode   : BitVec 2
  rampSlots  : Half
  bound1     : Byte
  bound2     : Byte
  bound3     : Byte
  ceiling0   : Half
  ceiling1   : Half
  ceiling2   : Half
  ceiling3   : Half
  siteCap    : Half
  deriving DecidableEq, Repr

/-- The setup loader. `attempts` counts the attempts begun; `resetLine` is set while the reset line is asserted. -/
structure Loader where
  mode      : LoaderMode
  phase     : ReadPhase
  attempts  : Nat
  resetLine : Bool
  setup     : Setup
  deriving DecidableEq, Repr

/-! ### The two ports (01_bus_passage_and_the_plant_window.md) -/

/-- What the processor port answers (R1). -/
inductive Answer
  | completeRead (data : Word)
  | completeWrite
  | retry
  | error
  deriving DecidableEq, Repr

/-- A processor read that waits for its memory read (R8): the address and the enables of that memory read, and
whether its lanes are reversed on the way back (a PASS page with SWAP, R11). -/
structure HeldRead where
  addr     : Addr
  be       : Lanes
  reversed : Bool
  deriving DecidableEq, Repr

/-- The processor port: the read it holds, and the answer it gave last. -/
structure Port where
  held   : Option HeldRead
  answer : Option Answer
  deriving DecidableEq, Repr

/-- The accesses of the ring writer: word k of a publish's slot, the producer word of a publish (with the producer's
value before the grant, R163), and the producer rewrite (R164). -/
inductive RingAccess
  | slotWord (k : Nat)
  | producerWord (before : Nat)
  | rewrite
  deriving DecidableEq, Repr

/-- Who asked for the access that is outstanding on the memory port (R2). A ring writer access outstanding at a
governor restart is abandoned (R164). -/
inductive Initiator
  | heldRead
  | drain
  | fetch
  | ring (a : RingAccess) (abandoned : Bool)
  deriving DecidableEq, Repr

/-- One access on the memory port (R2); `write` is `none` for a read. -/
structure MemAccess where
  initiator : Initiator
  addr      : Addr
  be        : Lanes
  write     : Option Word
  deriving DecidableEq, Repr

/-! ### Posted write queue (02_the_posted_write_queue.md) -/

/-- The origin class of a queue entry, with the channel of an ORDER entry (R20). -/
inductive Origin
  | plain
  | mapTable
  | ringHeader
  | pass
  | order (c : ChanId)
  deriving DecidableEq, Repr

/-- One entry of the posted write queue (R20). -/
structure QEntry where
  addr   : Addr
  data   : Word
  be     : Lanes
  origin : Origin
  deriving DecidableEq, Repr

/-! ### Map unit (03_the_channel_map.md) -/

/-- A resolved role (R35), with the channel of ORDER and SNAP. -/
inductive Role
  | invalid
  | pass
  | order (c : ChanId)
  | snap (c : ChanId)
  | status
  deriving DecidableEq, Repr

/-- The four attributes of a map entry (R36). -/
structure Attrs where
  pin     : Bool
  swap    : Bool
  barrier : Bool
  wp      : Bool
  deriving DecidableEq, Repr

/-- One cached map entry (R37). Its place in the use order is its place in the list `MapUnit.cache`. -/
structure CacheEntry where
  page   : PageId
  role   : Role
  attrs  : Attrs
  pinned : Bool
  deriving DecidableEq, Repr

/-- The fetcher's states (3.3). -/
inductive FetchPhase
  | idle
  | first
  | second
  deriving DecidableEq, Repr

/-- The map fetcher (3.3). -/
structure Fetcher where
  phase : FetchPhase
  page  : PageId
  stale : Bool
  word0 : Word
  deriving DecidableEq, Repr

/-- The map unit: the cache in use order, least recently used first; the fetcher; the failure mark. -/
structure MapUnit where
  cache   : List CacheEntry
  fetcher : Fetcher
  failed  : Option PageId
  deriving DecidableEq, Repr

/-! ### Channels and order captures (04, 05, 06) -/

/-- The seven channel states (R73). -/
inductive ChState
  | vacant
  | armed
  | ramp
  | hold
  | parked
  | closing
  | closed
  deriving DecidableEq, Repr

/-- The outcome shown in the result word (R59). -/
inductive OrderOutcome
  | none
  | accepted
  | clamped
  | refused
  deriving DecidableEq, Repr

/-- The refusal reasons (12.4). -/
inductive Reason
  | none
  | width
  | unknown
  | state
  | busy
  | length
  | steps
  | pmaxCeiling
  | stepOverPmax
  | gin
  | capCeiling
  | refusal
  | gauge
  | watch
  | permit
  | stop
  | los
  | stopA
  | stopB
  | uplift
  deriving DecidableEq, Repr

/-- The park causes in cause order (R137). -/
inductive Cause
  | stopA
  | stopB
  | permit
  | los
  | uplift
  | overpressure
  | communication
  | operator
  deriving DecidableEq, Repr

/-- The close reasons (R83). -/
inductive CloseReason
  | cap
  | gin
  | refusal
  | schedule
  | operator
  deriving DecidableEq, Repr

/-- The action of a watch entry (R53). -/
inductive WatchAction
  | report
  | park
  deriving DecidableEq, Repr

/-- One step of a schedule: a pressure in kPa and a hold time in seconds. -/
structure SchedStep where
  pressure : Nat
  hold     : Nat
  deriving DecidableEq, Repr

/-- One entry of a watch list (R53, R134). -/
structure Watch where
  channel   : ChanId
  action    : WatchAction
  threshold : Nat
  tripped   : Bool
  deriving DecidableEq, Repr

/-- The stage context (R65). In VACANT it is the cleared one (R96). -/
structure Context where
  -- identity
  hole      : Half
  stageNo   : Byte
  topDepth  : Nat
  length    : Nat
  band      : Fin 4
  -- envelope
  pmax      : Nat
  gin       : Nat
  cap       : Nat
  qref      : Nat
  tref      : Nat
  -- ramp slot and uplift
  rampSlot    : BitVec 2
  gauge       : GaugeId
  upliftLimit : Nat
  baseline    : Nat
  uplift      : Nat
  -- schedule and watch list
  steps   : List SchedStep
  watches : List Watch
  -- progress
  stepIndex    : Nat
  stepTime     : Nat
  ceiling      : Nat
  setpoint     : Nat
  pgin         : Nat
  holdTarget   : Nat
  demand       : Nat
  take         : Nat
  specificTake : Nat
  peak         : Nat
  elapsed      : Nat
  refusalCount : Nat
  overRun      : Nat
  losRun       : Nat
  parkSet      : Byte
  causesSeen   : Byte
  ginLimited   : Bool
  closeReason  : Option CloseReason
  lastTag      : Byte
  deriving DecidableEq, Repr

/-- The channel readings (R100), which belong to the channel and not to a stage. -/
structure Readings where
  measured : Nat
  los      : Bool
  sampled  : Bool
  window   : List Nat
  flow     : Nat
  sequence : Word
  losCount : Nat
  deriving DecidableEq, Repr

/-- The latched fields of a result word (R59). -/
structure ResultLatch where
  code    : Byte
  tag     : Byte
  outcome : OrderOutcome
  reason  : Reason
  deriving DecidableEq, Repr

/-- A channel: its controller's state, context and readings, and its order capture's staged image (72 bytes, kept as
18 words of four lanes, R53) and result word. -/
structure Channel where
  state    : ChState
  ctx      : Context
  readings : Readings
  image    : Vector Word 18
  result   : ResultLatch
  deriving DecidableEq, Repr

/-! ### Field interface (07_field_interlocks_and_parking.md) -/

/-- A debounced line (R123, R124). A level is set for a stop line asserted and for a permit present. -/
structure Line where
  raw      : Bool
  accepted : Bool
  timer    : Bool
  deriving DecidableEq, Repr

/-- An uplift gauge (R131). -/
structure Gauge where
  reading : Half
  valid   : Bool
  sampled : Bool
  deriving DecidableEq, Repr

/-- A neighbour report on its way from a channel's sample arrival to a channel that watches it (R101). -/
structure Report where
  watched  : ChanId
  watcher  : ChanId
  state    : ChState
  measured : Nat
  los      : Bool
  deriving DecidableEq, Repr

/-- The field interface, with the neighbour reports that have been handed on and not yet taken. -/
structure Field where
  stopA   : Line
  stopB   : Line
  permits : Vector Line 8
  gauges  : Vector Gauge 4
  reports : List Report
  deriving DecidableEq, Repr

/-! ### Capture buffer pool (08_snapshot_capture_buffers.md) -/

/-- The key of a buffer: a channel, and whether the read came through the fresh page address (R141). -/
structure BufKey where
  channel : ChanId
  fresh   : Bool
  deriving DecidableEq, Repr

/-- One capture buffer (R141). Its arm timer runs exactly in ARMED and its expiry timer exactly in FILLED. -/
inductive Buffer
  | free
  | armed (key : BufKey)
  | filled (key : BufKey) (stale : Bool) (snap : Vector Word 12)
  deriving DecidableEq, Repr

/-- The six buffers and the fill order, oldest fill first. -/
structure Pool where
  bufs      : Vector Buffer 6
  fillOrder : List (Fin 6)
  deriving DecidableEq, Repr

/-! ### Staging queue and ring writer (09_the_event_ring.md) -/

/-- The kinds of record with their payloads (R155, 12.7). -/
inductive Payload
  | orderRefused (code : Byte) (arg : Half) (reason : Reason)
  | orderReleased
  | stageStarted (baseline ceiling : Nat)
  | stepReached (stepIndex measured take : Nat)
  | ginLimitBegin (take pgin stepIndex : Nat)
  | parked (cause : Cause) (set : Byte)
  | resumed (stepIndex ceiling : Nat)
  | communication (place : Nat) (watched : ChanId) (threshold pressure : Nat) (action : WatchAction)
  | overpressure (measured pmax : Nat) (state : ChState)
  | losBegin (state : ChState) (lastGood : Nat)
  | losEnd (state : ChState) (pressure run : Nat)
  | stopChange (line : StopLine) (level : Bool) (mask : Byte)
  | permitChange (level : Bool)
  | stageClosed (reason : CloseReason) (seen : Byte) (take peak final elapsed specificTake : Nat)
  | mapFault (addr : Addr) (write : Bool)
  | memoryError (addr : Addr) (origin : Option Origin)
  deriving DecidableEq, Repr

/-- A record as its block builds it: everything but the ring sequence (R154). In `memoryError`, no origin means the
map fetcher's path. -/
structure Record where
  channel : Option ChanId
  tag     : Byte
  clock   : Word
  hole    : Half
  stageNo : Byte
  payload : Payload
  deriving DecidableEq, Repr

/-- The staging queue and the ring writer. `held` lists the close records that found the staging queue full, in the
order of their first offers (R158); `next` is the next access of the publish under way (0 to 7 a slot word, 8 the
producer word, R161). -/
structure Ring where
  staging        : List Record
  held           : List Record
  producer       : Nat
  copy           : Nat
  sequence       : Half
  halted         : Bool
  rewritePending : Bool
  next           : Nat
  deriving DecidableEq, Repr

/-! ### Status unit (10_governor_status_and_faults.md) -/

/-- The nine sticky flags (R169). -/
inductive Flag
  | clamp
  | refuse
  | owned
  | mapFault
  | memErr
  | ringDrop
  | pinFull
  | overPress
  | los
  deriving DecidableEq, Repr

/-- The status unit. `flags` holds the nine flags at their bits of the governor status word (12.6). -/
structure Status where
  flags      : BitVec 9
  faultAddr  : Addr
  te         : Bool
  trap       : Bool
  filterMask : Half
  maskA      : Byte
  maskB      : Byte
  rampTable  : Half
  clock      : Word
  deriving DecidableEq, Repr

/-! ### The whole block -/

/-- The state of the IG8. `choices` is the model's own counter for the free values of Config.lean, and `pending` the
queue of the commands that wait, first in first out. -/
structure State where
  loader  : Loader
  port    : Port
  mem     : Option MemAccess
  queue   : List QEntry
  map     : MapUnit
  chans   : Vector Channel 8
  field   : Field
  pool    : Pool
  ring    : Ring
  status  : Status
  choices : Nat
  pending : List Instr
  deriving DecidableEq, Repr

/-- Reasons for which the block stops with a fault. There are none: every rule of the spec gives each event an
effect, so this type is empty (INVENTORY.md, Faults). -/
inductive Fault
  deriving DecidableEq, Repr

/-- Reasons for which a command has no meaning. -/
inductive Refusal
  /-- Raised by an arm of `exec` whose command has no meaning yet. No arm raises it. Safe: the run stops. -/
  | notModelled (mnemonic : String)
  deriving DecidableEq, Repr

/-! ### Reset -/

/-- Every setup value 0 (R178). -/
def Setup.reset : Setup :=
  { bigEndian := false, pinMode := false, windowBase := 0, autoPark := 0, mapBase := 0, ringBase := 0, ringCode := 0,
    rampSlots := 0, bound1 := 0, bound2 := 0, bound3 := 0, ceiling0 := 0, ceiling1 := 0, ceiling2 := 0, ceiling3 := 0,
    siteCap := 0 }

/-- LOADING, no read begun, attempt count 0, the reset line asserted (R178). -/
def Loader.reset : Loader :=
  { mode := .loading, phase := .notBegun, attempts := 0, resetLine := true, setup := Setup.reset }

/-- The cleared stage context of a VACANT channel (R96). -/
def Context.cleared : Context :=
  { hole := 0, stageNo := 0, topDepth := 0, length := 0, band := 0, pmax := 0, gin := 0, cap := 0, qref := 0, tref := 0,
    rampSlot := 0, gauge := 0, upliftLimit := 0, baseline := 0, uplift := 0, steps := [], watches := [],
    stepIndex := 0, stepTime := 0, ceiling := 0, setpoint := 0, pgin := 0, holdTarget := 0, demand := 0, take := 0,
    specificTake := 0, peak := 0, elapsed := 0, refusalCount := 0, overRun := 0, losRun := 0, parkSet := 0,
    causesSeen := 0, ginLimited := false, closeReason := none, lastTag := 0 }

/-- The readings after reset (R100). -/
def Readings.reset : Readings :=
  { measured := 0, los := false, sampled := false, window := [0, 0, 0, 0, 0, 0, 0, 0, 0, 0], flow := 0, sequence := 0,
    losCount := 0 }

/-- Command code 0, tag 0, outcome NONE, reason NONE (R59, R72). -/
def ResultLatch.cleared : ResultLatch := { code := 0, tag := 0, outcome := .none, reason := .none }

/-- A staged image of zeros (R53). -/
def clearedImage : Vector Word 18 := Vector.replicate 18 0

/-- A channel after reset (R72, R99, R100). -/
def Channel.reset : Channel :=
  { state := .vacant, ctx := Context.cleared, readings := Readings.reset, image := clearedImage,
    result := ResultLatch.cleared }

/-- A line after reset: the accepted level the table of R123 gives (asserted, withdrawn), the timer stopped, and the
given raw level. -/
def Line.reset (accepted raw : Bool) : Line := { raw := raw, accepted := accepted, timer := false }

/-- A gauge after reset (R123). -/
def Gauge.reset : Gauge := { reading := 0, valid := false, sampled := false }

/-- The field interface after reset (R123), the raw levels of the pins as they are. -/
def Field.reset (rawA rawB : Bool) (rawPermit : Vector Bool 8) : Field :=
  { stopA := Line.reset true rawA, stopB := Line.reset true rawB,
    permits := mapVector (Line.reset false) rawPermit, gauges := Vector.replicate 4 Gauge.reset, reports := [] }

/-- Every buffer FREE and the fill order empty (R141). -/
def Pool.empty : Pool := { bufs := Vector.replicate 6 .free, fillOrder := [] }

/-- The staging queue and the ring writer at reset (R165). -/
def Ring.reset : Ring :=
  { staging := [], held := [], producer := 0, copy := 0, sequence := 0, halted := false, rewritePending := false,
    next := 0 }

/-- The status unit at reset (R177). -/
def Status.reset : Status :=
  { flags := 0, faultAddr := 0, te := false, trap := false, filterMask := 0, maskA := 0, maskB := 0, rampTable := 0,
    clock := 0 }

/-- The fetcher at reset (R50). -/
def Fetcher.reset : Fetcher := { phase := .idle, page := 0, stale := false, word0 := 0 }

/-- The map unit at reset (R50). -/
def MapUnit.reset : MapUnit := { cache := [], fetcher := Fetcher.reset, failed := none }

/-- The machine right after reset, its reset line still asserted (R178). The raw levels of the pins are the safe ones
(DESIGN CHOICE, log entry 8). -/
def State.reset : State :=
  { loader := Loader.reset, port := { held := none, answer := none }, mem := none, queue := [],
    map := MapUnit.reset, chans := Vector.replicate 8 Channel.reset,
    field := Field.reset true true (Vector.replicate 8 false), pool := Pool.empty, ring := Ring.reset,
    status := Status.reset, choices := 0, pending := [] }

end Sys2Proof.Machine
end

