-- ==== Sys2Proof/Machine/Operands.lean ====
section
/-! DEFINITION. Reading and laying out operands: byte lanes and byte order (R1, R11, R185), the fields of an address
(R3), the order word (R57, 12.3), the staged image (R53, 12.3), the map entry (R35, 12.2) and the setup stream
(R179 to R182, 12.8). -/

namespace Sys2Proof.Machine

/-! ### Lanes and byte order -/

/-- The four bytes of a word in reverse order. -/
def byteSwap (w : Word) : Word :=
  w.extractLsb' 0 8 ++ w.extractLsb' 8 8 ++ w.extractLsb' 16 8 ++ w.extractLsb' 24 8

/-- Byte enable k becomes byte enable 3 - k (R11). -/
def reverseLanes (be : Lanes) : Lanes :=
  be.extractLsb' 0 1 ++ be.extractLsb' 1 1 ++ be.extractLsb' 2 1 ++ be.extractLsb' 3 1

/-- All ones on the enabled lanes, zeros on the others. -/
def laneMask (be : Lanes) : Word :=
  (if be.getLsbD 3 then 0xFF#8 else 0#8) ++ (if be.getLsbD 2 then 0xFF#8 else 0#8) ++
    (if be.getLsbD 1 then 0xFF#8 else 0#8) ++ (if be.getLsbD 0 then 0xFF#8 else 0#8)

/-- Between the lanes of a word and its value in a byte order (R185): little-endian has bits 7 to 0 on lane 0, big-endian
on lane 3. The same function goes both ways. -/
def inOrder (big : Bool) (w : Word) : Word := if big then byteSwap w else w

/-- `old` with the bits of `mask` taken from `new`. -/
def mergeBits {w : Nat} (mask old new : BitVec w) : BitVec w := (old &&& ~~~mask) ||| (new &&& mask)

/-- The mask, over a word's value in a byte order, of the bits that lie on enabled lanes. -/
def valueMask (big : Bool) (be : Lanes) : Word := inOrder big (laneMask be)

/-- A value presented on the lanes of a read: in the byte order, lanes not enabled 0 (R1, R186). -/
def presented (big : Bool) (be : Lanes) (value : Word) : Word := inOrder big value &&& laneMask be

/-! ### Addresses -/

/-- The address lines of a port: bits 23 to 2 (12.9), bits 1 and 0 read 0 (log entry 30). -/
def wordAddr (a : Addr) : Addr := a &&& ~~~3#24

/-- The alias bit: set through the fresh address of a page (R3). -/
def freshOf (a : Addr) : Bool := a.getLsbD 19

/-- The page index of a window address (R3). -/
def pageOf (a : Addr) : PageId := a.extractLsb' 12 7

/-- The offset within the page (R3). -/
def offsetOf (a : Addr) : Nat := (a.extractLsb' 0 12).toNat

/-- The address a window access uses on the memory port: bit 19 cleared (R3). -/
def windowMemAddr (a : Addr) : Addr := a &&& ~~~(0x80000#24)

/-- N, the number of ring slots (R159). -/
def Setup.ringSlots (u : Setup) : Nat := 64 * 2 ^ u.ringCode.toNat

/-- The window is addresses whose bits 23 to 20 equal B (R3). -/
def Setup.inWindow (u : Setup) (a : Addr) : Bool := a.extractLsb' 20 4 == u.windowBase

/-- Within the 1024 bytes from the map base (R5). -/
def Setup.inMapTable (u : Setup) (a : Addr) : Bool :=
  decide (u.mapBase.toNat ≤ a.toNat) && decide (a.toNat < u.mapBase.toNat + 1024)

/-- The producer word's address (R159). -/
def Setup.producerAddr (u : Setup) : Addr := u.ringBase

/-- The consumer word's address (R159). -/
def Setup.consumerAddr (u : Setup) : Addr := u.ringBase + 4

/-- The address of word k of slot i (R159, R161). -/
def Setup.slotAddr (u : Setup) (i k : Nat) : Addr := u.ringBase + BitVec.ofNat 24 (32 + 32 * i + 4 * k)

/-- The address of the entry of page p: map base + 8 p (R34). -/
def Setup.entryAddr (u : Setup) (p : PageId) : Addr := u.mapBase + BitVec.ofNat 24 (8 * p.toNat)

/-- The page whose entry holds the table word at `a` (R43). -/
def Setup.entryPage (u : Setup) (a : Addr) : PageId := BitVec.ofNat 7 ((a.toNat - u.mapBase.toNat) / 8)

/-- The field address of a channel: 0xFFFF01 + 4 c (R169). -/
def fieldAddr (c : ChanId) : Addr := 0xFFFF01#24 + BitVec.ofNat 24 (4 * c.val)

/-! ### The order word -/

/-- The eight commands (R57). -/
inductive Command
  | load
  | start
  | retarget
  | extend
  | park
  | resume
  | close
  | release
  deriving DecidableEq, Repr

/-- The code of a command (12.4). -/
def Command.code : Command → Byte
  | .load => 1
  | .start => 2
  | .retarget => 3
  | .extend => 4
  | .park => 5
  | .resume => 6
  | .close => 7
  | .release => 8

/-- The command of a code; codes 0 and 9 to 255 are unknown (R57, 12.4). -/
def Command.ofCode (code : Byte) : Option Command :=
  match code.toNat with
  | 1 => some .load
  | 2 => some .start
  | 3 => some .retarget
  | 4 => some .extend
  | 5 => some .park
  | 6 => some .resume
  | 7 => some .close
  | 8 => some .release
  | _ => none

/-- The value of an order word: argument in bits 31 to 16, tag in 15 to 8, command code in 7 to 0 (12.3). -/
def orderValue (code tag : Byte) (arg : Half) : Word := arg ++ tag ++ code

/-- The command code of an order word. -/
def orderCode (v : Word) : Byte := v.extractLsb' 0 8

/-- The tag of an order word. -/
def orderTag (v : Word) : Byte := v.extractLsb' 8 8

/-- The argument of an order word. -/
def orderArg (v : Word) : Half := v.extractLsb' 16 16

/-! ### The staged image -/

/-- The fields of a stage order as LOAD reads them (R53). Step count, gauge, watch count, watched channel and action
are whole bytes, as 12.3 says. -/
structure StageOrder where
  hole        : Half
  stageNo     : Byte
  rampSlot    : BitVec 2
  topDepth    : Nat
  length      : Nat
  pmax        : Nat
  gin         : Nat
  cap         : Nat
  qref        : Nat
  tref        : Nat
  upliftLimit : Nat
  gauge       : Nat
  stepCount   : Nat
  steps       : List SchedStep
  watchCount  : Nat
  /-- watched channel, action code, threshold -/
  watches     : List (Nat × Nat × Nat)
  deriving DecidableEq, Repr

/-- Word k of the order area (offset 8 + 4 k) in a byte order. -/
def imageWord (big : Bool) (img : Vector Word 18) (k : Fin 18) : Word := inOrder big img[k]

/-- The low half of a word as a number. -/
def lowHalf (w : Word) : Nat := (w.extractLsb' 0 16).toNat

/-- The high half of a word as a number. -/
def highHalf (w : Word) : Nat := (w.extractLsb' 16 16).toNat

/-- A step word: pressure in bits 15 to 0, hold in 31 to 16 (12.3). -/
def stepOfWord (w : Word) : SchedStep := { pressure := lowHalf w, hold := highHalf w }

/-- A watch word: threshold in bits 15 to 0, channel in 23 to 16, action in 31 to 24 (12.3). -/
def watchOfWord (w : Word) : Nat × Nat × Nat :=
  ((w.extractLsb' 16 8).toNat, (w.extractLsb' 24 8).toNat, lowHalf w)

/-- The stage order that the staged image holds, read in a byte order (R54, 12.3). -/
def stageOrderOf (big : Bool) (img : Vector Word 18) : StageOrder :=
  let w := imageWord big img
  { hole := (w 0).extractLsb' 0 16
    stageNo := (w 0).extractLsb' 16 8
    rampSlot := (w 0).extractLsb' 24 2
    topDepth := lowHalf (w 1)
    length := highHalf (w 1)
    pmax := lowHalf (w 2)
    gin := highHalf (w 2)
    cap := (w 3).toNat
    qref := lowHalf (w 4)
    tref := highHalf (w 4)
    upliftLimit := lowHalf (w 5)
    gauge := ((w 5).extractLsb' 16 8).toNat
    stepCount := ((w 5).extractLsb' 24 8).toNat
    steps := [stepOfWord (w 6), stepOfWord (w 7), stepOfWord (w 8), stepOfWord (w 9), stepOfWord (w 10),
      stepOfWord (w 11)]
    watchCount := ((w 12).extractLsb' 0 8).toNat
    watches := [watchOfWord (w 13), watchOfWord (w 14), watchOfWord (w 15), watchOfWord (w 16)] }

/-! ### The map entry -/

/-- Word 0 of a map entry, as its four lanes, resolved into a role (R35, 12.2). -/
def resolveRole (w : Word) : Role :=
  let channel := (w.extractLsb' 8 8).toNat
  match (w.extractLsb' 0 8).toNat with
  | 1 => .pass
  | 2 => if h : channel < 8 then .order ⟨channel, h⟩ else .invalid
  | 3 => if h : channel < 8 then .snap ⟨channel, h⟩ else .invalid
  | 4 => .status
  | _ => .invalid

/-- The attributes of a map entry, kept whatever the role (R35, 12.2). -/
def resolveAttrs (w : Word) : Attrs :=
  { pin := w.getLsbD 16, swap := w.getLsbD 17, barrier := w.getLsbD 18, wp := w.getLsbD 19 }

/-! ### The setup stream -/

/-- The 32 bytes the loader takes: a memory that stops driving leaves the rest at 0xFF (R179). -/
def streamBytes (driven : List Byte) : List Byte := (driven ++ List.replicate 32 0xFF#8).take 32

/-- Byte k of the stream. -/
def streamByte (b : List Byte) (k : Nat) : Byte := (b[k]?).getD 0xFF#8

/-- A two-byte field, high byte first (11.3). -/
def streamHalf (b : List Byte) (k : Nat) : Half := streamByte b k ++ streamByte b (k + 1)

/-- One bit of the CRC computation: shift, and combine with 0x1021 when the top bit differs from the data bit (R181). -/
def crcBit (r : Half) (bit : Bool) : Half :=
  if r.getLsbD 15 != bit then (r <<< 1) ^^^ 0x1021#16 else r <<< 1

/-- One byte of the CRC computation, most significant bit first (R181). -/
def crcByte (r : Half) (b : Byte) : Half :=
  [7, 6, 5, 4, 3, 2, 1, 0].foldl (fun acc k => crcBit acc (b.getLsbD k)) r

/-- The CRC remainder over a list of bytes, from all ones (R181). -/
def crcOf (bytes : List Byte) : Half := bytes.foldl crcByte 0xFFFF#16

/-- The setup values of a stream (11.3, 12.8). -/
def setupOf (b : List Byte) : Setup :=
  { bigEndian := (streamByte b 1).getLsbD 0
    pinMode := (streamByte b 1).getLsbD 1
    windowBase := (streamByte b 2).extractLsb' 0 4
    autoPark := streamByte b 3
    mapBase := (streamHalf b 4).extractLsb' 0 14 ++ 0#10
    ringBase := (streamHalf b 6).extractLsb' 0 14 ++ 0#10
    ringCode := (streamByte b 8).extractLsb' 0 2
    rampSlots := (streamByte b 10).extractLsb' 0 4 ++ (streamByte b 10).extractLsb' 4 4 ++
      (streamByte b 9).extractLsb' 0 4 ++ (streamByte b 9).extractLsb' 4 4
    bound1 := streamByte b 11
    bound2 := streamByte b 12
    bound3 := streamByte b 13
    ceiling0 := streamHalf b 14
    ceiling1 := streamHalf b 16
    ceiling2 := streamHalf b 18
    ceiling3 := streamHalf b 20
    siteCap := streamHalf b 22 }

/-- The field tests of R180. -/
def streamFieldsOk (b : List Byte) : Bool :=
  streamByte b 0 == 3#8 &&
  (streamByte b 1).extractLsb' 2 6 == 0#6 && (streamByte b 2).extractLsb' 4 4 == 0#4 &&
  (streamByte b 4).extractLsb' 6 2 == 0#2 && (streamByte b 6).extractLsb' 6 2 == 0#2 &&
  (streamByte b 8).extractLsb' 2 6 == 0#6 &&
  [24, 25, 26, 27, 28, 29].all (fun k => streamByte b k == 0#8) &&
  [14, 16, 18, 20].all (fun k => decide ((streamHalf b k).toNat ≤ 8000))

/-- The CRC test of R181. -/
def streamCrcOk (b : List Byte) : Bool := crcOf (b.take 30) == streamHalf b 30

/-- Two areas, each from its first byte to its last, share a byte. -/
def areasOverlap (first₁ last₁ first₂ last₂ : Nat) : Bool := decide (first₁ ≤ last₂) && decide (first₂ ≤ last₁)

/-- The last byte of the ring area (R159, R182). -/
def Setup.ringLast (u : Setup) : Nat := u.ringBase.toNat + 32 + 32 * u.ringSlots - 1

/-- The placement tests of R182. -/
def Setup.placementOk (u : Setup) : Bool :=
  let w := u.windowBase.toNat * 1048576
  let m := u.mapBase.toNat
  let r := u.ringBase.toNat
  !areasOverlap w (w + 1048575) m (m + 1023) &&
  !areasOverlap w (w + 1048575) r u.ringLast &&
  !areasOverlap m (m + 1023) r u.ringLast &&
  decide (u.ringLast ≤ 0xFFFFFF)

/-- The stream passes every test (R180, R181, R182). -/
def streamOk (b : List Byte) : Bool :=
  streamFieldsOk b && streamCrcOk b && (setupOf b).placementOk

/-- The band ceiling of a depth band (R64). -/
def Setup.ceilingOf (u : Setup) (k : Fin 4) : Nat :=
  match k with
  | 0 => u.ceiling0.toNat
  | 1 => u.ceiling1.toNat
  | 2 => u.ceiling2.toNat
  | 3 => u.ceiling3.toNat

/-- The depth band of a top depth in dm: the highest k whose boundary is at or below the depth in whole metres, with
boundary 0 at 0 m (R64). -/
def Setup.bandOf (u : Setup) (topDepth : Nat) : Fin 4 :=
  let metres := topDepth / 10
  if u.bound3.toNat ≤ metres then 3
  else if u.bound2.toNat ≤ metres then 2
  else if u.bound1.toNat ≤ metres then 1
  else 0

/-- The site cap ceiling in dL: 100 dL a unit (R63). -/
def Setup.siteCapDl (u : Setup) : Nat := u.siteCap.toNat * 100

/-- The rise of the ramp ceiling at one sample arrival for a rate index (R111). -/
def rampRise (index : BitVec 4) : Nat :=
  match index.toNat with
  | 0 => 1
  | 1 => 2
  | 2 => 3
  | 3 => 4
  | 4 => 5
  | 5 => 6
  | 6 => 8
  | 7 => 10
  | 8 => 12
  | 9 => 15
  | 10 => 20
  | 11 => 25
  | 12 => 30
  | 13 => 40
  | 14 => 50
  | _ => 60

/-- The rate index of a slot in a ramp option table (12.6: slot s in bits 4s + 3 to 4s). -/
def rampIndex (table : Half) (slot : BitVec 2) : BitVec 4 := table.extractLsb' (4 * slot.toNat) 4

end Sys2Proof.Machine
end

