-- ==== Sys2Proof/Machine/Layouts.lean ====
section
/-! DEFINITION. The code tables and the layouts of the words the part builds (12_page_and_record_layouts.md): result
word, snapshot, STATUS page, ring record. A bit that the tables assign to no field reads 0 (R186). -/

namespace Sys2Proof.Machine

/-! ### Code tables (12.4) -/

/-- The code of a channel state. -/
def ChState.code : ChState → BitVec 3
  | .vacant => 0
  | .armed => 1
  | .ramp => 2
  | .hold => 3
  | .parked => 4
  | .closing => 5
  | .closed => 6

/-- The code of an outcome. -/
def OrderOutcome.code : OrderOutcome → BitVec 2
  | .none => 0
  | .accepted => 1
  | .clamped => 2
  | .refused => 3

/-- The code of a refusal reason. -/
def Reason.code : Reason → Byte
  | .none => 0
  | .width => 1
  | .unknown => 2
  | .state => 3
  | .busy => 4
  | .length => 5
  | .steps => 6
  | .pmaxCeiling => 7
  | .stepOverPmax => 8
  | .gin => 9
  | .capCeiling => 10
  | .refusal => 11
  | .gauge => 12
  | .watch => 13
  | .permit => 14
  | .stop => 15
  | .los => 16
  | .stopA => 17
  | .stopB => 18
  | .uplift => 19

/-- The code of a park cause. -/
def Cause.code : Cause → Byte
  | .stopA => 1
  | .stopB => 2
  | .permit => 3
  | .los => 4
  | .uplift => 5
  | .overpressure => 6
  | .communication => 7
  | .operator => 8

/-- The mark of a cause in a cause set. -/
def Cause.mark : Cause → Byte
  | .stopA => 0x01
  | .stopB => 0x02
  | .permit => 0x04
  | .los => 0x08
  | .uplift => 0x10
  | .overpressure => 0x20
  | .communication => 0x40
  | .operator => 0x80

/-- The code of a close reason. -/
def CloseReason.code : CloseReason → Byte
  | .cap => 1
  | .gin => 2
  | .refusal => 3
  | .schedule => 4
  | .operator => 5

/-- The code of a close reason, or none. -/
def closeCode : Option CloseReason → Byte
  | none => 0
  | some r => r.code

/-- The code of a watch action (12.3). -/
def WatchAction.code : WatchAction → Byte
  | .report => 1
  | .park => 2

/-- The code of an origin class in a MEMORY_ERROR record (12.7). -/
def Origin.code : Origin → Byte
  | .plain => 0
  | .mapTable => 1
  | .ringHeader => 2
  | .pass => 3
  | .order _ => 4

/-- The code of a record kind, 1 to 16 (12.4). -/
def Payload.kind : Payload → Byte
  | .orderRefused _ _ _ => 1
  | .orderReleased => 2
  | .stageStarted _ _ => 3
  | .stepReached _ _ _ => 4
  | .ginLimitBegin _ _ _ => 5
  | .parked _ _ => 6
  | .resumed _ _ => 7
  | .communication _ _ _ _ _ => 8
  | .overpressure _ _ _ => 9
  | .losBegin _ _ => 10
  | .losEnd _ _ _ => 11
  | .stopChange _ _ _ => 12
  | .permitChange _ => 13
  | .stageClosed _ _ _ _ _ _ _ => 14
  | .mapFault _ _ => 15
  | .memoryError _ _ => 16

/-- The kinds a mark of the event filter mask can stop: all but ORDER_REFUSED, PARKED and STAGE_CLOSED (R155, R156). -/
def Payload.maskable : Payload → Bool
  | .orderRefused _ _ _ => false
  | .parked _ _ => false
  | .stageClosed _ _ _ _ _ _ _ => false
  | _ => true

/-! ### Helpers -/

/-- A number in a 16-bit field. -/
def half (n : Nat) : Half := BitVec.ofNat 16 n

/-- A number in an 8-bit field. -/
def byte (n : Nat) : Byte := BitVec.ofNat 8 n

/-- A 16-bit field that shows a quantity up to 65535 and stays there (R152, R186). -/
def capped (n : Nat) : Half := BitVec.ofNat 16 (min n 65535)

/-- One bit for each channel, channel c at bit c. -/
def chanBits (f : ChanId → Bool) : Byte :=
  BitVec.ofBool (f 7) ++ BitVec.ofBool (f 6) ++ BitVec.ofBool (f 5) ++ BitVec.ofBool (f 4) ++
    BitVec.ofBool (f 3) ++ BitVec.ofBool (f 2) ++ BitVec.ofBool (f 1) ++ BitVec.ofBool (f 0)

/-! ### The result word (12.3, R59) -/

/-- The result word of a channel: the latched fields, and the state live. -/
def Channel.resultWord (ch : Channel) : Word :=
  0#1 ++ ch.state.code ++ 0#2 ++ ch.result.outcome.code ++ ch.result.reason.code ++ ch.result.tag ++ ch.result.code

/-! ### The snapshot (12.5, R152) -/

/-- The twelve words a fill takes from a channel, with the buffer's STALE mark and the governor clock at the fill. -/
def Channel.snapshot (ch : Channel) (stale : Bool) (clock : Word) : Vector Word 12 :=
  let x := ch.ctx
  let r := ch.readings
  #v[ (0#16 ++ byte x.stepIndex ++ 0#1 ++ BitVec.ofBool x.ginLimited ++ BitVec.ofBool stale ++ BitVec.ofBool r.los ++
        0#1 ++ ch.state.code : Word),
      (half x.setpoint ++ half r.measured : Word),
      (0#10 ++ BitVec.ofNat 6 x.demand ++ half r.flow : Word),
      BitVec.ofNat 32 x.take,
      (half x.peak ++ capped x.specificTake : Word),
      BitVec.ofNat 32 x.elapsed,
      (capped (x.stepTime / 10) ++ half x.refusalCount : Word),
      (half x.uplift ++ x.causesSeen ++ x.parkSet : Word),
      (0#4 ++ x.rampSlot ++ BitVec.ofNat 2 x.band.val ++ x.stageNo ++ x.hole : Word),
      r.sequence,
      (half x.ceiling ++ 0#5 ++ (closeCode x.closeReason).extractLsb' 0 3 ++ x.lastTag : Word),
      clock ]

/-! ### The STATUS page (12.6, R168, R175) -/

/-- Bits 23 to 0 hold an address. -/
def addrWord (a : Addr) : Word := (0#8 ++ a : Word)

/-- ANY: one or more of the nine flags is set (R170). -/
def Status.any (u : Status) : Bool := u.flags != 0

/-- The uplift readback of a gauge. -/
def Gauge.readback (g : Gauge) : Word := (0#15 ++ BitVec.ofBool g.valid ++ g.reading : Word)

/-- The word of a STATUS page at an offset; an offset that holds no word reads 0. -/
def State.statusWord (s : State) (offset : Nat) : Word :=
  let u := s.loader.setup
  match offset with
  | 0x000 => (0#5 ++ BitVec.ofBool s.ring.halted ++ BitVec.ofBool s.status.trap ++ BitVec.ofBool s.status.te ++
      0#7 ++ BitVec.ofBool s.status.any ++ 0#7 ++ s.status.flags : Word)
  | 0x004 => addrWord s.status.faultAddr
  | 0x008 => 0
  | 0x00C => (0#16 ++ s.status.filterMask : Word)
  | 0x010 => (0#14 ++ BitVec.ofBool s.field.stopB.accepted ++ BitVec.ofBool s.field.stopA.accepted ++
      s.status.maskB ++ s.status.maskA : Word)
  | 0x014 => (0#16 ++ s.status.rampTable : Word)
  | 0x018 => (0#16 ++ chanBits (fun c => s.chans[c].readings.los) ++
      chanBits (fun c => s.field.permits[c].accepted) : Word)
  | 0x01C => s.field.gauges[0].readback
  | 0x020 => s.field.gauges[1].readback
  | 0x024 => s.field.gauges[2].readback
  | 0x028 => s.field.gauges[3].readback
  | 0x02C => s.status.clock
  | 0x030 => (0#7 ++ BitVec.ofNat 9 s.ring.copy ++ 0#7 ++ BitVec.ofNat 9 s.ring.producer : Word)
  | 0x034 => (0#6 ++ u.ringCode ++ u.autoPark ++ 0#4 ++ u.windowBase ++ 0#6 ++ BitVec.ofBool u.pinMode ++
      BitVec.ofBool u.bigEndian : Word)
  | 0x038 => addrWord u.mapBase
  | 0x03C => addrWord u.ringBase
  | 0x040 => (0#8 ++ u.bound3 ++ u.bound2 ++ u.bound1 : Word)
  | 0x044 => (u.ceiling1 ++ u.ceiling0 : Word)
  | 0x048 => (u.ceiling3 ++ u.ceiling2 : Word)
  | 0x04C => (u.rampSlots ++ u.siteCap : Word)
  | _ => 0

/-! ### The ring record (12.7) -/

/-- The five payload words of a record. -/
def Payload.words : Payload → Vector Word 5
  | .orderRefused code arg reason => #v[(arg ++ reason.code ++ code : Word), 0, 0, 0, 0]
  | .orderReleased => #v[0, 0, 0, 0, 0]
  | .stageStarted baseline ceiling => #v[(half ceiling ++ half baseline : Word), 0, 0, 0, 0]
  | .stepReached stepIndex measured take =>
    #v[(half measured ++ 0#8 ++ byte stepIndex : Word), BitVec.ofNat 32 take, 0, 0, 0]
  | .ginLimitBegin take pgin stepIndex =>
    #v[(half pgin ++ 0#8 ++ byte stepIndex : Word), BitVec.ofNat 32 take, 0, 0, 0]
  | .parked cause set => #v[(0#16 ++ set ++ cause.code : Word), 0, 0, 0, 0]
  | .resumed stepIndex ceiling => #v[(half ceiling ++ 0#8 ++ byte stepIndex : Word), 0, 0, 0, 0]
  | .communication place watched threshold pressure action =>
    #v[(0#8 ++ action.code ++ byte watched.val ++ byte place : Word), (half pressure ++ half threshold : Word), 0, 0, 0]
  | .overpressure measured pmax state =>
    #v[(0#29 ++ state.code : Word), (half pmax ++ half measured : Word), 0, 0, 0]
  | .losBegin state lastGood => #v[(half lastGood ++ 0#13 ++ state.code : Word), 0, 0, 0, 0]
  | .losEnd state pressure run =>
    #v[(half pressure ++ 0#13 ++ state.code : Word), (0#16 ++ half run : Word), 0, 0, 0]
  | .stopChange line level mask =>
    #v[(0#8 ++ mask ++ 0#7 ++ BitVec.ofBool level ++
      (match line with | .stopA => 0#8 | .stopB => 1#8) : Word), 0, 0, 0, 0]
  | .permitChange level => #v[(0#31 ++ BitVec.ofBool level : Word), 0, 0, 0, 0]
  | .stageClosed reason seen take peak final elapsed specificTake =>
    #v[(0#16 ++ seen ++ reason.code : Word), BitVec.ofNat 32 take, (half final ++ half peak : Word),
      BitVec.ofNat 32 elapsed, BitVec.ofNat 32 specificTake]
  | .mapFault addr write => #v[(0#7 ++ BitVec.ofBool write ++ addr : Word), 0, 0, 0, 0]
  | .memoryError addr origin =>
    #v[addrWord addr,
      (match origin with
        | some o => (0#16 ++ o.code ++ 1#8 : Word)
        | none => (0#16 ++ 0xFF#8 ++ 2#8 : Word)), 0, 0, 0]

/-- The channel byte of a record: 0xFF when it names none (R186). -/
def channelByte : Option ChanId → Byte
  | none => 0xFF
  | some c => byte c.val

/-- The eight words of a record with its ring sequence filled in (R154, R161). -/
def Record.words (r : Record) (sequence : Half) : Vector Word 8 :=
  let p := r.payload.words
  #v[ (r.stageNo ++ r.tag ++ channelByte r.channel ++ r.payload.kind : Word),
      (r.hole ++ sequence : Word), r.clock, p[0], p[1], p[2], p[3], p[4] ]

end Sys2Proof.Machine
end

