-- ==== Sys2Proof/Machine/Flags.lean ====
section
/-! DEFINITION. The sticky flags, the fault address, the trap and the attention line (R169 to R172, R166). -/

namespace Sys2Proof.Machine

/-- The place of a flag in the governor status word (12.6). -/
def Flag.index : Flag → Nat
  | .clamp => 0
  | .refuse => 1
  | .owned => 2
  | .mapFault => 3
  | .memErr => 4
  | .ringDrop => 5
  | .pinFull => 6
  | .overPress => 7
  | .los => 8

/-- The flag's bit. -/
def Flag.bit (f : Flag) : BitVec 9 := 1#9 <<< f.index

/-- The flag is set. -/
def Status.has (u : Status) (f : Flag) : Bool := u.flags &&& f.bit != 0

/-- A raise: the flag is set (R169); the fault address latches the address if ANY was clear (R170); TRAP is set and TE
cleared if the flag goes from clear to set while TE is set (R172). -/
def Status.raise (u : Status) (f : Flag) (addr : Addr) : Status :=
  { u with
    flags := u.flags ||| f.bit
    faultAddr := if u.any then u.faultAddr else addr
    trap := u.trap || (u.te && !u.has f)
    te := u.te && u.has f }

/-- A write of the governor status word: `value` under the value mask `mask`. Flags written 1 are cleared, TRAP written
1 is cleared, TE takes its bit if its lane is enabled, and the fault address becomes 0 when no flag is left (R171). -/
def Status.writeFlags (u : Status) (mask value : Word) : Status :=
  let w := value &&& mask
  let flags := u.flags &&& ~~~(w.extractLsb' 0 9)
  { u with
    flags := flags
    faultAddr := if flags = 0 then 0 else u.faultAddr
    trap := u.trap && !w.getLsbD 25
    te := if mask.getLsbD 24 then value.getLsbD 24 else u.te }

/-- A block raises a flag in the status unit. -/
def State.raise (s : State) (f : Flag) (addr : Addr) : State := { s with status := s.status.raise f addr }

/-- The attention line (R166). -/
def State.attention (s : State) : Bool :=
  s.ring.producer != s.ring.copy || s.status.trap || s.loader.mode == .safePass

end Sys2Proof.Machine
end

