-- ==== Sys2Proof/Machine/Ops.lean ====
section
/-! DEFINITION. The operations the blocks share: answering the processor port, reading and writing a channel, the
posted write queue, staging records (R154 to R158), and the entries to PARKED, CLOSING and VACANT (R86, R90, R96). -/

namespace Sys2Proof.Machine

/-! ### Ports, channels, queue -/

/-- The processor port gives its answer (R1). -/
def State.answer (s : State) (a : Answer) : State := { s with port := { s.port with answer := some a } }

/-- The processor port holds a read (R1, R8): its answer is delayed. -/
def State.hold (s : State) (h : HeldRead) : State := { s with port := { held := some h, answer := none } }

/-- A channel. -/
def State.chan (s : State) (c : ChanId) : Channel := s.chans[c]

/-- A channel replaced. -/
def State.setChan (s : State) (c : ChanId) (ch : Channel) : State := { s with chans := s.chans.set c ch }

/-- Apply a function to a channel. -/
def State.mapChan (s : State) (c : ChanId) (f : Channel → Channel) : State := s.setChan c (f (s.chan c))

/-- The queue holds 8 entries (R21). -/
def State.queueFull (s : State) : Bool := decide (8 ≤ s.queue.length)

/-- A write becomes the newest entry of the posted write queue (R21). -/
def State.enqueue (s : State) (e : QEntry) : State := { s with queue := s.queue ++ [e] }

/-- The queue holds a write to this memory word (R7). -/
def State.queueNames (s : State) (addr : Addr) : Bool := s.queue.any (fun e => e.addr == addr)

/-- The queue holds an entry of origin class map-table (R27). -/
def State.mapWriteQueued (s : State) : Bool := s.queue.any (fun e => e.origin == .mapTable)

/-- Multi-byte fields are read and written in the setup byte order, reversed under SWAP (R185). -/
def State.pageOrder (s : State) (swap : Bool) : Bool := s.loader.setup.bigEndian != swap

/-! ### Records -/

/-- A record of a channel with a given tag: its identity is the channel's loaded stage, 0 in VACANT (R154). -/
def Channel.recordWithTag (ch : Channel) (c : ChanId) (clock : Word) (tag : Byte) (p : Payload) : Record :=
  { channel := some c, tag := tag, clock := clock, hole := ch.ctx.hole, stageNo := ch.ctx.stageNo, payload := p }

/-- A record a channel stages for its own events: it carries the stage's last tag (R60, R154). -/
def Channel.record (ch : Channel) (c : ChanId) (clock : Word) (p : Payload) : Record :=
  ch.recordWithTag c clock ch.ctx.lastTag p

/-- A record that names no channel, with tag 0 (R154). -/
def State.blockRecord (s : State) (p : Payload) : Record :=
  { channel := none, tag := 0, clock := s.status.clock, hole := 0, stageNo := 0, payload := p }

/-- A record of a block that is not a channel but names one: that channel's identity, tag 0 (R154). -/
def State.chanRecord (s : State) (c : ChanId) (p : Payload) : Record :=
  (s.chan c).recordWithTag c s.status.clock 0 p

/-- A close record. -/
def Record.isClose (r : Record) : Bool :=
  match r.payload with
  | .stageClosed _ _ _ _ _ _ _ => true
  | _ => false

/-- The record is not staged: its kind is masked (R156), or the loader is not RUNNING, when no record is staged
(R140, R165, R184). -/
def State.silent (s : State) (r : Record) : Bool :=
  s.loader.mode != .running ||
    (r.payload.maskable && s.status.filterMask.getLsbD (r.payload.kind.toNat - 1))

/-- The record, if offered now, is dropped for a full staging queue (R157). -/
def State.drops (s : State) (r : Record) : Bool :=
  !s.silent r && decide (8 ≤ s.ring.staging.length) && !r.isClose

/-- A block stages a record: the filter mask (R156), then the staging queue with its 8 places (R157). A close record
that finds the queue full is held (R158); any other is dropped and RINGDROP raised with the producer word's address. -/
def State.stage (s : State) (r : Record) : State :=
  if s.silent r then s
  else if s.ring.staging.length < 8 then { s with ring := { s.ring with staging := s.ring.staging ++ [r] } }
  else if r.isClose then { s with ring := { s.ring with held := s.ring.held ++ [r] } }
  else s.raise .ringDrop s.loader.setup.producerAddr

/-- A record and a flag of one event, whose order the spec does not give: where the record is dropped, a free value
says which raise reaches the status unit first (log entry 11). -/
def State.stageAndRaise (s : State) (r : Record) (f : Flag) (addr : Addr) : State :=
  if s.drops r then
    let s' := { s with choices := s.choices + 1 }
    if Config.recordFirst s.choices then (s'.stage r).raise f addr else (s'.raise f addr).stage r
  else (s.raise f addr).stage r

/-- What a channel gives to the other blocks at one of its events. -/
inductive Effect
  /-- a record to be staged -/
  | stage (r : Record)
  /-- a record and a sticky flag of the same event -/
  | news (r : Record) (f : Flag) (addr : Addr)
  deriving DecidableEq, Repr

/-- One effect applied. -/
def State.perform (s : State) : Effect → State
  | .stage r => s.stage r
  | .news r f addr => s.stageAndRaise r f addr

/-- The effects of one event applied in order. -/
def State.performAll (s : State) (es : List Effect) : State := es.foldl State.perform s

/-- Records staged one after another. -/
def State.stageAll (s : State) (rs : List Record) : State := rs.foldl State.stage s

/-- The lists merged into one, each keeping its own order; `pick` chooses, at each place, which list gives its head.
With at most one list that is not empty there is nothing to choose. -/
def interleave {α : Type} (pick : Nat → Nat) : Nat → List (List α) → List α
  | 0, _ => []
  | n + 1, ls =>
    match ls.filter (fun l => !l.isEmpty) with
    | [] => []
    | [l] => l
    | l₀ :: rest =>
      let live := l₀ :: rest
      let i := pick n % live.length
      match live[i]? with
      | some (x :: xs) => x :: interleave pick n (live.set i xs)
      | _ => []

/-- Records of several blocks, staged at one event: each block's records keep their order, and the order between the
blocks is a free value (R125, R155; log entry 10). -/
def State.stageTogether (s : State) (groups : List (List Record)) : State :=
  State.stageAll { s with choices := s.choices + 1 }
    (interleave (Config.arrivalPick s.choices) groups.flatten.length groups)

/-- Every channel takes one event of another block: `f` gives what becomes of each and the records it stages, which
reach the staging queue together with `others`, the records of the block that hands the event on (R125, R127, R131). -/
def State.eachChan (s : State) (others : List Record) (f : ChanId → Channel → Channel × List Record) : State :=
  State.stageTogether { s with chans := Vector.ofFn (fun c => (f c s.chans[c]).1) }
    (others :: (List.finRange 8).map (fun c => (f c s.chans[c]).2))

/-! ### Entries to PARKED, CLOSING and VACANT -/

/-- The stage holds this cause in its park cause set. -/
def Context.holds (x : Context) (cause : Cause) : Bool := x.parkSet &&& cause.mark != 0

/-- A park cause arises for a channel's stage (R90). -/
def Channel.park (ch : Channel) (c : ChanId) (clock : Word) (cause : Cause) : Channel × List Record :=
  match ch.state with
  | .ramp | .hold =>
    let ch' := { ch with
      state := .parked
      ctx := { ch.ctx with
        parkSet := cause.mark
        causesSeen := ch.ctx.causesSeen ||| cause.mark
        demand := 0
        setpoint := 0 } }
    (ch', [ch'.record c clock (.parked cause ch'.ctx.parkSet)])
  | .parked =>
    if ch.ctx.holds cause then (ch, [])
    else
      let ch' := { ch with
        ctx := { ch.ctx with
          parkSet := ch.ctx.parkSet ||| cause.mark
          causesSeen := ch.ctx.causesSeen ||| cause.mark } }
      (ch', [ch'.record c clock (.parked cause ch'.ctx.parkSet)])
  | .vacant | .armed | .closing | .closed => (ch, [])

/-- Park causes that arise one after another (R90). -/
def Channel.parkEach (ch : Channel) (c : ChanId) (clock : Word) : List Cause → Channel × List Record
  | [] => (ch, [])
  | cause :: rest =>
    let (ch₁, out₁) := ch.park c clock cause
    let (ch₂, out₂) := ch₁.parkEach c clock rest
    (ch₂, out₁ ++ out₂)

/-- Entry to CLOSING (R86): demand 0, permitted setpoint 0 (R106), the close reason, and the close record. -/
def Channel.enterClosing (ch : Channel) (c : ChanId) (clock : Word) (reason : CloseReason) : Channel × Record :=
  let x := ch.ctx
  let ch' := { ch with
    state := .closing
    ctx := { x with demand := 0, setpoint := 0, closeReason := some reason } }
  (ch', ch'.record c clock
    (.stageClosed reason x.causesSeen x.take x.peak ch.readings.measured x.elapsed (x.take * 10 / x.length)))

/-- Return to VACANT: the stage context is cleared, the readings, the staged image and the result word are not (R96). -/
def Channel.vacate (ch : Channel) : Channel := { ch with state := .vacant, ctx := Context.cleared }

/-! ### Outputs (R74, R117) -/

/-- The stroke demand a channel drives. -/
def Channel.strokeDemand (ch : Channel) : Nat :=
  match ch.state with
  | .ramp | .hold => ch.ctx.demand
  | .vacant | .armed | .parked | .closing | .closed => 0

/-- The return valve of a channel is shut. -/
def Channel.valveShut (ch : Channel) : Bool :=
  match ch.state with
  | .ramp | .hold | .closing | .closed => true
  | .vacant | .armed | .parked => false

end Sys2Proof.Machine
end

