-- ==== Sys2Proof/Machine/Commands.lean ====
section
/-! DEFINITION. The eight commands as a channel controller takes them (R58, R62 to R70, R76, R77, R89, R91 to R95,
R138): each judged against the channel's state and context, with one outcome. -/

namespace Sys2Proof.Machine

/-- The field as a channel's commands find it: each stop line accepted as asserted and unmasked for the channel, the
permit accepted as present, and the gauges (R76, R92). -/
structure FieldView where
  stopA  : Bool
  stopB  : Bool
  permit : Bool
  gauges : Vector Gauge 4
  deriving DecidableEq, Repr

/-- What a command is judged with: the channel's number, the clock, the setup values, the field. -/
structure CommandEnv where
  id    : ChanId
  clock : Word
  setup : Setup
  view  : FieldView
  deriving DecidableEq, Repr

/-- What a command comes to: the channel after it, the outcome with its reason, and the records the channel stages
for it (the ORDER_REFUSED record of a refusal is staged by the order capture). -/
structure Verdict where
  chan    : Channel
  outcome : OrderOutcome
  reason  : Reason
  out     : List Record
  deriving DecidableEq, Repr

/-- The command is refused; the channel is as given. -/
def Verdict.refuse (ch : Channel) (reason : Reason) : Verdict :=
  { chan := ch, outcome := .refused, reason := reason, out := [] }

/-- The command is accepted. -/
def Verdict.accept (ch : Channel) (out : List Record) : Verdict :=
  { chan := ch, outcome := .accepted, reason := .none, out := out }

/-- A channel whose context keeps the command's tag as its last tag (R60). -/
def Channel.tagged (ch : Channel) (tag : Byte) : Channel := { ch with ctx := { ch.ctx with lastTag := tag } }

/-! ### LOAD (R62 to R66) -/

/-- A watch entry that LOAD refuses (R63, test 9). -/
def badWatch (self : ChanId) (w : Nat × Nat × Nat) : Bool :=
  decide (7 < w.1) || w.1 == self.val || !(w.2.1 == 1 || w.2.1 == 2) || w.2.2 == 0 || decide (8000 < w.2.2)

/-- The first test of R63 that fails, or none. -/
def StageOrder.firstFailure (o : StageOrder) (self : ChanId) (u : Setup) : Option Reason :=
  if o.length < 10 ∨ 300 < o.length then some .length
  else if o.stepCount = 0 ∨ 6 < o.stepCount then some .steps
  else if o.pmax = 0 ∨ u.ceilingOf (u.bandOf o.topDepth) < o.pmax then some .pmaxCeiling
  else if (o.steps.take o.stepCount).any (fun p => decide (o.pmax < p.pressure)) then some .stepOverPmax
  else if o.gin = 0 ∨ 4000 < o.gin then some .gin
  else if o.cap = 0 ∨ u.siteCapDl < o.cap then some .capCeiling
  else if o.tref = 0 ∨ 3600 < o.tref ∨ 6000 < o.qref then some .refusal
  else if 3 < o.gauge ∨ o.upliftLimit = 0 ∨ 5000 < o.upliftLimit then some .gauge
  else if 4 < o.watchCount ∨ (o.watches.take o.watchCount).any (badWatch self) then some .watch
  else none

/-- A watch entry of the staged image as the context keeps it, its tripped mark clear (R65). -/
def watchOf (w : Nat × Nat × Nat) : Watch :=
  { channel := Fin.ofNat 8 w.1, action := if w.2.1 = 2 then .park else .report, threshold := w.2.2, tripped := false }

/-- The stage context LOAD builds from the image (R65). -/
def StageOrder.context (o : StageOrder) (u : Setup) (tag : Byte) : Context :=
  { Context.cleared with
    hole := o.hole
    stageNo := o.stageNo
    topDepth := o.topDepth
    length := o.length
    band := u.bandOf o.topDepth
    pmax := o.pmax
    gin := o.gin
    cap := o.cap
    qref := o.qref
    tref := o.tref
    rampSlot := o.rampSlot
    gauge := Fin.ofNat 4 o.gauge
    upliftLimit := o.upliftLimit
    steps := o.steps.take o.stepCount
    watches := (o.watches.take o.watchCount).map watchOf
    lastTag := tag }

/-- LOAD, with the staged image read in the byte order of the page the LOAD word was written through (R54, R63). -/
def Channel.cmdLoad (ch : Channel) (env : CommandEnv) (big : Bool) (tag : Byte) : Verdict :=
  if ch.state = .vacant then
    let o := stageOrderOf big ch.image
    match o.firstFailure env.id env.setup with
    | some reason => Verdict.refuse ch reason
    | none => Verdict.accept { ch with state := .armed, ctx := o.context env.setup tag } []
  else Verdict.refuse ch .busy

/-! ### START (R76, R77) -/

/-- The first test of R76 that fails, or none. -/
def Channel.startFailure (ch : Channel) (view : FieldView) : Option Reason :=
  let g := view.gauges[ch.ctx.gauge]
  if !view.permit then some .permit
  else if view.stopA || view.stopB then some .stop
  else if ch.readings.los || !ch.readings.sampled then some .los
  else if !g.valid || !g.sampled then some .gauge
  else none

/-- START. -/
def Channel.cmdStart (ch : Channel) (env : CommandEnv) (tag : Byte) : Verdict :=
  if ch.state = .armed then
    match ch.startFailure env.view with
    | some reason => Verdict.refuse ch reason
    | none =>
      let ch' := { ch with
        state := .ramp
        ctx := { ch.ctx with
          baseline := env.view.gauges[ch.ctx.gauge].reading.toNat
          uplift := 0
          ceiling := ch.readings.measured
          stepIndex := 0
          stepTime := 0
          demand := 0
          elapsed := 0
          refusalCount := 0
          overRun := 0
          losRun := 0
          lastTag := tag } }
      Verdict.accept ch' [ch'.record env.id env.clock (.stageStarted ch'.ctx.baseline ch'.ctx.ceiling)]
  else Verdict.refuse ch .state

/-! ### RETARGET (R67) -/

/-- The pressure of the current step replaced. -/
def Context.retargeted (x : Context) (pressure : Nat) : Context :=
  { x with steps := x.steps.modify x.stepIndex (fun p => { p with pressure := pressure }) }

/-- RETARGET. In HOLD, a new pressure more than 20 kPa above the permitted setpoint sends the stage to RAMP, with the
ceiling from the measured pressure and the refusal count at 0 (R82). That this test alone decides, also where the new
pressure is below the step's present one, is the model's choice (log entry 40). -/
def Channel.cmdRetarget (ch : Channel) (tag : Byte) (arg : Nat) : Verdict :=
  let pressure := min arg ch.ctx.pmax
  let outcome := if ch.ctx.pmax < arg then OrderOutcome.clamped else OrderOutcome.accepted
  let x := { ch.ctx.retargeted pressure with lastTag := tag }
  match ch.state with
  | .ramp | .parked => { chan := { ch with ctx := x }, outcome := outcome, reason := .none, out := [] }
  | .hold =>
    let ch' :=
      if ch.ctx.setpoint + 20 < pressure then
        { ch with state := .ramp, ctx := { x with ceiling := ch.readings.measured, refusalCount := 0 } }
      else { ch with ctx := x }
    { chan := ch', outcome := outcome, reason := .none, out := [] }
  | .vacant | .armed | .closing | .closed => Verdict.refuse ch .state

/-! ### EXTEND (R69, R70) -/

/-- EXTEND: the argument is in litres, 10 dL each. -/
def Channel.cmdExtend (ch : Channel) (env : CommandEnv) (tag : Byte) (arg : Nat) : Verdict :=
  match ch.state with
  | .armed | .ramp | .hold | .parked =>
    if env.setup.siteCapDl < ch.ctx.cap + arg * 10 then Verdict.refuse ch .capCeiling
    else Verdict.accept { ch with ctx := { ch.ctx with cap := ch.ctx.cap + arg * 10, lastTag := tag } } []
  | .vacant | .closing | .closed => Verdict.refuse ch .state

/-! ### PARK and RESUME (R91 to R93, R138) -/

/-- PARK: the last tag first, then the cause OPERATOR (R91). -/
def Channel.cmdPark (ch : Channel) (env : CommandEnv) (tag : Byte) : Verdict :=
  match ch.state with
  | .ramp | .hold | .parked =>
    let (ch', out) := (ch.tagged tag).park env.id env.clock .operator
    Verdict.accept ch' out
  | .vacant | .armed | .closing | .closed => Verdict.refuse ch .state

/-- The uplift of a stage against its gauge's latest reading, 0 if the reading is below the baseline (R132, R138). -/
def Context.upliftOf (x : Context) (reading : Nat) : Nat := reading - x.baseline

/-- The mark of a cause, if it is to be kept. -/
def keepMark (keep : Bool) (cause : Cause) : Byte := if keep then cause.mark else 0

/-- The causes whose clearing test at a RESUME fails (R138): OVERPRESSURE, COMMUNICATION and OPERATOR always pass. -/
def Channel.persisting (ch : Channel) (view : FieldView) : Byte :=
  let g := view.gauges[ch.ctx.gauge]
  keepMark view.stopA .stopA ||| keepMark view.stopB .stopB ||| keepMark (!view.permit) .permit |||
    keepMark ch.readings.los .los |||
    keepMark (!(g.valid && decide (ch.ctx.upliftOf g.reading.toNat < ch.ctx.upliftLimit))) .uplift

/-- The causes that the look at the field finds (R92). -/
def Channel.lookCauses (ch : Channel) (view : FieldView) : List Cause :=
  (if view.stopA then [Cause.stopA] else []) ++ (if view.stopB then [Cause.stopB] else []) ++
    (if view.permit then [] else [Cause.permit]) ++ (if ch.readings.los then [Cause.los] else [])

/-- The first cause of a set in cause order, as a refusal reason (R92). -/
def firstCauseReason (set : Byte) : Reason :=
  if set.getLsbD 0 then .stopA
  else if set.getLsbD 1 then .stopB
  else if set.getLsbD 2 then .permit
  else if set.getLsbD 3 then .los
  else .uplift

/-- RESUME: the clearing of R138, the look of R92, then R93 if the set is empty. -/
def Channel.cmdResume (ch : Channel) (env : CommandEnv) (tag : Byte) : Verdict :=
  if ch.state = .parked then
    let cleared := { ch with ctx := { ch.ctx with parkSet := ch.ctx.parkSet &&& ch.persisting env.view } }
    let (looked, out) := cleared.parkEach env.id env.clock (ch.lookCauses env.view)
    if looked.ctx.parkSet = 0 then
      let ch' := { looked with
        state := .ramp
        ctx := { looked.ctx with
          ceiling := looked.readings.measured
          demand := 0
          refusalCount := 0
          overRun := 0
          losRun := 0
          lastTag := tag } }
      Verdict.accept ch' (out ++ [ch'.record env.id env.clock (.resumed ch'.ctx.stepIndex ch'.ctx.ceiling)])
    else { chan := looked, outcome := .refused, reason := firstCauseReason looked.ctx.parkSet, out := out }
  else Verdict.refuse ch .state

/-! ### CLOSE and RELEASE (R89, R95) -/

/-- CLOSE: the last tag first, then the entry to CLOSING with reason OPERATOR (R89). -/
def Channel.cmdClose (ch : Channel) (env : CommandEnv) (tag : Byte) : Verdict :=
  match ch.state with
  | .ramp | .hold | .parked =>
    let (ch', r) := (ch.tagged tag).enterClosing env.id env.clock .operator
    Verdict.accept ch' [r]
  | .closing => Verdict.refuse ch .busy
  | .vacant | .armed | .closed => Verdict.refuse ch .state

/-- RELEASE: from ARMED with an ORDER_RELEASED record that carries the RELEASE word's tag (R95). -/
def Channel.cmdRelease (ch : Channel) (env : CommandEnv) (tag : Byte) : Verdict :=
  match ch.state with
  | .armed => Verdict.accept ch.vacate [ch.recordWithTag env.id env.clock tag .orderReleased]
  | .closed => Verdict.accept ch.vacate []
  | .closing => Verdict.refuse ch .busy
  | .vacant | .ramp | .hold | .parked => Verdict.refuse ch .state

/-- A known command, handed to the channel controller (R58). -/
def Channel.command (ch : Channel) (env : CommandEnv) (big : Bool) (cmd : Command) (tag : Byte) (arg : Half) : Verdict :=
  match cmd with
  | .load => ch.cmdLoad env big tag
  | .start => ch.cmdStart env tag
  | .retarget => ch.cmdRetarget tag arg.toNat
  | .extend => ch.cmdExtend env tag arg.toNat
  | .park => ch.cmdPark env tag
  | .resume => ch.cmdResume env tag
  | .close => ch.cmdClose env tag
  | .release => ch.cmdRelease env tag

end Sys2Proof.Machine
end

