-- ==== Sys2Proof/Machine/OrderCapture.lean ====
section
/-! DEFINITION. The order captures (R52 to R61, R68, R70): what an accepted write of an ORDER page does to the staged
image, the result word, the channel and the posted write queue. -/

namespace Sys2Proof.Machine

/-- The field as the commands of a channel find it: each stop line accepted as asserted and not masked for the channel,
the permit, the gauges (R76, R92, R138). -/
def State.fieldView (s : State) (c : ChanId) : FieldView :=
  { stopA := s.field.stopA.accepted && !s.status.maskA.getLsbD c.val
    stopB := s.field.stopB.accepted && !s.status.maskB.getLsbD c.val
    permit := s.field.permits[c].accepted
    gauges := s.field.gauges }

/-- What a command of a channel is judged with. -/
def State.commandEnv (s : State) (c : ChanId) : CommandEnv :=
  { id := c, clock := s.status.clock, setup := s.loader.setup, view := s.fieldView c }

/-- An accepted write of an ORDER page as the order capture sees it: the entry's channel, the address as the processor
gave it, the enables, the data, and whether the page's byte order is big-endian (R12, R57). -/
structure OrderWrite where
  chan : ChanId
  addr : Addr
  be   : Lanes
  data : Word
  big  : Bool
  deriving DecidableEq, Repr

/-- The write placed in the queue with the given data and enables (R26). -/
def State.queueOrder (s : State) (w : OrderWrite) (data : Word) (be : Lanes) : State :=
  s.enqueue { addr := windowMemAddr w.addr, data := data, be := be, origin := .order w.chan }

/-- The write placed in the queue as written (R26). -/
def State.queueAsWritten (s : State) (w : OrderWrite) : State := s.queueOrder w w.data w.be

/-- The staged image with the enabled bytes of a word of the order area taken from a write (R54). -/
def Channel.capture (ch : Channel) (offset : Nat) (be : Lanes) (data : Word) : Channel :=
  let k := (offset - 8) / 4
  if h : k < 18 then { ch with image := ch.image.set k (mergeBits (laneMask be) ch.image[k] data) } else ch

/-- A write of the order area (R54). -/
def State.captureArea (s : State) (w : OrderWrite) : State :=
  (s.mapChan w.chan (fun ch => ch.capture (offsetOf w.addr) w.be w.data)).queueAsWritten w

/-- The result word's latched fields set at an order-word write (R59). -/
def Channel.latch (ch : Channel) (code tag : Byte) (outcome : OrderOutcome) (reason : Reason) : Channel :=
  { ch with result := { code := code, tag := tag, outcome := outcome, reason := reason } }

/-- The ORDER_REFUSED record of a refusal (R61). -/
def State.refusal (s : State) (c : ChanId) (code tag : Byte) (arg : Half) (reason : Reason) : Record :=
  (s.chan c).recordWithTag c s.status.clock tag (.orderRefused code arg reason)

/-- An order word with fewer than four enables (R56): kept out, REFUSE, the refusal with code, tag and argument 0. -/
def State.orderWidth (s : State) (w : OrderWrite) : State :=
  let s := s.mapChan w.chan (fun ch => ch.latch 0 0 .refused .width)
  (s.raise .refuse w.addr).stage (s.refusal w.chan 0 0 0 .width)

/-- An order word with an unknown code (R57): queued as written, no flag. -/
def State.orderUnknown (s : State) (w : OrderWrite) (code tag : Byte) (arg : Half) : State :=
  let s := s.mapChan w.chan (fun ch => ch.latch code tag .refused .unknown)
  (s.stage (s.refusal w.chan code tag arg .unknown)).queueAsWritten w

/-- What becomes of an order word in memory and which flag it raises (R58, R61). -/
inductive Disposal
  /-- queued as written, no flag -/
  | asWritten
  /-- RETARGET above the Pmax of a loaded stage: queued with Pmax in place of the argument, CLAMP (R68) -/
  | substituted (pmax : Nat)
  /-- EXTEND above the site cap ceiling: kept out, REFUSE (R70) -/
  | keptOut
  deriving DecidableEq, Repr

/-- The disposal of a known command's order word, from the channel before the command and the verdict. -/
def Channel.disposal (ch : Channel) (cmd : Command) (arg : Half) (v : Verdict) : Disposal :=
  match cmd with
  | .retarget => if ch.state ≠ .vacant ∧ ch.ctx.pmax < arg.toNat then .substituted ch.ctx.pmax else .asWritten
  | .extend => if v.reason = .capCeiling then .keptOut else .asWritten
  | _ => .asWritten

/-- A known command handed to its channel (R58): the verdict, the result word, the records, then what the order word
leaves in the queue and the flags. -/
def State.orderCommand (s : State) (w : OrderWrite) (cmd : Command) (tag : Byte) (arg : Half) : State :=
  let ch := s.chan w.chan
  let v := ch.command (s.commandEnv w.chan) w.big cmd tag arg
  let s := (s.setChan w.chan (v.chan.latch cmd.code tag v.outcome v.reason)).stageAll v.out
  let refused := v.outcome = .refused
  let news := s.refusal w.chan cmd.code tag arg v.reason
  match ch.disposal cmd arg v with
  | .asWritten => (if refused then s.stage news else s).queueAsWritten w
  | .keptOut => (s.raise .refuse w.addr).stage news
  | .substituted pmax =>
    (if refused then s.stageAndRaise news .clamp w.addr else s.raise .clamp w.addr).queueOrder w
      (inOrder w.big (orderValue cmd.code tag (half pmax))) 0xF

/-- A write of the order word (R56, R57, R58). -/
def State.orderWord (s : State) (w : OrderWrite) : State :=
  if w.be ≠ 0xF then s.orderWidth w
  else
    let v := inOrder w.big w.data
    match Command.ofCode (orderCode v) with
    | some cmd => s.orderCommand w cmd (orderTag v) (orderArg v)
    | none => s.orderUnknown w (orderCode v) (orderTag v) (orderArg v)

/-- An accepted write of an ORDER page, by the region it falls in (R52). -/
def State.orderWrite (s : State) (w : OrderWrite) : State :=
  let offset := offsetOf w.addr
  if offset = 0 then s.orderWord w
  else if offset = 4 then s.raise .owned w.addr
  else if offset < 0x50 then s.captureArea w
  else s.queueAsWritten w

end Sys2Proof.Machine
end

