-- ==== Sys2Proof/Machine/Pool.lean ====
section
/-! DEFINITION. The capture buffer pool (R141 to R153): finding, obtaining, filling, arming and freeing a buffer, and
the read of a SNAP page. -/

namespace Sys2Proof.Machine

/-- The key a buffer holds; absent in FREE (R141). -/
def Buffer.key? : Buffer → Option BufKey
  | .free => none
  | .armed k => some k
  | .filled k _ _ => some k

/-- The buffer is FILLED. -/
def Buffer.isFilled : Buffer → Bool
  | .filled _ _ _ => true
  | _ => false

/-- The buffer that holds a key; no two hold the same one (R141). -/
def Pool.holder (p : Pool) (k : BufKey) : Option (Fin 6) :=
  (List.finRange 6).find? (fun i => p.bufs[i].key? == some k)

/-- The buffer obtained for a new key: a FREE one (the lowest, log entry 17), else the head of the fill order, else
none (R144). -/
def Pool.obtain (p : Pool) : Option (Fin 6) :=
  match (List.finRange 6).find? (fun i => p.bufs[i] == .free) with
  | some i => some i
  | none => p.fillOrder.head?

/-- The buffer is left FREE, with no place in the fill order (8.4). -/
def Pool.release (p : Pool) (i : Fin 6) : Pool :=
  { bufs := p.bufs.set i .free, fillOrder := p.fillOrder.filter (· != i) }

/-- The buffer is ARMED for a key (R146). -/
def Pool.arm (p : Pool) (i : Fin 6) (k : BufKey) : Pool :=
  { bufs := p.bufs.set i (.armed k), fillOrder := p.fillOrder.filter (· != i) }

/-- The buffer is FILLED and joins the fill order at the newest end (R145). -/
def Pool.fill (p : Pool) (i : Fin 6) (k : BufKey) (stale : Bool) (snap : Vector Word 12) : Pool :=
  { bufs := p.bufs.set i (.filled k stale snap), fillOrder := p.fillOrder.filter (· != i) ++ [i] }

/-- The buffer's key names the channel. -/
def Buffer.isOf (b : Buffer) (c : ChanId) : Bool :=
  match b.key? with
  | some k => k.channel == c
  | none => false

/-- Every buffer whose key names the channel is freed, ARMED and FILLED alike (R149, R151). -/
def Pool.releaseChan (p : Pool) (c : ChanId) : Pool :=
  { bufs := mapVector (fun b => if b.isOf c then .free else b) p.bufs
    fillOrder := p.fillOrder.filter (fun i => !p.bufs[i].isOf c) }

/-- A pool operation on the block's pool. -/
def State.mapPool (s : State) (f : Pool → Pool) : State := { s with pool := f s.pool }

/-- The snapshot of a channel as it stands (R145, R147). -/
def State.snapshot (s : State) (c : ChanId) (stale : Bool) : Vector Word 12 :=
  (s.chan c).snapshot stale s.status.clock

/-- An ARMED buffer of the key is filled from the channel as it stands: by a sample arrival (R146) or by the arm
timeout, with the STALE mark (R147). With no ARMED buffer of the key nothing is filled. -/
def State.fillArmed (s : State) (k : BufKey) (stale : Bool) : State :=
  match s.pool.holder k with
  | some i => if s.pool.bufs[i] = .armed k then s.mapPool (·.fill i k stale (s.snapshot k.channel stale)) else s
  | none => s

/-- The expiry of a FILLED buffer (R150). -/
def State.expire (s : State) (k : BufKey) : State :=
  match s.pool.holder k with
  | some i => if s.pool.bufs[i].isFilled then s.mapPool (·.release i) else s
  | none => s

/-- The offset of the end word. -/
def endOffset : Nat := 0x2C

/-- The flush offset. -/
def flushOffset : Nat := 0xFFC

/-- A read as the pool takes it: the key, the offset, the enables and the byte order of the page. -/
structure SnapRead where
  key    : BufKey
  offset : Nat
  be     : Lanes
  big    : Bool
  deriving DecidableEq, Repr

/-- A FILLED buffer serves a word; the end word frees it (R143, R148). -/
def State.serve (s : State) (r : SnapRead) (i : Fin 6) (snap : Vector Word 12) : State :=
  let s := s.answer (.completeRead (presented r.big r.be ((snap[r.offset / 4]?).getD 0)))
  if r.offset = endOffset then s.mapPool (·.release i) else s

/-- A read of a snapshot word whose key has no buffer (R144 to R146). -/
def State.snapObtain (s : State) (r : SnapRead) : State :=
  match s.pool.obtain with
  | none => s.answer .retry
  | some i =>
    if r.key.fresh then (s.mapPool (·.arm i r.key)).answer .retry
    else
      let snap := s.snapshot r.key.channel false
      (s.mapPool (·.fill i r.key false snap)).serve r i snap

/-- A read of a snapshot word (R143, R144). -/
def State.snapWord (s : State) (r : SnapRead) : State :=
  match s.pool.holder r.key with
  | none => s.snapObtain r
  | some i =>
    match s.pool.bufs[i] with
    | .filled _ _ snap => s.serve r i snap
    | _ => s.answer .retry

/-- A read of a SNAP page, by offset (R142). -/
def State.snapRead (s : State) (r : SnapRead) : State :=
  if r.offset = flushOffset then (s.mapPool (·.releaseChan r.key.channel)).answer (.completeRead 0)
  else if 0x30 ≤ r.offset then s.answer (.completeRead 0)
  else s.snapWord r

end Sys2Proof.Machine
end

