-- ==== Sys2Proof/Machine/MapUnit.lean ====
section
/-! DEFINITION. The map unit (R34 to R51): lookup, miss, snoop, the fetcher and the placing of an entry. -/

namespace Sys2Proof.Machine

/-- The cached entry of a page (R38). -/
def MapUnit.entry? (m : MapUnit) (p : PageId) : Option CacheEntry := m.cache.find? (fun e => e.page == p)

/-- The cache without the entry of a page. -/
def MapUnit.without (m : MapUnit) (p : PageId) : List CacheEntry := m.cache.filter (fun e => e.page != p)

/-- How many cached entries are pinned (R42). -/
def MapUnit.pinnedCount (m : MapUnit) : Nat := m.cache.countP (·.pinned)

/-- A block's map unit changed. -/
def State.mapMap (s : State) (f : MapUnit → MapUnit) : State := { s with map := f s.map }

/-- A hit moves the entry to the most recently used end (R38). -/
def MapUnit.touch (m : MapUnit) (e : CacheEntry) : MapUnit := { m with cache := m.without e.page ++ [e] }

/-- A fetch starts (R40). -/
def MapUnit.startFetch (m : MapUnit) (p : PageId) : MapUnit :=
  { m with fetcher := { m.fetcher with phase := .first, page := p, stale := false } }

/-- A miss (R39, R46). -/
def State.miss (s : State) (p : PageId) : State :=
  if s.map.failed = some p then (s.mapMap (fun m => { m with failed := none })).answer .error
  else if s.map.fetcher.phase = .idle ∧ !s.mapWriteQueued then (s.mapMap (·.startFetch p)).answer .retry
  else s.answer .retry

/-- A read of the fetcher is outstanding on the memory port. -/
def State.fetchOutstanding (s : State) : Bool :=
  match s.mem with
  | some m => m.initiator == .fetch
  | none => false

/-- A fetch in flight is made stale; with no read outstanding it ends at once (R44). -/
def Fetcher.spoil (f : Fetcher) (outstanding : Bool) : Fetcher :=
  if f.phase = .idle then f
  else { f with stale := true, phase := if outstanding then f.phase else .idle }

/-- What the snoop of page p leaves of the map unit (R43). -/
def MapUnit.forget (m : MapUnit) (p : PageId) (outstanding : Bool) : MapUnit :=
  { cache := m.without p
    fetcher := if m.fetcher.page = p then m.fetcher.spoil outstanding else m.fetcher
    failed := if m.failed = some p then none else m.failed }

/-- The snoop of an accepted map-table write (R43). The removal of a cached SNAP entry frees its channel's buffers. -/
def State.snoop (s : State) (p : PageId) : State :=
  let s' := s.mapMap (·.forget p s.fetchOutstanding)
  match s.map.entry? p with
  | some e =>
    match e.role with
    | .snap c => s'.mapPool (·.releaseChan c)
    | _ => s'
  | none => s'

/-- The cache with room for one more entry: the least recently used entry that is not pinned leaves a full one (R41). -/
def MapUnit.makeRoom (m : MapUnit) : List CacheEntry :=
  if m.cache.length < 16 then m.cache else m.cache.eraseP (fun e => !e.pinned)

/-- The entry a completed fetch of page p places: resolved from word 0 (R35), pinned if it has PIN and fewer than 8
entries are pinned (R42). -/
def MapUnit.fetched (m : MapUnit) (p : PageId) (word0 : Word) : CacheEntry :=
  { page := p, role := resolveRole word0, attrs := resolveAttrs word0
    pinned := (resolveAttrs word0).pin && decide (m.pinnedCount < 8) }

/-- A completed fetch: the entry placed, the fetcher IDLE, PINFULL if a PIN entry is placed unpinned (R41, R42). -/
def State.placeEntry (s : State) : State :=
  let f := s.map.fetcher
  let e := s.map.fetched f.page f.word0
  let s' := s.mapMap (fun m => { m with cache := m.makeRoom ++ [e], fetcher := { f with phase := .idle } })
  if e.attrs.pin && !e.pinned then s'.raise .pinFull (s.loader.setup.entryAddr f.page) else s'

/-- A read of the fetch failed: MEMERR with the entry's address, then the MEMORY_ERROR record (R44, R45). -/
def State.fetchError (s : State) : State :=
  let a := s.loader.setup.entryAddr s.map.fetcher.page
  let s := s.raise .memErr a
  s.stage (s.blockRecord (.memoryError a none))

/-- The fetcher goes to a phase. -/
def State.fetchPhase (s : State) (p : FetchPhase) : State :=
  s.mapMap (fun m => { m with fetcher := { m.fetcher with phase := p } })

/-- The first read completes: word 0 is kept, the fetcher enters SECOND (R40). -/
def State.fetchFirstDone (s : State) (data : Word) : State :=
  s.mapMap (fun m => { m with fetcher := { m.fetcher with phase := .second, word0 := data } })

/-- A fetch fails (R45): the failure mark takes its page. -/
def State.fetchFail (s : State) : State :=
  (s.fetchPhase .idle).fetchError.mapMap (fun m => { m with failed := some s.map.fetcher.page })

/-- A stale fetch ends at the end of its outstanding read, placing nothing (R44). -/
def State.fetchStaleEnd (s : State) (failed : Bool) : State :=
  if failed then (s.fetchPhase .idle).fetchError else s.fetchPhase .idle

end Sys2Proof.Machine
end

