-- ==== Sys2Proof/Machine/RingWriter.lean ====
section
/-! DEFINITION. The ring writer (R159 to R167): when it asks for the memory port, what it writes, and what the end of
each of its accesses does. -/

namespace Sys2Proof.Machine

/-- The ring is full: (producer + 1) mod N equals the consumer copy (R159). -/
def Ring.full (r : Ring) (n : Nat) : Bool := (r.producer + 1) % n == r.copy

/-- The records the ring holds unconsumed (R159). -/
def Ring.unconsumed (r : Ring) (n : Nat) : Nat := (r.producer + n - r.copy) % n

/-- The writer has an access to make: a pending producer rewrite, or the next access of a publish (R161, R164). The
rewrite does not wait for room in the ring (log entry 14). -/
def Ring.wants (r : Ring) (n : Nat) : Bool :=
  !r.halted && (r.rewritePending || (!r.staging.isEmpty && !r.full n))

/-- A write of the ring writer: all four enables, in the setup byte order (R161, R185). -/
def State.ringWrite (s : State) (a : RingAccess) (addr : Addr) (value : Word) : MemAccess :=
  { initiator := .ring a false, addr := addr, be := 0xF, write := some (inOrder s.loader.setup.bigEndian value) }

/-- A grant of the ring writer (R161, R162, R164). At the grant of the producer word the producer advances. -/
def State.grantRing (s : State) : State :=
  let u := s.loader.setup
  let r := s.ring
  if r.rewritePending then
    { s with mem := some (s.ringWrite .rewrite u.producerAddr (BitVec.ofNat 32 r.producer)) }
  else
    match r.staging with
    | [] => s
    | head :: _ =>
      if h : r.next < 8 then
        { s with mem := some (s.ringWrite (.slotWord r.next) (u.slotAddr r.producer r.next)
            (head.words r.sequence)[r.next]) }
      else
        let p := (r.producer + 1) % u.ringSlots
        { s with
          mem := some (s.ringWrite (.producerWord r.producer) u.producerAddr (BitVec.ofNat 32 p))
          ring := { r with producer := p } }

/-- The consumer copy takes a value (R160). -/
def State.setConsumer (s : State) (v : Nat) : State := { s with ring := { s.ring with copy := v } }

/-- A slot write of the publish completes: the next access comes (R161). -/
def State.slotDone (s : State) (k : Nat) : State := { s with ring := { s.ring with next := k + 1 } }

/-- The head leaves the staging queue, and the earliest held close record takes the freed entry (R158, R162). -/
def Ring.removeHead (r : Ring) : Ring :=
  match r.held with
  | [] => { r with staging := r.staging.tail }
  | h :: rest => { r with staging := r.staging.tail ++ [h], held := rest }

/-- CLOSING goes to CLOSED at the publication of the close record (R88, R106); any other state is left (R88). -/
def Channel.published (ch : Channel) : Channel :=
  if ch.state = .closing then { ch with state := .closed, ctx := { ch.ctx with setpoint := 0 } } else ch

/-- The channel of a published close record goes to CLOSED (R162). -/
def State.closePublished (s : State) (r : Record) : State :=
  match r.isClose, r.channel with
  | true, some c => s.mapChan c Channel.published
  | _, _ => s

/-- The producer word of a publish completes (R162). -/
def State.publishDone (s : State) : State :=
  match s.ring.staging with
  | [] => s
  | head :: _ =>
    State.closePublished
      { s with ring := { s.ring.removeHead with sequence := s.ring.sequence + 1, next := 0 } } head

/-- The producer rewrite completes and publishing resumes (R164). -/
def State.rewriteDone (s : State) : State := { s with ring := { s.ring with rewritePending := false } }

/-- A failed producer word takes the producer back to its value before the grant (R163). -/
def RingAccess.undo (a : RingAccess) (r : Ring) : Ring :=
  match a with
  | .producerWord before => { r with producer := before }
  | .slotWord _ => r
  | .rewrite => r

/-- A ring access fails: MEMERR with its address, and the writer halts (R163), unless a restart abandoned the access
(R164). No record is staged. -/
def State.ringFailed (s : State) (a : RingAccess) (abandoned : Bool) (addr : Addr) : State :=
  if abandoned then s.raise .memErr addr
  else State.raise { s with ring := { a.undo s.ring with halted := true } } .memErr addr

/-- What a governor restart leaves of the staging queue and the ring writer (R164). -/
def Ring.restarted (r : Ring) : Ring :=
  { r with staging := [], held := [], halted := false, producer := r.copy, rewritePending := true, next := 0 }

/-- A ring access outstanding at a restart is abandoned (R164; log entry 15). -/
def MemAccess.abandon (m : MemAccess) : MemAccess :=
  match m.initiator with
  | .ring a _ => { m with initiator := .ring a true }
  | _ => m

end Sys2Proof.Machine
end

