-- ==== Sys2Proof/Machine/StatusUnit.lean ====
section
/-! DEFINITION. The writable words of a STATUS page and the governor restart (R127, R168, R171, R173, R174, 12.6). -/

namespace Sys2Proof.Machine

/-- The RESTART code (12.6). -/
def restartCode : Word := 0xC3A50F78

/-- A governor restart, block by block (R174 and the rules its table cites): the map unit emptied and its fetch stale
(R49), images and result words cleared (R71), every channel VACANT with its readings kept (R98), every buffer FREE
(R151), the ring writer as R164 says; the queue, the field and the status unit kept. -/
def Channel.restarted (ch : Channel) : Channel :=
  { ch.vacate with image := clearedImage, result := ResultLatch.cleared }

/-- The restart at its acceptance. -/
def State.restart (s : State) : State :=
  { s with
    mem := s.mem.map MemAccess.abandon
    map := { cache := [], fetcher := s.map.fetcher.spoil s.fetchOutstanding, failed := none }
    chans := mapVector Channel.restarted s.chans
    pool := Pool.empty
    ring := s.ring.restarted }

/-- The governor status word written (R171). -/
def State.writeStatusWord (s : State) (mask value : Word) : State :=
  { s with status := s.status.writeFlags mask value }

/-- The event filter mask written under a value mask (R173). -/
def State.writeFilterMask (s : State) (mask value : Word) : State :=
  { s with status := { s.status with
      filterMask := mergeBits (mask.extractLsb' 0 16) s.status.filterMask (value.extractLsb' 0 16) } }

/-- The ramp option table written under a value mask (R173). -/
def State.writeRampTable (s : State) (mask value : Word) : State :=
  { s with status := { s.status with
      rampTable := mergeBits (mask.extractLsb' 0 16) s.status.rampTable (value.extractLsb' 0 16) } }

/-- The channels whose mark a write takes from set to clear. -/
def clearedMarks (old new : Byte) : Byte := old &&& ~~~new

/-- The causes a write of the stop word raises for a channel; with both, a free value says which arises first
(R127; log entry 12). -/
def stopCauses (bFirst a b : Bool) : List Cause :=
  match a, b with
  | true, true => if bFirst then [.stopB, .stopA] else [.stopA, .stopB]
  | true, false => [.stopA]
  | false, true => [.stopB]
  | false, false => []

/-- The stop masks written under a value mask (R127, R173): a mark cleared while its line is accepted as asserted raises
the line's cause for that channel. -/
def State.writeStopMasks (s : State) (mask value : Word) : State :=
  let a := mergeBits (mask.extractLsb' 0 8) s.status.maskA (value.extractLsb' 0 8)
  let b := mergeBits (mask.extractLsb' 8 8) s.status.maskB (value.extractLsb' 8 8)
  let goneA := if s.field.stopA.accepted then clearedMarks s.status.maskA a else 0
  let goneB := if s.field.stopB.accepted then clearedMarks s.status.maskB b else 0
  State.eachChan { s with status := { s.status with maskA := a, maskB := b } } []
    (fun c ch => ch.parkEach c s.status.clock
      (stopCauses (Config.stopBFirst s.choices c) (goneA.getLsbD c.val) (goneB.getLsbD c.val)))

/-- A write of a STATUS page without WP (R14, R168, R171, R173, R174), in the byte order of the page. A word that
cannot be written, and a command word without the whole RESTART code, raise OWNED. -/
def State.statusWrite (s : State) (addr : Addr) (be : Lanes) (data : Word) (big : Bool) : State :=
  let mask := valueMask big be
  let value := inOrder big data
  match offsetOf addr with
  | 0x000 => s.writeStatusWord mask value
  | 0x008 => if be = 0xF ∧ value = restartCode then s.restart else s.raise .owned addr
  | 0x00C => s.writeFilterMask mask value
  | 0x010 => s.writeStopMasks mask value
  | 0x014 => s.writeRampTable mask value
  | _ => s.raise .owned addr

end Sys2Proof.Machine
end

