-- ==== Sys2Proof/Machine/Port.lean ====
section
/-! DEFINITION. The processor port and the access classifier (R1 to R18): one access taken, classified and answered. -/

namespace Sys2Proof.Machine

/-- A write the part keeps for itself: answered COMPLETE, OWNED with the access's address (R10 to R14). -/
def State.dropOwned (s : State) (addr : Addr) : State := (s.raise .owned addr).answer .completeWrite

/-- A read answered from memory: RETRY while the queue holds a write to the word (R7), else held (R6, R8). -/
def State.readMemory (s : State) (addr : Addr) (be : Lanes) (reversed : Bool) : State :=
  if s.queueNames addr then s.answer .retry else s.hold { addr := addr, be := be, reversed := reversed }

/-- A write that is to be queued: RETRY if the queue is full (R22), else accepted as its newest entry (R21). -/
def State.queueWrite (s : State) (e : QEntry) : State :=
  if s.queueFull then s.answer .retry else (s.enqueue e).answer .completeWrite

/-- Plain traffic (R6, R24). -/
def State.plainAccess (s : State) (a : Access) : State :=
  match a.write with
  | none => s.readMemory a.addr a.be false
  | some data => s.queueWrite { addr := a.addr, data := data, be := a.be, origin := .plain }

/-- Map-table traffic (R9): an accepted write is snooped at its acceptance. -/
def State.mapTableAccess (s : State) (a : Access) : State :=
  match a.write with
  | none => s.readMemory a.addr a.be false
  | some data =>
    if s.queueFull then s.answer .retry
    else
      ((s.enqueue { addr := a.addr, data := data, be := a.be, origin := .mapTable }).snoop
        (s.loader.setup.entryPage a.addr)).answer .completeWrite

/-- A write of the consumer word (R10). -/
def State.consumerWrite (s : State) (addr : Addr) (be : Lanes) (data : Word) : State :=
  let value := (inOrder s.loader.setup.bigEndian data).toNat
  if be ≠ 0xF ∨ s.loader.setup.ringSlots ≤ value then s.dropOwned addr
  else if s.queueFull then s.answer .retry
  else
    ((s.enqueue { addr := addr, data := data, be := be, origin := .ringHeader }).setConsumer value).answer
      .completeWrite

/-- Ring-header traffic (R10). -/
def State.ringHeaderAccess (s : State) (a : Access) : State :=
  match a.write with
  | none => s.readMemory a.addr a.be false
  | some data =>
    if a.addr = s.loader.setup.consumerAddr then s.consumerWrite a.addr a.be data else s.dropOwned a.addr

/-- An access to an INVALID page (R15). -/
def State.invalidAccess (s : State) (a : Access) : State :=
  let s := s.raise .mapFault a.addr
  (s.stage (s.blockRecord (.mapFault a.addr a.write.isSome))).answer .error

/-- An access to a PASS page (R11, R23, R25). -/
def State.passAccess (s : State) (a : Access) (t : Attrs) : State :=
  let be := if t.swap then reverseLanes a.be else a.be
  match a.write with
  | none => s.readMemory (windowMemAddr a.addr) be t.swap
  | some data =>
    if t.wp then s.dropOwned a.addr
    else if t.barrier && !s.queue.isEmpty then s.answer .retry
    else
      s.queueWrite
        { addr := windowMemAddr a.addr, data := if t.swap then byteSwap data else data, be := be, origin := .pass }

/-- An access to an ORDER page (R12, R23, R26). -/
def State.orderAccess (s : State) (a : Access) (c : ChanId) (t : Attrs) : State :=
  let big := s.pageOrder t.swap
  match a.write with
  | none =>
    if offsetOf a.addr = 4 then s.answer (.completeRead (presented big a.be (s.chan c).resultWord))
    else s.readMemory (windowMemAddr a.addr) a.be false
  | some data =>
    if t.wp then s.dropOwned a.addr
    else if s.queueFull || (t.barrier && !s.queue.isEmpty) then s.answer .retry
    else (s.orderWrite { chan := c, addr := a.addr, be := a.be, data := data, big := big }).answer .completeWrite

/-- An access to a SNAP page (R13). -/
def State.snapAccess (s : State) (a : Access) (c : ChanId) (t : Attrs) : State :=
  match a.write with
  | none =>
    s.snapRead
      { key := { channel := c, fresh := freshOf a.addr }, offset := offsetOf a.addr, be := a.be
        big := s.pageOrder t.swap }
  | some _ => s.dropOwned a.addr

/-- An access to a STATUS page (R14). -/
def State.statusAccess (s : State) (a : Access) (t : Attrs) : State :=
  let big := s.pageOrder t.swap
  match a.write with
  | none => s.answer (.completeRead (presented big a.be (s.statusWord (offsetOf a.addr))))
  | some data =>
    if t.wp then s.dropOwned a.addr else (s.statusWrite a.addr a.be data big).answer .completeWrite

/-- A window access that hits, by the role of its entry (R5). -/
def State.pageAccess (s : State) (a : Access) (e : CacheEntry) : State :=
  match e.role with
  | .invalid => s.invalidAccess a
  | .pass => s.passAccess a e.attrs
  | .order c => s.orderAccess a c e.attrs
  | .snap c => s.snapAccess a c e.attrs
  | .status => s.statusAccess a e.attrs

/-- A window access: the lookup of its page, the hit's move in the use order whatever becomes of the access (R38), or
the miss (R39). -/
def State.windowAccess (s : State) (a : Access) : State :=
  match s.map.entry? (pageOf a.addr) with
  | none => s.miss (pageOf a.addr)
  | some e => (s.mapMap (·.touch e)).pageAccess a e

/-- The classes of access (R5). -/
inductive AccessClass
  | window
  | mapTable
  | ringHeader
  | plain
  deriving DecidableEq, Repr

/-- The class of an address while RUNNING, the first test that holds (R5). -/
def Setup.classify (u : Setup) (a : Addr) : AccessClass :=
  if u.inWindow a then .window
  else if u.inMapTable a then .mapTable
  else if a = u.producerAddr ∨ a = u.consumerAddr then .ringHeader
  else .plain

/-- An access classified while RUNNING (R5). -/
def State.classified (s : State) (a : Access) : State :=
  match s.loader.setup.classify a.addr with
  | .window => s.windowAccess a
  | .mapTable => s.mapTableAccess a
  | .ringHeader => s.ringHeaderAccess a
  | .plain => s.plainAccess a

/-- The processor port takes an access, its address already a word address: RETRY in LOADING (R17), ERROR with no
enable (R1), plain in SAFE_PASS (R18), classified in RUNNING (R5). -/
def State.take (s : State) (a : Access) : State :=
  match s.loader.mode with
  | .loading => s.answer .retry
  | .safePass => if a.be = 0 then s.answer .error else s.plainAccess a
  | .running => if a.be = 0 then s.answer .error else s.classified a

/-- A processor access. While a read is held the port carries nothing else, and the access is not taken (R1; log entry
2). The port has no address bits 1 and 0 (log entry 30). -/
def State.access (s : State) (a : Access) : State :=
  if s.port.held.isSome then s else s.take { a with addr := wordAddr a.addr }

/-- The byte order of the page an address lies in, as the cached entry gives it; the setup byte order where there is
none. It is the order in which a command word given by its fields is laid out on the lanes (R57; log entry 25). -/
def State.orderAt (s : State) (addr : Addr) : Bool :=
  match s.map.entry? (pageOf addr) with
  | some e => s.pageOrder e.attrs.swap
  | none => s.pageOrder false

/-- A write of a whole command word given as a value (R57, R174). -/
def State.accessValue (s : State) (addr : Addr) (value : Word) : State :=
  s.access { addr := addr, be := 0xF, write := some (inOrder (s.orderAt addr) value) }

end Sys2Proof.Machine
end

