-- ==== Sys2Proof/Machine/BusRows.lean ====
section
/-! DEFINITION. The rows of plain, map-table, ring-header, PASS and INVALID traffic, and of the accesses answered before
classification. The part classifies each access itself (R5), whatever row it came under (log entry 1). -/

namespace Sys2Proof.Machine

/-- LOADING_ACCESS (R17). -/
def execLoadingAccess (a : Access) (s : State) : Host.Outcome State Fault Refusal :=
  .next (s.access a)

/-- NO_ENABLE_ACCESS (R1). -/
def execNoEnableAccess (addr : Addr) (write : Option Word) (s : State) : Host.Outcome State Fault Refusal :=
  .next (s.access { addr := addr, be := 0, write := write })

/-- PLAIN_READ (R6, R7, R18). -/
def execPlainRead (addr : Addr) (be : Lanes) (s : State) : Host.Outcome State Fault Refusal :=
  .next (s.access { addr := addr, be := be, write := none })

/-- MAP_TABLE_READ (R9, R7). -/
def execMapTableRead (addr : Addr) (be : Lanes) (s : State) : Host.Outcome State Fault Refusal :=
  .next (s.access { addr := addr, be := be, write := none })

/-- RING_HEADER_READ (R10, R7). -/
def execRingHeaderRead (addr : Addr) (be : Lanes) (s : State) : Host.Outcome State Fault Refusal :=
  .next (s.access { addr := addr, be := be, write := none })

/-- PASS_READ (R11, R7). -/
def execPassRead (addr : Addr) (be : Lanes) (s : State) : Host.Outcome State Fault Refusal :=
  .next (s.access { addr := addr, be := be, write := none })

/-- PLAIN_WRITE (R6, R21, R22, R24). -/
def execPlainWrite (addr : Addr) (be : Lanes) (data : Word) (s : State) : Host.Outcome State Fault Refusal :=
  .next (s.access { addr := addr, be := be, write := some data })

/-- MAP_TABLE_WRITE (R9, R43). -/
def execMapTableWrite (addr : Addr) (be : Lanes) (data : Word) (s : State) : Host.Outcome State Fault Refusal :=
  .next (s.access { addr := addr, be := be, write := some data })

/-- PRODUCER_WORD_WRITE (R10). -/
def execProducerWordWrite (addr : Addr) (be : Lanes) (data : Word) (s : State) : Host.Outcome State Fault Refusal :=
  .next (s.access { addr := addr, be := be, write := some data })

/-- CONSUMER_WORD_WRITE (R10, R160). -/
def execConsumerWordWrite (addr : Addr) (be : Lanes) (data : Word) (s : State) : Host.Outcome State Fault Refusal :=
  .next (s.access { addr := addr, be := be, write := some data })

/-- PASS_WRITE (R11, R23, R25). -/
def execPassWrite (addr : Addr) (be : Lanes) (data : Word) (s : State) : Host.Outcome State Fault Refusal :=
  .next (s.access { addr := addr, be := be, write := some data })

/-- INVALID_PAGE_ACCESS (R15). -/
def execInvalidPageAccess (a : Access) (s : State) : Host.Outcome State Fault Refusal :=
  .next (s.access a)

end Sys2Proof.Machine
end

