-- ==== Sys2Proof/Machine/SampleWork.lean ====
section
/-! DEFINITION. The work a channel does at one sample arrival (R85, R94, R100 to R122, R130): its readings, then the
stage work of its state. -/

namespace Sys2Proof.Machine

/-- What a channel sees of the rest of the part at a sample arrival: its number, the governor clock, its auto-park
enable (R122), and the rise of the rate in its ramp slot (R111 to R113). -/
structure SampleEnv where
  id       : ChanId
  clock    : Word
  autoPark : Bool
  rise     : Nat
  deriving DecidableEq, Repr

/-- A sample that is not LOS. -/
def isGood (smp : Sample) : Bool :=
  match smp.loop with
  | .good _ => true
  | .los => false

/-- The pulses of a sample, more than 255 counted as 255 (R100). -/
def countedPulses (smp : Sample) : Nat := min smp.pulses 255

/-! ### Step 1: measurements -/

/-- The readings brought up to date (R100, R102, R103). A pressure above the span is delivered as 8000 kPa. -/
def Readings.update (r : Readings) (smp : Sample) : Readings :=
  let window := r.window.drop 1 ++ [countedPulses smp]
  let r' := { r with
    sampled := true
    window := window
    flow := min (60 * window.sum) 6000
    sequence := r.sequence + 1 }
  match smp.loop with
  | .good p => { r' with measured := min p 8000, los := false }
  | .los => { r' with los := true, losCount := if r.los then min (r.losCount + 1) 65535 else 1 }

/-- LOS_BEGIN with the flag LOS when the LOS mark sets, LOS_END when it clears (R130), in every state. -/
def Channel.losNews (ch : Channel) (env : SampleEnv) (smp : Sample) : List Effect :=
  let r := ch.readings.update smp
  if r.los && !ch.readings.los then
    [.news (ch.record env.id env.clock (.losBegin ch.state ch.readings.measured)) .los (fieldAddr env.id)]
  else if !r.los && ch.readings.los then
    [.stage (ch.record env.id env.clock (.losEnd ch.state r.measured ch.readings.losCount))]
  else []

/-- Pulses added to take, which stops at 4,294,967,295; specific take follows (R104). -/
def Context.countTake (x : Context) (pulses : Nat) : Context :=
  let take := min (x.take + pulses) 4294967295
  { x with take := take, specificTake := take * 10 / x.length }

/-- Take, elapsed, peak, overpressure run and LOS run at a sample arrival taken in RAMP, HOLD or PARKED
(R104, R105, R118, R121, R122). -/
def Context.measure (x : Context) (autoPark good : Bool) (measured pulses : Nat) : Context :=
  let x := x.countTake pulses
  let x := { x with elapsed := min (x.elapsed + 1) 4294967295 }
  if good then
    { x with
      peak := max x.peak measured
      overRun := if x.pmax < measured then min (x.overRun + 1) 3 else 0
      losRun := 0 }
  else { x with losRun := if autoPark then x.losRun else min (x.losRun + 1) 20 }

/-- OVERPRESSURE and the flag OVERPRESS at the first sample of an overpressure run (R119). -/
def Channel.overNews (ch : Channel) (env : SampleEnv) (after : Context) (measured : Nat) : List Effect :=
  if ch.ctx.overRun = 0 ∧ after.overRun = 1 then
    [.news (ch.record env.id env.clock (.overpressure measured after.pmax ch.state)) .overPress (fieldAddr env.id)]
  else []

/-! ### Step 2: permitted setpoint -/

/-- The current step of the schedule. -/
def Context.currentStep (x : Context) : SchedStep := (x.steps[x.stepIndex]?).getD { pressure := 0, hold := 0 }

/-- The current step is the last of the schedule. -/
def Context.onLastStep (x : Context) : Bool := decide (x.steps.length ≤ x.stepIndex + 1)

/-- The curve constant GIN x 100 x length (R107). -/
def Context.curve (x : Context) : Nat := x.gin * 100 * x.length

/-- Pgin at the present take (R107). -/
def Context.pginNow (x : Context) : Nat := x.curve / x.take

/-- The ramp ceiling after its rise in RAMP (R115). -/
def Context.risenCeiling (x : Context) (rise : Nat) : Nat :=
  if x.pmax ≤ x.ceiling then x.ceiling else min (x.ceiling + rise) x.pmax

/-- The hold target: the least of the step pressure, Pmax, and Pgin when take is above 0 (R78, R106). -/
def Context.targetNow (x : Context) : Nat :=
  let base := min x.currentStep.pressure x.pmax
  if 0 < x.take then min base x.pginNow else base

/-- The ramp ceiling, the permitted setpoint, the hold target and Pgin at a good sample arrival in RAMP or HOLD
(R106, R107, R115). -/
def Context.setpoints (x : Context) (inRamp : Bool) (rise : Nat) : Context :=
  let ceiling := if inRamp then x.risenCeiling rise else x.ceiling
  { x with
    ceiling := ceiling
    pgin := if 0 < x.take then x.pginNow else x.pgin
    holdTarget := x.targetNow
    setpoint := if inRamp then min x.targetNow ceiling else x.targetNow }

/-- Pgin is in force, at or below every other term in force, and below the step pressure (R108). -/
def Context.curveGoverns (x : Context) (inRamp : Bool) : Bool :=
  decide (0 < x.take) && decide (x.pginNow ≤ x.pmax) && decide (x.pginNow < x.currentStep.pressure) &&
    (!inRamp || decide (x.pginNow ≤ x.ceiling))

/-- The GIN-limited mark is set for the first time in the stage (R108). -/
def Context.ginBegins (x : Context) (inRamp : Bool) : Bool := !x.ginLimited && x.curveGoverns inRamp

/-! ### Step 3: the counts of a hold -/

/-- The step time, and on the last step the refusal count, at a good sample arrival taken in HOLD (R79, R82). -/
def Context.countHold (x : Context) (flow : Nat) : Context :=
  { x with
    stepTime := x.stepTime + 1
    refusalCount :=
      if x.onLastStep then (if flow ≤ x.qref then x.refusalCount + 1 else 0) else x.refusalCount }

/-! ### Steps 4 and 5: close and park conditions -/

/-- The close reason met at a sample arrival taken in RAMP or HOLD, the first in the order CAP, GIN, REFUSAL, SCHEDULE
(R81, R82, R83, R84, R109, R110). -/
def Context.closeMet (x : Context) (inHold good : Bool) (measured : Nat) : Option CloseReason :=
  if x.cap ≤ x.take then some .cap
  else if good && decide (0 < x.take) && decide (x.curve ≤ measured * x.take) then some .gin
  else if good && inHold && x.onLastStep && decide (x.tref * 10 ≤ x.refusalCount) then some .refusal
  else if good && inHold && x.onLastStep && decide (0 < x.currentStep.hold) &&
      decide (x.currentStep.hold * 10 ≤ x.stepTime) then some .schedule
  else none

/-- The park cause the sample itself raises: the overpressure run reaching 3, LOS under auto-park, or the LOS run
reaching 20 without it (R118, R121, R122; log entry 13). -/
def parkMet (autoPark good : Bool) (before after : Context) : Option Cause :=
  if good then (if before.overRun < 3 ∧ after.overRun = 3 then some .overpressure else none)
  else if autoPark then some .los
  else if before.losRun < 20 ∧ after.losRun = 20 then some .los
  else none

/-! ### Steps 6 to 8: schedule and demand -/

/-- The step time is at or above the hold of a step that is not the last (R80). -/
def Context.advanceDue (x : Context) : Bool :=
  !x.onLastStep && decide (x.currentStep.hold * 10 ≤ x.stepTime)

/-- The step advance (R80): the next step, step time and refusal count 0, the ceiling from the measured pressure. -/
def Context.advance (x : Context) (measured : Nat) : Context :=
  { x with stepIndex := x.stepIndex + 1, stepTime := 0, refusalCount := 0, ceiling := measured }

/-- One step of the stroke demand toward the permitted setpoint (R116). -/
def steppedDemand (demand measured setpoint : Nat) : Nat :=
  if measured + 20 < setpoint then min (demand + 1) 63
  else if setpoint + 20 < measured then demand - 1
  else demand

/-- Where the schedule takes the stage: its state, its context, and whether it advanced a step. -/
structure Move where
  state    : ChState
  ctx      : Context
  advanced : Bool
  reached  : Bool
  deriving DecidableEq, Repr

/-- Steps 6 and 7 of R85 at a good sample arrival: the advance test in HOLD, or the HOLD test in RAMP with the advance
test that follows an entry to HOLD (R78, R80). -/
def Context.move (x : Context) (state : ChState) (measured : Nat) : Move :=
  if state = .hold then
    if x.advanceDue then { state := .ramp, ctx := x.advance measured, advanced := true, reached := false }
    else { state := .hold, ctx := x, advanced := false, reached := false }
  else if x.holdTarget ≤ measured + 20 then
    if x.advanceDue then { state := .ramp, ctx := x.advance measured, advanced := true, reached := true }
    else { state := .hold, ctx := x, advanced := false, reached := true }
  else { state := .ramp, ctx := x, advanced := false, reached := false }

/-- Steps 6 to 8 of R85, for a stage that neither closed nor parked. -/
def Channel.regulate (ch : Channel) (env : SampleEnv) (good : Bool) : Channel × List Effect :=
  let x := ch.ctx
  let measured := ch.readings.measured
  if good then
    let m := x.move ch.state measured
    let demand :=
      if x.pmax < measured then 0
      else if m.advanced then x.demand
      else steppedDemand x.demand measured x.setpoint
    ({ ch with state := m.state, ctx := { m.ctx with demand := demand } },
      if m.reached then [.stage (ch.record env.id env.clock (.stepReached x.stepIndex measured x.take))] else [])
  else ({ ch with ctx := { x with demand := 0 } }, [])

/-! ### The work by state -/

/-- A channel enters CLOSING and its record goes to the staging queue. -/
def Channel.closeNow (ch : Channel) (env : SampleEnv) (reason : CloseReason) : Channel × List Effect :=
  let (ch', r) := ch.enterClosing env.id env.clock reason
  (ch', [.stage r])

/-- A park cause of the sample itself. -/
def Channel.parkNow (ch : Channel) (env : SampleEnv) (cause : Cause) : Channel × List Effect :=
  let (ch', rs) := ch.park env.id env.clock cause
  (ch', rs.map .stage)

/-- Steps 2 and 3 of R85 in RAMP or HOLD: the setpoints, the GIN-limited mark, the counts of the hold. -/
def Context.judge (x : Context) (inRamp good : Bool) (rise flow : Nat) : Context :=
  if good then
    let x := x.setpoints inRamp rise
    let x := { x with ginLimited := x.ginLimited || x.ginBegins inRamp }
    if inRamp then x else x.countHold flow
  else x

/-- GIN_LIMIT_BEGIN at the sample arrival that sets the mark for the first time (R108). -/
def Channel.ginNews (ch : Channel) (env : SampleEnv) (measured : Context) (inRamp good : Bool) : List Effect :=
  let x := measured.setpoints inRamp env.rise
  if good && x.ginBegins inRamp then
    [.stage (ch.record env.id env.clock (.ginLimitBegin x.take x.pgin x.stepIndex))]
  else []

/-- A sample arrival taken in RAMP or HOLD, in the order of R85. The readings are already up to date. -/
def Channel.runSample (ch : Channel) (env : SampleEnv) (smp : Sample) : Channel × List Effect :=
  let inRamp := ch.state == .ramp
  let p := ch.readings.measured
  let x₁ := ch.ctx.measure env.autoPark (isGood smp) p (countedPulses smp)
  let x₃ := x₁.judge inRamp (isGood smp) env.rise ch.readings.flow
  let news := ch.overNews env x₁ p ++ ch.ginNews env x₁ inRamp (isGood smp)
  let (ch', out) :=
    match x₃.closeMet (!inRamp) (isGood smp) p with
    | some reason => ({ ch with ctx := x₃ } : Channel).closeNow env reason
    | none =>
      match parkMet env.autoPark (isGood smp) ch.ctx x₃ with
      | some cause => ({ ch with ctx := x₃ } : Channel).parkNow env cause
      | none => ({ ch with ctx := x₃ } : Channel).regulate env (isGood smp)
  (ch', news ++ out)

/-- A sample arrival taken in PARKED (R94): the measurements, CAP, then the park conditions of the sample. -/
def Channel.parkedSample (ch : Channel) (env : SampleEnv) (smp : Sample) : Channel × List Effect :=
  let p := ch.readings.measured
  let x₁ := ch.ctx.measure env.autoPark (isGood smp) p (countedPulses smp)
  let news := ch.overNews env x₁ p
  let (ch', out) :=
    if x₁.cap ≤ x₁.take then ({ ch with ctx := x₁ } : Channel).closeNow env .cap
    else
      match parkMet env.autoPark (isGood smp) ch.ctx x₁ with
      | some cause => ({ ch with ctx := x₁ } : Channel).parkNow env cause
      | none => ({ ch with ctx := x₁ }, [])
  (ch', news ++ out)

/-- The stage work of a sample arrival, by state (R101). -/
def Channel.stageWork (ch : Channel) (env : SampleEnv) (smp : Sample) : Channel × List Effect :=
  match ch.state with
  | .vacant | .armed | .closed => (ch, [])
  | .ramp | .hold => ch.runSample env smp
  | .parked => ch.parkedSample env smp
  | .closing => ({ ch with ctx := ch.ctx.countTake (countedPulses smp) }, [])

/-- A channel takes a sample arrival: its readings first, then the stage work of its state (R101). -/
def Channel.sample (ch : Channel) (env : SampleEnv) (smp : Sample) : Channel × List Effect :=
  let news := ch.losNews env smp
  let (ch', out) := ({ ch with readings := ch.readings.update smp } : Channel).stageWork env smp
  (ch', news ++ out)

end Sys2Proof.Machine
end

