-- ==== Sys2Proof/Machine/FieldUnit.lean ====
section
/-! DEFINITION. The field interface and what it hands to the channels (R123 to R136): lines and their debounce, gauges,
neighbour reports, and the sample arrival with what follows from it (R101). -/

namespace Sys2Proof.Machine

/-! ### Lines -/

/-- A line of the field. -/
def Field.line (f : Field) : FieldLine → Line
  | .stop .stopA => f.stopA
  | .stop .stopB => f.stopB
  | .permit c => f.permits[c]

/-- A line of the field replaced. -/
def Field.setLine (f : Field) (line : FieldLine) (l : Line) : Field :=
  match line with
  | .stop .stopA => { f with stopA := l }
  | .stop .stopB => { f with stopB := l }
  | .permit c => { f with permits := f.permits.set c l }

/-- A change of the raw level (R124): the timer starts again when the new level differs from the accepted one, and stops
when it comes back. While the part is held in reset the timer stays stopped (R123, R178). A level that is not new is no
change (log entry 36). -/
def Line.changeRaw (l : Line) (level inReset : Bool) : Line :=
  if l.raw = level then l else { l with raw := level, timer := !inReset && (level != l.accepted) }

/-- The timer at the release of reset (R124). -/
def Line.released (l : Line) : Line := { l with timer := l.raw != l.accepted }

/-- The timer runs out with a raw level that differs from the accepted one: the change is accepted (R124). -/
def Line.accepts (l : Line) : Bool := l.timer && (l.raw != l.accepted)

/-- The line after its timer has run out (R124). -/
def Line.expired (l : Line) : Line := if l.timer then { l with accepted := l.raw, timer := false } else l

/-- A raw level changes. -/
def State.changeRaw (s : State) (line : FieldLine) (level : Bool) : State :=
  { s with field := s.field.setLine line ((s.field.line line).changeRaw level s.loader.resetLine) }

/-- The mask of a stop line. -/
def Status.stopMask (u : Status) : StopLine → Byte
  | .stopA => u.maskA
  | .stopB => u.maskB

/-- The park cause of a stop line. -/
def stopCause : StopLine → Cause
  | .stopA => .stopA
  | .stopB => .stopB

/-- An accepted change of a stop line: STOP_CHANGE, and an assertion parks every unmasked stage (R125, R126). -/
def State.stopChanged (s : State) (l : StopLine) (level : Bool) : State :=
  let mask := s.status.stopMask l
  s.eachChan [s.blockRecord (.stopChange l level mask)]
    (fun c ch => if level && !mask.getLsbD c.val then ch.park c s.status.clock (stopCause l) else (ch, []))

/-- An accepted change of a permit line: PERMIT_CHANGE, and a withdrawal parks the channel's stage (R129). -/
def State.permitChanged (s : State) (p : ChanId) (level : Bool) : State :=
  s.eachChan [s.chanRecord p (.permitChange level)]
    (fun c ch => if c = p ∧ !level then ch.park c s.status.clock .permit else (ch, []))

/-- An accepted change handed on (R125, R126, R129). -/
def State.lineChanged (s : State) (line : FieldLine) (level : Bool) : State :=
  match line with
  | .stop l => s.stopChanged l level
  | .permit c => s.permitChanged c level

/-- A debounce timer runs out (R124). A change accepted outside RUNNING is handed to no channel and stages nothing
(R140). -/
def State.debounceExpired (s : State) (line : FieldLine) : State :=
  let l := s.field.line line
  let s' := { s with field := s.field.setLine line l.expired }
  if l.accepts && s.loader.mode == .running then s'.lineChanged line l.raw else s'

/-! ### Uplift gauges -/

/-- A gauge sample arrives (R131). -/
def Gauge.sample (g : Gauge) (reading : Half) (valid : Bool) : Gauge :=
  { reading := if valid then reading else g.reading, valid := valid, sampled := true }

/-- A channel takes a sample of the gauge its stage names (R132, R133). -/
def Channel.gaugeSample (ch : Channel) (c : ChanId) (clock : Word) (g : Gauge) : Channel × List Record :=
  match ch.state with
  | .ramp | .hold | .parked =>
    if g.valid then
      let uplift := ch.ctx.upliftOf g.reading.toNat
      let ch' := { ch with ctx := { ch.ctx with uplift := uplift } }
      if ch.ctx.upliftLimit ≤ uplift then ch'.park c clock .uplift else (ch', [])
    else ch.park c clock .uplift
  | .vacant | .armed | .closing | .closed => (ch, [])

/-- A gauge delivers a sample; none is taken outside RUNNING (R131, R140). -/
def State.gaugeSampled (s : State) (g : GaugeId) (reading : Half) (valid : Bool) : State :=
  if s.loader.mode = .running then
    let gauge := s.field.gauges[g].sample reading valid
    State.eachChan { s with field := { s.field with gauges := s.field.gauges.set g gauge } } []
      (fun c ch => if ch.ctx.gauge = g then ch.gaugeSample c s.status.clock gauge else (ch, []))
  else s

/-! ### Neighbour reports -/

/-- The report can trip a watch: a good sample taken in VACANT or ARMED (R134). -/
def Report.judged (r : Report) : Bool := !r.los && (r.state == .vacant || r.state == .armed)

/-- The report trips the entry (R134). -/
def Watch.trips (w : Watch) (r : Report) : Bool :=
  !w.tripped && w.channel == r.watched && decide (w.threshold ≤ r.measured)

/-- The COMMUNICATION records of the entries a report trips, in list order; `place` is the first entry's place, from 1
(R134, 12.7). -/
def Channel.tripRecords (ch : Channel) (c : ChanId) (clock : Word) (r : Report) : Nat → List Watch → List Record
  | _, [] => []
  | place, w :: ws =>
    (if w.trips r then [ch.record c clock (.communication place w.channel w.threshold r.measured w.action)] else []) ++
      ch.tripRecords c clock r (place + 1) ws

/-- A watching channel takes a report (R134). -/
def Channel.takeReport (ch : Channel) (c : ChanId) (clock : Word) (r : Report) : Channel × List Record :=
  match ch.state with
  | .ramp | .hold =>
    if r.judged then
      let ws := ch.ctx.watches
      let ch' := { ch with
        ctx := { ch.ctx with watches := ws.map (fun w => if w.trips r then { w with tripped := true } else w) } }
      let trips := ch.tripRecords c clock r 1 ws
      if ws.any (fun w => w.trips r && w.action == .park) then
        let (parked, out) := ch'.park c clock .communication
        (parked, trips ++ out)
      else (ch', trips)
    else (ch, [])
  | .vacant | .armed | .parked | .closing | .closed => (ch, [])

/-- The report is on its way from `watched` to `watcher`. -/
def Report.between (r : Report) (watched watcher : ChanId) : Bool := r.watched == watched && r.watcher == watcher

/-- A watching channel takes the oldest report from a watched one; with none on its way nothing happens. -/
def State.reportTaken (s : State) (watched watcher : ChanId) : State :=
  match s.field.reports.find? (·.between watched watcher) with
  | none => s
  | some r =>
    let (ch, out) := (s.chan watcher).takeReport watcher s.status.clock r
    State.stageAll
      (State.setChan { s with field := { s.field with reports := s.field.reports.eraseP (·.between watched watcher) } }
        watcher ch)
      out

/-! ### Sample arrivals -/

/-- What a channel's sample arrival is taken with: in pin mode the ramp slot is the level of the select lines, in bus
mode the stage's (R113). -/
def State.sampleEnv (s : State) (c : ChanId) (smp : Sample) : SampleEnv :=
  let slot := if s.loader.setup.pinMode then smp.rampSelect else (s.chan c).ctx.rampSlot
  { id := c, clock := s.status.clock, autoPark := s.loader.setup.autoPark.getLsbD c.val
    rise := rampRise (rampIndex s.status.rampTable slot) }

/-- The channel's stage watches `w`. -/
def Channel.watchesChan (ch : Channel) (w : ChanId) : Bool := ch.ctx.watches.any (fun e => e.channel == w)

/-- The neighbour reports of a sample arrival, one for each channel whose stage watches it (R101). -/
def State.handOn (s : State) (c : ChanId) : State :=
  let ch := s.chan c
  let watchers := (List.finRange 8).filter (fun k => (s.chan k).watchesChan c)
  let reports := watchers.map (fun k =>
    { watched := c, watcher := k, state := ch.state, measured := ch.readings.measured, los := ch.readings.los : Report })
  { s with field := { s.field with reports := s.field.reports ++ reports } }

/-- A sample arrival (R85, R101): the channel's own work, then the reports and the fill of an ARMED buffer of the
channel (R146). None is taken outside RUNNING (R100). -/
def State.sampled (s : State) (c : ChanId) (smp : Sample) : State :=
  if s.loader.mode = .running then
    let (ch, out) := (s.chan c).sample (s.sampleEnv c smp) smp
    (((s.setChan c ch).performAll out).handOn c).fillArmed { channel := c, fresh := true } false
  else s

end Sys2Proof.Machine
end

