-- ==== Sys2Proof/Machine/FieldRows.lean ====
section
/-! DEFINITION. The rows of the field and of the sample arrivals. -/

namespace Sys2Proof.Machine

/-- SAMPLE_ARRIVAL (R85, R101). -/
def execSampleArrival (c : ChanId) (smp : Sample) (s : State) : Host.Outcome State Fault Refusal :=
  .next (s.sampled c smp)

/-- NEIGHBOUR_REPORT (R134). -/
def execNeighbourReport (watched watcher : ChanId) (s : State) : Host.Outcome State Fault Refusal :=
  .next (s.reportTaken watched watcher)

/-- GAUGE_SAMPLE (R131 to R133). -/
def execGaugeSample (g : GaugeId) (reading : Half) (valid : Bool) (s : State) : Host.Outcome State Fault Refusal :=
  .next (s.gaugeSampled g reading valid)

/-- RAW_LINE_CHANGE (R124). -/
def execRawLineChange (line : FieldLine) (level : Bool) (s : State) : Host.Outcome State Fault Refusal :=
  .next (s.changeRaw line level)

/-- DEBOUNCE_EXPIRY (R124 to R129). -/
def execDebounceExpiry (line : FieldLine) (s : State) : Host.Outcome State Fault Refusal :=
  .next (s.debounceExpired line)

end Sys2Proof.Machine
end

