-- ==== Sys2Proof/Machine/MemoryPort.lean ====
section
/-! DEFINITION. The memory port and its arbiter (R2, R8, R16, R28, R29): grants, and the end of each access. -/

namespace Sys2Proof.Machine

/-! ### The arbiter -/

/-- The four requesters (R16). -/
inductive Requester
  | fetcher
  | ringWriter
  | queue
  | heldRead
  deriving DecidableEq, Repr

/-- The map fetcher has a read to make (3.3). -/
def State.fetchWants (s : State) : Bool := s.map.fetcher.phase != .idle

/-- The ring writer has an access to make. -/
def State.ringWants (s : State) : Bool := s.ring.wants s.loader.setup.ringSlots

/-- The first requester in the arbiter's order, with the counts read as they stand (R16). -/
def State.requester (s : State) : Option Requester :=
  if s.fetchWants then some .fetcher
  else if s.ringWants && decide (4 ≤ s.ring.staging.length) then some .ringWriter
  else if 6 ≤ s.queue.length then some .queue
  else if s.port.held.isSome then some .heldRead
  else if 1 ≤ s.queue.length then some .queue
  else if s.ringWants then some .ringWriter
  else none

/-- The read of the fetcher: word 0 in FIRST, word 1 in SECOND (R40). -/
def State.grantFetch (s : State) : State :=
  let f := s.map.fetcher
  let a := s.loader.setup.entryAddr f.page
  let read : MemAccess :=
    { initiator := .fetch, addr := if f.phase = .second then a + 4 else a, be := 0xF, write := none }
  { s with mem := some read }

/-- The drain of the head entry (R28). -/
def State.grantDrain (s : State) : State :=
  match s.queue with
  | [] => s
  | e :: _ => { s with mem := some { initiator := .drain, addr := e.addr, be := e.be, write := some e.data } }

/-- The memory read of the held read (R8). -/
def State.grantHeld (s : State) : State :=
  match s.port.held with
  | none => s
  | some h => { s with mem := some { initiator := .heldRead, addr := h.addr, be := h.be, write := none } }

/-- The grant of one requester. -/
def State.grantTo (s : State) : Requester → State
  | .fetcher => s.grantFetch
  | .ringWriter => s.grantRing
  | .queue => s.grantDrain
  | .heldRead => s.grantHeld

/-- The arbiter grants a free port to the first requester (R16); with the port busy or no request, nothing. -/
def State.grant (s : State) : State :=
  match s.mem, s.requester with
  | none, some r => s.grantTo r
  | _, _ => s

/-! ### The end of an access -/

/-- Who asked for the outstanding access. -/
def State.initiator? (s : State) : Option Initiator := s.mem.map (·.initiator)

/-- The outstanding access has ended: the port is free (R2). -/
def State.portFree (s : State) : State := { s with mem := none }

/-- The data of a held read as the processor gets it: lanes not enabled 0, reversed on a PASS page with SWAP (R8, R11). -/
def HeldRead.data (h : HeldRead) (data : Word) : Word :=
  let d := data &&& laneMask h.be
  if h.reversed then byteSwap d else d

/-- The held read is answered and let go (R8). -/
def State.answerHeld (s : State) (a : HeldRead → Answer) : State :=
  match s.port.held with
  | none => s
  | some h => { s with port := { held := none, answer := some (a h) } }

/-- The head entry leaves the queue (R28). -/
def State.popQueue (s : State) : State := { s with queue := s.queue.tail }

/-- The record of a lost write: with the channel of an ORDER entry (R29). -/
def State.drainRecord (s : State) (e : QEntry) : Record :=
  match e.origin with
  | .order c => s.chanRecord c (.memoryError e.addr (some e.origin))
  | o => s.blockRecord (.memoryError e.addr (some o))

/-- A drain fails (R29): the head removed, MEMERR, then MEMORY_ERROR. -/
def State.drainFailed (s : State) : State :=
  match s.queue with
  | [] => s
  | e :: _ =>
    let s := s.popQueue.raise .memErr e.addr
    s.stage (s.drainRecord e)

/-- A read of the fetcher completes. A stale fetch ends with it (R44); otherwise the first read is followed by the
second, and the second completes the fetch (R40). `first` says which of the two the answer is for. -/
def State.fetchRead (s : State) (first : Bool) (data : Word) : State :=
  if s.map.fetcher.stale then s.portFree.fetchStaleEnd false
  else if first && s.map.fetcher.phase == .first then s.portFree.fetchFirstDone data
  else if !first && s.map.fetcher.phase == .second then s.portFree.placeEntry
  else s

/-- A read of the fetcher fails (R44, R45). -/
def State.fetchReadFailed (s : State) : State :=
  if s.map.fetcher.stale then s.portFree.fetchStaleEnd true else s.portFree.fetchFail

/-- Memory answers COMPLETE to a held read (R8). -/
def State.memHeldDone (s : State) (data : Word) : State :=
  match s.initiator? with
  | some .heldRead => s.portFree.answerHeld (fun h => .completeRead (h.data data))
  | _ => s

/-- A held read ends with ERROR (R8): no flag. -/
def State.memHeldFailed (s : State) : State :=
  match s.initiator? with
  | some .heldRead => s.portFree.answerHeld (fun _ => .error)
  | _ => s

/-- A drain completes (R28). -/
def State.memDrainDone (s : State) : State :=
  match s.initiator? with
  | some .drain => s.portFree.popQueue
  | _ => s

/-- A drain ends with ERROR (R29). -/
def State.memDrainFailed (s : State) : State :=
  match s.initiator? with
  | some .drain => s.portFree.drainFailed
  | _ => s

/-- A read of the fetcher completes. -/
def State.memFetchDone (s : State) (first : Bool) (data : Word) : State :=
  match s.initiator? with
  | some .fetch => s.fetchRead first data
  | _ => s

/-- A read of the fetcher ends with ERROR. -/
def State.memFetchFailed (s : State) : State :=
  match s.initiator? with
  | some .fetch => s.fetchReadFailed
  | _ => s

/-- The outstanding read of a stale fetch ends (R44). -/
def State.memStaleEnd (s : State) (failed : Bool) : State :=
  match s.initiator? with
  | some .fetch => if s.map.fetcher.stale then s.portFree.fetchStaleEnd failed else s
  | _ => s

/-- A slot write completes; one abandoned by a restart does nothing more (R161, R164). -/
def State.memSlotDone (s : State) : State :=
  match s.initiator? with
  | some (.ring (.slotWord k) abandoned) => if abandoned then s.portFree else s.portFree.slotDone k
  | _ => s

/-- The producer word of a publish completes; one abandoned by a restart does nothing more (R162, R164). -/
def State.memProducerDone (s : State) : State :=
  match s.initiator? with
  | some (.ring (.producerWord _) abandoned) => if abandoned then s.portFree else s.portFree.publishDone
  | _ => s

/-- The producer rewrite completes; one outstanding at a second restart leaves the rewrite pending (R164, R174). -/
def State.memRewriteDone (s : State) : State :=
  match s.initiator? with
  | some (.ring .rewrite abandoned) => if abandoned then s.portFree else s.portFree.rewriteDone
  | _ => s

/-- A ring access ends with ERROR (R163, R164). -/
def State.memRingFailed (s : State) : State :=
  match s.mem with
  | some m =>
    match m.initiator with
    | .ring a abandoned => s.portFree.ringFailed a abandoned m.addr
    | _ => s
  | none => s

/-- 1 ms without an answer: the access is withdrawn and ends with ERROR for its initiator (R2). -/
def State.memTimeout (s : State) : State :=
  match s.initiator? with
  | some .heldRead => s.memHeldFailed
  | some .drain => s.memDrainFailed
  | some .fetch => s.memFetchFailed
  | some (.ring _ _) => s.memRingFailed
  | none => s

end Sys2Proof.Machine
end

