-- ==== Sys2Proof/Machine/MemoryRows.lean ====
section
/-! DEFINITION. The rows of the memory port. Each acts when the outstanding access is the one it names (log entry 3). -/

namespace Sys2Proof.Machine

/-- ARBITER_GRANT (R16). -/
def execArbiterGrant (s : State) : Host.Outcome State Fault Refusal :=
  .next (s.grant)

/-- MEMORY_TIMEOUT (R2). -/
def execMemoryTimeout (s : State) : Host.Outcome State Fault Refusal :=
  .next (s.memTimeout)

/-- HELD_READ_COMPLETE (R8). -/
def execHeldReadComplete (data : Word) (s : State) : Host.Outcome State Fault Refusal :=
  .next (s.memHeldDone data)

/-- HELD_READ_ERROR (R8). -/
def execHeldReadError (s : State) : Host.Outcome State Fault Refusal :=
  .next (s.memHeldFailed)

/-- DRAIN_COMPLETE (R28). -/
def execDrainComplete (s : State) : Host.Outcome State Fault Refusal :=
  .next (s.memDrainDone)

/-- DRAIN_ERROR (R29). -/
def execDrainError (s : State) : Host.Outcome State Fault Refusal :=
  .next (s.memDrainFailed)

/-- FETCH_FIRST_READ_COMPLETE (R40). -/
def execFetchFirstReadComplete (data : Word) (s : State) : Host.Outcome State Fault Refusal :=
  .next (s.memFetchDone true data)

/-- FETCH_COMPLETE (R40 to R42). -/
def execFetchComplete (data : Word) (s : State) : Host.Outcome State Fault Refusal :=
  .next (s.memFetchDone false data)

/-- FETCH_READ_ERROR (R45). -/
def execFetchReadError (s : State) : Host.Outcome State Fault Refusal :=
  .next (s.memFetchFailed)

/-- STALE_FETCH_END (R44). -/
def execStaleFetchEnd (failed : Bool) (s : State) : Host.Outcome State Fault Refusal :=
  .next (s.memStaleEnd failed)

/-- RING_SLOT_WRITE_COMPLETE (R161). -/
def execRingSlotWriteComplete (s : State) : Host.Outcome State Fault Refusal :=
  .next (s.memSlotDone)

/-- PRODUCER_WRITE_COMPLETE (R162, R88, R158). -/
def execProducerWriteComplete (s : State) : Host.Outcome State Fault Refusal :=
  .next (s.memProducerDone)

/-- RING_ACCESS_ERROR (R163, R164). -/
def execRingAccessError (s : State) : Host.Outcome State Fault Refusal :=
  .next (s.memRingFailed)

/-- PRODUCER_REWRITE_COMPLETE (R164). -/
def execProducerRewriteComplete (s : State) : Host.Outcome State Fault Refusal :=
  .next (s.memRewriteDone)

end Sys2Proof.Machine
end

