-- ==== Sys2Proof/Machine/OrderRows.lean ====
section
/-! DEFINITION. The rows of the ORDER pages. -/

namespace Sys2Proof.Machine

/-- ORDER_MEMORY_READ (R12). -/
def execOrderMemoryRead (addr : Addr) (be : Lanes) (s : State) : Host.Outcome State Fault Refusal :=
  .next (s.access { addr := addr, be := be, write := none })

/-- RESULT_WORD_READ (R12, R59). -/
def execResultWordRead (addr : Addr) (be : Lanes) (s : State) : Host.Outcome State Fault Refusal :=
  .next (s.access { addr := addr, be := be, write := none })

/-- ORDER_AREA_WRITE (R54). -/
def execOrderAreaWrite (addr : Addr) (be : Lanes) (data : Word) (s : State) : Host.Outcome State Fault Refusal :=
  .next (s.access { addr := addr, be := be, write := some data })

/-- PROGRAM_AREA_WRITE (R52). -/
def execProgramAreaWrite (addr : Addr) (be : Lanes) (data : Word) (s : State) : Host.Outcome State Fault Refusal :=
  .next (s.access { addr := addr, be := be, write := some data })

/-- RESULT_WORD_WRITE (R55). -/
def execResultWordWrite (addr : Addr) (be : Lanes) (data : Word) (s : State) : Host.Outcome State Fault Refusal :=
  .next (s.access { addr := addr, be := be, write := some data })

/-- ORDER_WRITE_PROTECTED (R12). -/
def execOrderWriteProtected (addr : Addr) (be : Lanes) (data : Word) (s : State) : Host.Outcome State Fault Refusal :=
  .next (s.access { addr := addr, be := be, write := some data })

/-- ORDER_WORD_WIDTH (R56). -/
def execOrderWordWidth (addr : Addr) (be : Lanes) (data : Word) (s : State) : Host.Outcome State Fault Refusal :=
  .next (s.access { addr := addr, be := be, write := some data })

/-- ORDER_WORD_UNKNOWN (R57). -/
def execOrderWordUnknown (addr : Addr) (code tag : Byte) (arg : Half) (s : State) : Host.Outcome State Fault Refusal :=
  .next (s.accessValue addr (orderValue code tag arg))

/-- LOAD (R62 to R66): the order word with this command, laid out in the page's byte order. -/
def execLoad (addr : Addr) (tag : Byte) (arg : Half) (s : State) : Host.Outcome State Fault Refusal :=
  .next (s.accessValue addr (orderValue Command.load.code tag arg))

/-- START (R76, R77): the order word with this command, laid out in the page's byte order. -/
def execStart (addr : Addr) (tag : Byte) (arg : Half) (s : State) : Host.Outcome State Fault Refusal :=
  .next (s.accessValue addr (orderValue Command.start.code tag arg))

/-- RETARGET (R67, R68): the order word with this command, laid out in the page's byte order. -/
def execRetarget (addr : Addr) (tag : Byte) (arg : Half) (s : State) : Host.Outcome State Fault Refusal :=
  .next (s.accessValue addr (orderValue Command.retarget.code tag arg))

/-- EXTEND (R69, R70): the order word with this command, laid out in the page's byte order. -/
def execExtend (addr : Addr) (tag : Byte) (arg : Half) (s : State) : Host.Outcome State Fault Refusal :=
  .next (s.accessValue addr (orderValue Command.extend.code tag arg))

/-- PARK (R91): the order word with this command, laid out in the page's byte order. -/
def execPark (addr : Addr) (tag : Byte) (arg : Half) (s : State) : Host.Outcome State Fault Refusal :=
  .next (s.accessValue addr (orderValue Command.park.code tag arg))

/-- RESUME (R92, R93, R138): the order word with this command, laid out in the page's byte order. -/
def execResume (addr : Addr) (tag : Byte) (arg : Half) (s : State) : Host.Outcome State Fault Refusal :=
  .next (s.accessValue addr (orderValue Command.resume.code tag arg))

/-- CLOSE (R89): the order word with this command, laid out in the page's byte order. -/
def execClose (addr : Addr) (tag : Byte) (arg : Half) (s : State) : Host.Outcome State Fault Refusal :=
  .next (s.accessValue addr (orderValue Command.close.code tag arg))

/-- RELEASE (R95): the order word with this command, laid out in the page's byte order. -/
def execRelease (addr : Addr) (tag : Byte) (arg : Half) (s : State) : Host.Outcome State Fault Refusal :=
  .next (s.accessValue addr (orderValue Command.release.code tag arg))

end Sys2Proof.Machine
end

