-- ==== Sys2Proof/Machine/SnapRows.lean ====
section
/-! DEFINITION. The rows of the SNAP pages and of the buffers' timers. -/

namespace Sys2Proof.Machine

/-- SNAP_WORD_READ (R143 to R146). -/
def execSnapWordRead (addr : Addr) (be : Lanes) (s : State) : Host.Outcome State Fault Refusal :=
  .next (s.access { addr := addr, be := be, write := none })

/-- SNAP_END_WORD_READ (R148). -/
def execSnapEndWordRead (addr : Addr) (be : Lanes) (s : State) : Host.Outcome State Fault Refusal :=
  .next (s.access { addr := addr, be := be, write := none })

/-- SNAP_FLUSH_READ (R149). -/
def execSnapFlushRead (addr : Addr) (be : Lanes) (s : State) : Host.Outcome State Fault Refusal :=
  .next (s.access { addr := addr, be := be, write := none })

/-- SNAP_WRITE (R13). -/
def execSnapWrite (addr : Addr) (be : Lanes) (data : Word) (s : State) : Host.Outcome State Fault Refusal :=
  .next (s.access { addr := addr, be := be, write := some data })

/-- ARM_TIMEOUT (R147): the ARMED buffer of the channel, which is keyed through the fresh address. -/
def execArmTimeout (c : ChanId) (s : State) : Host.Outcome State Fault Refusal :=
  .next (s.fillArmed { channel := c, fresh := true } true)

/-- BUFFER_EXPIRY (R150). -/
def execBufferExpiry (c : ChanId) (fresh : Bool) (s : State) : Host.Outcome State Fault Refusal :=
  .next (s.expire { channel := c, fresh := fresh })

end Sys2Proof.Machine
end

