-- ==== Sys2Proof/Machine/SetupLoader.lean ====
section
/-! DEFINITION. Reset, the setup loader and the governor clock (R176, R178 to R184). -/

namespace Sys2Proof.Machine

/-- The field interface with every value at reset but the raw levels, which are the pins' (R123, R178). -/
def Field.inReset (f : Field) : Field := Field.reset f.stopA.raw f.stopB.raw (mapVector (·.raw) f.permits)

/-- Power-on or the reset line (R178): every block at its reset values, a held read answered RETRY (R17), an outstanding
memory access withdrawn (R2). The commands that wait are outside the part and stay (log entry 5). -/
def State.assertReset (s : State) : State :=
  { State.reset with
    field := s.field.inReset
    port := { held := none, answer := if s.port.held.isSome then some .retry else none }
    choices := s.choices
    pending := s.pending }

/-- Every debounce timer at the release of reset (R124). -/
def Field.released (f : Field) : Field :=
  { f with stopA := f.stopA.released, stopB := f.stopB.released, permits := mapVector Line.released f.permits }

/-- The release of the reset line: the timers follow the lines and the loader begins its first read (R178, R179). -/
def State.releaseReset (s : State) : State :=
  if s.loader.resetLine then
    { s with
      loader := { s.loader with resetLine := false, phase := .reading, attempts := 1 }
      field := s.field.released }
  else s

/-- The loader is in LOADING at a phase. -/
def Loader.loadingIn (l : Loader) (p : ReadPhase) : Bool := l.mode == .loading && l.phase == p

/-- The loader goes to SAFE_PASS: the setup values keep their reset value (R184). -/
def State.enterSafePass (s : State) : State :=
  { s with loader := { s.loader with mode := .safePass, phase := .notBegun } }

/-- The loader goes to RUNNING with the values of a stream (R165, R176, R183). -/
def State.enterRunning (s : State) (u : Setup) : State :=
  { s with
    loader := { s.loader with mode := .running, phase := .notBegun, setup := u }
    status := { s.status with rampTable := u.rampSlots, clock := 0 }
    ring := { s.ring with rewritePending := true } }

/-- An attempt gets no acknowledge: a wait, or SAFE_PASS after the third (R179). -/
def State.noAck (s : State) : State :=
  if s.loader.loadingIn .reading then
    if 3 ≤ s.loader.attempts then s.enterSafePass else { s with loader := { s.loader with phase := .waiting } }
  else s

/-- The wait runs out: the read begins again (R179). -/
def State.retryRead (s : State) : State :=
  if s.loader.loadingIn .waiting then
    { s with loader := { s.loader with phase := .reading, attempts := s.loader.attempts + 1 } }
  else s

/-- The read completes with the bytes the memory drove, and the stream is tested (R179 to R184). -/
def State.readDone (s : State) (bytes : List Byte) : State :=
  if s.loader.loadingIn .reading then
    let b := streamBytes bytes
    if streamOk b then s.enterRunning (setupOf b) else s.enterSafePass
  else s

/-- The governor clock adds 1, wrapping, in RUNNING alone (R176). -/
def State.tick (s : State) : State :=
  if s.loader.mode = .running then { s with status := { s.status with clock := s.status.clock + 1 } } else s

end Sys2Proof.Machine
end

