-- ==== Sys2Proof/Machine/StartRows.lean ====
section
/-! DEFINITION. The rows of reset, setup and the clock. -/

namespace Sys2Proof.Machine

/-- RESET_ASSERT (R178, R17, R2): every block at its reset values. -/
def execResetAssert (s : State) : Host.Outcome State Fault Refusal :=
  .next (s.assertReset)

/-- RESET_RELEASE (R178, R124, R179). -/
def execResetRelease (s : State) : Host.Outcome State Fault Refusal :=
  .next (s.releaseReset)

/-- SETUP_READ_NO_ACK (R179, R184). -/
def execSetupReadNoAck (s : State) : Host.Outcome State Fault Refusal :=
  .next (s.noAck)

/-- SETUP_RETRY_WAIT_EXPIRY (R179). -/
def execSetupRetryWaitExpiry (s : State) : Host.Outcome State Fault Refusal :=
  .next (s.retryRead)

/-- SETUP_READ_COMPLETE (R180 to R184). -/
def execSetupReadComplete (bytes : List Byte) (s : State) : Host.Outcome State Fault Refusal :=
  .next (s.readDone bytes)

/-- GOVERNOR_CLOCK_TICK (R176). -/
def execGovernorClockTick (s : State) : Host.Outcome State Fault Refusal :=
  .next (s.tick)

end Sys2Proof.Machine
end

