-- ==== Sys2Proof/Machine/StatusRows.lean ====
section
/-! DEFINITION. The rows of the STATUS page. -/

namespace Sys2Proof.Machine

/-- STATUS_PAGE_READ (R14, R168, R175). -/
def execStatusPageRead (addr : Addr) (be : Lanes) (s : State) : Host.Outcome State Fault Refusal :=
  .next (s.access { addr := addr, be := be, write := none })

/-- GOVERNOR_STATUS_WRITE (R171). -/
def execGovernorStatusWrite (addr : Addr) (be : Lanes) (data : Word) (s : State) : Host.Outcome State Fault Refusal :=
  .next (s.access { addr := addr, be := be, write := some data })

/-- EVENT_FILTER_MASK_WRITE (R173, R156). -/
def execEventFilterMaskWrite (addr : Addr) (be : Lanes) (data : Word) (s : State) : Host.Outcome State Fault Refusal :=
  .next (s.access { addr := addr, be := be, write := some data })

/-- STOP_MASK_WRITE (R127, R173). -/
def execStopMaskWrite (addr : Addr) (be : Lanes) (data : Word) (s : State) : Host.Outcome State Fault Refusal :=
  .next (s.access { addr := addr, be := be, write := some data })

/-- RAMP_OPTION_TABLE_WRITE (R112, R173). -/
def execRampOptionTableWrite (addr : Addr) (be : Lanes) (data : Word) (s : State) : Host.Outcome State Fault Refusal :=
  .next (s.access { addr := addr, be := be, write := some data })

/-- STATUS_OTHER_WRITE (R14, R168, R174). -/
def execStatusOtherWrite (addr : Addr) (be : Lanes) (data : Word) (s : State) : Host.Outcome State Fault Refusal :=
  .next (s.access { addr := addr, be := be, write := some data })

/-- RESTART (R174): the RESTART code as a whole word, laid out in the page's byte order. -/
def execRestart (addr : Addr) (s : State) : Host.Outcome State Fault Refusal :=
  .next (s.accessValue addr restartCode)

end Sys2Proof.Machine
end

