-- ==== Sys2Proof/Machine/Dispatch.lean ====
section
/-! DEFINITION. The command dispatch: one arm for each row of spec/opcode_table.json. -/

namespace Sys2Proof.Machine

def exec (i : Instr) (s : State) : Host.Outcome State Fault Refusal :=
  match i with
  | .resetAssert => Sys2Proof.Machine.execResetAssert s
  | .resetRelease => Sys2Proof.Machine.execResetRelease s
  | .setupReadNoAck => Sys2Proof.Machine.execSetupReadNoAck s
  | .setupRetryWaitExpiry => Sys2Proof.Machine.execSetupRetryWaitExpiry s
  | .setupReadComplete bytes => Sys2Proof.Machine.execSetupReadComplete bytes s
  | .loadingAccess a => Sys2Proof.Machine.execLoadingAccess a s
  | .noEnableAccess addr write => Sys2Proof.Machine.execNoEnableAccess addr write s
  | .plainRead addr be => Sys2Proof.Machine.execPlainRead addr be s
  | .plainWrite addr be data => Sys2Proof.Machine.execPlainWrite addr be data s
  | .mapTableRead addr be => Sys2Proof.Machine.execMapTableRead addr be s
  | .mapTableWrite addr be data => Sys2Proof.Machine.execMapTableWrite addr be data s
  | .ringHeaderRead addr be => Sys2Proof.Machine.execRingHeaderRead addr be s
  | .producerWordWrite addr be data => Sys2Proof.Machine.execProducerWordWrite addr be data s
  | .consumerWordWrite addr be data => Sys2Proof.Machine.execConsumerWordWrite addr be data s
  | .passRead addr be => Sys2Proof.Machine.execPassRead addr be s
  | .passWrite addr be data => Sys2Proof.Machine.execPassWrite addr be data s
  | .invalidPageAccess a => Sys2Proof.Machine.execInvalidPageAccess a s
  | .orderMemoryRead addr be => Sys2Proof.Machine.execOrderMemoryRead addr be s
  | .orderAreaWrite addr be data => Sys2Proof.Machine.execOrderAreaWrite addr be data s
  | .programAreaWrite addr be data => Sys2Proof.Machine.execProgramAreaWrite addr be data s
  | .resultWordWrite addr be data => Sys2Proof.Machine.execResultWordWrite addr be data s
  | .orderWriteProtected addr be data => Sys2Proof.Machine.execOrderWriteProtected addr be data s
  | .orderWordWidth addr be data => Sys2Proof.Machine.execOrderWordWidth addr be data s
  | .orderWordUnknown addr code tag arg => Sys2Proof.Machine.execOrderWordUnknown addr code tag arg s
  | .load addr tag arg => Sys2Proof.Machine.execLoad addr tag arg s
  | .start addr tag arg => Sys2Proof.Machine.execStart addr tag arg s
  | .retarget addr tag arg => Sys2Proof.Machine.execRetarget addr tag arg s
  | .extend addr tag arg => Sys2Proof.Machine.execExtend addr tag arg s
  | .park addr tag arg => Sys2Proof.Machine.execPark addr tag arg s
  | .resume addr tag arg => Sys2Proof.Machine.execResume addr tag arg s
  | .close addr tag arg => Sys2Proof.Machine.execClose addr tag arg s
  | .release addr tag arg => Sys2Proof.Machine.execRelease addr tag arg s
  | .snapWordRead addr be => Sys2Proof.Machine.execSnapWordRead addr be s
  | .snapEndWordRead addr be => Sys2Proof.Machine.execSnapEndWordRead addr be s
  | .snapFlushRead addr be => Sys2Proof.Machine.execSnapFlushRead addr be s
  | .snapWrite addr be data => Sys2Proof.Machine.execSnapWrite addr be data s
  | .armTimeout c => Sys2Proof.Machine.execArmTimeout c s
  | .bufferExpiry c fresh => Sys2Proof.Machine.execBufferExpiry c fresh s
  | .governorStatusWrite addr be data => Sys2Proof.Machine.execGovernorStatusWrite addr be data s
  | .restart addr => Sys2Proof.Machine.execRestart addr s
  | .eventFilterMaskWrite addr be data => Sys2Proof.Machine.execEventFilterMaskWrite addr be data s
  | .stopMaskWrite addr be data => Sys2Proof.Machine.execStopMaskWrite addr be data s
  | .rampOptionTableWrite addr be data => Sys2Proof.Machine.execRampOptionTableWrite addr be data s
  | .statusOtherWrite addr be data => Sys2Proof.Machine.execStatusOtherWrite addr be data s
  | .arbiterGrant => Sys2Proof.Machine.execArbiterGrant s
  | .memoryTimeout => Sys2Proof.Machine.execMemoryTimeout s
  | .heldReadComplete data => Sys2Proof.Machine.execHeldReadComplete data s
  | .heldReadError => Sys2Proof.Machine.execHeldReadError s
  | .drainComplete => Sys2Proof.Machine.execDrainComplete s
  | .drainError => Sys2Proof.Machine.execDrainError s
  | .fetchFirstReadComplete data => Sys2Proof.Machine.execFetchFirstReadComplete data s
  | .fetchComplete data => Sys2Proof.Machine.execFetchComplete data s
  | .fetchReadError => Sys2Proof.Machine.execFetchReadError s
  | .staleFetchEnd failed => Sys2Proof.Machine.execStaleFetchEnd failed s
  | .ringSlotWriteComplete => Sys2Proof.Machine.execRingSlotWriteComplete s
  | .producerWriteComplete => Sys2Proof.Machine.execProducerWriteComplete s
  | .ringAccessError => Sys2Proof.Machine.execRingAccessError s
  | .producerRewriteComplete => Sys2Proof.Machine.execProducerRewriteComplete s
  | .sampleArrival c smp => Sys2Proof.Machine.execSampleArrival c smp s
  | .neighbourReport watched watcher => Sys2Proof.Machine.execNeighbourReport watched watcher s
  | .gaugeSample g reading valid => Sys2Proof.Machine.execGaugeSample g reading valid s
  | .rawLineChange line level => Sys2Proof.Machine.execRawLineChange line level s
  | .debounceExpiry line => Sys2Proof.Machine.execDebounceExpiry line s
  | .governorClockTick => Sys2Proof.Machine.execGovernorClockTick s
  | .resultWordRead addr be => Sys2Proof.Machine.execResultWordRead addr be s
  | .statusPageRead addr be => Sys2Proof.Machine.execStatusPageRead addr be s

end Sys2Proof.Machine
end

