-- ==== Sys2Proof/WellFormed.lean ====
section
/-! DEFINITION. Which commands are well formed: the operands that the row of a command admits, whatever the state of
the block is. The meanings are total, so an ill-formed command has an effect as well (the part classifies an access
itself, R5); this check says which commands a sender means by a row. -/

namespace Sys2Proof

/-- A word address (00_scope.md, Conventions). -/
def alignedAddr (a : Addr) : Bool := a.extractLsb' 0 2 == 0#2

/-- The access fields a sender gives: a word address and at least one byte enable (R1). -/
def accessFields (a : Addr) (be : Lanes) : Bool := alignedAddr a && be != 0#4

/-- A word address whose offset within its page satisfies `p` (R3). -/
def pageOffset (a : Addr) (p : Nat → Bool) : Bool := alignedAddr a && p (a.extractLsb' 0 12).toNat

/-- The well-formedness of a command, row by row. -/
def Instr.wf : Instr → Bool
  | .resetAssert => true
  | .resetRelease => true
  | .setupReadNoAck => true
  | .setupRetryWaitExpiry => true
  | .setupReadComplete bytes => decide (bytes.length ≤ 32)
  | .loadingAccess a => alignedAddr a.addr
  | .noEnableAccess addr _ => alignedAddr addr
  | .plainRead addr be => accessFields addr be
  | .plainWrite addr be _ => accessFields addr be
  | .mapTableRead addr be => accessFields addr be
  | .mapTableWrite addr be _ => accessFields addr be
  | .ringHeaderRead addr be => accessFields addr be
  | .producerWordWrite addr be _ => accessFields addr be
  | .consumerWordWrite addr be _ => accessFields addr be
  | .passRead addr be => accessFields addr be
  | .passWrite addr be _ => accessFields addr be
  | .invalidPageAccess a => accessFields a.addr a.be
  | .orderMemoryRead addr be => accessFields addr be && pageOffset addr (· != 4)
  | .orderAreaWrite addr be _ => accessFields addr be && pageOffset addr (fun o => 8 ≤ o && o < 0x50)
  | .programAreaWrite addr be _ => accessFields addr be && pageOffset addr (0x50 ≤ ·)
  | .resultWordWrite addr be _ => accessFields addr be && pageOffset addr (· == 4)
  | .orderWriteProtected addr be _ => accessFields addr be
  | .orderWordWidth addr be _ => accessFields addr be && be != 0xF#4 && pageOffset addr (· == 0)
  | .orderWordUnknown addr code _ _ => pageOffset addr (· == 0) && (code == 0#8 || decide (8 < code.toNat))
  | .load addr _ _ => pageOffset addr (· == 0)
  | .start addr _ _ => pageOffset addr (· == 0)
  | .retarget addr _ _ => pageOffset addr (· == 0)
  | .extend addr _ _ => pageOffset addr (· == 0)
  | .park addr _ _ => pageOffset addr (· == 0)
  | .resume addr _ _ => pageOffset addr (· == 0)
  | .close addr _ _ => pageOffset addr (· == 0)
  | .release addr _ _ => pageOffset addr (· == 0)
  | .snapWordRead addr be => accessFields addr be && pageOffset addr (fun o => o != 0x2C && o != 0xFFC)
  | .snapEndWordRead addr be => accessFields addr be && pageOffset addr (· == 0x2C)
  | .snapFlushRead addr be => accessFields addr be && pageOffset addr (· == 0xFFC)
  | .snapWrite addr be _ => accessFields addr be
  | .armTimeout _ => true
  | .bufferExpiry _ _ => true
  | .governorStatusWrite addr be _ => accessFields addr be && pageOffset addr (· == 0)
  | .restart addr => pageOffset addr (· == 8)
  | .eventFilterMaskWrite addr be _ => accessFields addr be && pageOffset addr (· == 0xC)
  | .stopMaskWrite addr be _ => accessFields addr be && pageOffset addr (· == 0x10)
  | .rampOptionTableWrite addr be _ => accessFields addr be && pageOffset addr (· == 0x14)
  | .statusOtherWrite addr be _ => accessFields addr be
  | .arbiterGrant => true
  | .memoryTimeout => true
  | .heldReadComplete _ => true
  | .heldReadError => true
  | .drainComplete => true
  | .drainError => true
  | .fetchFirstReadComplete _ => true
  | .fetchComplete _ => true
  | .fetchReadError => true
  | .staleFetchEnd _ => true
  | .ringSlotWriteComplete => true
  | .producerWriteComplete => true
  | .ringAccessError => true
  | .producerRewriteComplete => true
  | .sampleArrival _ _ => true
  | .neighbourReport watched watcher => watched != watcher
  | .gaugeSample _ _ _ => true
  | .rawLineChange _ _ => true
  | .debounceExpiry _ => true
  | .governorClockTick => true
  | .resultWordRead addr be => accessFields addr be && pageOffset addr (· == 4)
  | .statusPageRead addr be => accessFields addr be

end Sys2Proof
end

