-- ==== Sys2Proof/Safety.lean ====
section
/-! DEFINITION. What counts as a safe state, in the terms claims use: the invariants of each block that the spec states,
and the conditions under which an access is taken. -/

namespace Sys2Proof.Machine

/-! ### When an access is taken -/

/-- The part governs and the processor port is free. -/
def State.ready (s : State) : Prop := s.loader.mode = .running ∧ s.port.held = none

/-- A window access at a word address whose page's entry is cached (R3, R38). -/
def State.hits (s : State) (addr : Addr) (e : CacheEntry) : Prop :=
  s.ready ∧ alignedAddr addr ∧ s.loader.setup.inWindow addr ∧ s.map.entry? (pageOf addr) = some e

/-- A word address of one of the classes outside the window (R5). -/
def State.reaches (s : State) (addr : Addr) (k : AccessClass) : Prop :=
  s.ready ∧ alignedAddr addr ∧ s.loader.setup.classify addr = k

/-- A word address that is plain traffic: every one in SAFE_PASS, and one of no other class in RUNNING (R5, R18). -/
def State.reachesPlain (s : State) (addr : Addr) : Prop :=
  s.port.held = none ∧ alignedAddr addr ∧
    (s.loader.mode = .safePass ∨ s.loader.mode = .running ∧ s.loader.setup.classify addr = .plain)

/-- A window access at a word address whose page has no cached entry (R39). -/
def State.misses (s : State) (addr : Addr) : Prop :=
  s.ready ∧ alignedAddr addr ∧ s.loader.setup.inWindow addr ∧ s.map.entry? (pageOf addr) = none

/-- The state with entry `e` at the most recently used end of the use order (R38). -/
def State.used (s : State) (e : CacheEntry) : State :=
  { s with map := { s.map with cache := s.map.cache.filter (fun x => x.page != e.page) ++ [e] } }

/-- A write to an ORDER page of channel `c` that is accepted: its entry cached without WP, a free queue entry, and an
empty queue under BARRIER (R12, R21, R23). -/
def State.acceptsOrder (s : State) (addr : Addr) (e : CacheEntry) (c : ChanId) : Prop :=
  s.hits addr e ∧ e.role = .order c ∧ e.attrs.wp = false ∧ s.queue.length < 8 ∧ (e.attrs.barrier → s.queue = [])

/-- The access a row carries, for the rows that carry one as it stands. -/
def accessOf : Instr → Option Access
  | .loadingAccess a => some a
  | .noEnableAccess addr w => some { addr := addr, be := 0, write := w }
  | .plainRead addr be | .mapTableRead addr be | .ringHeaderRead addr be | .passRead addr be
  | .orderMemoryRead addr be | .snapWordRead addr be | .snapEndWordRead addr be | .snapFlushRead addr be
  | .resultWordRead addr be | .statusPageRead addr be => some { addr := addr, be := be, write := none }
  | .plainWrite addr be d | .mapTableWrite addr be d | .producerWordWrite addr be d | .consumerWordWrite addr be d
  | .passWrite addr be d | .orderAreaWrite addr be d | .programAreaWrite addr be d | .resultWordWrite addr be d
  | .orderWriteProtected addr be d | .orderWordWidth addr be d | .snapWrite addr be d | .governorStatusWrite addr be d
  | .eventFilterMaskWrite addr be d | .stopMaskWrite addr be d | .rampOptionTableWrite addr be d
  | .statusOtherWrite addr be d => some { addr := addr, be := be, write := some d }
  | .invalidPageAccess a => some a
  | _ => none

/-- The rows of the eight commands, as a row of the command, the address, the tag and the argument. -/
def orderRow (cmd : Command) (addr : Addr) (tag : Byte) (arg : Half) : Instr :=
  match cmd with
  | .load => .load addr tag arg
  | .start => .start addr tag arg
  | .retarget => .retarget addr tag arg
  | .extend => .extend addr tag arg
  | .park => .park addr tag arg
  | .resume => .resume addr tag arg
  | .close => .close addr tag arg
  | .release => .release addr tag arg

/-- An order word that is accepted at the order-word offset of a page of channel `c`. -/
def State.acceptsWord (s : State) (addr : Addr) (e : CacheEntry) (c : ChanId) : Prop :=
  s.acceptsOrder addr e c ∧ offsetOf addr = 0

/-- The queue entry of an order word as written: all four lanes, in the page's byte order (R26, R57). -/
def State.wordEntry (s : State) (addr : Addr) (e : CacheEntry) (c : ChanId) (code tag : Byte) (arg : Half) : QEntry :=
  { addr := windowMemAddr addr, data := inOrder (s.pageOrder e.attrs.swap) (orderValue code tag arg), be := 0xF
    origin := .order c }

/-- The reason for which a command is refused by its channel's state alone; none where the state takes it (R62, R67,
R69, R76, R89, R91, R92, R95). -/
def Command.refusedIn : Command → ChState → Option Reason
  | .load, .vacant => none
  | .load, _ => some .busy
  | .start, .armed => none
  | .retarget, .ramp | .retarget, .hold | .retarget, .parked => none
  | .extend, .armed | .extend, .ramp | .extend, .hold | .extend, .parked => none
  | .park, .ramp | .park, .hold | .park, .parked => none
  | .resume, .parked => none
  | .close, .ramp | .close, .hold | .close, .parked => none
  | .close, .closing | .release, .closing => some .busy
  | .release, .armed | .release, .closed => none
  | _, _ => some .state

/-- The ORDER_REFUSED record of a channel as it stands (R61). -/
def Channel.refusedRecord (ch : Channel) (c : ChanId) (clock : Word) (code tag : Byte) (arg : Half) (reason : Reason) :
    Record :=
  { channel := some c, tag := tag, clock := clock, hole := ch.ctx.hole, stageNo := ch.ctx.stageNo
    payload := .orderRefused code arg reason }

/-- A record of a channel's own event, with the stage's last tag (R60, R154). -/
def Context.ownRecord (x : Context) (c : ChanId) (clock : Word) (p : Payload) : Record :=
  { channel := some c, tag := x.lastTag, clock := clock, hole := x.hole, stageNo := x.stageNo, payload := p }

/-- A record that names no channel (R154). -/
def plainRecord (clock : Word) (p : Payload) : Record :=
  { channel := none, tag := 0, clock := clock, hole := 0, stageNo := 0, payload := p }

/-- A stage to which park causes arise, whatever their order: in RAMP or HOLD it parks with them; in PARKED the new ones
join the set and the causes seen; in any other state they do not act (R90). -/
def Channel.parkedBy (ch : Channel) (causes : Byte) : Channel :=
  if causes = 0 then ch
  else
    match ch.state with
    | .ramp | .hold =>
      { ch with
        state := .parked
        ctx := { ch.ctx with
          parkSet := causes
          causesSeen := ch.ctx.causesSeen ||| causes
          demand := 0
          setpoint := 0 } }
    | .parked =>
      { ch with
        ctx := { ch.ctx with
          parkSet := ch.ctx.parkSet ||| causes
          causesSeen := ch.ctx.causesSeen ||| (causes &&& ~~~ch.ctx.parkSet) } }
    | .vacant | .armed | .closing | .closed => ch

/-- `t` is `s` with these records offered to the staging queue, in an order the spec leaves open (R125; log entry 10). -/
def State.OffersIn (s t : State) (rs : List Record) : Prop :=
  ∃ (order : List Record) (n : Nat), order.Perm rs ∧ t = State.stageAll { s with choices := n } order

/-! ### Words by their fields -/

/-- The word that holds each value `v` of the list in bits `hi` to `lo`, given as (hi, lo, v), and 0 in every other bit
(R186). -/
def wordOf (fields : List (Nat × Nat × Nat)) : Word :=
  fields.foldr (fun f w => (BitVec.ofNat (f.1 + 1 - f.2.1) f.2.2).setWidth 32 <<< f.2.1 ||| w) 0

/-- The number in bits `hi` to `lo` of a word. -/
def bitsOf (w : Word) (hi lo : Nat) : Nat := w.toNat / 2 ^ lo % 2 ^ (hi + 1 - lo)

/-! ### Invariants -/

/-- The posted write queue: at most 8 entries, each with at least one lane enabled (R20). -/
structure QueueOk (q : List QEntry) : Prop where
  length  : q.length ≤ 8
  enabled : ∀ e ∈ q, e.be ≠ 0

/-- The pages of the map cache. -/
def MapUnit.pages (m : MapUnit) : List PageId := m.cache.map (·.page)

/-- The map unit: at most 16 entries, at most 8 pinned, never two for one page (R37); the page of a fetch in flight is
neither cached nor the failed one (R39, R41), and the failed page is not cached (R46). -/
structure MapOk (m : MapUnit) : Prop where
  length : m.cache.length ≤ 16
  pinned : m.pinnedCount ≤ 8
  once   : m.pages.Nodup
  flight : m.fetcher.phase ≠ .idle → m.fetcher.page ∉ m.pages ∧ m.failed ≠ some m.fetcher.page
  mark   : ∀ p, m.failed = some p → p ∉ m.pages

/-- The map unit with the memory port: a read of the fetcher is outstanding only while a fetch is in flight (R40, R44). -/
structure State.FetchOk (s : State) : Prop where
  unit   : MapOk s.map
  flying : s.fetchOutstanding = true → s.map.fetcher.phase ≠ .idle

/-- The capture buffer pool: no two buffers hold one key, the fill order lists exactly the FILLED buffers and each once
(R141), and an ARMED buffer's key came through the fresh page address (R146). -/
structure PoolOk (p : Pool) : Prop where
  keys   : ∀ i j : Fin 6, p.bufs[i].key? ≠ none → p.bufs[i].key? = p.bufs[j].key? → i = j
  order  : p.fillOrder.Nodup
  filled : ∀ i : Fin 6, i ∈ p.fillOrder ↔ p.bufs[i].isFilled = true
  armed  : ∀ (i : Fin 6) (k : BufKey), p.bufs[i] = .armed k → k.fresh = true

/-- The staging queue: at most 8 records (R157), full while a close record is held, and only close records held
(R158). -/
structure StagingOk (r : Ring) : Prop where
  length : r.staging.length ≤ 8
  full   : r.held ≠ [] → r.staging.length = 8
  close  : ∀ x ∈ r.held, x.isClose = true

/-- A close record of channel `c`. -/
def Record.closes (x : Record) (c : ChanId) : Bool := x.isClose && x.channel == some c

/-- The close records of channel `c` that wait: in the staging queue or held (R158). -/
def Ring.closeCount (r : Ring) (c : ChanId) : Nat := (r.staging ++ r.held).countP (·.closes c)

/-- Every channel in CLOSING has exactly one close record waiting, and no other channel has one (R86, R88, R158). -/
def State.CloseRecordsOk (s : State) : Prop :=
  ∀ c : ChanId, s.ring.closeCount c = if s.chans[c].state = .closing then 1 else 0

/-- The indices of the ring: the producer and the consumer copy lie below N, and so does the producer value a failed
producer word would go back to (R159, R163). -/
structure State.IndicesOk (s : State) : Prop where
  before   : s.loader.mode ≠ .running → s.loader.setup.ringCode = 0
  producer : s.ring.producer < s.loader.setup.ringSlots
  copy     : s.ring.copy < s.loader.setup.ringSlots
  undo     : ∀ b a, s.initiator? = some (.ring (.producerWord b) a) → b < s.loader.setup.ringSlots

/-- The status unit: with no flag set the fault address is 0 (R170). -/
def StatusOk (u : Status) : Prop := u.flags = 0 → u.faultAddr = 0

/-- A stage context under the setup values, in a channel state: cleared in VACANT (R96); demand 0 outside RAMP and HOLD
and at most 63 (R74); Pmax within the band ceiling (R64), the volume cap within the site cap ceiling (R63, R70), every
step and the permitted setpoint within Pmax (R63, R67, R106); the current step in the schedule (R80); the park cause set
as R90 and R137 say; a close reason exactly in CLOSING and CLOSED (R65, R86); the ranges of the counts (R104, R118,
R121). -/
structure ContextOk (u : Setup) (st : ChState) (x : Context) : Prop where
  cleared     : st = .vacant → x = Context.cleared
  demandOff   : st ≠ .ramp → st ≠ .hold → x.demand = 0
  demandMax   : x.demand ≤ 63
  pmax        : x.pmax ≤ u.ceilingOf x.band
  cap         : x.cap ≤ u.siteCapDl
  steps       : ∀ p ∈ x.steps, p.pressure ≤ x.pmax
  setpoint    : x.setpoint ≤ x.pmax
  setpointOff : st ≠ .ramp → st ≠ .hold → x.setpoint = 0
  current     : st ≠ .vacant → x.stepIndex < x.steps.length
  parked      : st = .parked → x.parkSet ≠ 0
  unparked    : st = .armed ∨ st = .ramp ∨ st = .hold → x.parkSet = 0
  seen        : x.parkSet &&& ~~~x.causesSeen = 0
  reason      : x.closeReason.isSome = true ↔ st = .closing ∨ st = .closed
  unstarted   : st = .armed → x.take = 0
  take        : x.take ≤ 4294967295
  overRun     : x.overRun ≤ 3
  losRun      : x.losRun ≤ 20

/-- The ranges of a channel's readings (R100, R103). -/
structure ReadingsOk (r : Readings) : Prop where
  measured : r.measured ≤ 8000
  window   : r.window.length = 10
  flow     : r.flow ≤ 6000
  losCount : r.losCount ≤ 65535

/-- A channel under the setup values. -/
structure ChannelOk (u : Setup) (ch : Channel) : Prop where
  ctx      : ContextOk u ch.state ch.ctx
  readings : ReadingsOk ch.readings

/-- The channels: within the envelope of the setup values, and every one VACANT while the loader is not RUNNING (R72,
R99). -/
structure State.ChannelsOk (s : State) : Prop where
  off : s.loader.mode ≠ .running → ∀ c : ChanId, s.chans[c].state = .vacant
  ok  : ∀ c : ChanId, ChannelOk s.loader.setup s.chans[c]

/-- While the loader is not RUNNING the governing blocks stay as reset left them (R51, R72, R99, R140, R165, R177,
R184); in LOADING the queue and the ports are empty as well (R17, R32). -/
structure State.QuietOk (s : State) : Prop where
  setup  : s.loader.mode ≠ .running → s.loader.setup = Setup.reset
  map    : s.loader.mode ≠ .running → s.map = MapUnit.reset
  chans  : s.loader.mode ≠ .running → ∀ c : ChanId, s.chans[c] = Channel.reset
  gauges : s.loader.mode ≠ .running → s.field.gauges = Vector.replicate 4 Gauge.reset ∧ s.field.reports = []
  pool   : s.loader.mode ≠ .running → s.pool = Pool.empty
  ring   : s.loader.mode ≠ .running → s.ring = Ring.reset
  status : s.loader.mode ≠ .running → ∃ f a, s.status = { Status.reset with flags := f, faultAddr := a }
  mem    : s.loader.mode ≠ .running →
    s.initiator? = none ∨ s.initiator? = some .heldRead ∨ s.initiator? = some .drain
  queue  : s.loader.mode ≠ .running → ∀ e ∈ s.queue, e.origin = .plain
  empty  : s.loader.mode = .loading →
    s.queue = [] ∧ s.port.held = none ∧ s.mem = none ∧ s.status = Status.reset

end Sys2Proof.Machine
end

