-- ==== Sys2Proof/Certificates/Slice0/Obligations.lean ====
section
/-! DEFINITION. The statements for the provers. Each conclusion `exec c s = .next t` gives the whole next state, so what
`t` does not mention is unchanged: that is the frame of the statement. -/

open Sys2Proof Sys2Proof.Machine

/-! ### The step -/

/-- A step takes the command at the front of the queue and runs it on the queue's rest; with none waiting the block idles
(the model's choice, log entry 5). -/
def Obligations.StepRunsTheFrontCommand : Prop :=
  (∀ (c : Instr) (rest : List Instr) (s : State),
    step { s with pending := c :: rest } = exec c { s with pending := rest }) ∧
  ∀ s : State, s.pending = [] → step s = .next s

/-! ### Reset, setup, the clock and the outputs -/

/-- What reset leaves, for the values the rules give (R50, R59, R72, R96, R99, R100, R123, R141, R165, R177, R178), and that every
invariant below holds there. -/
def Obligations.ResetState : Prop :=
  let s := State.reset
  s.loader.mode = .loading ∧ s.loader.phase = .notBegun ∧ s.loader.attempts = 0 ∧
  s.loader.setup =
    { bigEndian := false, pinMode := false, windowBase := 0, autoPark := 0, mapBase := 0, ringBase := 0, ringCode := 0
      rampSlots := 0, bound1 := 0, bound2 := 0, bound3 := 0, ceiling0 := 0, ceiling1 := 0, ceiling2 := 0, ceiling3 := 0
      siteCap := 0 } ∧
  s.port.held = none ∧ s.mem = none ∧ s.queue = [] ∧
  s.map.cache = [] ∧ s.map.failed = none ∧ s.map.fetcher.phase = .idle ∧ s.map.fetcher.stale = false ∧
  (∀ c : ChanId, s.chans[c].state = .vacant ∧ s.chans[c].ctx =
      { hole := 0, stageNo := 0, topDepth := 0, length := 0, band := 0, pmax := 0, gin := 0, cap := 0, qref := 0
        tref := 0, rampSlot := 0, gauge := 0, upliftLimit := 0, baseline := 0, uplift := 0, steps := [], watches := []
        stepIndex := 0, stepTime := 0, ceiling := 0, setpoint := 0, pgin := 0, holdTarget := 0, demand := 0, take := 0
        specificTake := 0, peak := 0, elapsed := 0, refusalCount := 0, overRun := 0, losRun := 0, parkSet := 0
        causesSeen := 0, ginLimited := false, closeReason := none, lastTag := 0 } ∧
    s.chans[c].image = Vector.replicate 18 0 ∧
    s.chans[c].result = { code := 0, tag := 0, outcome := .none, reason := .none } ∧
    s.chans[c].readings =
      { measured := 0, los := false, sampled := false, window := List.replicate 10 0, flow := 0, sequence := 0
        losCount := 0 } ∧
    s.chans[c].strokeDemand = 0 ∧ s.chans[c].valveShut = false ∧ s.field.permits[c].accepted = false ∧
    s.field.permits[c].timer = false) ∧
  s.field.stopA.accepted = true ∧ s.field.stopB.accepted = true ∧
  s.field.stopA.timer = false ∧ s.field.stopB.timer = false ∧
  (∀ g : GaugeId, s.field.gauges[g] = { reading := 0, valid := false, sampled := false }) ∧
  (∀ i : Fin 6, s.pool.bufs[i] = .free) ∧ s.pool.fillOrder = [] ∧
  s.ring.staging = [] ∧ s.ring.held = [] ∧ s.ring.producer = 0 ∧ s.ring.copy = 0 ∧ s.ring.sequence = 0 ∧
  s.ring.halted = false ∧
  s.status =
    { flags := 0, faultAddr := 0, te := false, trap := false, filterMask := 0, maskA := 0, maskB := 0, rampTable := 0
      clock := 0 } ∧
  (QueueOk s.queue ∧ PoolOk s.pool ∧ StagingOk s.ring ∧ StatusOk s.status ∧ s.FetchOk ∧ s.IndicesOk ∧
    s.CloseRecordsOk ∧ s.ChannelsOk ∧ s.QuietOk)

/-- The assertion of reset puts every block at its reset values; a held read is answered RETRY; the levels of the pins,
and the commands that wait outside the part, stay (R17, R123, R178; log entries 5, 9). -/
def Obligations.ResetAssertion : Prop :=
  ∀ s : State, exec .resetAssert s = .next
    { loader := { mode := .loading, phase := .notBegun, attempts := 0, resetLine := true, setup := State.reset.loader.setup }
      port := { held := none, answer := if s.port.held = none then none else some .retry }
      mem := none
      queue := []
      map := State.reset.map
      chans := State.reset.chans
      field :=
        { stopA := { raw := s.field.stopA.raw, accepted := true, timer := false }
          stopB := { raw := s.field.stopB.raw, accepted := true, timer := false }
          permits := s.field.permits.map (fun l => { raw := l.raw, accepted := false, timer := false })
          gauges := Vector.replicate 4 { reading := 0, valid := false, sampled := false }
          reports := [] }
      pool := State.reset.pool
      ring := State.reset.ring
      status := State.reset.status
      choices := s.choices
      pending := s.pending }

/-- The setup loader and the clock. The release of reset begins the first read of the stream, and starts the debounce timer
of each line whose raw level differs from the accepted one (R124, R178). An attempt without an acknowledge is followed by a
wait, and the third by SAFE_PASS; the end of the wait begins the next attempt (R179). A completed read takes the setup values
and goes to RUNNING if every test passes, with the clock at 0, the ramp option table loaded and a producer rewrite pending;
else it goes to SAFE_PASS and takes none; bytes that the memory did not drive read 0xFF (R165, R176, R179, R183, R184). The
governor clock adds 1 at its tick in RUNNING, wrapping at 32 bits, and does not run otherwise (R176). -/
def Obligations.SetupLoaderAndClock : Prop :=
  (∀ s : State, s.loader.resetLine = true → exec .resetRelease s = .next
    { s with
      loader := { s.loader with resetLine := false, phase := .reading, attempts := 1 }
      field :=
        { s.field with
          stopA := { s.field.stopA with timer := s.field.stopA.raw != s.field.stopA.accepted }
          stopB := { s.field.stopB with timer := s.field.stopB.raw != s.field.stopB.accepted }
          permits := s.field.permits.map (fun l => { l with timer := l.raw != l.accepted }) } }) ∧
  (∀ s : State, s.loader.mode = .loading →
    (s.loader.phase = .reading → s.loader.attempts < 3 →
      exec .setupReadNoAck s = .next { s with loader := { s.loader with phase := .waiting } }) ∧
    (s.loader.phase = .reading → 3 ≤ s.loader.attempts →
      exec .setupReadNoAck s = .next { s with loader := { s.loader with mode := .safePass, phase := .notBegun } }) ∧
    (s.loader.phase = .waiting →
      exec .setupRetryWaitExpiry s = .next
        { s with loader := { s.loader with phase := .reading, attempts := s.loader.attempts + 1 } })) ∧
  (∀ (s : State) (bytes : List Byte), s.loader.mode = .loading → s.loader.phase = .reading →
    let b := (bytes ++ List.replicate 32 0xFF#8).take 32
    (streamOk b = true → exec (.setupReadComplete bytes) s = .next
      { s with
        loader := { s.loader with mode := .running, phase := .notBegun, setup := setupOf b }
        status := { s.status with rampTable := (setupOf b).rampSlots, clock := 0 }
        ring := { s.ring with rewritePending := true } }) ∧
    (streamOk b = false → exec (.setupReadComplete bytes) s = .next
      { s with loader := { s.loader with mode := .safePass, phase := .notBegun } })) ∧
  ∀ s : State, exec .governorClockTick s = .next
    (if s.loader.mode = .running then { s with status := { s.status with clock := s.status.clock + 1 } } else s)

/-- The fields of an address and its class, and the lanes of a word. The offset, the page and the alias of a window address,
and the address it uses on the memory port; the low two bits are dropped (log entry 30). The first class that holds: window,
map table, ring header, plain. Lane k is bits 8k + 7 to 8k: the value of a word in little-endian order is the word, in
big-endian order its lanes reversed; and the places of an order word's fields (R1, R3, R5, R11, R159, R185, 12.3). -/
def Obligations.AddressesAndLanes : Prop :=
  (∀ a : Addr,
    offsetOf a = a.toNat % 4096 ∧ (pageOf a).toNat = a.toNat / 4096 % 128 ∧
    (freshOf a = true ↔ a.toNat / 524288 % 2 = 1) ∧
    (windowMemAddr a).toNat = a.toNat - a.toNat / 524288 % 2 * 524288 ∧ (wordAddr a).toNat = a.toNat / 4 * 4) ∧
  (∀ (u : Setup) (a : Addr),
    let window := a.toNat / 1048576 = u.windowBase.toNat
    let table := u.mapBase.toNat ≤ a.toNat ∧ a.toNat < u.mapBase.toNat + 1024
    let header := a = u.ringBase ∨ a = u.ringBase + 4
    (u.inWindow a = true ↔ window) ∧ (window → u.classify a = .window) ∧ (¬window → table → u.classify a = .mapTable) ∧
    (¬window → ¬table → header → u.classify a = .ringHeader) ∧
    (¬window → ¬table → ¬header → u.classify a = .plain) ∧ u.ringSlots = 64 * 2 ^ u.ringCode.toNat) ∧
  (∀ (w : Word) (be : Lanes) (k : Fin 4),
    let lane (v : Word) (i : Nat) : Byte := v.extractLsb' (8 * i) 8
    inOrder false w = w ∧ lane (inOrder true w) k.val = lane w (3 - k.val) ∧ byteSwap w = inOrder true w ∧
    (reverseLanes be).getLsbD k.val = be.getLsbD (3 - k.val) ∧
    lane (laneMask be) k.val = if be.getLsbD k.val then 0xFF else 0) ∧
  ∀ (code tag : Byte) (arg : Half),
    orderValue code tag arg = wordOf [(7, 0, code.toNat), (15, 8, tag.toNat), (31, 16, arg.toNat)]

/-- The setup values lie in the stream at the places of 11.3 and 12.8, high byte first. The streams that pass are those
whose fields lie in their ranges, whose CRC remainder over bytes 0 to 29 stands in bytes 30 and 31, high byte first, and
whose three areas share no byte and lie below 0x1000000 (R180, R181, R182). -/
def Obligations.AcceptedStreams : Prop :=
  ∀ b : Vector Byte 32,
    let u := setupOf b.toList
    let w := u.windowBase.toNat * 1048576
    let m := u.mapBase.toNat
    let r := u.ringBase.toNat
    let n := 64 * 2 ^ u.ringCode.toNat
    let half (k : Fin 31) : Half := BitVec.ofNat 16 (b[k].toNat * 256 + b[k.val + 1].toNat)
    let base (k : Fin 31) : Addr := BitVec.ofNat 24 ((b[k].toNat % 64 * 256 + b[k.val + 1].toNat) * 1024)
    let bits := (b.toList.take 30).flatMap (fun x => (List.range 8).map (fun k => x.getLsbD (7 - k)))
    let crc : Half := bits.foldl (fun x d => if x.getLsbD 15 = d then x <<< 1 else (x <<< 1) ^^^ 0x1021#16) 0xFFFF#16
    u = { bigEndian := b[1].getLsbD 0, pinMode := b[1].getLsbD 1
          windowBase := BitVec.ofNat 4 (b[2].toNat % 16), autoPark := b[3], mapBase := base 4, ringBase := base 6
          ringCode := BitVec.ofNat 2 (b[8].toNat % 4)
          rampSlots := BitVec.ofNat 16
            (b[9].toNat / 16 + b[9].toNat % 16 * 16 + b[10].toNat / 16 * 256 + b[10].toNat % 16 * 4096)
          bound1 := b[11], bound2 := b[12], bound3 := b[13], ceiling0 := half 14, ceiling1 := half 16
          ceiling2 := half 18, ceiling3 := half 20, siteCap := half 22 } ∧
    (streamOk b.toList = true ↔
      (b[0] = 3 ∧ b[1].toNat < 4 ∧ b[2].toNat < 16 ∧ b[4].toNat < 64 ∧ b[6].toNat < 64 ∧ b[8].toNat < 4 ∧
        b[24] = 0 ∧ b[25] = 0 ∧ b[26] = 0 ∧ b[27] = 0 ∧ b[28] = 0 ∧ b[29] = 0 ∧
        u.ceiling0.toNat ≤ 8000 ∧ u.ceiling1.toNat ≤ 8000 ∧ u.ceiling2.toNat ≤ 8000 ∧ u.ceiling3.toNat ≤ 8000) ∧
      crc = b[30] ++ b[31] ∧
      (m + 1024 ≤ w ∨ w + 1048576 ≤ m) ∧ (r + 32 + 32 * n ≤ w ∨ w + 1048576 ≤ r) ∧
      (r + 32 + 32 * n ≤ m ∨ m + 1024 ≤ r) ∧ r + 32 + 32 * n ≤ 16777216)

/-- What the part drives. The attention line stands exactly while the producer differs from the consumer copy, TRAP is set,
or the loader is in SAFE_PASS: it is down after reset, rises at the grant of a publish's producer word, and after a restart
TRAP alone holds it (R164, R166). A channel drives its demand in RAMP and HOLD and 0 in every other state; its return valve
is shut in RAMP, HOLD, CLOSING and CLOSED and open in VACANT, ARMED and PARKED (R74, R117). -/
def Obligations.Outputs : Prop :=
  (∀ s : State,
    (s.attention = true ↔ s.ring.producer ≠ s.ring.copy ∨ s.status.trap = true ∨ s.loader.mode = .safePass) ∧
    (∀ t, exec .resetAssert s = .next t → t.attention = false) ∧
    (∀ t, s.mem = none → exec .arbiterGrant s = .next t → ∀ b,
      t.initiator? = some (.ring (.producerWord b) false) → t.attention = true) ∧
    (∀ addr e t, s.hits addr e → e.role = .status → e.attrs.wp = false → offsetOf addr = 8 →
      exec (.restart addr) s = .next t → t.attention = s.status.trap)) ∧
  ∀ ch : Channel,
    (ch.state = .ramp ∨ ch.state = .hold → ch.strokeDemand = ch.ctx.demand ∧ ch.valveShut = true) ∧
    (ch.state = .vacant ∨ ch.state = .armed ∨ ch.state = .parked → ch.strokeDemand = 0 ∧ ch.valveShut = false) ∧
    (ch.state = .closing ∨ ch.state = .closed → ch.strokeDemand = 0 ∧ ch.valveShut = true)

/-! ### Shared operations -/

/-- A raise sets its flag and no other; it latches its address where no flag was set; it sets TRAP and clears TE exactly
where it takes the flag from clear to set while TE is set (R169, R170, R172). A record offered in RUNNING is lost without
trace where its maskable kind is masked; joins at the newest end where the staging queue has room; a close record is held
where it has none; any other is dropped with RINGDROP (R156, R157, R158); outside RUNNING no record is staged (R140, R165,
R184). Of a record and a flag of one event the raise comes first; where the record is dropped either order may be taken, and
a free value says which (R119, R130; log entry 11). -/
def Obligations.FlagsAndRecords : Prop :=
  (∀ (s : State) (f : Flag) (addr : Addr),
    let u := s.status
    let fresh := u.flags.getLsbD f.index = false
    (s.raise f addr).status =
      { u with
        flags := u.flags ||| 1#9 <<< f.index
        faultAddr := if u.flags = 0 then addr else u.faultAddr
        trap := if u.te = true ∧ fresh then true else u.trap
        te := if u.te = true ∧ fresh then false else u.te } ∧
    { s.raise f addr with status := u } = s) ∧
  (∀ (s : State) (r : Record), s.loader.mode ≠ .running → s.stage r = s) ∧
  ∀ (s : State) (r : Record), s.loader.mode = .running →
    let masked := r.payload.maskable = true ∧ s.status.filterMask.getLsbD (r.payload.kind.toNat - 1) = true
    (masked → s.stage r = s) ∧
    (¬masked → s.ring.staging.length < 8 →
      s.stage r = { s with ring := { s.ring with staging := s.ring.staging ++ [r] } }) ∧
    (¬masked → 8 ≤ s.ring.staging.length → r.isClose = true →
      s.stage r = { s with ring := { s.ring with held := s.ring.held ++ [r] } }) ∧
    (¬masked → 8 ≤ s.ring.staging.length → r.isClose = false →
      s.stage r = s.raise .ringDrop s.loader.setup.ringBase) ∧
    s.perform (.stage r) = s.stage r ∧
    (∀ (f : Flag) (addr : Addr),
      let dropped := ¬masked ∧ 8 ≤ s.ring.staging.length ∧ r.isClose = false
      let u := { s with choices := s.choices + 1 }
      (¬dropped → s.perform (.news r f addr) = (s.raise f addr).stage r) ∧
      (dropped → s.perform (.news r f addr) = (u.raise f addr).stage r ∨
        s.perform (.news r f addr) = (u.stage r).raise f addr))

/-! ### Accesses that reach no block -/

/-- While LOADING every access is answered RETRY, and outside LOADING one with no byte enable is answered ERROR; neither
changes anything else (R1, R17). The rows of the order words and RESTART always carry four enables. -/
def Obligations.AccessesAnsweredAtOnce : Prop :=
  ∀ s : State, s.port.held = none →
    (∀ c a, accessOf c = some a → s.loader.mode = .loading → exec c s = .next (s.answer .retry)) ∧
    (∀ cmd addr tag arg, s.loader.mode = .loading → exec (orderRow cmd addr tag arg) s = .next (s.answer .retry)) ∧
    (∀ addr code tag arg, s.loader.mode = .loading → exec (.orderWordUnknown addr code tag arg) s =
      .next (s.answer .retry)) ∧
    (∀ addr, s.loader.mode = .loading → exec (.restart addr) s = .next (s.answer .retry)) ∧
    (∀ a, s.loader.mode = .loading → exec (.loadingAccess a) s = .next (s.answer .retry)) ∧
    (∀ c a, accessOf c = some a → s.loader.mode ≠ .loading → a.be = 0 → exec c s = .next (s.answer .error)) ∧
    (∀ addr write, s.loader.mode ≠ .loading → exec (.noEnableAccess addr write) s = .next (s.answer .error))

/-! ### Traffic that memory answers -/

/-- Reads that memory answers: RETRY while the queue names the word, else held for one read of memory with the same
enables. A page of the window is read with address bit 19 clear, and under SWAP on a PASS page byte enable k goes to memory
as enable 3 - k and the lanes come back reversed (R3, R6, R7, R8, R9, R10, R11, R12). -/
def Obligations.ReadsHeldForMemory : Prop :=
  ∀ (s : State) (addr : Addr) (be : Lanes), be ≠ 0 →
    let held (u : State) (a : Addr) (b : Lanes) (swapped : Bool) : State :=
      if s.queue.any (·.addr == a) then u.answer .retry
      else { u with port := { held := some { addr := a, be := b, reversed := swapped }, answer := none } }
    let paged := addr &&& ~~~0x80000#24
    (s.reachesPlain addr → exec (.plainRead addr be) s = .next (held s addr be false)) ∧
    (s.reaches addr .mapTable → exec (.mapTableRead addr be) s = .next (held s addr be false)) ∧
    (s.reaches addr .ringHeader → exec (.ringHeaderRead addr be) s = .next (held s addr be false)) ∧
    (∀ e, s.hits addr e → e.role = .pass → exec (.passRead addr be) s =
      .next (held (s.used e) paged (if e.attrs.swap then reverseLanes be else be) e.attrs.swap)) ∧
    (∀ e c, s.hits addr e → e.role = .order c → offsetOf addr ≠ 4 →
      exec (.orderMemoryRead addr be) s = .next (held (s.used e) paged be false))

/-- A plain write joins the queue at the newest end and is answered COMPLETE, or is answered RETRY with nothing changed
where the queue holds 8 entries (R6, R18, R21, R22, R24). -/
def Obligations.PlainWrites : Prop :=
  ∀ (s : State) (addr : Addr) (be : Lanes) (data : Word), be ≠ 0 → s.reachesPlain addr →
    exec (.plainWrite addr be data) s = .next
      (if 8 ≤ s.queue.length then s.answer .retry
       else ({ s with queue := s.queue ++ [{ addr := addr, data := data, be := be, origin := .plain }] } : State).answer
         .completeWrite)

/-- An accepted map-table write is queued and its page snooped: the cached entry leaves, its SNAP channel's buffers are
freed, a fetch of the page in flight turns stale (ending at once if no read of it is outstanding), and a failure mark on
the page is cleared. Into a full queue it is answered RETRY with nothing changed (R9, R22, R43, R44). -/
def Obligations.MapTableWrites : Prop :=
  ∀ (s : State) (addr : Addr) (be : Lanes) (data : Word), be ≠ 0 → s.reaches addr .mapTable →
    let p : PageId := BitVec.ofNat 7 ((addr.toNat - s.loader.setup.mapBase.toNat) / 8)
    let f := s.map.fetcher
    let reading := s.initiator? = some .fetch
    (8 ≤ s.queue.length → exec (.mapTableWrite addr be data) s = .next (s.answer .retry)) ∧
    (s.queue.length < 8 → exec (.mapTableWrite addr be data) s = .next
      (({ s with
        queue := s.queue ++ [{ addr := addr, data := data, be := be, origin := .mapTable }]
        map :=
          { cache := s.map.cache.filter (·.page != p)
            fetcher :=
              if f.page = p ∧ f.phase ≠ .idle then
                { f with stale := true, phase := if reading then f.phase else .idle }
              else f
            failed := if s.map.failed = some p then none else s.map.failed }
        pool :=
          match s.map.entry? p with
          | some { role := .snap c, .. } => s.pool.releaseChan c
          | _ => s.pool } : State).answer .completeWrite))

/-- Ring-header writes: the producer word is the part's; the consumer word is snooped and queued with all four enables
and a value below N, RETRY into a full queue, and dropped otherwise (R10, R160). -/
def Obligations.RingHeaderWrites : Prop :=
  ∀ (s : State) (be : Lanes) (data : Word), be ≠ 0 →
    let u := s.loader.setup
    let p := u.ringBase
    let q := u.ringBase + 4
    let value := (inOrder u.bigEndian data).toNat
    let n := 64 * 2 ^ u.ringCode.toNat
    (s.reaches p .ringHeader →
      exec (.producerWordWrite p be data) s = .next ((s.raise .owned p).answer .completeWrite)) ∧
    (s.reaches q .ringHeader → be ≠ 0xF ∨ n ≤ value →
      exec (.consumerWordWrite q be data) s = .next ((s.raise .owned q).answer .completeWrite)) ∧
    (s.reaches q .ringHeader → be = 0xF → value < n → 8 ≤ s.queue.length →
      exec (.consumerWordWrite q be data) s = .next (s.answer .retry)) ∧
    (s.reaches q .ringHeader → be = 0xF → value < n → s.queue.length < 8 →
      exec (.consumerWordWrite q be data) s = .next
        (({ s with
          queue := s.queue ++ [{ addr := q, data := data, be := be, origin := .ringHeader }]
          ring := { s.ring with copy := value } } : State).answer .completeWrite))

/-- PASS writes: dropped with OWNED under WP; else RETRY under BARRIER while the queue holds an entry; else queued at the
address with bit 19 clear, lanes and enables reversed under SWAP, or RETRY into a full queue (R11, R22, R23, R25). -/
def Obligations.PassWrites : Prop :=
  ∀ (s : State) (addr : Addr) (be : Lanes) (data : Word) (e : CacheEntry), be ≠ 0 → s.hits addr e → e.role = .pass →
    exec (.passWrite addr be data) s = .next
      (if e.attrs.wp = true then ((s.used e).raise .owned addr).answer .completeWrite
       else if e.attrs.barrier = true ∧ s.queue ≠ [] then (s.used e).answer .retry
       else if 8 ≤ s.queue.length then (s.used e).answer .retry
       else ({ s.used e with
          queue := s.queue ++
            [{ addr := addr &&& ~~~0x80000#24
               data := if e.attrs.swap then byteSwap data else data
               be := if e.attrs.swap then reverseLanes be else be
               origin := .pass }] } : State).answer .completeWrite)

/-- A window access that no page takes. At an INVALID page it is answered ERROR, raises MAPFAULT with its address and offers
a MAP_FAULT record, the raise before the record (log entry 31) (R15, R169). Where its page is not cached: ERROR and the mark
cleared where the failure mark holds the page; else RETRY, with a fetch of the page started exactly where the fetcher is IDLE
and no map-table write is queued (R27, R39, R40, R46). -/
def Obligations.InvalidPagesAndMisses : Prop :=
  (∀ (s : State) (a : Access) (e : CacheEntry), a.be ≠ 0 → s.hits a.addr e → e.role = .invalid →
    exec (.invalidPageAccess a) s = .next
      ((((s.used e).raise .mapFault a.addr).stage
        (plainRecord s.status.clock (.mapFault a.addr a.write.isSome))).answer .error)) ∧
  ∀ (s : State) (addr : Addr), s.misses addr →
    let t : State :=
      if s.map.failed = some (pageOf addr) then
        ({ s with map := { s.map with failed := none } } : State).answer .error
      else if s.map.fetcher.phase = .idle ∧ s.queue.all (fun q => q.origin != .mapTable) = true then
        ({ s with map := { s.map with
          fetcher := { s.map.fetcher with phase := .first, page := pageOf addr, stale := false } } } : State).answer .retry
      else s.answer .retry
    (∀ c a, accessOf c = some a → a.addr = addr → a.be ≠ 0 → exec c s = .next t) ∧
    (∀ cmd tag arg, exec (orderRow cmd addr tag arg) s = .next t) ∧
    (∀ code tag arg, exec (.orderWordUnknown addr code tag arg) s = .next t) ∧
    exec (.restart addr) s = .next t

/-! ### Codes and records -/

/-- The codes of 12.4, 12.3 and 12.7, the places of the sticky flags (12.6), and the words of a ring record: the eight words
of every record, and the payload of each of the sixteen kinds with its kind code and whether a mark stops it (R154, R155,
R156, R186, 12.7). A bit of no field reads 0. -/
def Obligations.CodesAndRecordWords : Prop :=
  ([.vacant, .armed, .ramp, .hold, .parked, .closing, .closed] : List ChState).map ChState.code = [0, 1, 2, 3, 4, 5, 6] ∧
  ([.none, .accepted, .clamped, .refused] : List OrderOutcome).map OrderOutcome.code = [0, 1, 2, 3] ∧
  ([.none, .width, .unknown, .state, .busy, .length, .steps, .pmaxCeiling, .stepOverPmax, .gin, .capCeiling, .refusal,
    .gauge, .watch, .permit, .stop, .los, .stopA, .stopB, .uplift] : List Reason).map (·.code.toNat) = List.range 20 ∧
  ([.stopA, .stopB, .permit, .los, .uplift, .overpressure, .communication, .operator] : List Cause).map
    (fun k => (k.code.toNat, k.mark.toNat)) =
    [(1, 1), (2, 2), (3, 4), (4, 8), (5, 16), (6, 32), (7, 64), (8, 128)] ∧
  ([none, some .cap, some .gin, some .refusal, some .schedule, some .operator] : List (Option CloseReason)).map closeCode =
    [0, 1, 2, 3, 4, 5] ∧
  ([.load, .start, .retarget, .extend, .park, .resume, .close, .release] : List Command).map Command.code =
    [1, 2, 3, 4, 5, 6, 7, 8] ∧
  (∀ (cmd : Command) (code : Byte), Command.ofCode code = some cmd ↔ cmd.code = code) ∧
  ([.clamp, .refuse, .owned, .mapFault, .memErr, .ringDrop, .pinFull, .overPress, .los] : List Flag).map Flag.index =
    [0, 1, 2, 3, 4, 5, 6, 7, 8] ∧
  (∀ (r : Record) (sequence : Half),
    let w := r.words sequence
    let channel : Nat := match r.channel with
      | none => 0xFF
      | some c => c.val
    w[0] = wordOf [(7, 0, r.payload.kind.toNat), (15, 8, channel), (23, 16, r.tag.toNat), (31, 24, r.stageNo.toNat)] ∧
    w[1] = wordOf [(15, 0, sequence.toNat), (31, 16, r.hole.toNat)] ∧ w[2] = r.clock ∧
    ∀ k : Fin 5, w[3 + k.val] = r.payload.words[k]) ∧
  let holds (p : Payload) (kind : Nat) (mask : Bool) (w : List Word) : Prop :=
    p.kind.toNat = kind ∧ p.maskable = mask ∧ p.words.toList = w
  (∀ code arg reason, holds (.orderRefused code arg reason) 1 false
    [wordOf [(7, 0, code.toNat), (15, 8, reason.code.toNat), (31, 16, arg.toNat)], 0, 0, 0, 0]) ∧
  holds .orderReleased 2 true [0, 0, 0, 0, 0] ∧
  (∀ baseline ceiling, holds (.stageStarted baseline ceiling) 3 true
    [wordOf [(15, 0, baseline), (31, 16, ceiling)], 0, 0, 0, 0]) ∧
  (∀ step measured take, holds (.stepReached step measured take) 4 true
    [wordOf [(7, 0, step), (31, 16, measured)], wordOf [(31, 0, take)], 0, 0, 0]) ∧
  (∀ take pgin step, holds (.ginLimitBegin take pgin step) 5 true
    [wordOf [(7, 0, step), (31, 16, pgin)], wordOf [(31, 0, take)], 0, 0, 0]) ∧
  (∀ cause set, holds (.parked cause set) 6 false [wordOf [(7, 0, cause.code.toNat), (15, 8, set.toNat)], 0, 0, 0, 0]) ∧
  (∀ step ceiling, holds (.resumed step ceiling) 7 true [wordOf [(7, 0, step), (31, 16, ceiling)], 0, 0, 0, 0]) ∧
  (∀ place watched threshold kPa action, holds (.communication place watched threshold kPa action) 8 true
    [wordOf [(7, 0, place), (15, 8, watched.val), (23, 16, if action = .report then 1 else 2)],
      wordOf [(15, 0, threshold), (31, 16, kPa)], 0, 0, 0]) ∧
  (∀ measured pmax state, holds (.overpressure measured pmax state) 9 true
    [wordOf [(7, 0, state.code.toNat)], wordOf [(15, 0, measured), (31, 16, pmax)], 0, 0, 0]) ∧
  (∀ state kPa, holds (.losBegin state kPa) 10 true
    [wordOf [(7, 0, state.code.toNat), (31, 16, kPa)], 0, 0, 0, 0]) ∧
  (∀ state kPa run, holds (.losEnd state kPa run) 11 true
    [wordOf [(7, 0, state.code.toNat), (31, 16, kPa)], wordOf [(15, 0, run)], 0, 0, 0]) ∧
  (∀ line level mask, holds (.stopChange line level mask) 12 true
    [wordOf [(7, 0, if line = .stopA then 0 else 1), (15, 8, level.toNat), (23, 16, mask.toNat)], 0, 0, 0, 0]) ∧
  (∀ level, holds (.permitChange level) 13 true [wordOf [(7, 0, level.toNat)], 0, 0, 0, 0]) ∧
  (∀ reason seen take peak final elapsed specific, holds (.stageClosed reason seen take peak final elapsed specific) 14 false
    [wordOf [(7, 0, reason.code.toNat), (15, 8, seen.toNat)], wordOf [(31, 0, take)],
      wordOf [(15, 0, peak), (31, 16, final)], wordOf [(31, 0, elapsed)], wordOf [(31, 0, specific)]]) ∧
  (∀ addr write, holds (.mapFault addr write) 15 true [wordOf [(23, 0, addr.toNat), (24, 24, write.toNat)], 0, 0, 0, 0]) ∧
  ∀ addr origin,
    let path : Nat × Nat := match origin with
      | none => (2, 0xFF)
      | some .plain => (1, 0)
      | some .mapTable => (1, 1)
      | some .ringHeader => (1, 2)
      | some .pass => (1, 3)
      | some (.order _) => (1, 4)
    holds (.memoryError addr origin) 16 true [wordOf [(23, 0, addr.toNat)], wordOf [(7, 0, path.1), (15, 8, path.2)], 0, 0, 0]

/-! ### ORDER pages -/

/-- A read of the result word is answered live, with its fields at the places of 12.3: command code in bits 7 to 0, tag
in 15 to 8, reason in 23 to 16, outcome in 25 to 24, state in 30 to 28; lanes not enabled read 0 (R1, R12, R59, R185). -/
def Obligations.ResultWordReads : Prop :=
  ∀ (s : State) (addr : Addr) (be : Lanes) (e : CacheEntry) (c : ChanId), be ≠ 0 → s.hits addr e →
    e.role = .order c → offsetOf addr = 4 →
    ∃ v : Word,
      exec (.resultWordRead addr be) s = .next ((s.used e).answer
        (.completeRead (inOrder (s.loader.setup.bigEndian != e.attrs.swap) v &&& laneMask be))) ∧
      v.extractLsb' 0 8 = s.chans[c].result.code ∧ v.extractLsb' 8 8 = s.chans[c].result.tag ∧
      v.extractLsb' 16 8 = s.chans[c].result.reason.code ∧ v.extractLsb' 24 2 = s.chans[c].result.outcome.code ∧
      v.extractLsb' 26 2 = 0 ∧ v.extractLsb' 28 3 = s.chans[c].state.code ∧ v.extractLsb' 31 1 = 0

/-- A write of an ORDER page under WP is dropped with OWNED; without WP, into a full queue, or under BARRIER into one that
is not empty, it is answered RETRY and nothing of it is captured (R12, R21, R22, R23). -/
def Obligations.OrderWritesTurnedAway : Prop :=
  ∀ (s : State) (addr : Addr) (be : Lanes) (data : Word) (e : CacheEntry) (c : ChanId), be ≠ 0 → s.hits addr e →
    e.role = .order c → (e.attrs.wp = true ∨ 8 ≤ s.queue.length ∨ e.attrs.barrier = true ∧ s.queue ≠ []) →
    let t : State := if e.attrs.wp = true then ((s.used e).raise .owned addr).answer .completeWrite
      else (s.used e).answer .retry
    exec (.orderWriteProtected addr be data) s = .next t ∧ exec (.orderAreaWrite addr be data) s = .next t ∧
    exec (.programAreaWrite addr be data) s = .next t ∧ exec (.resultWordWrite addr be data) s = .next t ∧
    exec (.orderWordWidth addr be data) s = .next t ∧
    (∀ code tag arg, exec (.orderWordUnknown addr code tag arg) s = .next t) ∧
    (∀ cmd tag arg, exec (orderRow cmd addr tag arg) s = .next t)

/-- An accepted write of the order area puts its enabled lanes into the staged image and is queued as written; one of the
program area is queued as written and reaches no channel (R26, R52, R54). -/
def Obligations.OrderPageWrites : Prop :=
  ∀ (s : State) (addr : Addr) (be : Lanes) (data : Word) (e : CacheEntry) (c : ChanId), be ≠ 0 →
    s.acceptsOrder addr e c →
    let entry : QEntry := { addr := addr &&& ~~~0x80000#24, data := data, be := be, origin := .order c }
    (∀ k : Fin 18, offsetOf addr = 8 + 4 * k.val →
      exec (.orderAreaWrite addr be data) s = .next
        (({ s.used e with
          chans := s.chans.set c { s.chans[c] with
            image := s.chans[c].image.set k ((s.chans[c].image[k] &&& ~~~laneMask be) ||| (data &&& laneMask be)) }
          queue := s.queue ++ [entry] } : State).answer .completeWrite)) ∧
    (0x50 ≤ offsetOf addr →
      exec (.programAreaWrite addr be data) s = .next
        (({ s.used e with queue := s.queue ++ [entry] } : State).answer .completeWrite))

/-- An accepted write to the result word is kept out of the queue and raises OWNED with the write's address; the answer is
COMPLETE and nothing else changes but the use order (R55). -/
def Obligations.ResultWordWrites : Prop :=
  ∀ (s : State) (addr : Addr) (be : Lanes) (data : Word) (e : CacheEntry) (c : ChanId), be ≠ 0 →
    s.acceptsOrder addr e c → offsetOf addr = 4 →
    exec (.resultWordWrite addr be data) s = .next
      (({ s.used e with
        status := { s.status with
          flags := s.status.flags ||| 0b000000100
          faultAddr := if s.status.flags = 0 then addr else s.status.faultAddr
          trap := if s.status.te = true ∧ s.status.flags.getLsbD 2 = false then true else s.status.trap
          te := if s.status.te = true ∧ s.status.flags.getLsbD 2 = false then false else s.status.te } } : State).answer
        .completeWrite)

/-- An order word with fewer than four enables is kept out with REFUSE and WIDTH, its code, tag and argument taken as 0;
one with a code that is no command is queued as written and refused with UNKNOWN. The raise of REFUSE comes before the
record (log entry 31) (R56, R57, R59, R61). -/
def Obligations.OrderWordsOfNoCommand : Prop :=
  ∀ (s : State) (addr : Addr) (e : CacheEntry) (c : ChanId), s.acceptsWord addr e c →
    let after (result : ResultLatch) : State := { s.used e with chans := s.chans.set c { s.chans[c] with result := result } }
    let news (code tag : Byte) (arg : Half) (reason : Reason) : Record :=
      s.chans[c].refusedRecord c s.status.clock code tag arg reason
    (∀ (be : Lanes) (data : Word), be ≠ 0 → be ≠ 0xF →
      exec (.orderWordWidth addr be data) s = .next
        ((((after { code := 0, tag := 0, outcome := .refused, reason := .width }).raise .refuse addr).stage
          (news 0 0 0 .width)).answer .completeWrite)) ∧
    (∀ (code tag : Byte) (arg : Half), code = 0 ∨ 8 < code.toNat →
      exec (.orderWordUnknown addr code tag arg) s = .next
        ((((after { code := code, tag := tag, outcome := .refused, reason := .unknown }).stage
          (news code tag arg .unknown)).enqueue (s.wordEntry addr e c code tag arg)).answer .completeWrite))

/-- A command that its channel's state refuses changes the result word alone, offers an ORDER_REFUSED record and is queued
as written; a RETARGET above the Pmax of a loaded stage is the one exception (R58, R59, R61, R62, R67 to R69, R76, R89,
R91, R92, R95). -/
def Obligations.CommandsRefusedByState : Prop :=
  ∀ (s : State) (addr : Addr) (e : CacheEntry) (c : ChanId) (cmd : Command) (tag : Byte) (arg : Half) (why : Reason),
    s.acceptsWord addr e c → cmd.refusedIn s.chans[c].state = some why →
    (cmd = .retarget → s.chans[c].state = .vacant ∨ arg.toNat ≤ s.chans[c].ctx.pmax) →
    exec (orderRow cmd addr tag arg) s = .next
      (((({ s.used e with chans := s.chans.set c { s.chans[c] with
          result := { code := cmd.code, tag := tag, outcome := .refused, reason := why } } } : State).stage
        (s.chans[c].refusedRecord c s.status.clock cmd.code tag arg why)).enqueue
        (s.wordEntry addr e c cmd.code tag arg)).answer .completeWrite)

/-- The tests of LOAD. A stage order is refused for the first test of R63, in its order, that fails, and passes them all
exactly where every field lies in its range. Its depth band is the highest whose boundary, with boundary 0 at 0 m, lies at
or below its top depth in whole metres, and its Pmax is held to that band's ceiling (R63, R64). -/
def Obligations.LoadTests : Prop :=
  ∀ (o : StageOrder) (self : ChanId) (u : Setup),
    let band := u.bandOf o.topDepth
    let boundary (k : Fin 4) : Nat := [0, u.bound1.toNat, u.bound2.toNat, u.bound3.toNat][k]
    let ceiling := [u.ceiling0.toNat, u.ceiling1.toNat, u.ceiling2.toNat, u.ceiling3.toNat][band]
    let tests : List (Bool × Reason) :=
      [(decide (o.length < 10 ∨ 300 < o.length), .length), (decide (o.stepCount = 0 ∨ 6 < o.stepCount), .steps),
        (decide (o.pmax = 0 ∨ ceiling < o.pmax), .pmaxCeiling),
        ((o.steps.take o.stepCount).any (fun p => decide (o.pmax < p.pressure)), .stepOverPmax),
        (decide (o.gin = 0 ∨ 4000 < o.gin), .gin), (decide (o.cap = 0 ∨ u.siteCap.toNat * 100 < o.cap), .capCeiling),
        (decide (o.tref = 0 ∨ 3600 < o.tref ∨ 6000 < o.qref), .refusal),
        (decide (3 < o.gauge ∨ o.upliftLimit = 0 ∨ 5000 < o.upliftLimit), .gauge),
        (decide (4 < o.watchCount) || (o.watches.take o.watchCount).any (fun w => decide (7 < w.1 ∨ w.1 = self.val ∨
          w.2.1 ≠ 1 ∧ w.2.1 ≠ 2 ∨ w.2.2 = 0 ∨ 8000 < w.2.2)), .watch)]
    (boundary band ≤ o.topDepth / 10 ∧ ∀ k, band < k → o.topDepth / 10 < boundary k) ∧ u.ceilingOf band = ceiling ∧
    o.firstFailure self u = (tests.find? (·.1)).map (·.2) ∧
    (o.firstFailure self u = none ↔
      (10 ≤ o.length ∧ o.length ≤ 300) ∧ (1 ≤ o.stepCount ∧ o.stepCount ≤ 6) ∧ (1 ≤ o.pmax ∧ o.pmax ≤ ceiling) ∧
      (∀ p ∈ o.steps.take o.stepCount, p.pressure ≤ o.pmax) ∧ (1 ≤ o.gin ∧ o.gin ≤ 4000) ∧
      (1 ≤ o.cap ∧ o.cap ≤ u.siteCap.toNat * 100) ∧ (1 ≤ o.tref ∧ o.tref ≤ 3600 ∧ o.qref ≤ 6000) ∧
      (o.gauge ≤ 3 ∧ 1 ≤ o.upliftLimit ∧ o.upliftLimit ≤ 5000) ∧
      (o.watchCount ≤ 4 ∧ ∀ w ∈ o.watches.take o.watchCount,
        w.1 ≤ 7 ∧ w.1 ≠ self.val ∧ (w.2.1 = 1 ∨ w.2.1 = 2) ∧ 1 ≤ w.2.2 ∧ w.2.2 ≤ 8000))

/-- LOAD reads the fields of a stage order from the staged image at the places of 12.3, in the byte order of the page of the
LOAD word. LOAD in VACANT: with every test passed the stage is ARMED under the context of that order; with a test
failed it is refused for the first that fails (R53, R54, R63, R65, R66). -/
def Obligations.LoadInVacant : Prop :=
  (∀ (big : Bool) (image : Vector Word 18),
    let at_ (offset hi lo : Nat) : Nat := bitsOf (inOrder big ((image[(offset - 8) / 4]?).getD 0)) hi lo
    stageOrderOf big image =
      { hole := BitVec.ofNat 16 (at_ 0x08 15 0), stageNo := BitVec.ofNat 8 (at_ 0x08 23 16)
        rampSlot := BitVec.ofNat 2 (at_ 0x08 25 24), topDepth := at_ 0x0C 15 0, length := at_ 0x0C 31 16
        pmax := at_ 0x10 15 0, gin := at_ 0x10 31 16, cap := at_ 0x14 31 0, qref := at_ 0x18 15 0, tref := at_ 0x18 31 16
        upliftLimit := at_ 0x1C 15 0, gauge := at_ 0x1C 23 16, stepCount := at_ 0x1C 31 24
        steps := (List.range 6).map (fun k => { pressure := at_ (0x20 + 4 * k) 15 0, hold := at_ (0x20 + 4 * k) 31 16 })
        watchCount := at_ 0x38 7 0
        watches := (List.range 4).map (fun k =>
          (at_ (0x3C + 4 * k) 23 16, at_ (0x3C + 4 * k) 31 24, at_ (0x3C + 4 * k) 15 0)) }) ∧
  ∀ (s : State) (addr : Addr) (e : CacheEntry) (c : ChanId) (tag : Byte) (arg : Half), s.acceptsWord addr e c →
    s.chans[c].state = .vacant →
    let u := s.loader.setup
    let o := stageOrderOf (s.pageOrder e.attrs.swap) s.chans[c].image
    (o.firstFailure c u = none →
      exec (.load addr tag arg) s = .next
        (({ s.used e with
          chans := s.chans.set c { s.chans[c] with
            state := .armed
            ctx := { Context.cleared with
              hole := o.hole, stageNo := o.stageNo, topDepth := o.topDepth, length := o.length
              band := u.bandOf o.topDepth, pmax := o.pmax, gin := o.gin, cap := o.cap, qref := o.qref, tref := o.tref
              rampSlot := o.rampSlot, gauge := Fin.ofNat 4 o.gauge, upliftLimit := o.upliftLimit
              steps := o.steps.take o.stepCount
              watches := (o.watches.take o.watchCount).map (fun w =>
                { channel := Fin.ofNat 8 w.1, action := if w.2.1 = 2 then .park else .report, threshold := w.2.2
                  tripped := false })
              lastTag := tag }
            result := { code := 1, tag := tag, outcome := .accepted, reason := .none } }
          queue := s.queue ++ [s.wordEntry addr e c 1 tag arg] } : State).answer .completeWrite)) ∧
    (∀ why, o.firstFailure c u = some why →
      exec (.load addr tag arg) s = .next
        (((({ s.used e with chans := s.chans.set c { s.chans[c] with
            result := { code := 1, tag := tag, outcome := .refused, reason := why } } } : State).stage
          (s.chans[c].refusedRecord c s.status.clock 1 tag arg why)).enqueue
          (s.wordEntry addr e c 1 tag arg)).answer .completeWrite))

/-- START in ARMED: refused for the first of PERMIT, STOP, LOS, GAUGE that fails, else the stage goes to RAMP with its
baseline, ceiling and counts as R77 gives and a STAGE_STARTED record (R76, R77). -/
def Obligations.StartInArmed : Prop :=
  ∀ (s : State) (addr : Addr) (e : CacheEntry) (c : ChanId) (tag : Byte) (arg : Half), s.acceptsWord addr e c →
    s.chans[c].state = .armed →
    let ch := s.chans[c]
    let g := s.field.gauges[ch.ctx.gauge]
    let stopped := s.field.stopA.accepted = true ∧ s.status.maskA.getLsbD c.val = false ∨
      s.field.stopB.accepted = true ∧ s.status.maskB.getLsbD c.val = false
    let refuse (why : Reason) : Prop := exec (.start addr tag arg) s = .next
      (((({ s.used e with chans := s.chans.set c { ch with
          result := { code := 2, tag := tag, outcome := .refused, reason := why } } } : State).stage
        (ch.refusedRecord c s.status.clock 2 tag arg why)).enqueue
        (s.wordEntry addr e c 2 tag arg)).answer .completeWrite)
    let blind := ch.readings.los = true ∨ ch.readings.sampled = false
    let ungauged := g.valid = false ∨ g.sampled = false
    let x := { ch.ctx with
      baseline := g.reading.toNat, uplift := 0, ceiling := ch.readings.measured, stepIndex := 0, stepTime := 0
      demand := 0, elapsed := 0, refusalCount := 0, overRun := 0, losRun := 0, lastTag := tag }
    (s.field.permits[c].accepted = false → refuse .permit) ∧
    (s.field.permits[c].accepted = true → stopped → refuse .stop) ∧
    (s.field.permits[c].accepted = true → ¬stopped → blind → refuse .los) ∧
    (s.field.permits[c].accepted = true → ¬stopped → ¬blind → ungauged → refuse .gauge) ∧
    (s.field.permits[c].accepted = true → ¬stopped → ¬blind → ¬ungauged →
      exec (.start addr tag arg) s = .next
        (((({ s.used e with chans := s.chans.set c { ch with
            state := .ramp
            ctx := x
            result := { code := 2, tag := tag, outcome := .accepted, reason := .none } } } : State).stage
          (x.ownRecord c s.status.clock (.stageStarted g.reading.toNat ch.readings.measured))).enqueue
          (s.wordEntry addr e c 2 tag arg)).answer .completeWrite))

/-- RETARGET of a loaded stage: the current step's pressure becomes the argument held to Pmax, ACCEPTED or CLAMPED; in
HOLD a pressure more than 20 kPa above the permitted setpoint sends the stage to RAMP (R67, R82), and where that
pressure is below the step's present one this is the model's choice (log entry 40). An argument above Pmax is queued as
Pmax and raises CLAMP, one within it is queued as written. A RETARGET above Pmax that the state of a loaded stage
refuses is queued and flagged the same way, its ORDER_REFUSED record carrying the argument as written; stated where the
record is not dropped, for the order of a dropped record and the flag is left open (R61, R68; log entry 11). -/
def Obligations.RetargetOfALoadedStage : Prop :=
  ∀ (s : State) (addr : Addr) (e : CacheEntry) (c : ChanId) (tag : Byte) (arg : Half), s.acceptsWord addr e c →
    let ch := s.chans[c]
    let running := ch.state = .ramp ∨ ch.state = .hold ∨ ch.state = .parked
    let pressure := min arg.toNat ch.ctx.pmax
    let above := ch.ctx.pmax < arg.toNat
    let back := ch.state = .hold ∧ ch.ctx.setpoint + 20 < pressure
    let x := { ch.ctx with
      steps := ch.ctx.steps.modify ch.ctx.stepIndex (fun p => { p with pressure := pressure })
      lastTag := tag }
    let t : State := { s.used e with chans := s.chans.set c { ch with
      state := if back then .ramp else ch.state
      ctx := if back then { x with ceiling := ch.readings.measured, refusalCount := 0 } else x
      result := { code := 3, tag := tag, outcome := if above then .clamped else .accepted, reason := .none } } }
    let held := s.wordEntry addr e c 3 tag (BitVec.ofNat 16 ch.ctx.pmax)
    (running → ¬above → exec (.retarget addr tag arg) s =
      .next ((t.enqueue (s.wordEntry addr e c 3 tag arg)).answer .completeWrite)) ∧
    (running → above → exec (.retarget addr tag arg) s =
      .next (((t.raise .clamp addr).enqueue held).answer .completeWrite)) ∧
    (ch.state = .armed ∨ ch.state = .closing ∨ ch.state = .closed → above → s.ring.staging.length < 8 →
      exec (.retarget addr tag arg) s = .next
        ((((({ s.used e with chans := s.chans.set c { ch with
            result := { code := 3, tag := tag, outcome := .refused, reason := .state } } } : State).raise .clamp
          addr).stage (ch.refusedRecord c s.status.clock 3 tag arg .state)).enqueue held).answer .completeWrite))

/-- EXTEND of a loaded stage: the cap grows by the argument in litres where it stays within the site cap ceiling; else it
is refused with CAP_CEILING, kept out of the queue, and REFUSE raised, before the record (log entry 31) (R69, R70). -/
def Obligations.ExtendOfALoadedStage : Prop :=
  ∀ (s : State) (addr : Addr) (e : CacheEntry) (c : ChanId) (tag : Byte) (arg : Half), s.acceptsWord addr e c →
    s.chans[c].state = .armed ∨ s.chans[c].state = .ramp ∨ s.chans[c].state = .hold ∨ s.chans[c].state = .parked →
    let ch := s.chans[c]
    let cap := ch.ctx.cap + arg.toNat * 10
    (cap ≤ s.loader.setup.siteCap.toNat * 100 →
      exec (.extend addr tag arg) s = .next
        (({ s.used e with
          chans := s.chans.set c { ch with
            ctx := { ch.ctx with cap := cap, lastTag := tag }
            result := { code := 4, tag := tag, outcome := .accepted, reason := .none } }
          queue := s.queue ++ [s.wordEntry addr e c 4 tag arg] } : State).answer .completeWrite)) ∧
    (s.loader.setup.siteCap.toNat * 100 < cap →
      exec (.extend addr tag arg) s = .next
        (((({ s.used e with chans := s.chans.set c { ch with
            result := { code := 4, tag := tag, outcome := .refused, reason := .capCeiling } } } : State).raise
          .refuse addr).stage (ch.refusedRecord c s.status.clock 4 tag arg .capCeiling)).answer .completeWrite))

/-- PARK in RAMP, HOLD or PARKED raises OPERATOR with the PARK word's tag kept first, and is ACCEPTED; where OPERATOR is
already in the set of a parked stage only the last tag changes; in the other states it is refused with STATE (R90, R91). -/
def Obligations.ParkCommands : Prop :=
  ∀ (s : State) (addr : Addr) (e : CacheEntry) (c : ChanId) (tag : Byte) (arg : Half), s.acceptsWord addr e c →
    let ch := s.chans[c]
    let result : ResultLatch := { code := 5, tag := tag, outcome := .accepted, reason := .none }
    let word := s.wordEntry addr e c 5 tag arg
    let parked (x : Context) : State := { s.used e with chans := s.chans.set c { ch with
      state := .parked, ctx := x, result := result } }
    let first := { ch.ctx with
      lastTag := tag, parkSet := 0x80, causesSeen := ch.ctx.causesSeen ||| 0x80, demand := 0, setpoint := 0 }
    let more := { ch.ctx with
      lastTag := tag, parkSet := ch.ctx.parkSet ||| 0x80, causesSeen := ch.ctx.causesSeen ||| 0x80 }
    (ch.state = .ramp ∨ ch.state = .hold →
      exec (.park addr tag arg) s = .next
        ((((parked first).stage (first.ownRecord c s.status.clock (.parked .operator 0x80))).enqueue word).answer
          .completeWrite)) ∧
    (ch.state = .parked → ch.ctx.parkSet.getLsbD 7 = false →
      exec (.park addr tag arg) s = .next
        ((((parked more).stage (more.ownRecord c s.status.clock (.parked .operator more.parkSet))).enqueue word).answer
          .completeWrite)) ∧
    (ch.state = .parked → ch.ctx.parkSet.getLsbD 7 = true →
      exec (.park addr tag arg) s = .next
        (((parked { ch.ctx with lastTag := tag }).enqueue word).answer .completeWrite)) ∧
    (ch.state = .vacant ∨ ch.state = .armed ∨ ch.state = .closing ∨ ch.state = .closed →
      exec (.park addr tag arg) s = .next
        (((({ s.used e with chans := s.chans.set c { ch with
            result := { code := 5, tag := tag, outcome := .refused, reason := .state } } } : State).stage
          (ch.refusedRecord c s.status.clock 5 tag arg .state)).enqueue word).answer .completeWrite))

/-- RESUME in PARKED. With no cause persisting it is ACCEPTED: RAMP with an empty set, as R93 gives, and a RESUMED
record. Else it is refused with the first cause of the set in cause order: the set keeps the causes that persist and takes
the ones the field shows; the ones it takes join the causes seen, each with a PARKED record and the set so far, in cause
order; nothing else of the channel changes but the result word; the ORDER_REFUSED record follows, and the word is queued as
written; the field is looked at in the order STOP_A, STOP_B, PERMIT, LOS (log entry 39) (R61, R90, R92, R93, R138). -/
def Obligations.ResumeInParked : Prop :=
  ∀ (s : State) (addr : Addr) (e : CacheEntry) (c : ChanId) (tag : Byte) (arg : Half), s.acceptsWord addr e c →
    let ch := s.chans[c]
    let g := s.field.gauges[ch.ctx.gauge]
    let a := s.field.stopA.accepted && !s.status.maskA.getLsbD c.val
    let b := s.field.stopB.accepted && !s.status.maskB.getLsbD c.val
    let p := !s.field.permits[c].accepted
    let l := ch.readings.los
    let u := ch.ctx.parkSet.getLsbD 4 && !(g.valid && decide (g.reading.toNat - ch.ctx.baseline < ch.ctx.upliftLimit))
    let shown : Byte := (0#4 ++ BitVec.ofBool l ++ BitVec.ofBool p ++ BitVec.ofBool b ++ BitVec.ofBool a : Byte)
    let set : Byte := shown ||| (if u then 0x10 else 0)
    let kept := ch.ctx.parkSet &&& set
    let found : List Record := [Cause.stopA, .stopB, .permit, .los].filterMap (fun k =>
      if shown &&& k.mark ≠ 0 ∧ kept &&& k.mark = 0 then
        some (ch.ctx.ownRecord c s.status.clock (.parked k (kept ||| (shown &&& (k.mark ||| (k.mark - 1))))))
      else none)
    let why : Reason := if a then .stopA else if b then .stopB else if p then .permit else if l then .los else .uplift
    let x := { ch.ctx with
      parkSet := 0, ceiling := ch.readings.measured, demand := 0, refusalCount := 0, overRun := 0, losRun := 0
      lastTag := tag }
    ch.state = .parked →
    (set = 0 → exec (.resume addr tag arg) s = .next
      (((({ s.used e with chans := s.chans.set c { ch with
          state := .ramp, ctx := x
          result := { code := 6, tag := tag, outcome := .accepted, reason := .none } } } : State).stage
        (x.ownRecord c s.status.clock (.resumed ch.ctx.stepIndex ch.readings.measured))).enqueue
        (s.wordEntry addr e c 6 tag arg)).answer .completeWrite)) ∧
    (set ≠ 0 → exec (.resume addr tag arg) s = .next
      (((State.stageAll { s.used e with chans := s.chans.set c { ch with
          ctx := { ch.ctx with parkSet := set, causesSeen := ch.ctx.causesSeen ||| (shown &&& ~~~kept) }
          result := { code := 6, tag := tag, outcome := .refused, reason := why } } }
        (found ++ [ch.refusedRecord c s.status.clock 6 tag arg why])).enqueue
        (s.wordEntry addr e c 6 tag arg)).answer .completeWrite))

/-- CLOSE in RAMP, HOLD or PARKED goes to CLOSING with reason OPERATOR and offers the close record, the CLOSE word's tag
kept first; in CLOSING it is refused with BUSY, in VACANT, ARMED and CLOSED with STATE (R86, R89). -/
def Obligations.CloseCommands : Prop :=
  ∀ (s : State) (addr : Addr) (e : CacheEntry) (c : ChanId) (tag : Byte) (arg : Half), s.acceptsWord addr e c →
    let ch := s.chans[c]
    let x := { ch.ctx with lastTag := tag, demand := 0, setpoint := 0, closeReason := some .operator }
    let word := s.wordEntry addr e c 7 tag arg
    let refuse (why : Reason) : Prop := exec (.close addr tag arg) s = .next
      (((({ s.used e with chans := s.chans.set c { ch with
          result := { code := 7, tag := tag, outcome := .refused, reason := why } } } : State).stage
        (ch.refusedRecord c s.status.clock 7 tag arg why)).enqueue word).answer .completeWrite)
    (ch.state = .ramp ∨ ch.state = .hold ∨ ch.state = .parked →
      exec (.close addr tag arg) s = .next
        (((({ s.used e with chans := s.chans.set c { ch with
            state := .closing, ctx := x
            result := { code := 7, tag := tag, outcome := .accepted, reason := .none } } } : State).stage
          (x.ownRecord c s.status.clock (.stageClosed .operator ch.ctx.causesSeen ch.ctx.take ch.ctx.peak
            ch.readings.measured ch.ctx.elapsed (ch.ctx.take * 10 / ch.ctx.length)))).enqueue word).answer
          .completeWrite)) ∧
    (ch.state = .closing → refuse .busy) ∧
    (ch.state = .vacant ∨ ch.state = .armed ∨ ch.state = .closed → refuse .state)

/-- RELEASE in ARMED or CLOSED goes to VACANT with the context cleared and readings and image kept; from ARMED it offers
an ORDER_RELEASED record with the stage's identity and the RELEASE word's tag, from CLOSED none; in CLOSING it is refused
with BUSY, in VACANT, RAMP, HOLD and PARKED with STATE (R95, R96). -/
def Obligations.ReleaseCommands : Prop :=
  ∀ (s : State) (addr : Addr) (e : CacheEntry) (c : ChanId) (tag : Byte) (arg : Half), s.acceptsWord addr e c →
    let ch := s.chans[c]
    let word := s.wordEntry addr e c 8 tag arg
    let freed : State := { s.used e with chans := s.chans.set c { ch with
      state := .vacant, ctx := Context.cleared
      result := { code := 8, tag := tag, outcome := .accepted, reason := .none } } }
    let refuse (why : Reason) : Prop := exec (.release addr tag arg) s = .next
      (((({ s.used e with chans := s.chans.set c { ch with
          result := { code := 8, tag := tag, outcome := .refused, reason := why } } } : State).stage
        (ch.refusedRecord c s.status.clock 8 tag arg why)).enqueue word).answer .completeWrite)
    (ch.state = .armed →
      exec (.release addr tag arg) s = .next
        (((freed.stage { channel := some c, tag := tag, clock := s.status.clock, hole := ch.ctx.hole
                         stageNo := ch.ctx.stageNo, payload := .orderReleased }).enqueue word).answer .completeWrite)) ∧
    (ch.state = .closed → exec (.release addr tag arg) s = .next ((freed.enqueue word).answer .completeWrite)) ∧
    (ch.state = .closing → refuse .busy) ∧
    (ch.state = .vacant ∨ ch.state = .ramp ∨ ch.state = .hold ∨ ch.state = .parked → refuse .state)

/-- When a park cause arises: in RAMP or HOLD the channel goes to PARKED with that one cause, demand and permitted
setpoint 0 and the return valve open; in PARKED a cause not in the set joins it and the causes seen; each addition
offers a PARKED record with the cause and the whole set; else nothing changes and nothing is offered; causes that arise
one after another act in turn (R90). -/
def Obligations.ParkCauses : Prop :=
  ∀ (ch : Channel) (c : ChanId) (clock : Word) (cause : Cause),
    let run := ch.state = .ramp ∨ ch.state = .hold
    let first := { ch.ctx with
      parkSet := cause.mark, causesSeen := ch.ctx.causesSeen ||| cause.mark, demand := 0, setpoint := 0 }
    let more := { ch.ctx with
      parkSet := ch.ctx.parkSet ||| cause.mark, causesSeen := ch.ctx.causesSeen ||| cause.mark }
    let new := ch.ctx.parkSet &&& cause.mark = 0
    (run → ch.park c clock cause =
      ({ ch with state := .parked, ctx := first }, [first.ownRecord c clock (.parked cause cause.mark)])) ∧
    (run → (ch.park c clock cause).1.strokeDemand = 0 ∧ (ch.park c clock cause).1.valveShut = false) ∧
    (ch.state = .parked → new → ch.park c clock cause =
      ({ ch with ctx := more }, [more.ownRecord c clock (.parked cause more.parkSet)])) ∧
    (ch.state = .parked → ¬new → ch.park c clock cause = (ch, [])) ∧
    (¬run → ch.state ≠ .parked → ch.park c clock cause = (ch, [])) ∧
    ch.parkEach c clock [] = (ch, []) ∧
    ∀ more : List Cause, ch.parkEach c clock (cause :: more) =
      (((ch.park c clock cause).1.parkEach c clock more).1,
        (ch.park c clock cause).2 ++ ((ch.park c clock cause).1.parkEach c clock more).2)

/-! ### SNAP pages and capture buffers -/

/-- A read of a snapshot word whose key a buffer holds: a FILLED buffer answers it with its word in the page's byte order
and is freed by the read of the end word; an ARMED one gives RETRY. The offsets from 48 up to the flush offset read 0
(R13, R142, R143, R146, R148). -/
def Obligations.SnapReadsOfAHeldKey : Prop :=
  ∀ (s : State) (addr : Addr) (be : Lanes) (e : CacheEntry) (c : ChanId), be ≠ 0 → s.hits addr e → e.role = .snap c →
    PoolOk s.pool →
    let k : BufKey := { channel := c, fresh := addr.getLsbD 19 }
    let off := offsetOf addr
    let big := s.loader.setup.bigEndian != e.attrs.swap
    (∀ (i : Fin 6) (w : Fin 12) stale snap, s.pool.bufs[i] = .filled k stale snap → off = 4 * w.val → off ≠ 0x2C →
      exec (.snapWordRead addr be) s =
        .next ((s.used e).answer (.completeRead (inOrder big snap[w] &&& laneMask be)))) ∧
    (∀ (i : Fin 6) stale snap, s.pool.bufs[i] = .filled k stale snap → off = 0x2C →
      exec (.snapEndWordRead addr be) s =
        .next (({ s.used e with
          pool := { bufs := s.pool.bufs.set i .free, fillOrder := s.pool.fillOrder.filter (· != i) } } : State).answer
            (.completeRead (inOrder big snap[11] &&& laneMask be)))) ∧
    (∀ i : Fin 6, s.pool.bufs[i] = .armed k → off < 0x30 →
      exec (.snapWordRead addr be) s = .next ((s.used e).answer .retry) ∧
      exec (.snapEndWordRead addr be) s = .next ((s.used e).answer .retry)) ∧
    (0x30 ≤ off → off ≠ 0xFFC → exec (.snapWordRead addr be) s = .next ((s.used e).answer (.completeRead 0)))

/-- A read of a snapshot word whose key no buffer holds. With all six ARMED it is answered RETRY and changes no buffer;
else a FREE buffer, or the head of the fill order, takes the key: armed with RETRY through the fresh address, filled from
the channel and read through the current one, and freed again by the end word. Which FREE buffer is used is the model's
choice (log entry 17) (R144, R145, R146, R148). -/
def Obligations.SnapReadsThatObtain : Prop :=
  ∀ (s : State) (addr : Addr) (be : Lanes) (e : CacheEntry) (c : ChanId), be ≠ 0 → s.hits addr e → e.role = .snap c →
    PoolOk s.pool →
    let k : BufKey := { channel := c, fresh := addr.getLsbD 19 }
    let big := s.loader.setup.bigEndian != e.attrs.swap
    let snap := s.chans[c].snapshot false s.status.clock
    let others (i : Fin 6) := s.pool.fillOrder.filter (· != i)
    (∀ i : Fin 6, s.pool.bufs[i].key? ≠ some k) →
    ((∀ i : Fin 6, ∃ k', s.pool.bufs[i] = .armed k') → offsetOf addr < 0x30 →
      exec (.snapWordRead addr be) s = .next ((s.used e).answer .retry) ∧
      exec (.snapEndWordRead addr be) s = .next ((s.used e).answer .retry)) ∧
    (¬(∀ i : Fin 6, ∃ k', s.pool.bufs[i] = .armed k') →
      ∃ i : Fin 6, (s.pool.bufs[i] = .free ∨ (∀ j : Fin 6, s.pool.bufs[j] ≠ .free) ∧ s.pool.fillOrder.head? = some i) ∧
        (k.fresh = true → offsetOf addr < 0x30 →
          exec (.snapWordRead addr be) s = .next (({ s.used e with
            pool := { bufs := s.pool.bufs.set i (.armed k), fillOrder := others i } } : State).answer .retry) ∧
          exec (.snapEndWordRead addr be) s = .next (({ s.used e with
            pool := { bufs := s.pool.bufs.set i (.armed k), fillOrder := others i } } : State).answer .retry)) ∧
        (k.fresh = false → ∀ w : Fin 12, offsetOf addr = 4 * w.val → w ≠ 11 →
          exec (.snapWordRead addr be) s = .next (({ s.used e with
            pool := { bufs := s.pool.bufs.set i (.filled k false snap), fillOrder := others i ++ [i] } } : State).answer
              (.completeRead (inOrder big snap[w] &&& laneMask be)))) ∧
        (k.fresh = false → offsetOf addr = 0x2C →
          exec (.snapEndWordRead addr be) s = .next (({ s.used e with
            pool := { bufs := s.pool.bufs.set i .free, fillOrder := others i } } : State).answer
              (.completeRead (inOrder big s.status.clock &&& laneMask be)))))

/-- A read of the flush offset through either alias frees every buffer whose key names the channel, current and fresh,
FILLED and ARMED alike, and is answered COMPLETE with zero; it obtains none, arms none and changes no other (R149). -/
def Obligations.SnapFlush : Prop :=
  ∀ (s : State) (addr : Addr) (be : Lanes) (e : CacheEntry) (c : ChanId), be ≠ 0 → s.hits addr e → e.role = .snap c →
    offsetOf addr = 0xFFC →
    let names (b : Buffer) : Bool :=
      match b with
      | .free => false
      | .armed k => k.channel == c
      | .filled k _ _ => k.channel == c
    exec (.snapFlushRead addr be) s = .next
      (({ s.used e with
        pool :=
          { bufs := s.pool.bufs.map (fun b => if names b then .free else b)
            fillOrder := s.pool.fillOrder.filter (fun i => !names s.pool.bufs[i]) } } : State).answer (.completeRead 0))

/-- The timers of the buffers: the arm timeout fills the channel's ARMED buffer as the channel stands, with the STALE mark,
at the newest end of the fill order; the expiry frees a FILLED buffer (R147, R150). A timer whose buffer another event has
taken first finds nothing to act on (R153), and an ARMED buffer has no expiry (R150); that the row of a timer then changes
nothing is the model's reading (log entry 3). -/
def Obligations.BufferTimers : Prop :=
  ∀ (s : State) (c : ChanId) (fresh : Bool), PoolOk s.pool →
    let k : BufKey := { channel := c, fresh := true }
    let k' : BufKey := { channel := c, fresh := fresh }
    (∀ i : Fin 6, s.pool.bufs[i] = .armed k → exec (.armTimeout c) s = .next
      { s with pool :=
        { bufs := s.pool.bufs.set i (.filled k true (s.chans[c].snapshot true s.status.clock))
          fillOrder := s.pool.fillOrder ++ [i] } }) ∧
    ((∀ i : Fin 6, s.pool.bufs[i] ≠ .armed k) → exec (.armTimeout c) s = .next s) ∧
    (∀ (i : Fin 6) stale snap, s.pool.bufs[i] = .filled k' stale snap → exec (.bufferExpiry c fresh) s = .next
      { s with pool := { bufs := s.pool.bufs.set i .free, fillOrder := s.pool.fillOrder.filter (· != i) } }) ∧
    ((∀ (i : Fin 6) stale snap, s.pool.bufs[i] ≠ .filled k' stale snap) → exec (.bufferExpiry c fresh) s = .next s)

/-- The twelve words of a snapshot, field by field at the places of 12.5, with the close reason in bits 10 to 8 of word 10,
and 0 in every bit of no field (R152, R186). -/
def Obligations.SnapshotWords : Prop :=
  ∀ (ch : Channel) (stale : Bool) (clock : Word),
    let x := ch.ctx
    let r := ch.readings
    (ch.snapshot stale clock).toList =
      [wordOf [(2, 0, ch.state.code.toNat), (4, 4, r.los.toNat), (5, 5, stale.toNat), (6, 6, x.ginLimited.toNat),
          (15, 8, x.stepIndex)],
        wordOf [(15, 0, r.measured), (31, 16, x.setpoint)], wordOf [(15, 0, r.flow), (21, 16, x.demand)],
        wordOf [(31, 0, x.take)], wordOf [(15, 0, min x.specificTake 65535), (31, 16, x.peak)],
        wordOf [(31, 0, x.elapsed)], wordOf [(15, 0, x.refusalCount), (31, 16, min (x.stepTime / 10) 65535)],
        wordOf [(7, 0, x.parkSet.toNat), (15, 8, x.causesSeen.toNat), (31, 16, x.uplift)],
        wordOf [(15, 0, x.hole.toNat), (23, 16, x.stageNo.toNat), (25, 24, x.band.val), (27, 26, x.rampSlot.toNat)],
        r.sequence,
        wordOf [(7, 0, x.lastTag.toNat), (10, 8, (closeCode x.closeReason).toNat), (31, 16, x.ceiling)], clock]

/-- Writes the part owns: of a SNAP page, of a STATUS page under WP, of a STATUS word that cannot be written or an
offset that holds none, and of the command word without the whole RESTART code. Each is answered COMPLETE, raises OWNED with
its address and changes nothing else but the use order (R13, R14, R168, R174). -/
def Obligations.WritesThePartOwns : Prop :=
  ∀ (s : State) (addr : Addr) (be : Lanes) (data : Word) (e : CacheEntry), be ≠ 0 → s.hits addr e →
    let t := ((s.used e).raise .owned addr).answer .completeWrite
    let off := offsetOf addr
    (∀ c, e.role = .snap c → exec (.snapWrite addr be data) s = .next t) ∧
    (e.role = .status → e.attrs.wp = true →
      exec (.governorStatusWrite addr be data) s = .next t ∧ exec (.restart addr) s = .next t ∧
      exec (.eventFilterMaskWrite addr be data) s = .next t ∧ exec (.stopMaskWrite addr be data) s = .next t ∧
      exec (.rampOptionTableWrite addr be data) s = .next t ∧ exec (.statusOtherWrite addr be data) s = .next t) ∧
    (e.role = .status → off ≠ 0 ∧ off ≠ 8 ∧ off ≠ 0xC ∧ off ≠ 0x10 ∧ off ≠ 0x14 →
      exec (.statusOtherWrite addr be data) s = .next t) ∧
    (e.role = .status → off = 8 →
      be ≠ 0xF ∨ inOrder (s.loader.setup.bigEndian != e.attrs.swap) data ≠ 0xC3A50F78 →
      exec (.statusOtherWrite addr be data) s = .next t)

/-! ### STATUS pages -/

/-- A STATUS read is answered with the word at its offset as it stands, in the page's byte order, lanes not enabled 0. Every
word of 12.6 holds its fields at their places, the seven words of the setup summary among them, and 0 in every bit of no
field; the command word and an offset that holds no word read 0 (R14, R168, R170, R175, R186). -/
def Obligations.StatusPageReads : Prop :=
  ∀ (s : State) (addr : Addr) (be : Lanes) (e : CacheEntry), be ≠ 0 → s.hits addr e → e.role = .status →
    let big := s.loader.setup.bigEndian != e.attrs.swap
    let w := s.statusWord
    let u := s.loader.setup
    let v := s.status
    let marks (f : ChanId → Bool) (place : Nat) := (List.finRange 8).map (fun c => (place + c.val, place + c.val, (f c).toNat))
    exec (.statusPageRead addr be) s =
      .next ((s.used e).answer (.completeRead (inOrder big (w (offsetOf addr)) &&& laneMask be))) ∧
    w 0x00 = wordOf [(8, 0, v.flags.toNat), (16, 16, if v.flags = 0 then 0 else 1), (24, 24, v.te.toNat),
      (25, 25, v.trap.toNat), (26, 26, s.ring.halted.toNat)] ∧
    w 0x04 = wordOf [(23, 0, v.faultAddr.toNat)] ∧ w 0x08 = 0 ∧ w 0x0C = wordOf [(15, 0, v.filterMask.toNat)] ∧
    w 0x10 = wordOf [(7, 0, v.maskA.toNat), (15, 8, v.maskB.toNat), (16, 16, s.field.stopA.accepted.toNat),
      (17, 17, s.field.stopB.accepted.toNat)] ∧
    w 0x14 = wordOf [(15, 0, v.rampTable.toNat)] ∧
    w 0x18 = wordOf (marks (fun c => s.field.permits[c].accepted) 0 ++ marks (fun c => s.chans[c].readings.los) 8) ∧
    (∀ g : GaugeId, w (0x1C + 4 * g.val) =
      wordOf [(15, 0, s.field.gauges[g].reading.toNat), (16, 16, s.field.gauges[g].valid.toNat)]) ∧
    w 0x2C = v.clock ∧ w 0x30 = wordOf [(8, 0, s.ring.producer), (24, 16, s.ring.copy)] ∧
    w 0x34 = wordOf [(0, 0, u.bigEndian.toNat), (1, 1, u.pinMode.toNat), (11, 8, u.windowBase.toNat),
      (23, 16, u.autoPark.toNat), (25, 24, u.ringCode.toNat)] ∧
    w 0x38 = wordOf [(23, 0, u.mapBase.toNat)] ∧ w 0x3C = wordOf [(23, 0, u.ringBase.toNat)] ∧
    w 0x40 = wordOf [(7, 0, u.bound1.toNat), (15, 8, u.bound2.toNat), (23, 16, u.bound3.toNat)] ∧
    w 0x44 = wordOf [(15, 0, u.ceiling0.toNat), (31, 16, u.ceiling1.toNat)] ∧
    w 0x48 = wordOf [(15, 0, u.ceiling2.toNat), (31, 16, u.ceiling3.toNat)] ∧
    w 0x4C = wordOf [(15, 0, u.siteCap.toNat), (31, 16, u.rampSlots.toNat)] ∧ (∀ o, 0x50 ≤ o → w o = 0)

/-- Writes of the governor status word, the event filter mask and the ramp option table, under their byte enables and in
the page's byte order: flags and TRAP written 1 are cleared, TE takes its bit, the fault address becomes 0 when no flag is
left; a mask bit or a table bit in an enabled lane takes what is written (R171, R173). -/
def Obligations.StatusWordWrites : Prop :=
  ∀ (s : State) (addr : Addr) (be : Lanes) (data : Word) (e : CacheEntry), be ≠ 0 → s.hits addr e →
    e.role = .status → e.attrs.wp = false →
    let big := s.loader.setup.bigEndian != e.attrs.swap
    let u := s.status
    let bit (i : Nat) : Bool := (inOrder big data).getLsbD i
    let on (i : Nat) : Bool := be.getLsbD (if big then 3 - i / 8 else i / 8)
    (offsetOf addr = 0 → ∃ v : Status,
      exec (.governorStatusWrite addr be data) s = .next (({ s.used e with status := v } : State).answer .completeWrite) ∧
      (∀ i < 9, v.flags.getLsbD i = (u.flags.getLsbD i && !(on i && bit i))) ∧
      v.trap = (u.trap && !(on 25 && bit 25)) ∧ v.te = (if on 24 then bit 24 else u.te) ∧
      v.faultAddr = (if v.flags = 0 then 0 else u.faultAddr) ∧
      { v with flags := u.flags, trap := u.trap, te := u.te, faultAddr := u.faultAddr } = u) ∧
    (offsetOf addr = 0xC → ∃ m : Half,
      exec (.eventFilterMaskWrite addr be data) s =
        .next (({ s.used e with status := { u with filterMask := m } } : State).answer .completeWrite) ∧
      ∀ i < 16, m.getLsbD i = if on i then bit i else u.filterMask.getLsbD i) ∧
    (offsetOf addr = 0x14 → ∃ m : Half,
      exec (.rampOptionTableWrite addr be data) s =
        .next (({ s.used e with status := { u with rampTable := m } } : State).answer .completeWrite) ∧
      ∀ i < 16, m.getLsbD i = if on i then bit i else u.rampTable.getLsbD i)

/-- A write of the stop word sets the masks under its byte enables. A channel whose mark goes from set to clear while the
line is accepted as asserted takes the line's park cause; no other channel changes. The records of the channels reach the
staging queue in an order the spec leaves open (R127, R173; log entries 10, 12). -/
def Obligations.StopMaskWrites : Prop :=
  ∀ (s : State) (addr : Addr) (be : Lanes) (data : Word) (e : CacheEntry), be ≠ 0 → s.hits addr e →
    e.role = .status → e.attrs.wp = false → offsetOf addr = 0x10 →
    let big := s.loader.setup.bigEndian != e.attrs.swap
    let bit (i : Nat) : Bool := (inOrder big data).getLsbD i
    let on (i : Nat) : Bool := be.getLsbD (if big then 3 - i / 8 else i / 8)
    ∃ (t : State) (a b : Byte), exec (.stopMaskWrite addr be data) s = .next (t.answer .completeWrite) ∧
      (∀ i < 8, a.getLsbD i = if on i then bit i else s.status.maskA.getLsbD i) ∧
      (∀ i < 8, b.getLsbD i = if on (8 + i) then bit (8 + i) else s.status.maskB.getLsbD i) ∧
      (let goneA (k : ChanId) : Bool := s.field.stopA.accepted && s.status.maskA.getLsbD k.val && !a.getLsbD k.val
       let goneB (k : ChanId) : Bool := s.field.stopB.accepted && s.status.maskB.getLsbD k.val && !b.getLsbD k.val
       ∃ order : ChanId → List Cause,
         (∀ k, (order k).Perm ((if goneA k then [.stopA] else []) ++ if goneB k then [.stopB] else [])) ∧
         State.OffersIn
           { s.used e with
             status := { s.status with maskA := a, maskB := b }
             chans := Vector.ofFn (fun k =>
               s.chans[k].parkedBy ((if goneA k then 1 else 0) ||| (if goneB k then 2 else 0))) } t
           ((List.finRange 8).flatMap (fun k => (s.chans[k].parkEach k s.status.clock (order k)).2)))

/-- A whole RESTART code in the command word restarts the governor: the map unit empty and its fetch stale, images and
result words cleared, every channel VACANT with its readings kept, every buffer FREE, the ring writer as R164 gives, an
outstanding ring access abandoned (log entry 15); queue, port, field and status unit kept (R49, R71, R98, R151, R164,
R174). -/
def Obligations.GovernorRestart : Prop :=
  ∀ (s : State) (addr : Addr) (e : CacheEntry), s.hits addr e → e.role = .status → e.attrs.wp = false →
    offsetOf addr = 8 →
    let f := s.map.fetcher
    exec (.restart addr) s = .next
      (({ s with
        mem := s.mem.map (fun m =>
          match m.initiator with
          | .ring a _ => { m with initiator := .ring a true }
          | _ => m)
        map :=
          { cache := []
            fetcher :=
              if f.phase = .idle then f
              else { f with stale := true, phase := if s.initiator? = some .fetch then f.phase else .idle }
            failed := none }
        chans := s.chans.map (fun ch => { ch with
          state := .vacant, ctx := Context.cleared, image := Vector.replicate 18 0
          result := { code := 0, tag := 0, outcome := .none, reason := .none } })
        pool := { bufs := Vector.replicate 6 .free, fillOrder := [] }
        ring := { s.ring with
          staging := [], held := [], halted := false, producer := s.ring.copy, rewritePending := true, next := 0 }
        } : State).answer .completeWrite)

/-! ### The memory port -/

/-- The arbiter's order: map fetcher; ring writer with 4 or more records; queue with 6 or more entries; held read; queue;
ring writer. The port carries one access: while one is outstanding nothing is granted. What each initiator is granted is
the access its rule gives (R2, R8, R16, R28, R40, R161, R162, R164; the rewrite's independence of room: log entry 14). -/
def Obligations.ArbiterGrants : Prop :=
  ∀ s : State,
    let u := s.loader.setup
    let r := s.ring
    let n := 64 * 2 ^ u.ringCode.toNat
    let fetches := s.map.fetcher.phase ≠ .idle
    let writes := r.halted = false ∧ (r.rewritePending = true ∨ r.staging ≠ [] ∧ (r.producer + 1) % n ≠ r.copy)
    let granted (m : MemAccess) : Prop := exec .arbiterGrant s = .next { s with mem := some m }
    let entry := u.mapBase + BitVec.ofNat 24 (8 * s.map.fetcher.page.toNat)
    let word (a : RingAccess) (addr : Addr) (v : Word) : MemAccess :=
      { initiator := .ring a false, addr := addr, be := 0xF, write := some (inOrder u.bigEndian v) }
    let ringTurn := ¬fetches ∧ writes ∧ (4 ≤ r.staging.length ∨ s.queue = [] ∧ s.port.held = none)
    (s.mem ≠ none → exec .arbiterGrant s = .next s) ∧
    (s.mem = none →
      (fetches → granted
        { initiator := .fetch, addr := if s.map.fetcher.phase = .second then entry + 4 else entry, be := 0xF
          write := none }) ∧
      (¬fetches → ¬(writes ∧ 4 ≤ r.staging.length) → ∀ q rest, s.queue = q :: rest →
        6 ≤ s.queue.length ∨ s.port.held = none →
        granted { initiator := .drain, addr := q.addr, be := q.be, write := some q.data }) ∧
      (¬fetches → ¬(writes ∧ 4 ≤ r.staging.length) → s.queue.length < 6 → ∀ h, s.port.held = some h →
        granted { initiator := .heldRead, addr := h.addr, be := h.be, write := none }) ∧
      (ringTurn → r.rewritePending = true →
        granted (word .rewrite u.ringBase (BitVec.ofNat 32 r.producer))) ∧
      (ringTurn → r.rewritePending = false → ∀ x rest, r.staging = x :: rest →
        (∀ k : Fin 8, r.next = k.val →
          granted (word (.slotWord k.val) (u.ringBase + BitVec.ofNat 24 (32 + 32 * r.producer + 4 * k.val))
            (x.words r.sequence)[k])) ∧
        (8 ≤ r.next → exec .arbiterGrant s = .next
          { s with
            mem := some (word (.producerWord r.producer) u.ringBase (BitVec.ofNat 32 ((r.producer + 1) % n)))
            ring := { r with producer := (r.producer + 1) % n } })) ∧
      (¬fetches → ¬writes → s.queue = [] → s.port.held = none → exec .arbiterGrant s = .next s))

/-- The end of a held read and of a drain. A held read is answered with the data, lanes not enabled 0 and reversed under
SWAP, or ERROR with no flag. A drain removes the head; on an error or the timeout its write is lost, MEMERR raised with the
entry's address and a MEMORY_ERROR record offered, with the channel of an ORDER entry (R2, R8, R28, R29; log entry 31). -/
def Obligations.HeldReadsAndDrainsEnd : Prop :=
  ∀ s : State,
    (∀ h, s.initiator? = some .heldRead → s.port.held = some h →
      let ended (a : Answer) : State := { s with mem := none, port := { held := none, answer := some a } }
      (∀ data, exec (.heldReadComplete data) s = .next (ended (.completeRead
        (if h.reversed then byteSwap (data &&& laneMask h.be) else data &&& laneMask h.be)))) ∧
      exec .heldReadError s = .next (ended .error) ∧ exec .memoryTimeout s = .next (ended .error)) ∧
    (∀ q rest, s.initiator? = some .drain → s.queue = q :: rest →
      let done : State := { s with mem := none, queue := rest }
      let record : Record :=
        match q.origin with
        | .order c =>
          { channel := some c, tag := 0, clock := s.status.clock, hole := s.chans[c].ctx.hole
            stageNo := s.chans[c].ctx.stageNo, payload := .memoryError q.addr (some q.origin) }
        | o => plainRecord s.status.clock (.memoryError q.addr (some o))
      exec .drainComplete s = .next done ∧
      exec .drainError s = .next ((done.raise .memErr q.addr).stage record) ∧
      exec .memoryTimeout s = .next ((done.raise .memErr q.addr).stage record))

/-- The reads of a fetch. The first keeps word 0; the second resolves it by its role code, channel byte and attribute
bits (a channel above 7, code 0 and every code above 4 make the entry INVALID, with its attributes kept) and places the
entry at the most recently used end, in a free slot or in place of the least recently used unpinned entry, pinned if it
has PIN and fewer than 8 are, else with PINFULL. A failed read ends the fetch with MEMERR, a MEMORY_ERROR record and the
failure mark; a stale fetch places nothing and sets no mark (R35, R40, R41, R42, R44, R45; log entry 31). -/
def Obligations.FetchesEnd : Prop :=
  ∀ (s : State) (data : Word), s.initiator? = some .fetch →
    let m := s.map
    let f := m.fetcher
    let entry := s.loader.setup.mapBase + BitVec.ofNat 24 (8 * f.page.toNat)
    let idle : Fetcher := { f with phase := .idle }
    let room := if m.cache.length < 16 then m.cache else m.cache.eraseP (fun x => !x.pinned)
    let code := bitsOf f.word0 7 0
    let channel := bitsOf f.word0 15 8
    let role : Role :=
      if code = 1 then .pass else if code = 4 then .status
      else if code = 2 ∧ channel ≤ 7 then .order (Fin.ofNat 8 channel)
      else if code = 3 ∧ channel ≤ 7 then .snap (Fin.ofNat 8 channel)
      else .invalid
    let attrs : Attrs :=
      { pin := f.word0.getLsbD 16, swap := f.word0.getLsbD 17, barrier := f.word0.getLsbD 18, wp := f.word0.getLsbD 19 }
    let pin := f.word0.getLsbD 16
    let fits := decide (m.cache.countP (·.pinned) < 8)
    let placed : State := { s with
      mem := none
      map := { m with
        cache := room ++ [{ page := f.page, role := role, attrs := attrs, pinned := pin && fits }]
        fetcher := idle } }
    let failed (mark : Option PageId) : State :=
      let t := (({ s with mem := none, map := { m with fetcher := idle } } : State).raise .memErr entry).stage
        (plainRecord s.status.clock (.memoryError entry none))
      { t with map := { m with fetcher := idle, failed := mark } }
    (f.stale = false → f.phase = .first →
      exec (.fetchFirstReadComplete data) s = .next
        { s with mem := none, map := { m with fetcher := { f with phase := .second, word0 := data } } }) ∧
    (f.stale = false → f.phase = .second →
      exec (.fetchComplete data) s = .next (if pin && !fits then placed.raise .pinFull entry else placed)) ∧
    (f.stale = false →
      exec .fetchReadError s = .next (failed (some f.page)) ∧ exec .memoryTimeout s = .next (failed (some f.page))) ∧
    (f.stale = true →
      exec (.staleFetchEnd false) s = .next { s with mem := none, map := { m with fetcher := idle } } ∧
      exec (.staleFetchEnd true) s = .next (failed m.failed) ∧ exec .memoryTimeout s = .next (failed m.failed))

/-- The end of the ring writer's accesses. A slot write leads to the next access; the producer word removes the head, which
makes room for the earliest held close record, counts it, and takes the channel of a close record from CLOSING to CLOSED; a
rewrite ends the pending mark. An error halts the writer and raises MEMERR, and a failed producer word takes the producer
back. A failed rewrite stays pending (log entry 16). An access abandoned by a restart does none of this but raise MEMERR on an
error (log entry 15) (R88, R158, R161 to R164). -/
def Obligations.RingAccessesEnd : Prop :=
  ∀ (s : State) (m : MemAccess), s.mem = some m →
    let free : State := { s with mem := none }
    (∀ k, m.initiator = .ring (.slotWord k) false →
      exec .ringSlotWriteComplete s = .next { free with ring := { s.ring with next := k + 1 } }) ∧
    (∀ b x rest, m.initiator = .ring (.producerWord b) false → s.ring.staging = x :: rest →
      let ring := { s.ring with
        staging := rest ++ s.ring.held.take 1, held := s.ring.held.drop 1, sequence := s.ring.sequence + 1, next := 0 }
      (∀ c, x.isClose = true → x.channel = some c → s.chans[c].state = .closing →
        exec .producerWriteComplete s = .next
          { free with
            ring := ring
            chans := s.chans.set c { s.chans[c] with
              state := .closed, ctx := { s.chans[c].ctx with setpoint := 0 } } }) ∧
      (x.isClose = false → exec .producerWriteComplete s = .next { free with ring := ring })) ∧
    (m.initiator = .ring .rewrite false →
      exec .producerRewriteComplete s = .next { free with ring := { s.ring with rewritePending := false } }) ∧
    (∀ a, m.initiator = .ring a false →
      let halted : State := { free with
        ring := { s.ring with
          producer := match a with
            | .producerWord b => b
            | _ => s.ring.producer
          halted := true } }
      exec .ringAccessError s = .next (halted.raise .memErr m.addr) ∧
      exec .memoryTimeout s = .next (halted.raise .memErr m.addr)) ∧
    (∀ a, m.initiator = .ring a true →
      (match a with
        | .slotWord _ => exec .ringSlotWriteComplete s = .next free
        | .producerWord _ => exec .producerWriteComplete s = .next free
        | .rewrite => exec .producerRewriteComplete s = .next free) ∧
      exec .ringAccessError s = .next (free.raise .memErr m.addr) ∧
      exec .memoryTimeout s = .next (free.raise .memErr m.addr))

/-! ### Sample arrivals -/

/-- The rise of the ramp ceiling at one sample arrival, for each rate index (R111). -/
def Obligations.RampRates : Prop :=
  rampRise 0 = 1 ∧ rampRise 1 = 2 ∧ rampRise 2 = 3 ∧ rampRise 3 = 4 ∧ rampRise 4 = 5 ∧ rampRise 5 = 6 ∧
  rampRise 6 = 8 ∧ rampRise 7 = 10 ∧ rampRise 8 = 12 ∧ rampRise 9 = 15 ∧ rampRise 10 = 20 ∧ rampRise 11 = 25 ∧
  rampRise 12 = 30 ∧ rampRise 13 = 40 ∧ rampRise 14 = 50 ∧ rampRise 15 = 60

/-- A sample arrival brings the channel's readings up to date in every state, and touches no other channel; outside
RUNNING no sample is taken. The stage of a VACANT, ARMED or CLOSED channel is not touched, and one in CLOSING counts its
take alone (R87, R88, R100, R102, R103, R104). -/
def Obligations.ReadingsAtASample : Prop :=
  ∀ (s : State) (c : ChanId) (smp : Sample),
    let ch := s.chans[c]
    let r := ch.readings
    let window := r.window.drop 1 ++ [min smp.pulses 255]
    let counted : Readings := { r with
      sampled := true, window := window, flow := min (60 * window.sum) 6000, sequence := r.sequence + 1 }
    let taken : Readings :=
      match smp.loop with
      | .good p => { counted with measured := min p 8000, los := false }
      | .los => { counted with los := true, losCount := if r.los then min (r.losCount + 1) 65535 else 1 }
    let take := min (ch.ctx.take + min smp.pulses 255) 4294967295
    (s.loader.mode ≠ .running → exec (.sampleArrival c smp) s = .next s) ∧
    (s.loader.mode = .running → ∃ t : State, exec (.sampleArrival c smp) s = .next t ∧
      t.chans[c].readings = taken ∧ (∀ k : ChanId, k ≠ c → t.chans[k] = s.chans[k]) ∧
      t.chans[c].image = ch.image ∧ t.chans[c].result = ch.result ∧
      (ch.state = .vacant ∨ ch.state = .armed ∨ ch.state = .closed →
        t.chans[c].state = ch.state ∧ t.chans[c].ctx = ch.ctx) ∧
      (ch.state = .closing → t.chans[c].state = .closing ∧
        t.chans[c].ctx = { ch.ctx with take := take, specificTake := take * 10 / ch.ctx.length }) ∧
      t.loader = s.loader ∧ t.port = s.port ∧ t.mem = s.mem ∧ t.queue = s.queue ∧ t.map = s.map ∧
      { t.field with reports := s.field.reports } = s.field ∧
      { t.ring with staging := s.ring.staging, held := s.ring.held } = s.ring ∧
      { t.status with flags := s.status.flags, faultAddr := s.status.faultAddr, te := s.status.te
                      trap := s.status.trap } = s.status ∧ t.pending = s.pending)

/-- What a sample arrival does outside its channel, and nothing else. First its records and flags, in the order of the steps
of R85 (log entry 24): LOS_BEGIN with the flag LOS where the LOS mark sets, LOS_END where it clears, in every state; then, of
a stage in RAMP, HOLD or PARKED, OVERPRESSURE with the flag OVERPRESS at the first sample of a run; GIN_LIMIT_BEGIN where the
sample sets the GIN-limited mark; STAGE_CLOSED where it closes the stage, PARKED where it adds a cause, STEP_REACHED where the
stage enters HOLD (and perhaps advances at once). Both flags are raised with the channel's field address. Then a neighbour
report for every channel whose stage watches it, appended in channel order to the one list in which reports wait (log entry
19), and the fill of the channel's ARMED buffer with the channel as the sample has left it (R78, R86, R90, R101, R108, R119,
R130, R146, R154). -/
def Obligations.HandedOnAtASample : Prop :=
  ∀ (s : State) (c : ChanId) (smp : Sample), s.loader.mode = .running → PoolOk s.pool →
    let k : BufKey := { channel := c, fresh := true }
    let ch := s.chans[c]
    let x := ch.ctx
    let runs := ch.state = .ramp ∨ ch.state = .hold
    let good := smp.loop ≠ .los
    let field : Addr := BitVec.ofNat 24 (0xFFFF01 + 4 * c.val)
    let own (p : Payload) : Record := x.ownRecord c s.status.clock p
    ∃ (t : State) (news : List Effect), exec (.sampleArrival c smp) s = .next t ∧
      (let ch' := t.chans[c]
       let y := ch'.ctx
       let measured := ch'.readings.measured
       news =
        (if ¬good ∧ ch.readings.los = false then
          [.news (own (.losBegin ch.state ch.readings.measured)) .los field] else []) ++
        (if good ∧ ch.readings.los = true then
          [.stage (own (.losEnd ch.state measured ch.readings.losCount))] else []) ++
        (if (runs ∨ ch.state = .parked) ∧ good ∧ x.overRun = 0 ∧ x.pmax < measured then
          [.news (own (.overpressure measured x.pmax ch.state)) .overPress field] else []) ++
        (if runs ∧ x.ginLimited = false ∧ y.ginLimited = true then
          [.stage (own (.ginLimitBegin y.take y.pgin x.stepIndex))] else []) ++
        (if (runs ∨ ch.state = .parked) ∧ ch'.state = .closing then
          y.closeReason.toList.map (fun why =>
            .stage (own (.stageClosed why x.causesSeen y.take y.peak measured y.elapsed (y.take * 10 / x.length))))
         else if runs ∧ ch'.state = .parked ∨ ch.state = .parked ∧ y.parkSet ≠ x.parkSet then
          [.stage (own (.parked (if good then .overpressure else .los) y.parkSet))]
         else if ch.state = .ramp ∧ (ch'.state = .hold ∨ y.stepIndex ≠ x.stepIndex) then
          [.stage (own (.stepReached x.stepIndex measured y.take))]
         else []) ∧
       t = { s.performAll news with
        chans := s.chans.set c ch'
        field := { s.field with
          reports := s.field.reports ++
            ((List.finRange 8).filter (fun w => t.chans[w].ctx.watches.any (fun e => e.channel == c))).map (fun w =>
              { watched := c, watcher := w, state := ch'.state, measured := measured, los := ch'.readings.los }) }
        pool := t.pool }) ∧
      (∀ i : Fin 6, s.pool.bufs[i] = .armed k → t.pool =
        { bufs := s.pool.bufs.set i (.filled k false (t.chans[c].snapshot false s.status.clock))
          fillOrder := s.pool.fillOrder ++ [i] }) ∧
      ((∀ i : Fin 6, s.pool.bufs[i] ≠ .armed k) → t.pool = s.pool)

/-- The measurements of a stage at a sample arrival taken in RAMP, HOLD or PARKED: take, specific take and elapsed at every
sample; peak, overpressure run and LOS run at a good one; the LOS run at a LOS one where auto-park is disabled (R104, R105,
R118, R121, R122). -/
def Obligations.MeasurementsOfAStage : Prop :=
  ∀ (s : State) (c : ChanId) (smp : Sample), s.loader.mode = .running →
    s.chans[c].state = .ramp ∨ s.chans[c].state = .hold ∨ s.chans[c].state = .parked →
    let x := s.chans[c].ctx
    let take := min (x.take + min smp.pulses 255) 4294967295
    ∃ t : State, exec (.sampleArrival c smp) s = .next t ∧
      let y := t.chans[c].ctx
      y.take = take ∧ y.specificTake = take * 10 / x.length ∧ y.elapsed = min (x.elapsed + 1) 4294967295 ∧
      (∀ p, smp.loop = .good p →
        y.peak = max x.peak (min p 8000) ∧ y.losRun = 0 ∧
        y.overRun = if x.pmax < min p 8000 then min (x.overRun + 1) 3 else 0) ∧
      (smp.loop = .los →
        y.peak = x.peak ∧ y.overRun = x.overRun ∧
        y.losRun = if s.loader.setup.autoPark.getLsbD c.val then x.losRun else min (x.losRun + 1) 20)

/-- The close conditions of a sample arrival, in the order CAP, GIN, REFUSAL, SCHEDULE: CAP in RAMP, HOLD and PARKED at
every sample; GIN in RAMP and HOLD at a good one; REFUSAL and SCHEDULE in HOLD on the last step at a good one. The stage
goes to CLOSING with the first that is met, demand and permitted setpoint 0, its step and its park causes kept, and does not
close without one (R81 to R86, R109, R110). The record it offers is in HandedOnAtASample. -/
def Obligations.CloseAtASample : Prop :=
  ∀ (s : State) (c : ChanId) (smp : Sample), s.loader.mode = .running →
    s.chans[c].state = .ramp ∨ s.chans[c].state = .hold ∨ s.chans[c].state = .parked →
    let x := s.chans[c].ctx
    let runs := s.chans[c].state = .ramp ∨ s.chans[c].state = .hold
    let lastHold := s.chans[c].state = .hold ∧ x.steps.length ≤ x.stepIndex + 1
    let take := min (x.take + min smp.pulses 255) 4294967295
    let flow := min (60 * (s.chans[c].readings.window.drop 1 ++ [min smp.pulses 255]).sum) 6000
    let hold := ((x.steps[x.stepIndex]?).map (·.hold)).getD 0
    let cap := x.cap ≤ take
    let gin := runs ∧ ∃ p, smp.loop = .good p ∧ 0 < take ∧ x.gin * 100 * x.length ≤ min p 8000 * take
    let good := ∃ p, smp.loop = .good p
    let refusal := lastHold ∧ good ∧ x.tref * 10 ≤ (if flow ≤ x.qref then x.refusalCount + 1 else 0)
    let schedule := lastHold ∧ good ∧ 0 < hold ∧ hold * 10 ≤ x.stepTime + 1
    ∃ t : State, exec (.sampleArrival c smp) s = .next t ∧
      (let closed (why : CloseReason) : Prop := t.chans[c].state = .closing ∧
          t.chans[c].ctx.closeReason = some why ∧ t.chans[c].ctx.demand = 0 ∧ t.chans[c].ctx.setpoint = 0 ∧
          t.chans[c].ctx.stepIndex = x.stepIndex ∧ t.chans[c].ctx.parkSet = x.parkSet ∧
          t.chans[c].ctx.causesSeen = x.causesSeen
       (cap → closed .cap) ∧ (¬cap → gin → closed .gin) ∧ (¬cap → ¬gin → refusal → closed .refusal) ∧
       (¬cap → ¬gin → ¬refusal → schedule → closed .schedule) ∧
       (¬cap → ¬gin → ¬refusal → ¬schedule → t.chans[c].state ≠ .closing))

/-- The regulation of a stage in RAMP or HOLD at a good sample. Whatever becomes of the stage, Pgin is the curve over the take
where take is above 0 and the hold target the least of the step pressure, Pmax and then Pgin, and the GIN-limited mark sets
where Pgin is the least term in force and below the step pressure. Where the sample closes or parks the stage, its ceiling,
step time and refusal count stand as this sample has counted them. Otherwise the ramp ceiling rises in RAMP by the rate of
the stage's slot, up to Pmax; the permitted setpoint is the hold target, in RAMP held to the ceiling; demand goes one step
toward it with a band of 20 kPa, to 0 above Pmax, and is left where the step advances; and the refusal count, on the last
step in HOLD, counts low flow and returns to 0 above it (R78, R79, R80, R82, R85, R86, R90, R106, R107, R108, R111 to R116,
R118). -/
def Obligations.RegulationAtASample : Prop :=
  ∀ (s : State) (c : ChanId) (smp : Sample) (p : Nat), s.loader.mode = .running → smp.loop = .good p →
    s.chans[c].state = .ramp ∨ s.chans[c].state = .hold →
    let x := s.chans[c].ctx
    let measured := min p 8000
    let inRamp := s.chans[c].state = .ramp
    let slot := if s.loader.setup.pinMode then smp.rampSelect else x.rampSlot
    let rise := rampRise (s.status.rampTable.extractLsb' (4 * slot.toNat) 4)
    let take := min (x.take + min smp.pulses 255) 4294967295
    let flow := min (60 * (s.chans[c].readings.window.drop 1 ++ [min smp.pulses 255]).sum) 6000
    let step := ((x.steps[x.stepIndex]?).map (·.pressure)).getD 0
    let hold := ((x.steps[x.stepIndex]?).map (·.hold)).getD 0
    let ceiling := if inRamp then (if x.pmax ≤ x.ceiling then x.ceiling else min (x.ceiling + rise) x.pmax) else x.ceiling
    let base := min step x.pmax
    let pgin := x.gin * 100 * x.length / take
    let target := if 0 < take then min base pgin else base
    let setpoint := if inRamp then min target ceiling else target
    let governs := 0 < take ∧ pgin ≤ x.pmax ∧ pgin < step ∧ (inRamp → pgin ≤ ceiling)
    let time := if inRamp then x.stepTime else x.stepTime + 1
    let count := if inRamp ∨ x.stepIndex + 1 < x.steps.length then x.refusalCount
      else if flow ≤ x.qref then x.refusalCount + 1 else 0
    let reaches := inRamp ∧ target ≤ measured + 20
    let advances := x.stepIndex + 1 < x.steps.length ∧ hold * 10 ≤ time ∧ (reaches ∨ ¬inRamp)
    let stepped := if measured + 20 < setpoint then min (x.demand + 1) 63
      else if setpoint + 20 < measured then x.demand - 1 else x.demand
    ∃ t : State, exec (.sampleArrival c smp) s = .next t ∧
      let y := t.chans[c].ctx
      y.pgin = (if 0 < take then pgin else x.pgin) ∧ y.holdTarget = target ∧
      (y.ginLimited = true ↔ x.ginLimited = true ∨ governs) ∧
      (t.chans[c].state = .closing ∨ t.chans[c].state = .parked →
        y.ceiling = ceiling ∧ y.stepIndex = x.stepIndex ∧ y.stepTime = time ∧ y.refusalCount = count) ∧
      (t.chans[c].state = .ramp ∨ t.chans[c].state = .hold →
        y.setpoint = setpoint ∧
        y.demand = (if x.pmax < measured then 0 else if advances then x.demand else stepped) ∧
        t.chans[c].state = (if advances then .ramp else if reaches ∨ ¬inRamp then .hold else .ramp) ∧
        y.stepIndex = (if advances then x.stepIndex + 1 else x.stepIndex) ∧
        y.stepTime = (if advances then 0 else time) ∧ y.ceiling = (if advances then measured else ceiling) ∧
        y.refusalCount = (if advances then 0 else count) ∧ y.parkSet = x.parkSet ∧ y.causesSeen = x.causesSeen ∧
        y.steps = x.steps ∧ y.watches = x.watches)

/-- The park conditions of the sample itself, where no close condition holds before them: the overpressure run reaching 3
parks with OVERPRESSURE; a LOS sample parks with LOS at once under auto-park, and without it where the LOS run reaches 20;
short of that a LOS sample sets demand to 0 and moves neither setpoint, ceiling nor counts. A stage in PARKED that does not
close takes the same causes into its set where it does not hold them, and nothing else of its context moves but the
measurements: not the ceiling, the step time, the refusal count or demand. Reaching is the step to the value (log entry 13)
(R90, R94, R118, R120, R121, R122). -/
def Obligations.ParkAtASample : Prop :=
  ∀ (s : State) (c : ChanId) (smp : Sample), s.loader.mode = .running →
    let runs := s.chans[c].state = .ramp ∨ s.chans[c].state = .hold
    let x := s.chans[c].ctx
    let auto := s.loader.setup.autoPark.getLsbD c.val
    ∃ t : State, exec (.sampleArrival c smp) s = .next t ∧
      (runs → t.chans[c].state ≠ .closing →
        let y := t.chans[c].ctx
        let parked (mark : Byte) : Prop := t.chans[c].state = .parked ∧ y.parkSet = mark ∧
          y.causesSeen = x.causesSeen ||| mark ∧ y.demand = 0 ∧ y.setpoint = 0
        (∀ p, smp.loop = .good p → x.pmax < min p 8000 → x.overRun = 2 → parked 0x20) ∧
        (∀ p, smp.loop = .good p → (min p 8000 ≤ x.pmax ∨ x.overRun < 2) → t.chans[c].state ≠ .parked) ∧
        (smp.loop = .los → auto = true → parked 0x08) ∧
        (smp.loop = .los → auto = false → x.losRun = 19 → parked 0x08) ∧
        (smp.loop = .los → auto = false → x.losRun < 19 →
          t.chans[c].state = s.chans[c].state ∧ y.demand = 0 ∧ y.setpoint = x.setpoint ∧ y.ceiling = x.ceiling ∧
          y.holdTarget = x.holdTarget ∧ y.pgin = x.pgin ∧ y.stepTime = x.stepTime ∧
          y.refusalCount = x.refusalCount ∧ y.ginLimited = x.ginLimited ∧ y.parkSet = x.parkSet)) ∧
      (s.chans[c].state = .parked → t.chans[c].state ≠ .closing →
        let y := t.chans[c].ctx
        let added : Byte :=
          match smp.loop with
          | .good p => if x.pmax < min p 8000 ∧ x.overRun = 2 then 0x20 else 0
          | .los => if auto = true ∨ x.losRun = 19 then 0x08 else 0
        t.chans[c].state = .parked ∧ y =
          { x with
            take := y.take, specificTake := y.specificTake, elapsed := y.elapsed, peak := y.peak, overRun := y.overRun
            losRun := y.losRun, parkSet := x.parkSet ||| added
            causesSeen := x.causesSeen ||| (added &&& ~~~x.parkSet) })

/-! ### Neighbour reports, gauges and lines -/

/-- The row takes the oldest report that waits between its two channels, wherever it stands in the list, and leaves the
others; with none waiting nothing happens. That reports wait in a list is the model's reading of R101 and R134 (log entries 3
and 19). In RAMP or HOLD, a good report of a VACANT or ARMED channel
trips every untripped entry for it whose threshold it reaches, each with a COMMUNICATION record in list order, and parks
the stage where one of them has action PARK; any other report changes no stage (R101, R134). -/
def Obligations.NeighbourReports : Prop :=
  (∀ (s : State) (watched watcher : ChanId), (∀ r ∈ s.field.reports, r.watched = watched → r.watcher ≠ watcher) →
    exec (.neighbourReport watched watcher) s = .next s) ∧
  ∀ (s : State) (r : Report) (before rest : List Report), s.field.reports = before ++ r :: rest →
    (∀ q ∈ before, q.watched = r.watched → q.watcher ≠ r.watcher) →
    let c := r.watcher
    let ch := s.chans[c]
    let gone : State := { s with field := { s.field with reports := before ++ rest } }
    let judged := (ch.state = .ramp ∨ ch.state = .hold) ∧ r.los = false ∧ (r.state = .vacant ∨ r.state = .armed)
    let trips (w : Watch) : Bool := !w.tripped && w.channel == r.watched && decide (w.threshold ≤ r.measured)
    let x := { ch.ctx with watches := ch.ctx.watches.map (fun w => if trips w then { w with tripped := true } else w) }
    let parks := ch.ctx.watches.any (fun w => trips w && w.action == .park)
    let told : List Record := (ch.ctx.watches.zipIdx 1).filterMap (fun (w, place) =>
      if trips w then
        some (ch.ctx.ownRecord c s.status.clock (.communication place w.channel w.threshold r.measured w.action))
      else none)
    let after := ({ ch with ctx := x } : Channel).parkedBy (if parks then 0x40 else 0)
    (¬judged → exec (.neighbourReport r.watched c) s = .next gone) ∧
    (judged → exec (.neighbourReport r.watched c) s = .next
      (State.stageAll { gone with chans := s.chans.set c after }
        (told ++ if parks then [x.ownRecord c s.status.clock (.parked .communication 0x40)] else [])))

/-- A gauge sample in RUNNING: the sampled mark set, the reading taken and the mark valid at a valid sample, the mark
cleared and the reading kept at an invalid one. Each stage in RAMP, HOLD or PARKED that names the gauge takes its uplift
and parks with UPLIFT at its limit, or parks with UPLIFT at an invalid sample. Outside RUNNING none is taken (R131, R132,
R133, R140; the order of the records: log entry 10). -/
def Obligations.GaugeSamples : Prop :=
  ∀ (s : State) (g : GaugeId) (reading : Half) (valid : Bool),
    (s.loader.mode ≠ .running → exec (.gaugeSample g reading valid) s = .next s) ∧
    (s.loader.mode = .running →
      let up (k : ChanId) : Nat := reading.toNat - s.chans[k].ctx.baseline
      let takes (k : ChanId) : Prop := s.chans[k].ctx.gauge = g ∧
        (s.chans[k].state = .ramp ∨ s.chans[k].state = .hold ∨ s.chans[k].state = .parked)
      let parks (k : ChanId) : Prop := takes k ∧ (valid = true → s.chans[k].ctx.upliftLimit ≤ up k)
      let seen (k : ChanId) : Channel :=
        if takes k ∧ valid = true then { s.chans[k] with ctx := { s.chans[k].ctx with uplift := up k } } else s.chans[k]
      ∃ t : State, exec (.gaugeSample g reading valid) s = .next t ∧
        State.OffersIn
          { s with
            field := { s.field with
              gauges := s.field.gauges.set g
                { reading := if valid then reading else s.field.gauges[g].reading, valid := valid, sampled := true } }
            chans := Vector.ofFn (fun k => if parks k then (seen k).parkedBy 0x10 else seen k) } t
          ((List.finRange 8).flatMap (fun k => if parks k then ((seen k).park k s.status.clock .uplift).2 else [])))

/-- The debounced lines. A change of a raw level starts the line's debounce timer where the new level differs from the
accepted one and stops it where it comes back, and while the part is held in reset the timer stays stopped; a level that is
not new is no change (log entry 36). A timer that runs out with nothing to accept only stops. An accepted change in RUNNING:
a stop line offers STOP_CHANGE with its level and mask, and asserted it raises its cause in every channel it leaves
unmasked; a permit line offers PERMIT_CHANGE for its channel, and withdrawn it raises PERMIT there; a release and a return
act on no stage (R123, R124, R125, R126, R129, R140; the order of the records: log entry 10). -/
def Obligations.DebouncedLines : Prop :=
  (∀ (s : State) (line : FieldLine) (level : Bool),
    let l := s.field.line line
    (level ≠ l.raw → exec (.rawLineChange line level) s = .next
      { s with
        field := s.field.setLine line
          { raw := level, accepted := l.accepted, timer := !s.loader.resetLine && (level != l.accepted) } }) ∧
    (level = l.raw → exec (.rawLineChange line level) s = .next s) ∧
    (l.timer = true → l.raw = l.accepted → exec (.debounceExpiry line) s = .next
      { s with field := s.field.setLine line { raw := l.raw, accepted := l.accepted, timer := false } }) ∧
    (l.timer = true → l.raw ≠ l.accepted → s.loader.mode ≠ .running → exec (.debounceExpiry line) s = .next
      { s with field := s.field.setLine line { raw := l.raw, accepted := l.raw, timer := false } })) ∧
  ∀ (s : State), s.loader.mode = .running →
    (∀ l : StopLine,
      let line := s.field.line (.stop l)
      let mask := match l with
        | .stopA => s.status.maskA
        | .stopB => s.status.maskB
      let cause : Cause := match l with
        | .stopA => .stopA
        | .stopB => .stopB
      line.timer = true → line.raw ≠ line.accepted → ∃ t : State, exec (.debounceExpiry (.stop l)) s = .next t ∧
        State.OffersIn
          { s with
            field := s.field.setLine (.stop l) { raw := line.raw, accepted := line.raw, timer := false }
            chans := Vector.ofFn (fun k => if line.raw = true ∧ mask.getLsbD k.val = false
              then s.chans[k].parkedBy cause.mark else s.chans[k]) } t
          (plainRecord s.status.clock (.stopChange l line.raw mask) ::
            (List.finRange 8).flatMap (fun k => if line.raw = true ∧ mask.getLsbD k.val = false
              then (s.chans[k].park k s.status.clock cause).2 else []))) ∧
    (∀ c : ChanId,
      let line := s.field.permits[c]
      line.timer = true → line.raw ≠ line.accepted → ∃ t : State, exec (.debounceExpiry (.permit c)) s = .next t ∧
        State.OffersIn
          { s with
            field := { s.field with
              permits := s.field.permits.set c { raw := line.raw, accepted := line.raw, timer := false } }
            chans := if line.raw then s.chans else s.chans.set c (s.chans[c].parkedBy 0x04) } t
          ({ channel := some c, tag := 0, clock := s.status.clock, hole := s.chans[c].ctx.hole
             stageNo := s.chans[c].ctx.stageNo, payload := .permitChange line.raw } ::
            if line.raw then [] else (s.chans[c].park c s.status.clock .permit).2))

/-! ### Invariants that every step keeps -/

/-- Every step keeps the shape of each block: the posted write queue; the capture buffer pool; the staging queue with its
held close records; the status unit; the map unit, with at most 16 entries, at most 8 pinned and never two for one page,
the fetch and the failure mark never on a cached page; the indices of the ring below N (R20, R37, R39, R41, R42, R141,
R146, R157 to R160, R162, R163, R170). -/
def Obligations.StepKeepsTheBlocks : Prop :=
  ∀ s t : State, step s = .next t →
    (QueueOk s.queue → QueueOk t.queue) ∧ (PoolOk s.pool → PoolOk t.pool) ∧ (StagingOk s.ring → StagingOk t.ring) ∧
    (StatusOk s.status → StatusOk t.status) ∧ (s.FetchOk → t.FetchOk) ∧ (s.IndicesOk → t.IndicesOk)

/-- Every step keeps the account of the close records: a channel in CLOSING has exactly one waiting in the staging queue
or held, and no other channel has one (R86, R88, R158). -/
def Obligations.StepKeepsTheCloseRecords : Prop :=
  ∀ s t : State, s.CloseRecordsOk → step s = .next t → t.CloseRecordsOk

/-- Every step keeps every channel within its envelope: the permitted setpoint and every step within Pmax, Pmax within its
band ceiling, the cap within the site cap ceiling, demand at most 63 and 0 outside RAMP and HOLD, and the rest of
`ContextOk` (R63, R64, R65, R67, R70, R74, R80, R86, R90, R96, R104, R106, R118, R121). -/
def Obligations.StepKeepsTheEnvelope : Prop :=
  ∀ s t : State, s.ChannelsOk → step s = .next t → t.ChannelsOk

/-- Every step keeps the governing blocks at their reset values while the loader is not RUNNING (R17, R32, R51, R72, R99,
R140, R165, R177, R184). -/
def Obligations.StepKeepsTheQuiet : Prop :=
  ∀ s t : State, s.QuietOk → step s = .next t → t.QuietOk
end

