-- ==== Sys2Proof/Laws/State.lean ====
section
/-! SUPPORT. The fields of the state after each of the plain updates, one lemma per field per update, true by `rfl`, so
that no proof unfolds a record update. -/

namespace Sys2Proof.Machine

@[simp] theorem mapVector_get {α β : Type} {n : Nat} (f : α → β) (v : Vector α n) (i : Nat) (h : i < n) :
    (mapVector f v)[i] = f v[i] := by simp [mapVector]

theorem mapVector_eq {α β : Type} {n : Nat} (f : α → β) (v : Vector α n) : mapVector f v = v.map f := by
  ext1 i hi; simp


@[simp] theorem State.answer_loader (s : State) (a : Answer) : (s.answer a).loader = s.loader := rfl
@[simp] theorem State.answer_port (s : State) (a : Answer) : (s.answer a).port = { s.port with answer := some a } := rfl
@[simp] theorem State.answer_mem (s : State) (a : Answer) : (s.answer a).mem = s.mem := rfl
@[simp] theorem State.answer_queue (s : State) (a : Answer) : (s.answer a).queue = s.queue := rfl
@[simp] theorem State.answer_map (s : State) (a : Answer) : (s.answer a).map = s.map := rfl
@[simp] theorem State.answer_chans (s : State) (a : Answer) : (s.answer a).chans = s.chans := rfl
@[simp] theorem State.answer_field (s : State) (a : Answer) : (s.answer a).field = s.field := rfl
@[simp] theorem State.answer_pool (s : State) (a : Answer) : (s.answer a).pool = s.pool := rfl
@[simp] theorem State.answer_ring (s : State) (a : Answer) : (s.answer a).ring = s.ring := rfl
@[simp] theorem State.answer_status (s : State) (a : Answer) : (s.answer a).status = s.status := rfl
@[simp] theorem State.answer_choices (s : State) (a : Answer) : (s.answer a).choices = s.choices := rfl
@[simp] theorem State.answer_pending (s : State) (a : Answer) : (s.answer a).pending = s.pending := rfl

@[simp] theorem State.hold_loader (s : State) (h : HeldRead) : (s.hold h).loader = s.loader := rfl
@[simp] theorem State.hold_port (s : State) (h : HeldRead) : (s.hold h).port = { held := some h, answer := none } := rfl
@[simp] theorem State.hold_mem (s : State) (h : HeldRead) : (s.hold h).mem = s.mem := rfl
@[simp] theorem State.hold_queue (s : State) (h : HeldRead) : (s.hold h).queue = s.queue := rfl
@[simp] theorem State.hold_map (s : State) (h : HeldRead) : (s.hold h).map = s.map := rfl
@[simp] theorem State.hold_chans (s : State) (h : HeldRead) : (s.hold h).chans = s.chans := rfl
@[simp] theorem State.hold_field (s : State) (h : HeldRead) : (s.hold h).field = s.field := rfl
@[simp] theorem State.hold_pool (s : State) (h : HeldRead) : (s.hold h).pool = s.pool := rfl
@[simp] theorem State.hold_ring (s : State) (h : HeldRead) : (s.hold h).ring = s.ring := rfl
@[simp] theorem State.hold_status (s : State) (h : HeldRead) : (s.hold h).status = s.status := rfl
@[simp] theorem State.hold_choices (s : State) (h : HeldRead) : (s.hold h).choices = s.choices := rfl
@[simp] theorem State.hold_pending (s : State) (h : HeldRead) : (s.hold h).pending = s.pending := rfl

@[simp] theorem State.setChan_loader (s : State) (c : ChanId) (ch : Channel) : (s.setChan c ch).loader = s.loader := rfl
@[simp] theorem State.setChan_port (s : State) (c : ChanId) (ch : Channel) : (s.setChan c ch).port = s.port := rfl
@[simp] theorem State.setChan_mem (s : State) (c : ChanId) (ch : Channel) : (s.setChan c ch).mem = s.mem := rfl
@[simp] theorem State.setChan_queue (s : State) (c : ChanId) (ch : Channel) : (s.setChan c ch).queue = s.queue := rfl
@[simp] theorem State.setChan_map (s : State) (c : ChanId) (ch : Channel) : (s.setChan c ch).map = s.map := rfl
@[simp] theorem State.setChan_chans (s : State) (c : ChanId) (ch : Channel) : (s.setChan c ch).chans = s.chans.set c ch := rfl
@[simp] theorem State.setChan_field (s : State) (c : ChanId) (ch : Channel) : (s.setChan c ch).field = s.field := rfl
@[simp] theorem State.setChan_pool (s : State) (c : ChanId) (ch : Channel) : (s.setChan c ch).pool = s.pool := rfl
@[simp] theorem State.setChan_ring (s : State) (c : ChanId) (ch : Channel) : (s.setChan c ch).ring = s.ring := rfl
@[simp] theorem State.setChan_status (s : State) (c : ChanId) (ch : Channel) : (s.setChan c ch).status = s.status := rfl
@[simp] theorem State.setChan_choices (s : State) (c : ChanId) (ch : Channel) : (s.setChan c ch).choices = s.choices := rfl
@[simp] theorem State.setChan_pending (s : State) (c : ChanId) (ch : Channel) : (s.setChan c ch).pending = s.pending := rfl

@[simp] theorem State.mapChan_loader (s : State) (c : ChanId) (f : Channel → Channel) : (s.mapChan c f).loader = s.loader := rfl
@[simp] theorem State.mapChan_port (s : State) (c : ChanId) (f : Channel → Channel) : (s.mapChan c f).port = s.port := rfl
@[simp] theorem State.mapChan_mem (s : State) (c : ChanId) (f : Channel → Channel) : (s.mapChan c f).mem = s.mem := rfl
@[simp] theorem State.mapChan_queue (s : State) (c : ChanId) (f : Channel → Channel) : (s.mapChan c f).queue = s.queue := rfl
@[simp] theorem State.mapChan_map (s : State) (c : ChanId) (f : Channel → Channel) : (s.mapChan c f).map = s.map := rfl
@[simp] theorem State.mapChan_chans (s : State) (c : ChanId) (f : Channel → Channel) : (s.mapChan c f).chans = s.chans.set c (f s.chans[c]) := rfl
@[simp] theorem State.mapChan_field (s : State) (c : ChanId) (f : Channel → Channel) : (s.mapChan c f).field = s.field := rfl
@[simp] theorem State.mapChan_pool (s : State) (c : ChanId) (f : Channel → Channel) : (s.mapChan c f).pool = s.pool := rfl
@[simp] theorem State.mapChan_ring (s : State) (c : ChanId) (f : Channel → Channel) : (s.mapChan c f).ring = s.ring := rfl
@[simp] theorem State.mapChan_status (s : State) (c : ChanId) (f : Channel → Channel) : (s.mapChan c f).status = s.status := rfl
@[simp] theorem State.mapChan_choices (s : State) (c : ChanId) (f : Channel → Channel) : (s.mapChan c f).choices = s.choices := rfl
@[simp] theorem State.mapChan_pending (s : State) (c : ChanId) (f : Channel → Channel) : (s.mapChan c f).pending = s.pending := rfl

@[simp] theorem State.enqueue_loader (s : State) (e : QEntry) : (s.enqueue e).loader = s.loader := rfl
@[simp] theorem State.enqueue_port (s : State) (e : QEntry) : (s.enqueue e).port = s.port := rfl
@[simp] theorem State.enqueue_mem (s : State) (e : QEntry) : (s.enqueue e).mem = s.mem := rfl
@[simp] theorem State.enqueue_queue (s : State) (e : QEntry) : (s.enqueue e).queue = s.queue ++ [e] := rfl
@[simp] theorem State.enqueue_map (s : State) (e : QEntry) : (s.enqueue e).map = s.map := rfl
@[simp] theorem State.enqueue_chans (s : State) (e : QEntry) : (s.enqueue e).chans = s.chans := rfl
@[simp] theorem State.enqueue_field (s : State) (e : QEntry) : (s.enqueue e).field = s.field := rfl
@[simp] theorem State.enqueue_pool (s : State) (e : QEntry) : (s.enqueue e).pool = s.pool := rfl
@[simp] theorem State.enqueue_ring (s : State) (e : QEntry) : (s.enqueue e).ring = s.ring := rfl
@[simp] theorem State.enqueue_status (s : State) (e : QEntry) : (s.enqueue e).status = s.status := rfl
@[simp] theorem State.enqueue_choices (s : State) (e : QEntry) : (s.enqueue e).choices = s.choices := rfl
@[simp] theorem State.enqueue_pending (s : State) (e : QEntry) : (s.enqueue e).pending = s.pending := rfl

@[simp] theorem State.popQueue_loader (s : State) : (s.popQueue).loader = s.loader := rfl
@[simp] theorem State.popQueue_port (s : State) : (s.popQueue).port = s.port := rfl
@[simp] theorem State.popQueue_mem (s : State) : (s.popQueue).mem = s.mem := rfl
@[simp] theorem State.popQueue_queue (s : State) : (s.popQueue).queue = s.queue.tail := rfl
@[simp] theorem State.popQueue_map (s : State) : (s.popQueue).map = s.map := rfl
@[simp] theorem State.popQueue_chans (s : State) : (s.popQueue).chans = s.chans := rfl
@[simp] theorem State.popQueue_field (s : State) : (s.popQueue).field = s.field := rfl
@[simp] theorem State.popQueue_pool (s : State) : (s.popQueue).pool = s.pool := rfl
@[simp] theorem State.popQueue_ring (s : State) : (s.popQueue).ring = s.ring := rfl
@[simp] theorem State.popQueue_status (s : State) : (s.popQueue).status = s.status := rfl
@[simp] theorem State.popQueue_choices (s : State) : (s.popQueue).choices = s.choices := rfl
@[simp] theorem State.popQueue_pending (s : State) : (s.popQueue).pending = s.pending := rfl

@[simp] theorem State.raise_loader (s : State) (f : Flag) (a : Addr) : (s.raise f a).loader = s.loader := rfl
@[simp] theorem State.raise_port (s : State) (f : Flag) (a : Addr) : (s.raise f a).port = s.port := rfl
@[simp] theorem State.raise_mem (s : State) (f : Flag) (a : Addr) : (s.raise f a).mem = s.mem := rfl
@[simp] theorem State.raise_queue (s : State) (f : Flag) (a : Addr) : (s.raise f a).queue = s.queue := rfl
@[simp] theorem State.raise_map (s : State) (f : Flag) (a : Addr) : (s.raise f a).map = s.map := rfl
@[simp] theorem State.raise_chans (s : State) (f : Flag) (a : Addr) : (s.raise f a).chans = s.chans := rfl
@[simp] theorem State.raise_field (s : State) (f : Flag) (a : Addr) : (s.raise f a).field = s.field := rfl
@[simp] theorem State.raise_pool (s : State) (f : Flag) (a : Addr) : (s.raise f a).pool = s.pool := rfl
@[simp] theorem State.raise_ring (s : State) (f : Flag) (a : Addr) : (s.raise f a).ring = s.ring := rfl
@[simp] theorem State.raise_status (s : State) (f : Flag) (a : Addr) : (s.raise f a).status = s.status.raise f a := rfl
@[simp] theorem State.raise_choices (s : State) (f : Flag) (a : Addr) : (s.raise f a).choices = s.choices := rfl
@[simp] theorem State.raise_pending (s : State) (f : Flag) (a : Addr) : (s.raise f a).pending = s.pending := rfl

@[simp] theorem State.mapPool_loader (s : State) (f : Pool → Pool) : (s.mapPool f).loader = s.loader := rfl
@[simp] theorem State.mapPool_port (s : State) (f : Pool → Pool) : (s.mapPool f).port = s.port := rfl
@[simp] theorem State.mapPool_mem (s : State) (f : Pool → Pool) : (s.mapPool f).mem = s.mem := rfl
@[simp] theorem State.mapPool_queue (s : State) (f : Pool → Pool) : (s.mapPool f).queue = s.queue := rfl
@[simp] theorem State.mapPool_map (s : State) (f : Pool → Pool) : (s.mapPool f).map = s.map := rfl
@[simp] theorem State.mapPool_chans (s : State) (f : Pool → Pool) : (s.mapPool f).chans = s.chans := rfl
@[simp] theorem State.mapPool_field (s : State) (f : Pool → Pool) : (s.mapPool f).field = s.field := rfl
@[simp] theorem State.mapPool_pool (s : State) (f : Pool → Pool) : (s.mapPool f).pool = f s.pool := rfl
@[simp] theorem State.mapPool_ring (s : State) (f : Pool → Pool) : (s.mapPool f).ring = s.ring := rfl
@[simp] theorem State.mapPool_status (s : State) (f : Pool → Pool) : (s.mapPool f).status = s.status := rfl
@[simp] theorem State.mapPool_choices (s : State) (f : Pool → Pool) : (s.mapPool f).choices = s.choices := rfl
@[simp] theorem State.mapPool_pending (s : State) (f : Pool → Pool) : (s.mapPool f).pending = s.pending := rfl

@[simp] theorem State.mapMap_loader (s : State) (f : MapUnit → MapUnit) : (s.mapMap f).loader = s.loader := rfl
@[simp] theorem State.mapMap_port (s : State) (f : MapUnit → MapUnit) : (s.mapMap f).port = s.port := rfl
@[simp] theorem State.mapMap_mem (s : State) (f : MapUnit → MapUnit) : (s.mapMap f).mem = s.mem := rfl
@[simp] theorem State.mapMap_queue (s : State) (f : MapUnit → MapUnit) : (s.mapMap f).queue = s.queue := rfl
@[simp] theorem State.mapMap_map (s : State) (f : MapUnit → MapUnit) : (s.mapMap f).map = f s.map := rfl
@[simp] theorem State.mapMap_chans (s : State) (f : MapUnit → MapUnit) : (s.mapMap f).chans = s.chans := rfl
@[simp] theorem State.mapMap_field (s : State) (f : MapUnit → MapUnit) : (s.mapMap f).field = s.field := rfl
@[simp] theorem State.mapMap_pool (s : State) (f : MapUnit → MapUnit) : (s.mapMap f).pool = s.pool := rfl
@[simp] theorem State.mapMap_ring (s : State) (f : MapUnit → MapUnit) : (s.mapMap f).ring = s.ring := rfl
@[simp] theorem State.mapMap_status (s : State) (f : MapUnit → MapUnit) : (s.mapMap f).status = s.status := rfl
@[simp] theorem State.mapMap_choices (s : State) (f : MapUnit → MapUnit) : (s.mapMap f).choices = s.choices := rfl
@[simp] theorem State.mapMap_pending (s : State) (f : MapUnit → MapUnit) : (s.mapMap f).pending = s.pending := rfl

@[simp] theorem State.portFree_loader (s : State) : (s.portFree).loader = s.loader := rfl
@[simp] theorem State.portFree_port (s : State) : (s.portFree).port = s.port := rfl
@[simp] theorem State.portFree_mem (s : State) : (s.portFree).mem = none := rfl
@[simp] theorem State.portFree_queue (s : State) : (s.portFree).queue = s.queue := rfl
@[simp] theorem State.portFree_map (s : State) : (s.portFree).map = s.map := rfl
@[simp] theorem State.portFree_chans (s : State) : (s.portFree).chans = s.chans := rfl
@[simp] theorem State.portFree_field (s : State) : (s.portFree).field = s.field := rfl
@[simp] theorem State.portFree_pool (s : State) : (s.portFree).pool = s.pool := rfl
@[simp] theorem State.portFree_ring (s : State) : (s.portFree).ring = s.ring := rfl
@[simp] theorem State.portFree_status (s : State) : (s.portFree).status = s.status := rfl
@[simp] theorem State.portFree_choices (s : State) : (s.portFree).choices = s.choices := rfl
@[simp] theorem State.portFree_pending (s : State) : (s.portFree).pending = s.pending := rfl

@[simp] theorem State.setConsumer_loader (s : State) (v : Nat) : (s.setConsumer v).loader = s.loader := rfl
@[simp] theorem State.setConsumer_port (s : State) (v : Nat) : (s.setConsumer v).port = s.port := rfl
@[simp] theorem State.setConsumer_mem (s : State) (v : Nat) : (s.setConsumer v).mem = s.mem := rfl
@[simp] theorem State.setConsumer_queue (s : State) (v : Nat) : (s.setConsumer v).queue = s.queue := rfl
@[simp] theorem State.setConsumer_map (s : State) (v : Nat) : (s.setConsumer v).map = s.map := rfl
@[simp] theorem State.setConsumer_chans (s : State) (v : Nat) : (s.setConsumer v).chans = s.chans := rfl
@[simp] theorem State.setConsumer_field (s : State) (v : Nat) : (s.setConsumer v).field = s.field := rfl
@[simp] theorem State.setConsumer_pool (s : State) (v : Nat) : (s.setConsumer v).pool = s.pool := rfl
@[simp] theorem State.setConsumer_ring (s : State) (v : Nat) : (s.setConsumer v).ring = { s.ring with copy := v } := rfl
@[simp] theorem State.setConsumer_status (s : State) (v : Nat) : (s.setConsumer v).status = s.status := rfl
@[simp] theorem State.setConsumer_choices (s : State) (v : Nat) : (s.setConsumer v).choices = s.choices := rfl
@[simp] theorem State.setConsumer_pending (s : State) (v : Nat) : (s.setConsumer v).pending = s.pending := rfl

@[simp] theorem State.slotDone_loader (s : State) (k : Nat) : (s.slotDone k).loader = s.loader := rfl
@[simp] theorem State.slotDone_port (s : State) (k : Nat) : (s.slotDone k).port = s.port := rfl
@[simp] theorem State.slotDone_mem (s : State) (k : Nat) : (s.slotDone k).mem = s.mem := rfl
@[simp] theorem State.slotDone_queue (s : State) (k : Nat) : (s.slotDone k).queue = s.queue := rfl
@[simp] theorem State.slotDone_map (s : State) (k : Nat) : (s.slotDone k).map = s.map := rfl
@[simp] theorem State.slotDone_chans (s : State) (k : Nat) : (s.slotDone k).chans = s.chans := rfl
@[simp] theorem State.slotDone_field (s : State) (k : Nat) : (s.slotDone k).field = s.field := rfl
@[simp] theorem State.slotDone_pool (s : State) (k : Nat) : (s.slotDone k).pool = s.pool := rfl
@[simp] theorem State.slotDone_ring (s : State) (k : Nat) : (s.slotDone k).ring = { s.ring with next := k + 1 } := rfl
@[simp] theorem State.slotDone_status (s : State) (k : Nat) : (s.slotDone k).status = s.status := rfl
@[simp] theorem State.slotDone_choices (s : State) (k : Nat) : (s.slotDone k).choices = s.choices := rfl
@[simp] theorem State.slotDone_pending (s : State) (k : Nat) : (s.slotDone k).pending = s.pending := rfl

@[simp] theorem State.rewriteDone_loader (s : State) : (s.rewriteDone).loader = s.loader := rfl
@[simp] theorem State.rewriteDone_port (s : State) : (s.rewriteDone).port = s.port := rfl
@[simp] theorem State.rewriteDone_mem (s : State) : (s.rewriteDone).mem = s.mem := rfl
@[simp] theorem State.rewriteDone_queue (s : State) : (s.rewriteDone).queue = s.queue := rfl
@[simp] theorem State.rewriteDone_map (s : State) : (s.rewriteDone).map = s.map := rfl
@[simp] theorem State.rewriteDone_chans (s : State) : (s.rewriteDone).chans = s.chans := rfl
@[simp] theorem State.rewriteDone_field (s : State) : (s.rewriteDone).field = s.field := rfl
@[simp] theorem State.rewriteDone_pool (s : State) : (s.rewriteDone).pool = s.pool := rfl
@[simp] theorem State.rewriteDone_ring (s : State) : (s.rewriteDone).ring = { s.ring with rewritePending := false } := rfl
@[simp] theorem State.rewriteDone_status (s : State) : (s.rewriteDone).status = s.status := rfl
@[simp] theorem State.rewriteDone_choices (s : State) : (s.rewriteDone).choices = s.choices := rfl
@[simp] theorem State.rewriteDone_pending (s : State) : (s.rewriteDone).pending = s.pending := rfl

@[simp] theorem State.setChan_chan_self (s : State) (c : ChanId) (ch : Channel) : (s.setChan c ch).chan c = ch := by
  simp [State.chan, State.setChan]

theorem State.setChan_chan_ne (s : State) {c k : ChanId} (ch : Channel) (h : k ≠ c) :
    (s.setChan c ch).chan k = s.chan k := by
  have : (c : Nat) ≠ (k : Nat) := fun e => h (Fin.ext e.symm)
  simp [State.chan, State.setChan, this]

theorem State.setChan_chan (s : State) (c k : ChanId) (ch : Channel) :
    (s.setChan c ch).chan k = if k = c then ch else s.chan k := by
  by_cases h : k = c
  · subst h; simp
  · simp [h, State.setChan_chan_ne s ch h]

theorem State.mapChan_chan (s : State) (c k : ChanId) (f : Channel → Channel) :
    (s.mapChan c f).chan k = if k = c then f (s.chan c) else s.chan k := State.setChan_chan s c k _

end Sys2Proof.Machine
end

