-- ==== Sys2Proof/Laws/Frames.lean ====
section
/-! SUPPORT. The frames of the shared operations: for each, the fields of the state that it leaves as they are. -/

namespace Sys2Proof.Machine

@[simp] theorem State.stage_frame (s : State) (r : Record) :
    (s.stage r).loader = s.loader ∧
    (s.stage r).port = s.port ∧
    (s.stage r).mem = s.mem ∧
    (s.stage r).queue = s.queue ∧
    (s.stage r).map = s.map ∧
    (s.stage r).chans = s.chans ∧
    (s.stage r).field = s.field ∧
    (s.stage r).pool = s.pool ∧
    (s.stage r).choices = s.choices ∧
    (s.stage r).pending = s.pending := by
  unfold State.stage; split_ifs <;> simp

@[simp] theorem State.stageAndRaise_frame (s : State) (r : Record) (f : Flag) (a : Addr) :
    (s.stageAndRaise r f a).loader = s.loader ∧
    (s.stageAndRaise r f a).port = s.port ∧
    (s.stageAndRaise r f a).mem = s.mem ∧
    (s.stageAndRaise r f a).queue = s.queue ∧
    (s.stageAndRaise r f a).map = s.map ∧
    (s.stageAndRaise r f a).chans = s.chans ∧
    (s.stageAndRaise r f a).field = s.field ∧
    (s.stageAndRaise r f a).pool = s.pool ∧
    (s.stageAndRaise r f a).pending = s.pending := by
  unfold State.stageAndRaise; dsimp only; split_ifs <;> simp

@[simp] theorem State.perform_frame (s : State) (e : Effect) :
    (s.perform e).loader = s.loader ∧
    (s.perform e).port = s.port ∧
    (s.perform e).mem = s.mem ∧
    (s.perform e).queue = s.queue ∧
    (s.perform e).map = s.map ∧
    (s.perform e).chans = s.chans ∧
    (s.perform e).field = s.field ∧
    (s.perform e).pool = s.pool ∧
    (s.perform e).pending = s.pending := by
  cases e <;> simp [State.perform]

@[simp] theorem State.performAll_frame (s : State) (es : List Effect) :
    (s.performAll es).loader = s.loader ∧
    (s.performAll es).port = s.port ∧
    (s.performAll es).mem = s.mem ∧
    (s.performAll es).queue = s.queue ∧
    (s.performAll es).map = s.map ∧
    (s.performAll es).chans = s.chans ∧
    (s.performAll es).field = s.field ∧
    (s.performAll es).pool = s.pool ∧
    (s.performAll es).pending = s.pending := by
  induction es generalizing s with
  | nil => simp [State.performAll]
  | cons e es ih => simpa [State.performAll] using ih (s.perform e)

@[simp] theorem State.stageAll_frame (s : State) (rs : List Record) :
    (s.stageAll rs).loader = s.loader ∧
    (s.stageAll rs).port = s.port ∧
    (s.stageAll rs).mem = s.mem ∧
    (s.stageAll rs).queue = s.queue ∧
    (s.stageAll rs).map = s.map ∧
    (s.stageAll rs).chans = s.chans ∧
    (s.stageAll rs).field = s.field ∧
    (s.stageAll rs).pool = s.pool ∧
    (s.stageAll rs).choices = s.choices ∧
    (s.stageAll rs).pending = s.pending := by
  induction rs generalizing s with
  | nil => simp [State.stageAll]
  | cons r rs ih => simpa [State.stageAll] using ih (s.stage r)

@[simp] theorem State.stageTogether_frame (s : State) (gs : List (List Record)) :
    (s.stageTogether gs).loader = s.loader ∧
    (s.stageTogether gs).port = s.port ∧
    (s.stageTogether gs).mem = s.mem ∧
    (s.stageTogether gs).queue = s.queue ∧
    (s.stageTogether gs).map = s.map ∧
    (s.stageTogether gs).chans = s.chans ∧
    (s.stageTogether gs).field = s.field ∧
    (s.stageTogether gs).pool = s.pool ∧
    (s.stageTogether gs).pending = s.pending := by
  simp [State.stageTogether]

@[simp] theorem State.eachChan_frame (s : State) (rs : List Record) (f : ChanId → Channel → Channel × List Record) :
    (s.eachChan rs f).loader = s.loader ∧
    (s.eachChan rs f).port = s.port ∧
    (s.eachChan rs f).mem = s.mem ∧
    (s.eachChan rs f).queue = s.queue ∧
    (s.eachChan rs f).map = s.map ∧
    (s.eachChan rs f).field = s.field ∧
    (s.eachChan rs f).pool = s.pool ∧
    (s.eachChan rs f).pending = s.pending := by
  simp [State.eachChan]

@[simp] theorem State.queueOrder_frame (s : State) (w : OrderWrite) (d : Word) (be : Lanes) :
    (s.queueOrder w d be).loader = s.loader ∧
    (s.queueOrder w d be).port = s.port ∧
    (s.queueOrder w d be).mem = s.mem ∧
    (s.queueOrder w d be).map = s.map ∧
    (s.queueOrder w d be).chans = s.chans ∧
    (s.queueOrder w d be).field = s.field ∧
    (s.queueOrder w d be).pool = s.pool ∧
    (s.queueOrder w d be).ring = s.ring ∧
    (s.queueOrder w d be).status = s.status ∧
    (s.queueOrder w d be).choices = s.choices ∧
    (s.queueOrder w d be).pending = s.pending := by
  simp [State.queueOrder]

@[simp] theorem State.queueAsWritten_frame (s : State) (w : OrderWrite) :
    (s.queueAsWritten w).loader = s.loader ∧
    (s.queueAsWritten w).port = s.port ∧
    (s.queueAsWritten w).mem = s.mem ∧
    (s.queueAsWritten w).map = s.map ∧
    (s.queueAsWritten w).chans = s.chans ∧
    (s.queueAsWritten w).field = s.field ∧
    (s.queueAsWritten w).pool = s.pool ∧
    (s.queueAsWritten w).ring = s.ring ∧
    (s.queueAsWritten w).status = s.status ∧
    (s.queueAsWritten w).choices = s.choices ∧
    (s.queueAsWritten w).pending = s.pending := by
  simp [State.queueAsWritten]

@[simp] theorem State.captureArea_frame (s : State) (w : OrderWrite) :
    (s.captureArea w).loader = s.loader ∧
    (s.captureArea w).port = s.port ∧
    (s.captureArea w).mem = s.mem ∧
    (s.captureArea w).map = s.map ∧
    (s.captureArea w).field = s.field ∧
    (s.captureArea w).pool = s.pool ∧
    (s.captureArea w).ring = s.ring ∧
    (s.captureArea w).status = s.status ∧
    (s.captureArea w).choices = s.choices ∧
    (s.captureArea w).pending = s.pending := by
  simp [State.captureArea]

@[simp] theorem State.orderWidth_frame (s : State) (w : OrderWrite) :
    (s.orderWidth w).loader = s.loader ∧
    (s.orderWidth w).port = s.port ∧
    (s.orderWidth w).mem = s.mem ∧
    (s.orderWidth w).map = s.map ∧
    (s.orderWidth w).field = s.field ∧
    (s.orderWidth w).pool = s.pool ∧
    (s.orderWidth w).choices = s.choices ∧
    (s.orderWidth w).pending = s.pending := by
  simp [State.orderWidth]

@[simp] theorem State.orderUnknown_frame (s : State) (w : OrderWrite) (k t : Byte) (a : Half) :
    (s.orderUnknown w k t a).loader = s.loader ∧
    (s.orderUnknown w k t a).port = s.port ∧
    (s.orderUnknown w k t a).mem = s.mem ∧
    (s.orderUnknown w k t a).map = s.map ∧
    (s.orderUnknown w k t a).field = s.field ∧
    (s.orderUnknown w k t a).pool = s.pool ∧
    (s.orderUnknown w k t a).choices = s.choices ∧
    (s.orderUnknown w k t a).pending = s.pending := by
  simp [State.orderUnknown]

@[simp] theorem State.orderCommand_frame (s : State) (w : OrderWrite) (k : Command) (t : Byte) (a : Half) :
    (s.orderCommand w k t a).loader = s.loader ∧
    (s.orderCommand w k t a).port = s.port ∧
    (s.orderCommand w k t a).mem = s.mem ∧
    (s.orderCommand w k t a).map = s.map ∧
    (s.orderCommand w k t a).field = s.field ∧
    (s.orderCommand w k t a).pool = s.pool ∧
    (s.orderCommand w k t a).pending = s.pending := by
  unfold State.orderCommand; dsimp only; split <;> (try split_ifs) <;> simp

@[simp] theorem State.orderWord_frame (s : State) (w : OrderWrite) :
    (s.orderWord w).loader = s.loader ∧
    (s.orderWord w).port = s.port ∧
    (s.orderWord w).mem = s.mem ∧
    (s.orderWord w).map = s.map ∧
    (s.orderWord w).field = s.field ∧
    (s.orderWord w).pool = s.pool ∧
    (s.orderWord w).pending = s.pending := by
  unfold State.orderWord; dsimp only; split_ifs <;> (try split) <;> simp

@[simp] theorem State.orderWrite_frame (s : State) (w : OrderWrite) :
    (s.orderWrite w).loader = s.loader ∧
    (s.orderWrite w).port = s.port ∧
    (s.orderWrite w).mem = s.mem ∧
    (s.orderWrite w).map = s.map ∧
    (s.orderWrite w).field = s.field ∧
    (s.orderWrite w).pool = s.pool ∧
    (s.orderWrite w).pending = s.pending := by
  unfold State.orderWrite; dsimp only; split_ifs <;> simp

@[simp] theorem State.fillArmed_frame (s : State) (k : BufKey) (st : Bool) :
    (s.fillArmed k st).loader = s.loader ∧
    (s.fillArmed k st).port = s.port ∧
    (s.fillArmed k st).mem = s.mem ∧
    (s.fillArmed k st).queue = s.queue ∧
    (s.fillArmed k st).map = s.map ∧
    (s.fillArmed k st).chans = s.chans ∧
    (s.fillArmed k st).field = s.field ∧
    (s.fillArmed k st).ring = s.ring ∧
    (s.fillArmed k st).status = s.status ∧
    (s.fillArmed k st).choices = s.choices ∧
    (s.fillArmed k st).pending = s.pending := by
  unfold State.fillArmed; (repeat' split) <;> simp

@[simp] theorem State.expire_frame (s : State) (k : BufKey) :
    (s.expire k).loader = s.loader ∧
    (s.expire k).port = s.port ∧
    (s.expire k).mem = s.mem ∧
    (s.expire k).queue = s.queue ∧
    (s.expire k).map = s.map ∧
    (s.expire k).chans = s.chans ∧
    (s.expire k).field = s.field ∧
    (s.expire k).ring = s.ring ∧
    (s.expire k).status = s.status ∧
    (s.expire k).choices = s.choices ∧
    (s.expire k).pending = s.pending := by
  unfold State.expire; (repeat' split) <;> simp

@[simp] theorem State.serve_frame (s : State) (r : SnapRead) (i : Fin 6) (w : Vector Word 12) :
    (s.serve r i w).loader = s.loader ∧
    (s.serve r i w).mem = s.mem ∧
    (s.serve r i w).queue = s.queue ∧
    (s.serve r i w).map = s.map ∧
    (s.serve r i w).chans = s.chans ∧
    (s.serve r i w).field = s.field ∧
    (s.serve r i w).ring = s.ring ∧
    (s.serve r i w).status = s.status ∧
    (s.serve r i w).choices = s.choices ∧
    (s.serve r i w).pending = s.pending := by
  unfold State.serve; dsimp only; split_ifs <;> simp

@[simp] theorem State.snapObtain_frame (s : State) (r : SnapRead) :
    (s.snapObtain r).loader = s.loader ∧
    (s.snapObtain r).mem = s.mem ∧
    (s.snapObtain r).queue = s.queue ∧
    (s.snapObtain r).map = s.map ∧
    (s.snapObtain r).chans = s.chans ∧
    (s.snapObtain r).field = s.field ∧
    (s.snapObtain r).ring = s.ring ∧
    (s.snapObtain r).status = s.status ∧
    (s.snapObtain r).choices = s.choices ∧
    (s.snapObtain r).pending = s.pending := by
  unfold State.snapObtain; (repeat' split) <;> simp

@[simp] theorem State.snapWord_frame (s : State) (r : SnapRead) :
    (s.snapWord r).loader = s.loader ∧
    (s.snapWord r).mem = s.mem ∧
    (s.snapWord r).queue = s.queue ∧
    (s.snapWord r).map = s.map ∧
    (s.snapWord r).chans = s.chans ∧
    (s.snapWord r).field = s.field ∧
    (s.snapWord r).ring = s.ring ∧
    (s.snapWord r).status = s.status ∧
    (s.snapWord r).choices = s.choices ∧
    (s.snapWord r).pending = s.pending := by
  unfold State.snapWord; (repeat' split) <;> simp

@[simp] theorem State.snapRead_frame (s : State) (r : SnapRead) :
    (s.snapRead r).loader = s.loader ∧
    (s.snapRead r).mem = s.mem ∧
    (s.snapRead r).queue = s.queue ∧
    (s.snapRead r).map = s.map ∧
    (s.snapRead r).chans = s.chans ∧
    (s.snapRead r).field = s.field ∧
    (s.snapRead r).ring = s.ring ∧
    (s.snapRead r).status = s.status ∧
    (s.snapRead r).choices = s.choices ∧
    (s.snapRead r).pending = s.pending := by
  unfold State.snapRead; split_ifs <;> simp

@[simp] theorem State.miss_frame (s : State) (p : PageId) :
    (s.miss p).loader = s.loader ∧
    (s.miss p).mem = s.mem ∧
    (s.miss p).queue = s.queue ∧
    (s.miss p).chans = s.chans ∧
    (s.miss p).field = s.field ∧
    (s.miss p).pool = s.pool ∧
    (s.miss p).ring = s.ring ∧
    (s.miss p).status = s.status ∧
    (s.miss p).choices = s.choices ∧
    (s.miss p).pending = s.pending := by
  unfold State.miss; split_ifs <;> simp

@[simp] theorem State.snoop_frame (s : State) (p : PageId) :
    (s.snoop p).loader = s.loader ∧
    (s.snoop p).port = s.port ∧
    (s.snoop p).mem = s.mem ∧
    (s.snoop p).queue = s.queue ∧
    (s.snoop p).chans = s.chans ∧
    (s.snoop p).field = s.field ∧
    (s.snoop p).ring = s.ring ∧
    (s.snoop p).status = s.status ∧
    (s.snoop p).choices = s.choices ∧
    (s.snoop p).pending = s.pending := by
  unfold State.snoop; dsimp only; (repeat' split) <;> simp

@[simp] theorem State.placeEntry_frame (s : State) :
    (s.placeEntry).loader = s.loader ∧
    (s.placeEntry).port = s.port ∧
    (s.placeEntry).mem = s.mem ∧
    (s.placeEntry).queue = s.queue ∧
    (s.placeEntry).chans = s.chans ∧
    (s.placeEntry).field = s.field ∧
    (s.placeEntry).pool = s.pool ∧
    (s.placeEntry).ring = s.ring ∧
    (s.placeEntry).choices = s.choices ∧
    (s.placeEntry).pending = s.pending := by
  unfold State.placeEntry; dsimp only; split_ifs <;> simp

@[simp] theorem State.fetchError_frame (s : State) :
    (s.fetchError).loader = s.loader ∧
    (s.fetchError).port = s.port ∧
    (s.fetchError).mem = s.mem ∧
    (s.fetchError).queue = s.queue ∧
    (s.fetchError).map = s.map ∧
    (s.fetchError).chans = s.chans ∧
    (s.fetchError).field = s.field ∧
    (s.fetchError).pool = s.pool ∧
    (s.fetchError).choices = s.choices ∧
    (s.fetchError).pending = s.pending := by
  simp [State.fetchError]

@[simp] theorem State.fetchPhase_frame (s : State) (p : FetchPhase) :
    (s.fetchPhase p).loader = s.loader ∧
    (s.fetchPhase p).port = s.port ∧
    (s.fetchPhase p).mem = s.mem ∧
    (s.fetchPhase p).queue = s.queue ∧
    (s.fetchPhase p).chans = s.chans ∧
    (s.fetchPhase p).field = s.field ∧
    (s.fetchPhase p).pool = s.pool ∧
    (s.fetchPhase p).ring = s.ring ∧
    (s.fetchPhase p).status = s.status ∧
    (s.fetchPhase p).choices = s.choices ∧
    (s.fetchPhase p).pending = s.pending := by
  simp [State.fetchPhase]

@[simp] theorem State.fetchFirstDone_frame (s : State) (d : Word) :
    (s.fetchFirstDone d).loader = s.loader ∧
    (s.fetchFirstDone d).port = s.port ∧
    (s.fetchFirstDone d).mem = s.mem ∧
    (s.fetchFirstDone d).queue = s.queue ∧
    (s.fetchFirstDone d).chans = s.chans ∧
    (s.fetchFirstDone d).field = s.field ∧
    (s.fetchFirstDone d).pool = s.pool ∧
    (s.fetchFirstDone d).ring = s.ring ∧
    (s.fetchFirstDone d).status = s.status ∧
    (s.fetchFirstDone d).choices = s.choices ∧
    (s.fetchFirstDone d).pending = s.pending := by
  simp [State.fetchFirstDone]

@[simp] theorem State.fetchFail_frame (s : State) :
    (s.fetchFail).loader = s.loader ∧
    (s.fetchFail).port = s.port ∧
    (s.fetchFail).mem = s.mem ∧
    (s.fetchFail).queue = s.queue ∧
    (s.fetchFail).chans = s.chans ∧
    (s.fetchFail).field = s.field ∧
    (s.fetchFail).pool = s.pool ∧
    (s.fetchFail).choices = s.choices ∧
    (s.fetchFail).pending = s.pending := by
  simp [State.fetchFail]

@[simp] theorem State.fetchStaleEnd_frame (s : State) (b : Bool) :
    (s.fetchStaleEnd b).loader = s.loader ∧
    (s.fetchStaleEnd b).port = s.port ∧
    (s.fetchStaleEnd b).mem = s.mem ∧
    (s.fetchStaleEnd b).queue = s.queue ∧
    (s.fetchStaleEnd b).chans = s.chans ∧
    (s.fetchStaleEnd b).field = s.field ∧
    (s.fetchStaleEnd b).pool = s.pool ∧
    (s.fetchStaleEnd b).choices = s.choices ∧
    (s.fetchStaleEnd b).pending = s.pending := by
  unfold State.fetchStaleEnd; split_ifs <;> simp

@[simp] theorem State.writeStopMasks_frame (s : State) (m v : Word) :
    (s.writeStopMasks m v).loader = s.loader ∧
    (s.writeStopMasks m v).port = s.port ∧
    (s.writeStopMasks m v).mem = s.mem ∧
    (s.writeStopMasks m v).queue = s.queue ∧
    (s.writeStopMasks m v).map = s.map ∧
    (s.writeStopMasks m v).field = s.field ∧
    (s.writeStopMasks m v).pool = s.pool ∧
    (s.writeStopMasks m v).pending = s.pending := by
  simp [State.writeStopMasks]

@[simp] theorem State.statusWrite_frame (s : State) (a : Addr) (be : Lanes) (d : Word) (big : Bool) :
    (s.statusWrite a be d big).loader = s.loader ∧
    (s.statusWrite a be d big).port = s.port ∧
    (s.statusWrite a be d big).queue = s.queue ∧
    (s.statusWrite a be d big).field = s.field ∧
    (s.statusWrite a be d big).pending = s.pending := by
  unfold State.statusWrite; dsimp only; split <;> (try split_ifs) <;>
    simp [State.writeStatusWord, State.restart, State.writeFilterMask, State.writeRampTable]

@[simp] theorem State.dropOwned_frame (s : State) (a : Addr) :
    (s.dropOwned a).loader = s.loader ∧
    (s.dropOwned a).mem = s.mem ∧
    (s.dropOwned a).queue = s.queue ∧
    (s.dropOwned a).map = s.map ∧
    (s.dropOwned a).chans = s.chans ∧
    (s.dropOwned a).field = s.field ∧
    (s.dropOwned a).pool = s.pool ∧
    (s.dropOwned a).ring = s.ring ∧
    (s.dropOwned a).choices = s.choices ∧
    (s.dropOwned a).pending = s.pending := by
  simp [State.dropOwned]

@[simp] theorem State.readMemory_frame (s : State) (a : Addr) (be : Lanes) (b : Bool) :
    (s.readMemory a be b).loader = s.loader ∧
    (s.readMemory a be b).mem = s.mem ∧
    (s.readMemory a be b).queue = s.queue ∧
    (s.readMemory a be b).map = s.map ∧
    (s.readMemory a be b).chans = s.chans ∧
    (s.readMemory a be b).field = s.field ∧
    (s.readMemory a be b).pool = s.pool ∧
    (s.readMemory a be b).ring = s.ring ∧
    (s.readMemory a be b).status = s.status ∧
    (s.readMemory a be b).choices = s.choices ∧
    (s.readMemory a be b).pending = s.pending := by
  unfold State.readMemory; split_ifs <;> simp

@[simp] theorem State.queueWrite_frame (s : State) (e : QEntry) :
    (s.queueWrite e).loader = s.loader ∧
    (s.queueWrite e).mem = s.mem ∧
    (s.queueWrite e).map = s.map ∧
    (s.queueWrite e).chans = s.chans ∧
    (s.queueWrite e).field = s.field ∧
    (s.queueWrite e).pool = s.pool ∧
    (s.queueWrite e).ring = s.ring ∧
    (s.queueWrite e).status = s.status ∧
    (s.queueWrite e).choices = s.choices ∧
    (s.queueWrite e).pending = s.pending := by
  unfold State.queueWrite; split_ifs <;> simp

@[simp] theorem State.plainAccess_frame (s : State) (a : Access) :
    (s.plainAccess a).loader = s.loader ∧
    (s.plainAccess a).mem = s.mem ∧
    (s.plainAccess a).map = s.map ∧
    (s.plainAccess a).chans = s.chans ∧
    (s.plainAccess a).field = s.field ∧
    (s.plainAccess a).pool = s.pool ∧
    (s.plainAccess a).ring = s.ring ∧
    (s.plainAccess a).status = s.status ∧
    (s.plainAccess a).choices = s.choices ∧
    (s.plainAccess a).pending = s.pending := by
  unfold State.plainAccess; split <;> simp

@[simp] theorem State.mapTableAccess_frame (s : State) (a : Access) :
    (s.mapTableAccess a).loader = s.loader ∧
    (s.mapTableAccess a).mem = s.mem ∧
    (s.mapTableAccess a).chans = s.chans ∧
    (s.mapTableAccess a).field = s.field ∧
    (s.mapTableAccess a).ring = s.ring ∧
    (s.mapTableAccess a).status = s.status ∧
    (s.mapTableAccess a).choices = s.choices ∧
    (s.mapTableAccess a).pending = s.pending := by
  unfold State.mapTableAccess; split <;> (try split_ifs) <;> simp

@[simp] theorem State.consumerWrite_frame (s : State) (a : Addr) (be : Lanes) (d : Word) :
    (s.consumerWrite a be d).loader = s.loader ∧
    (s.consumerWrite a be d).mem = s.mem ∧
    (s.consumerWrite a be d).map = s.map ∧
    (s.consumerWrite a be d).chans = s.chans ∧
    (s.consumerWrite a be d).field = s.field ∧
    (s.consumerWrite a be d).pool = s.pool ∧
    (s.consumerWrite a be d).choices = s.choices ∧
    (s.consumerWrite a be d).pending = s.pending := by
  unfold State.consumerWrite; dsimp only; split_ifs <;> simp

@[simp] theorem State.ringHeaderAccess_frame (s : State) (a : Access) :
    (s.ringHeaderAccess a).loader = s.loader ∧
    (s.ringHeaderAccess a).mem = s.mem ∧
    (s.ringHeaderAccess a).map = s.map ∧
    (s.ringHeaderAccess a).chans = s.chans ∧
    (s.ringHeaderAccess a).field = s.field ∧
    (s.ringHeaderAccess a).pool = s.pool ∧
    (s.ringHeaderAccess a).choices = s.choices ∧
    (s.ringHeaderAccess a).pending = s.pending := by
  unfold State.ringHeaderAccess; split <;> (try split_ifs) <;> simp

@[simp] theorem State.invalidAccess_frame (s : State) (a : Access) :
    (s.invalidAccess a).loader = s.loader ∧
    (s.invalidAccess a).mem = s.mem ∧
    (s.invalidAccess a).queue = s.queue ∧
    (s.invalidAccess a).map = s.map ∧
    (s.invalidAccess a).chans = s.chans ∧
    (s.invalidAccess a).field = s.field ∧
    (s.invalidAccess a).pool = s.pool ∧
    (s.invalidAccess a).choices = s.choices ∧
    (s.invalidAccess a).pending = s.pending := by
  simp [State.invalidAccess]

@[simp] theorem State.passAccess_frame (s : State) (a : Access) (t : Attrs) :
    (s.passAccess a t).loader = s.loader ∧
    (s.passAccess a t).mem = s.mem ∧
    (s.passAccess a t).map = s.map ∧
    (s.passAccess a t).chans = s.chans ∧
    (s.passAccess a t).field = s.field ∧
    (s.passAccess a t).pool = s.pool ∧
    (s.passAccess a t).ring = s.ring ∧
    (s.passAccess a t).choices = s.choices ∧
    (s.passAccess a t).pending = s.pending := by
  unfold State.passAccess; dsimp only; split <;> (try split_ifs) <;> simp

@[simp] theorem State.orderAccess_frame (s : State) (a : Access) (c : ChanId) (t : Attrs) :
    (s.orderAccess a c t).loader = s.loader ∧
    (s.orderAccess a c t).mem = s.mem ∧
    (s.orderAccess a c t).map = s.map ∧
    (s.orderAccess a c t).field = s.field ∧
    (s.orderAccess a c t).pool = s.pool ∧
    (s.orderAccess a c t).pending = s.pending := by
  unfold State.orderAccess; dsimp only; split <;> split_ifs <;> simp

@[simp] theorem State.snapAccess_frame (s : State) (a : Access) (c : ChanId) (t : Attrs) :
    (s.snapAccess a c t).loader = s.loader ∧
    (s.snapAccess a c t).mem = s.mem ∧
    (s.snapAccess a c t).queue = s.queue ∧
    (s.snapAccess a c t).map = s.map ∧
    (s.snapAccess a c t).chans = s.chans ∧
    (s.snapAccess a c t).field = s.field ∧
    (s.snapAccess a c t).ring = s.ring ∧
    (s.snapAccess a c t).choices = s.choices ∧
    (s.snapAccess a c t).pending = s.pending := by
  unfold State.snapAccess; split <;> simp

@[simp] theorem State.statusAccess_frame (s : State) (a : Access) (t : Attrs) :
    (s.statusAccess a t).loader = s.loader ∧
    (s.statusAccess a t).queue = s.queue ∧
    (s.statusAccess a t).field = s.field ∧
    (s.statusAccess a t).pending = s.pending := by
  unfold State.statusAccess; dsimp only; split <;> (try split_ifs) <;> simp

@[simp] theorem State.access_frame (s : State) (a : Access) :
    (s.access a).loader = s.loader ∧
    (s.access a).field = s.field ∧
    (s.access a).pending = s.pending := by
  unfold State.access State.take State.classified State.windowAccess State.pageAccess; (repeat' split) <;> simp

@[simp] theorem State.grantRing_frame (s : State) :
    (s.grantRing).loader = s.loader ∧
    (s.grantRing).port = s.port ∧
    (s.grantRing).queue = s.queue ∧
    (s.grantRing).map = s.map ∧
    (s.grantRing).chans = s.chans ∧
    (s.grantRing).field = s.field ∧
    (s.grantRing).pool = s.pool ∧
    (s.grantRing).status = s.status ∧
    (s.grantRing).choices = s.choices ∧
    (s.grantRing).pending = s.pending := by
  unfold State.grantRing; dsimp only; (repeat' split) <;> simp

@[simp] theorem State.grant_frame (s : State) :
    (s.grant).loader = s.loader ∧
    (s.grant).port = s.port ∧
    (s.grant).queue = s.queue ∧
    (s.grant).map = s.map ∧
    (s.grant).chans = s.chans ∧
    (s.grant).field = s.field ∧
    (s.grant).pool = s.pool ∧
    (s.grant).status = s.status ∧
    (s.grant).choices = s.choices ∧
    (s.grant).pending = s.pending := by
  unfold State.grant State.grantTo State.grantFetch State.grantDrain State.grantHeld; (repeat' split) <;> simp

@[simp] theorem State.closePublished_frame (s : State) (r : Record) :
    (s.closePublished r).loader = s.loader ∧
    (s.closePublished r).port = s.port ∧
    (s.closePublished r).mem = s.mem ∧
    (s.closePublished r).queue = s.queue ∧
    (s.closePublished r).map = s.map ∧
    (s.closePublished r).field = s.field ∧
    (s.closePublished r).pool = s.pool ∧
    (s.closePublished r).ring = s.ring ∧
    (s.closePublished r).status = s.status ∧
    (s.closePublished r).choices = s.choices ∧
    (s.closePublished r).pending = s.pending := by
  unfold State.closePublished; split <;> simp

@[simp] theorem State.publishDone_frame (s : State) :
    (s.publishDone).loader = s.loader ∧
    (s.publishDone).port = s.port ∧
    (s.publishDone).mem = s.mem ∧
    (s.publishDone).queue = s.queue ∧
    (s.publishDone).map = s.map ∧
    (s.publishDone).field = s.field ∧
    (s.publishDone).pool = s.pool ∧
    (s.publishDone).status = s.status ∧
    (s.publishDone).choices = s.choices ∧
    (s.publishDone).pending = s.pending := by
  unfold State.publishDone; split <;> simp

@[simp] theorem State.ringFailed_frame (s : State) (a : RingAccess) (b : Bool) (x : Addr) :
    (s.ringFailed a b x).loader = s.loader ∧
    (s.ringFailed a b x).port = s.port ∧
    (s.ringFailed a b x).mem = s.mem ∧
    (s.ringFailed a b x).queue = s.queue ∧
    (s.ringFailed a b x).map = s.map ∧
    (s.ringFailed a b x).chans = s.chans ∧
    (s.ringFailed a b x).field = s.field ∧
    (s.ringFailed a b x).pool = s.pool ∧
    (s.ringFailed a b x).choices = s.choices ∧
    (s.ringFailed a b x).pending = s.pending := by
  unfold State.ringFailed; split_ifs <;> simp

@[simp] theorem State.drainFailed_frame (s : State) :
    (s.drainFailed).loader = s.loader ∧
    (s.drainFailed).port = s.port ∧
    (s.drainFailed).mem = s.mem ∧
    (s.drainFailed).map = s.map ∧
    (s.drainFailed).chans = s.chans ∧
    (s.drainFailed).field = s.field ∧
    (s.drainFailed).pool = s.pool ∧
    (s.drainFailed).choices = s.choices ∧
    (s.drainFailed).pending = s.pending := by
  unfold State.drainFailed; split <;> simp

@[simp] theorem State.answerHeld_frame (s : State) (f : HeldRead → Answer) :
    (s.answerHeld f).loader = s.loader ∧
    (s.answerHeld f).mem = s.mem ∧
    (s.answerHeld f).queue = s.queue ∧
    (s.answerHeld f).map = s.map ∧
    (s.answerHeld f).chans = s.chans ∧
    (s.answerHeld f).field = s.field ∧
    (s.answerHeld f).pool = s.pool ∧
    (s.answerHeld f).ring = s.ring ∧
    (s.answerHeld f).status = s.status ∧
    (s.answerHeld f).choices = s.choices ∧
    (s.answerHeld f).pending = s.pending := by
  unfold State.answerHeld; split <;> simp

@[simp] theorem State.changeRaw_frame (s : State) (l : FieldLine) (v : Bool) :
    (s.changeRaw l v).loader = s.loader ∧
    (s.changeRaw l v).port = s.port ∧
    (s.changeRaw l v).mem = s.mem ∧
    (s.changeRaw l v).queue = s.queue ∧
    (s.changeRaw l v).map = s.map ∧
    (s.changeRaw l v).chans = s.chans ∧
    (s.changeRaw l v).pool = s.pool ∧
    (s.changeRaw l v).ring = s.ring ∧
    (s.changeRaw l v).status = s.status ∧
    (s.changeRaw l v).choices = s.choices ∧
    (s.changeRaw l v).pending = s.pending := by
  simp [State.changeRaw]

@[simp] theorem State.debounceExpired_frame (s : State) (l : FieldLine) :
    (s.debounceExpired l).loader = s.loader ∧
    (s.debounceExpired l).port = s.port ∧
    (s.debounceExpired l).mem = s.mem ∧
    (s.debounceExpired l).queue = s.queue ∧
    (s.debounceExpired l).map = s.map ∧
    (s.debounceExpired l).pool = s.pool ∧
    (s.debounceExpired l).pending = s.pending := by
  unfold State.debounceExpired State.lineChanged State.stopChanged State.permitChanged; dsimp only; (repeat' split) <;> simp

@[simp] theorem State.gaugeSampled_frame (s : State) (g : GaugeId) (r : Half) (v : Bool) :
    (s.gaugeSampled g r v).loader = s.loader ∧
    (s.gaugeSampled g r v).port = s.port ∧
    (s.gaugeSampled g r v).mem = s.mem ∧
    (s.gaugeSampled g r v).queue = s.queue ∧
    (s.gaugeSampled g r v).map = s.map ∧
    (s.gaugeSampled g r v).pool = s.pool ∧
    (s.gaugeSampled g r v).pending = s.pending := by
  unfold State.gaugeSampled; dsimp only; split_ifs <;> simp

@[simp] theorem State.reportTaken_frame (s : State) (a b : ChanId) :
    (s.reportTaken a b).loader = s.loader ∧
    (s.reportTaken a b).port = s.port ∧
    (s.reportTaken a b).mem = s.mem ∧
    (s.reportTaken a b).queue = s.queue ∧
    (s.reportTaken a b).map = s.map ∧
    (s.reportTaken a b).pool = s.pool ∧
    (s.reportTaken a b).choices = s.choices ∧
    (s.reportTaken a b).pending = s.pending := by
  unfold State.reportTaken; split <;> simp

@[simp] theorem State.handOn_frame (s : State) (c : ChanId) :
    (s.handOn c).loader = s.loader ∧
    (s.handOn c).port = s.port ∧
    (s.handOn c).mem = s.mem ∧
    (s.handOn c).queue = s.queue ∧
    (s.handOn c).map = s.map ∧
    (s.handOn c).chans = s.chans ∧
    (s.handOn c).pool = s.pool ∧
    (s.handOn c).ring = s.ring ∧
    (s.handOn c).status = s.status ∧
    (s.handOn c).choices = s.choices ∧
    (s.handOn c).pending = s.pending := by
  simp [State.handOn]

@[simp] theorem State.sampled_frame (s : State) (c : ChanId) (x : Sample) :
    (s.sampled c x).loader = s.loader ∧
    (s.sampled c x).port = s.port ∧
    (s.sampled c x).mem = s.mem ∧
    (s.sampled c x).queue = s.queue ∧
    (s.sampled c x).map = s.map ∧
    (s.sampled c x).pending = s.pending := by
  unfold State.sampled; dsimp only; split_ifs <;> simp

end Sys2Proof.Machine
end

