-- ==== Sys2Proof/Laws/Blocks.lean ====
section
/-! SUPPORT. What the operations of the queue, the map unit, the capture buffer pool, the staging queue and the status
unit keep: one lemma per operation and invariant. -/

namespace Sys2Proof.Machine

/-! ### The posted write queue -/

theorem QueueOk.enqueue {q : List QEntry} (h : QueueOk q) (e : QEntry) (len : q.length < 8) (be : e.be ≠ 0) :
    QueueOk (q ++ [e]) where
  length := by simp; omega
  enabled := by
    intro x hx
    rcases List.mem_append.1 hx with hx | hx
    · exact h.enabled x hx
    · simp at hx; subst hx; exact be

theorem QueueOk.pop {q : List QEntry} (h : QueueOk q) : QueueOk q.tail where
  length := by have := h.length; simp; omega
  enabled := fun x hx => h.enabled x (List.mem_of_mem_tail hx)

theorem QueueOk.nil : QueueOk [] := ⟨by simp, by simp⟩

theorem reverseLanes_ne_zero {be : Lanes} (h : be ≠ 0) : reverseLanes be ≠ 0 := by
  revert h; revert be; decide

/-! ### The map unit -/

theorem MapUnit.entry?_mem {m : MapUnit} {p : PageId} {e : CacheEntry} (h : m.entry? p = some e) :
    e ∈ m.cache ∧ e.page = p := by
  unfold MapUnit.entry? at h
  exact ⟨List.mem_of_find?_eq_some h, by have := List.find?_some h; simpa using this⟩

theorem MapUnit.entry?_none {m : MapUnit} {p : PageId} (h : m.entry? p = none) : p ∉ m.pages := by
  unfold MapUnit.entry? at h
  rw [List.find?_eq_none] at h
  intro hp
  obtain ⟨e, he, rfl⟩ := List.mem_map.1 hp
  exact h e he (by simp)

/-- A cache that holds no page twice is its entry for a page and the rest. -/
theorem MapUnit.touch_perm {m : MapUnit} (h : m.pages.Nodup) {e : CacheEntry} (he : e ∈ m.cache) :
    (m.touch e).cache.Perm m.cache := by
  have key : ∀ l : List CacheEntry, (l.map (·.page)).Nodup → e ∈ l →
      (l.filter (fun x => x.page != e.page) ++ [e]).Perm l := by
    intro l
    induction l with
    | nil => intro _ h; simp at h
    | cons a l ih =>
      intro nd he
      simp only [List.map_cons, List.nodup_cons] at nd
      rcases List.mem_cons.1 he with rfl | he
      · have : l.filter (fun x => x.page != e.page) = l := by
          rw [List.filter_eq_self]
          intro x hx
          have : x.page ≠ e.page := fun hxe => nd.1 (List.mem_map.2 ⟨x, hx, hxe⟩)
          simpa using this
        simp only [List.filter_cons, bne_self_eq_false, Bool.false_eq_true, if_false, this]
        exact List.perm_append_singleton e l
      · have : a.page ≠ e.page := fun hae => nd.1 (List.mem_map.2 ⟨e, he, hae.symm⟩)
        simp only [List.filter_cons, bne_iff_ne, ne_eq, this, not_false_eq_true, if_true, List.cons_append]
        exact (ih nd.2 he).cons a
  exact key m.cache h he

/-- The invariant of the map unit depends on the cache up to the use order. -/
theorem MapOk.of_perm {m m' : MapUnit} (h : MapOk m) (p : m'.cache.Perm m.cache) (f : m'.fetcher = m.fetcher)
    (k : m'.failed = m.failed) : MapOk m' := by
  have pages : m'.pages.Perm m.pages := p.map _
  constructor
  · rw [p.length_eq]; exact h.length
  · unfold MapUnit.pinnedCount; rw [p.countP_eq]; exact h.pinned
  · exact pages.nodup_iff.2 h.once
  · rw [f, k, pages.mem_iff]; exact h.flight
  · intro q hq; rw [pages.mem_iff]; rw [k] at hq; exact h.mark q hq

theorem MapOk.touch {m : MapUnit} (h : MapOk m) {e : CacheEntry} (he : e ∈ m.cache) : MapOk (m.touch e) :=
  h.of_perm (MapUnit.touch_perm h.once he) rfl rfl

theorem MapOk.clearMark {m : MapUnit} (h : MapOk m) : MapOk { m with failed := none } where
  length := h.length
  pinned := h.pinned
  once := h.once
  flight := fun f => ⟨(h.flight f).1, by simp⟩
  mark := by intro p hp; simp at hp

theorem MapOk.startFetch {m : MapUnit} (h : MapOk m) {p : PageId} (hp : p ∉ m.pages) (hf : m.failed ≠ some p) :
    MapOk (m.startFetch p) where
  length := h.length
  pinned := h.pinned
  once := h.once
  flight := fun _ => ⟨hp, hf⟩
  mark := h.mark

/-- The fetcher may change as long as a fetch in flight keeps its page. -/
theorem MapOk.setFetcher {m : MapUnit} (h : MapOk m) (f : Fetcher)
    (hf : f.phase ≠ .idle → m.fetcher.phase ≠ .idle ∧ f.page = m.fetcher.page) : MapOk { m with fetcher := f } where
  length := h.length
  pinned := h.pinned
  once := h.once
  flight := by
    intro hi
    obtain ⟨h1, h2⟩ := hf hi
    show f.page ∉ m.pages ∧ m.failed ≠ some f.page
    rw [h2]; exact h.flight h1
  mark := h.mark

theorem Fetcher.spoil_phase (f : Fetcher) (o : Bool) :
    (f.spoil o).phase ≠ .idle → f.phase ≠ .idle ∧ (f.spoil o).page = f.page := by
  unfold Fetcher.spoil
  split_ifs with h <;> simp_all

theorem MapOk.forget {m : MapUnit} (h : MapOk m) (p : PageId) (o : Bool) : MapOk (m.forget p o) := by
  have sub : (m.without p).Sublist m.cache := List.filter_sublist
  have pages : ((m.without p).map (·.page)).Sublist m.pages := sub.map _
  have key : MapOk { m with cache := m.without p } := by
    constructor
    · exact le_trans sub.length_le h.length
    · exact le_trans (sub.countP_le) h.pinned
    · exact pages.nodup h.once
    · intro f; exact ⟨fun hm => (h.flight f).1 (pages.subset hm), (h.flight f).2⟩
    · intro q hq hm; exact h.mark q hq (pages.subset hm)
  have step2 : MapOk { m with cache := m.without p, failed := if m.failed = some p then none else m.failed } := by
    split_ifs
    · exact key.clearMark
    · exact key
  refine step2.setFetcher (if m.fetcher.page = p then m.fetcher.spoil o else m.fetcher) ?_
  intro hi
  show m.fetcher.phase ≠ .idle ∧ (if m.fetcher.page = p then m.fetcher.spoil o else m.fetcher).page = m.fetcher.page
  by_cases hp : m.fetcher.page = p
  · rw [if_pos hp] at hi ⊢; exact m.fetcher.spoil_phase o hi
  · rw [if_neg hp] at hi ⊢; exact ⟨hi, rfl⟩

theorem countP_eraseP_not {α : Type} (p : α → Bool) (l : List α) :
    (l.eraseP (fun x => !p x)).countP p = l.countP p := by
  induction l with
  | nil => rfl
  | cons a l ih =>
    by_cases h : p a
    · simp [h, ih]
    · simp [h]

theorem length_eraseP_lt {α : Type} (p : α → Bool) (l : List α) (h : l.countP p < l.length) :
    (l.eraseP (fun x => !p x)).length + 1 = l.length := by
  have : ∃ a ∈ l, (!p a) = true := by
    by_contra hc
    push Not at hc
    have : l.countP p = l.length := by
      rw [List.countP_eq_length]
      intro a ha
      have := hc a ha
      simpa using this
    omega
  obtain ⟨a, ha, hpa⟩ := this
  rw [List.length_eraseP_of_mem ha hpa]
  have := List.length_pos_of_mem ha
  omega

/-- A completed fetch keeps the invariant: there is room or an unpinned entry to replace, and the page is not cached
yet (R41, R42). -/
theorem MapOk.placed {m : MapUnit} (h : MapOk m) (flying : m.fetcher.phase ≠ .idle) (w : Word) :
    MapOk { m with
      cache := m.makeRoom ++ [m.fetched m.fetcher.page w]
      fetcher := { m.fetcher with phase := .idle } } := by
  have fl := h.flight flying
  have sub : m.makeRoom.Sublist m.cache := by
    unfold MapUnit.makeRoom; split_ifs
    · exact List.Sublist.refl _
    · exact List.eraseP_sublist
  have cnt : m.makeRoom.countP (·.pinned) = m.pinnedCount := by
    unfold MapUnit.makeRoom MapUnit.pinnedCount; split_ifs
    · rfl
    · exact countP_eraseP_not _ _
  have len : m.makeRoom.length ≤ 15 := by
    unfold MapUnit.makeRoom; split_ifs with hl
    · omega
    · have h1 := h.pinned
      have h2 := h.length
      have := length_eraseP_lt (fun e : CacheEntry => e.pinned) m.cache (by
        unfold MapUnit.pinnedCount at h1; omega)
      omega
  constructor
  · simp; omega
  · show (m.makeRoom ++ [m.fetched m.fetcher.page w]).countP (·.pinned) ≤ 8
    rw [List.countP_append, cnt]
    have h1 := h.pinned
    by_cases hp : m.pinnedCount < 8
    · have : List.countP (fun e : CacheEntry => e.pinned) [m.fetched m.fetcher.page w] ≤ 1 := List.countP_le_length
      omega
    · simp [MapUnit.fetched, hp]; omega
  · show ((m.makeRoom ++ [m.fetched m.fetcher.page w]).map (·.page)).Nodup
    rw [List.map_append, List.nodup_append]
    refine ⟨(sub.map _).nodup h.once, by simp, ?_⟩
    intro a ha b hb
    simp only [List.map_cons, List.map_nil, List.mem_singleton, MapUnit.fetched] at hb
    subst hb
    intro hab; subst hab
    exact fl.1 ((sub.map _).subset ha)
  · simp
  · intro q hq hm
    simp only [MapUnit.pages, List.map_append, List.mem_append, List.map_cons, List.map_nil,
      List.mem_singleton, MapUnit.fetched] at hm
    rcases hm with hm | hm
    · exact h.mark q hq ((sub.map _).subset hm)
    · subst hm; exact fl.2 hq

/-- A failed fetch leaves its page failed and not cached (R45, R46). -/
theorem MapOk.failed {m : MapUnit} (h : MapOk m) (flying : m.fetcher.phase ≠ .idle) :
    MapOk { m with fetcher := { m.fetcher with phase := .idle }, failed := some m.fetcher.page } where
  length := h.length
  pinned := h.pinned
  once := h.once
  flight := by simp
  mark := by
    intro p hp
    simp at hp; subst hp
    exact (h.flight flying).1

theorem MapOk.reset : MapOk MapUnit.reset := by
  constructor <;> simp [MapUnit.reset, MapUnit.pinnedCount, MapUnit.pages, Fetcher.reset]

/-! ### The capture buffer pool -/

theorem Pool.holder_key {p : Pool} {k : BufKey} {i : Fin 6} (h : p.holder k = some i) : p.bufs[i].key? = some k := by
  have := List.find?_some h
  simpa using this

theorem Pool.holder_none {p : Pool} {k : BufKey} (h : p.holder k = none) (i : Fin 6) : p.bufs[i].key? ≠ some k := by
  unfold Pool.holder at h
  rw [List.find?_eq_none] at h
  have := h i (List.mem_finRange i)
  simpa using this

/-- The buffer of a pool after one buffer is set. -/
theorem Pool.set_get (b : Vector Buffer 6) (i j : Fin 6) (x : Buffer) : (b.set i x)[j] = if j = i then x else b[j] := by
  by_cases h : j = i
  · subst h; simp
  · have : (i : Nat) ≠ (j : Nat) := fun e => h (Fin.ext e.symm)
    simp [h, this]

/-- A buffer that takes a new key, or loses its own, keeps the keys distinct. -/
theorem PoolOk.keys_set {p : Pool} (h : PoolOk p) (i : Fin 6) (x : Buffer)
    (hx : ∀ k, x.key? = some k → ∀ j : Fin 6, j ≠ i → p.bufs[j].key? ≠ some k) :
    ∀ a b : Fin 6, (p.bufs.set i x)[a].key? ≠ none → (p.bufs.set i x)[a].key? = (p.bufs.set i x)[b].key? → a = b := by
  intro a b
  rw [Pool.set_get, Pool.set_get]
  by_cases ha : a = i <;> by_cases hb : b = i <;> simp only [ha, hb, if_true, if_false]
  · intros; trivial
  · intro hn he
    obtain ⟨k, hk⟩ := Option.ne_none_iff_exists'.1 hn
    exact absurd (he ▸ hk) (hx k hk b hb)
  · intro hn he
    obtain ⟨k, hk⟩ := Option.ne_none_iff_exists'.1 hn
    exact absurd hk (hx k (he ▸ hk) a ha)
  · exact h.keys a b

theorem PoolOk.release {p : Pool} (h : PoolOk p) (i : Fin 6) : PoolOk (p.release i) where
  keys := h.keys_set i .free (by intro k hk; simp [Buffer.key?] at hk)
  order := h.order.filter _
  filled := by
    intro j
    simp only [Pool.release, Pool.set_get, List.mem_filter, bne_iff_ne, ne_eq, h.filled j]
    by_cases hj : j = i <;> simp [hj, Buffer.isFilled]
  armed := by
    intro j k
    simp only [Pool.release, Pool.set_get]
    by_cases hj : j = i <;> simp [hj]
    exact h.armed j k

theorem PoolOk.arm {p : Pool} (h : PoolOk p) (i : Fin 6) (k : BufKey) (hk : ∀ j : Fin 6, p.bufs[j].key? ≠ some k)
    (hf : k.fresh = true) : PoolOk (p.arm i k) where
  keys := h.keys_set i (.armed k) (by intro k' hk' j _; simp [Buffer.key?] at hk'; subst hk'; exact hk j)
  order := h.order.filter _
  filled := by
    intro j
    simp only [Pool.arm, Pool.set_get, List.mem_filter, bne_iff_ne, ne_eq, h.filled j]
    by_cases hj : j = i <;> simp [hj, Buffer.isFilled]
  armed := by
    intro j k'
    simp only [Pool.arm, Pool.set_get]
    by_cases hj : j = i
    · simp [hj]; rintro rfl; exact hf
    · simp [hj]; exact h.armed j k'

theorem PoolOk.fill {p : Pool} (h : PoolOk p) (i : Fin 6) (k : BufKey) (hk : ∀ j : Fin 6, j ≠ i → p.bufs[j].key? ≠ some k)
    (st : Bool) (w : Vector Word 12) : PoolOk (p.fill i k st w) where
  keys := h.keys_set i (.filled k st w) (by intro k' hk' j hj; simp [Buffer.key?] at hk'; subst hk'; exact hk j hj)
  order := by
    show (p.fillOrder.filter (· != i) ++ [i]).Nodup
    rw [List.nodup_append]
    refine ⟨h.order.filter _, by simp, ?_⟩
    intro a ha b hb
    simp only [List.mem_singleton] at hb
    simp only [List.mem_filter, bne_iff_ne, ne_eq] at ha
    subst hb; exact ha.2
  filled := by
    intro j
    simp only [Pool.fill, Pool.set_get, List.mem_append, List.mem_filter, bne_iff_ne, ne_eq, h.filled j,
      List.mem_singleton]
    by_cases hj : j = i <;> simp [hj, Buffer.isFilled]
  armed := by
    intro j k'
    simp only [Pool.fill, Pool.set_get]
    by_cases hj : j = i <;> simp [hj]
    exact h.armed j k'

theorem PoolOk.releaseChan {p : Pool} (h : PoolOk p) (c : ChanId) : PoolOk (p.releaseChan c) := by
  have get : ∀ j : Fin 6, (p.releaseChan c).bufs[j] = if p.bufs[j].isOf c then .free else p.bufs[j] := by
    intro j; simp [Pool.releaseChan]
  constructor
  · intro a b
    rw [get, get]
    split_ifs <;> simp only [Buffer.key?] <;> intro h1 h2
    · exact absurd rfl h1
    · exact absurd rfl h1
    · rw [h2] at h1; exact absurd rfl h1
    · exact h.keys a b h1 h2
  · exact h.order.filter _
  · intro j
    rw [get]
    have := h.filled j
    simp only [Pool.releaseChan, List.mem_filter, this]
    split_ifs with hc <;> simp_all [Buffer.isFilled]
  · intro j k
    rw [get]
    split_ifs
    · simp
    · exact h.armed j k

theorem PoolOk.empty : PoolOk Pool.empty := by
  constructor <;> simp [Pool.empty, Buffer.key?, Buffer.isFilled]

/-! ### Staging records -/

/-- What a staging can do to the ring writer: nothing, a record more in the staging queue while it has room, or a close
record held while it has none (R156 to R158). -/
theorem State.stage_ring (s : State) (r : Record) :
    (s.stage r).ring = s.ring ∨
    (s.ring.staging.length < 8 ∧ (s.stage r).ring = { s.ring with staging := s.ring.staging ++ [r] }) ∨
    (8 ≤ s.ring.staging.length ∧ r.isClose ∧ (s.stage r).ring = { s.ring with held := s.ring.held ++ [r] }) := by
  unfold State.stage
  split_ifs with h1 h2 h3
  · exact .inl rfl
  · exact .inr (.inl ⟨h2, rfl⟩)
  · exact .inr (.inr ⟨by omega, h3, rfl⟩)
  · exact .inl rfl

/-- A staging raises RINGDROP or nothing (R157). -/
theorem State.stage_status (s : State) (r : Record) :
    (s.stage r).status = s.status ∨
    (s.stage r).status = s.status.raise .ringDrop s.loader.setup.producerAddr := by
  unfold State.stage
  split_ifs <;> simp

theorem StagingOk.stage {s : State} (h : StagingOk s.ring) (r : Record) : StagingOk (s.stage r).ring := by
  rcases s.stage_ring r with e | ⟨l, e⟩ | ⟨l, hc, e⟩ <;> rw [e]
  · exact h
  · refine ⟨by simp; omega, ?_, h.close⟩
    intro hh
    have := h.full hh
    omega
  · refine ⟨h.length, fun _ => by have := h.length; simp; omega, ?_⟩
    intro x hx
    rcases List.mem_append.1 hx with hx | hx
    · exact h.close x hx
    · simp at hx; subst hx; exact hc

theorem StagingOk.stageAll {s : State} (h : StagingOk s.ring) (rs : List Record) : StagingOk (s.stageAll rs).ring := by
  induction rs generalizing s with
  | nil => exact h
  | cons r rs ih => exact ih (h.stage r)

theorem StagingOk.stageAndRaise {s : State} (h : StagingOk s.ring) (r : Record) (f : Flag) (a : Addr) :
    StagingOk (s.stageAndRaise r f a).ring := by
  unfold State.stageAndRaise
  dsimp only
  split_ifs
  · exact StagingOk.stage (s := { s with choices := s.choices + 1 }) h r
  · exact StagingOk.stage (s := State.raise { s with choices := s.choices + 1 } f a) h r
  · exact StagingOk.stage (s := s.raise f a) h r

theorem StagingOk.performAll {s : State} (h : StagingOk s.ring) (es : List Effect) :
    StagingOk (s.performAll es).ring := by
  induction es generalizing s with
  | nil => exact h
  | cons e es ih =>
    refine ih (s := s.perform e) ?_
    cases e with
    | stage r => exact h.stage r
    | news r f a => exact h.stageAndRaise r f a

theorem StagingOk.stageTogether {s : State} (h : StagingOk s.ring) (gs : List (List Record)) :
    StagingOk (s.stageTogether gs).ring :=
  StagingOk.stageAll (s := { s with choices := s.choices + 1 }) h _

theorem StagingOk.eachChan {s : State} (h : StagingOk s.ring) (o : List Record)
    (f : ChanId → Channel → Channel × List Record) : StagingOk (s.eachChan o f).ring :=
  StagingOk.stageTogether (s := { s with chans := Vector.ofFn (fun c => (f c s.chans[c]).1) }) h _

theorem StagingOk.removeHead {r : Ring} (h : StagingOk r) (ne : r.staging ≠ []) : StagingOk r.removeHead := by
  have pos : 0 < r.staging.length := List.length_pos_of_ne_nil ne
  have := h.length
  unfold Ring.removeHead
  split
  · rename_i hh
    exact ⟨by simp; omega, by simp [hh], by simp [hh]⟩
  · rename_i x rest hh
    have full := h.full (by simp [hh])
    refine ⟨by simp; omega, fun _ => by simp; omega, ?_⟩
    intro y hy
    exact h.close y (by rw [hh]; exact List.mem_cons_of_mem _ hy)

theorem StagingOk.restarted (r : Ring) : StagingOk r.restarted := ⟨by simp [Ring.restarted], by simp [Ring.restarted],
  by simp [Ring.restarted]⟩

/-! ### The status unit -/

/-- A flag's bit is set in the word after its raise. -/
theorem Flag.or_bit_ne_zero (x : BitVec 9) (f : Flag) : x ||| f.bit ≠ 0 := by
  intro h
  have : (x ||| f.bit).getLsbD f.index = true := by
    cases f <;> simp [Flag.bit, Flag.index]
  rw [h] at this
  simp at this

theorem StatusOk.raise {u : Status} (f : Flag) (a : Addr) : StatusOk (u.raise f a) := by
  intro h
  exact absurd h (Flag.or_bit_ne_zero u.flags f)

theorem StatusOk.writeFlags (u : Status) (m v : Word) : StatusOk (u.writeFlags m v) := by
  intro hf
  simp only [Status.writeFlags] at hf ⊢
  simp [hf]

theorem StatusOk.stage {s : State} (h : StatusOk s.status) (r : Record) : StatusOk (s.stage r).status := by
  rcases s.stage_status r with e | e <;> rw [e]
  · exact h
  · exact StatusOk.raise _ _

theorem StatusOk.stageAll {s : State} (h : StatusOk s.status) (rs : List Record) : StatusOk (s.stageAll rs).status := by
  induction rs generalizing s with
  | nil => exact h
  | cons r rs ih => exact ih (h.stage r)

theorem StatusOk.stageAndRaise {s : State} (r : Record) (f : Flag) (a : Addr) :
    StatusOk (s.stageAndRaise r f a).status := by
  unfold State.stageAndRaise
  dsimp only
  split_ifs
  · exact StatusOk.raise _ _
  · exact StatusOk.stage (StatusOk.raise _ _) r
  · exact StatusOk.stage (StatusOk.raise _ _) r

theorem StatusOk.performAll {s : State} (h : StatusOk s.status) (es : List Effect) :
    StatusOk (s.performAll es).status := by
  induction es generalizing s with
  | nil => exact h
  | cons e es ih =>
    refine ih (s := s.perform e) ?_
    cases e with
    | stage r => exact h.stage r
    | news r f a => exact StatusOk.stageAndRaise r f a

theorem StatusOk.stageTogether {s : State} (h : StatusOk s.status) (gs : List (List Record)) :
    StatusOk (s.stageTogether gs).status :=
  StatusOk.stageAll (s := { s with choices := s.choices + 1 }) h _

theorem StatusOk.eachChan {s : State} (h : StatusOk s.status) (o : List Record)
    (f : ChanId → Channel → Channel × List Record) : StatusOk (s.eachChan o f).status :=
  StatusOk.stageTogether (s := { s with chans := Vector.ofFn (fun c => (f c s.chans[c]).1) }) h _

end Sys2Proof.Machine
end

