-- ==== Sys2Proof/Laws/Channels.lean ====
section
/-! SUPPORT. What the operations of a channel keep (the invariant `ChannelOk`) and which close records they stage. -/

namespace Sys2Proof.Machine

/-! ### Cause sets -/

theorem Cause.mark_ne_zero (k : Cause) : k.mark ≠ 0 := by cases k <;> decide

theorem byte_or_ne_zero (a b : Byte) (h : b ≠ 0) : a ||| b ≠ 0 := by
  intro e
  apply h
  have : (a ||| b) &&& b = b := by ext i; simp; intros; simp_all
  rw [e] at this
  simpa using this.symm

theorem byte_seen_or (a s m : Byte) (h : a &&& ~~~s = 0) : (a ||| m) &&& ~~~(s ||| m) = 0 := by
  have : (a ||| m) &&& ~~~(s ||| m) = (a &&& ~~~s) &&& ~~~m := by
    ext i hi
    simp
    cases a[i] <;> cases s[i] <;> cases m[i] <;> rfl
  rw [this, h]; simp

theorem byte_seen_self (s m : Byte) : m &&& ~~~(s ||| m) = 0 := by
  ext i hi
  simp
  cases s[i] <;> cases m[i] <;> simp

theorem byte_seen_and (a s k : Byte) (h : a &&& ~~~s = 0) : (a &&& k) &&& ~~~s = 0 := by
  have : (a &&& k) &&& ~~~s = (a &&& ~~~s) &&& k := by
    ext i hi
    simp
    cases a[i] <;> cases s[i] <;> cases k[i] <;> rfl
  rw [this, h]; simp

/-! ### Contexts -/

theorem ContextOk.clear (u : Setup) : ContextOk u .vacant Context.cleared := by
  constructor <;> simp [Context.cleared]

/-- A stage in RAMP or HOLD parks (R90). -/
theorem ContextOk.parkFirst {u : Setup} {st : ChState} {x : Context} (h : ContextOk u st x)
    (run : st = .ramp ∨ st = .hold) (k : Cause) :
    ContextOk u .parked { x with parkSet := k.mark, causesSeen := x.causesSeen ||| k.mark, demand := 0, setpoint := 0 } :=
  { h with
    cleared := by simp
    demandOff := by simp
    demandMax := by simp
    setpoint := by simp
    setpointOff := by simp
    current := fun _ => h.current (by rcases run with rfl | rfl <;> simp)
    parked := fun _ => k.mark_ne_zero
    unparked := by simp
    seen := byte_seen_self _ _
    reason := by rw [h.reason]; rcases run with rfl | rfl <;> simp
    unstarted := by simp }

/-- A further cause joins the set (R90). -/
theorem ContextOk.parkMore {u : Setup} {x : Context} (h : ContextOk u .parked x) (k : Cause) :
    ContextOk u .parked { x with parkSet := x.parkSet ||| k.mark, causesSeen := x.causesSeen ||| k.mark } :=
  { h with
    cleared := by simp
    parked := fun _ => byte_or_ne_zero _ _ k.mark_ne_zero
    unparked := by simp
    seen := byte_seen_or _ _ _ h.seen }

theorem ChannelOk.park {u : Setup} {ch : Channel} (h : ChannelOk u ch) (c : ChanId) (clock : Word) (k : Cause) :
    ChannelOk u (ch.park c clock k).1 := by
  unfold Channel.park
  split
  · rename_i e; exact ⟨h.ctx.parkFirst (.inl e) k, h.readings⟩
  · rename_i e; exact ⟨h.ctx.parkFirst (.inr e) k, h.readings⟩
  · rename_i e
    split_ifs
    · exact h
    · exact ⟨by have := (e ▸ h.ctx).parkMore k; simpa [e] using this, h.readings⟩
  all_goals exact h

theorem ChannelOk.parkEach {u : Setup} {ch : Channel} (h : ChannelOk u ch) (c : ChanId) (clock : Word)
    (ks : List Cause) : ChannelOk u (ch.parkEach c clock ks).1 := by
  induction ks generalizing ch with
  | nil => exact h
  | cons k ks ih => exact ih (h.park c clock k)

/-- Entry to CLOSING from RAMP, HOLD or PARKED (R86). -/
theorem ChannelOk.enterClosing {u : Setup} {ch : Channel} (h : ChannelOk u ch) (c : ChanId) (clock : Word)
    (r : CloseReason) (started : ch.state = .ramp ∨ ch.state = .hold ∨ ch.state = .parked) :
    ChannelOk u (ch.enterClosing c clock r).1 where
  ctx :=
    { h.ctx with
      cleared := by simp [Channel.enterClosing]
      demandOff := by simp [Channel.enterClosing]
      demandMax := by simp [Channel.enterClosing]
      setpoint := by simp [Channel.enterClosing]
      setpointOff := by simp [Channel.enterClosing]
      current := fun _ => h.ctx.current (by rcases started with e | e | e <;> simp [e])
      parked := by simp [Channel.enterClosing]
      unparked := by simp [Channel.enterClosing]
      reason := by simp [Channel.enterClosing]
      unstarted := by simp [Channel.enterClosing] }
  readings := h.readings

theorem ChannelOk.vacate {u : Setup} {ch : Channel} (h : ChannelOk u ch) : ChannelOk u ch.vacate :=
  ⟨ContextOk.clear u, h.readings⟩

theorem ChannelOk.restarted {u : Setup} {ch : Channel} (h : ChannelOk u ch) : ChannelOk u ch.restarted :=
  ⟨ContextOk.clear u, h.readings⟩

theorem ChannelOk.published {u : Setup} {ch : Channel} (h : ChannelOk u ch) : ChannelOk u ch.published := by
  unfold Channel.published
  split_ifs with e
  · refine ⟨{ h.ctx with
      cleared := by simp
      demandOff := fun _ _ => h.ctx.demandOff (by simp [e]) (by simp [e])
      setpoint := by simp
      setpointOff := by simp
      current := fun _ => h.ctx.current (by simp [e])
      parked := by simp
      unparked := by simp
      reason := by rw [h.ctx.reason]; simp [e]
      unstarted := by simp }, h.readings⟩
  · exact h

theorem ChannelOk.reset (u : Setup) : ChannelOk u Channel.reset :=
  ⟨ContextOk.clear u, by constructor <;> simp [Channel.reset, Readings.reset]⟩

/-- The staged image and the result word are no part of the invariant. -/
theorem ChannelOk.of_same {u : Setup} {ch ch' : Channel} (h : ChannelOk u ch) (s : ch'.state = ch.state)
    (x : ch'.ctx = ch.ctx) (r : ch'.readings = ch.readings) : ChannelOk u ch' :=
  ⟨by rw [s, x]; exact h.ctx, by rw [r]; exact h.readings⟩

theorem ChannelOk.latch {u : Setup} {ch : Channel} (h : ChannelOk u ch) (k t : Byte) (o : OrderOutcome) (r : Reason) :
    ChannelOk u (ch.latch k t o r) := h.of_same rfl rfl rfl

theorem Channel.capture_same (ch : Channel) (o : Nat) (be : Lanes) (d : Word) :
    (ch.capture o be d).state = ch.state ∧ (ch.capture o be d).ctx = ch.ctx ∧
      (ch.capture o be d).readings = ch.readings ∧ (ch.capture o be d).result = ch.result := by
  unfold Channel.capture; dsimp only; split <;> simp

theorem ChannelOk.capture {u : Setup} {ch : Channel} (h : ChannelOk u ch) (o : Nat) (be : Lanes) (d : Word) :
    ChannelOk u (ch.capture o be d) :=
  have e := ch.capture_same o be d
  h.of_same e.1 e.2.1 e.2.2.1

/-- A new last tag keeps everything, in a channel that holds a stage (R60). -/
theorem ContextOk.tagged {u : Setup} {st : ChState} {x : Context} (h : ContextOk u st x) (held : st ≠ .vacant)
    (tag : Byte) : ContextOk u st { x with lastTag := tag } :=
  { h with cleared := fun e => absurd e held }

/-! ### The commands -/

theorem stageOrderOf_steps_length (big : Bool) (img : Vector Word 18) : (stageOrderOf big img).steps.length = 6 := rfl

/-- A stage order that passes every test of R63 gives a context within the envelope (R65). -/
theorem ContextOk.loaded {u : Setup} {o : StageOrder} (len : o.steps.length = 6) (c : ChanId) (tag : Byte)
    (pass : o.firstFailure c u = none) : ContextOk u .armed (o.context u tag) := by
  simp only [StageOrder.firstFailure] at pass
  split_ifs at pass with h1 h2 h3 h4 h5 h6 h7 h8 h9
  have hp : ∀ p ∈ o.steps.take o.stepCount, p.pressure ≤ o.pmax := by
    intro p hp
    by_contra hc
    exact h4 (List.any_eq_true.2 ⟨p, hp, by simpa using hc⟩)
  constructor <;> simp [StageOrder.context, Context.cleared]
  · omega
  · omega
  · exact hp
  · omega

theorem ChannelOk.cmdLoad {u : Setup} {ch : Channel} (h : ChannelOk u ch) (env : CommandEnv) (eu : env.setup = u)
    (big : Bool) (tag : Byte) : ChannelOk u (ch.cmdLoad env big tag).chan := by
  unfold Channel.cmdLoad
  split_ifs
  · dsimp only
    split
    · exact h
    · rename_i hf
      subst eu
      exact ⟨ContextOk.loaded (stageOrderOf_steps_length big ch.image) env.id tag hf, h.readings⟩
  · exact h

theorem ChannelOk.cmdStart {u : Setup} {ch : Channel} (h : ChannelOk u ch) (env : CommandEnv) (tag : Byte) :
    ChannelOk u (ch.cmdStart env tag).chan := by
  unfold Channel.cmdStart
  split_ifs with e
  · split
    · exact h
    · refine ⟨{ h.ctx with
        cleared := by simp [Verdict.accept]
        demandOff := by simp [Verdict.accept]
        demandMax := by simp [Verdict.accept]
        setpointOff := by simp [Verdict.accept]
        current := fun _ => Nat.lt_of_le_of_lt (Nat.zero_le _) (h.ctx.current (by simp [e]))
        parked := by simp [Verdict.accept]
        unparked := fun _ => h.ctx.unparked (.inl e)
        reason := by have := h.ctx.reason; simp [e] at this; simp [Verdict.accept, this]
        unstarted := by simp [Verdict.accept]
        overRun := by simp [Verdict.accept]
        losRun := by simp [Verdict.accept] }, h.readings⟩
  · exact h

/-- The current step takes a pressure within Pmax (R67). -/
theorem ContextOk.retargeted {u : Setup} {st : ChState} {x : Context} (h : ContextOk u st x) (held : st ≠ .vacant)
    {p : Nat} (hp : p ≤ x.pmax) (tag : Byte) : ContextOk u st { x.retargeted p with lastTag := tag } :=
  { h with
    cleared := fun e => absurd e held
    steps := by
      intro y hy
      obtain ⟨i, hi, rfl⟩ := List.getElem_of_mem hy
      simp only [Context.retargeted, List.getElem_modify, List.length_modify] at hi ⊢
      split_ifs
      · exact hp
      · exact h.steps _ (List.getElem_mem hi)
    current := by intro e; have := h.current e; simpa [Context.retargeted] using this }

/-- HOLD goes to RAMP, and back, with the demand as it stood (R74). -/
theorem ContextOk.running {u : Setup} {st st' : ChState} {x : Context} (h : ContextOk u st x)
    (a : st = .ramp ∨ st = .hold) (b : st' = .ramp ∨ st' = .hold) : ContextOk u st' x :=
  { h with
    cleared := by rcases b with rfl | rfl <;> simp
    demandOff := by rcases b with rfl | rfl <;> simp
    setpointOff := by rcases b with rfl | rfl <;> simp
    current := fun _ => h.current (by rcases a with rfl | rfl <;> simp)
    parked := by rcases b with rfl | rfl <;> simp
    unparked := fun _ => h.unparked (.inr a)
    reason := by rw [h.reason]; rcases a with rfl | rfl <;> rcases b with rfl | rfl <;> simp
    unstarted := by rcases b with rfl | rfl <;> simp }

theorem ChannelOk.cmdRetarget {u : Setup} {ch : Channel} (h : ChannelOk u ch) (tag : Byte) (arg : Nat) :
    ChannelOk u (ch.cmdRetarget tag arg).chan := by
  have key : ch.state ≠ .vacant →
      ContextOk u ch.state { ch.ctx.retargeted (min arg ch.ctx.pmax) with lastTag := tag } :=
    fun held => h.ctx.retargeted held (Nat.min_le_right _ _) tag
  unfold Channel.cmdRetarget
  dsimp only
  split
  · rename_i e; exact ⟨key (by simp [e]), h.readings⟩
  · rename_i e; exact ⟨key (by simp [e]), h.readings⟩
  · rename_i e
    have stay := key (by simp [e])
    have climb : ContextOk u .ramp { ch.ctx.retargeted (min arg ch.ctx.pmax) with
        lastTag := tag, ceiling := ch.readings.measured, refusalCount := 0 } :=
      { stay.running (.inr e) (.inl rfl) with cleared := by simp }
    split_ifs <;> first | exact ⟨climb, h.readings⟩ | exact ⟨stay, h.readings⟩
  all_goals exact h

theorem ChannelOk.cmdExtend {u : Setup} {ch : Channel} (h : ChannelOk u ch) (env : CommandEnv) (eu : env.setup = u)
    (tag : Byte) (arg : Nat) : ChannelOk u (ch.cmdExtend env tag arg).chan := by
  subst eu
  have key : ch.state ≠ .vacant → ¬ env.setup.siteCapDl < ch.ctx.cap + arg * 10 →
      ContextOk env.setup ch.state { ch.ctx with cap := ch.ctx.cap + arg * 10, lastTag := tag } :=
    fun held le => { h.ctx with cleared := fun e => absurd e held, cap := by simpa using le }
  unfold Channel.cmdExtend
  split <;> (try split_ifs) <;> first | exact h | skip
  all_goals
    rename_i e le
    exact ⟨key (by simp [e]) le, h.readings⟩

theorem ChannelOk.tagged {u : Setup} {ch : Channel} (h : ChannelOk u ch) (held : ch.state ≠ .vacant) (tag : Byte) :
    ChannelOk u (ch.tagged tag) := ⟨h.ctx.tagged held tag, h.readings⟩

theorem ChannelOk.cmdPark {u : Setup} {ch : Channel} (h : ChannelOk u ch) (env : CommandEnv) (tag : Byte) :
    ChannelOk u (ch.cmdPark env tag).chan := by
  unfold Channel.cmdPark
  split <;> first | exact h | skip
  all_goals
    rename_i e
    exact (h.tagged (by simp [e]) tag).park _ _ _

/-- A parked channel that parks again stays PARKED, and its set does not shrink to nothing. -/
theorem Channel.park_parked {ch : Channel} (e : ch.state = .parked) (c : ChanId) (clock : Word) (k : Cause) :
    (ch.park c clock k).1.state = .parked := by
  unfold Channel.park
  simp only [e]
  split_ifs <;> simp [e]

theorem Channel.parkEach_parked {ch : Channel} (e : ch.state = .parked) (c : ChanId) (clock : Word) (ks : List Cause) :
    (ch.parkEach c clock ks).1.state = .parked := by
  induction ks generalizing ch with
  | nil => exact e
  | cons k ks ih => exact ih (Channel.park_parked e c clock k)

/-- A parked context whose set may be empty: what the clearing of R138 leaves. -/
structure ParkedOk (u : Setup) (ch : Channel) : Prop where
  state    : ch.state = .parked
  ctx      : ContextOk u .closing { ch.ctx with closeReason := some .operator }
  reason   : ch.ctx.closeReason = none
  readings : ReadingsOk ch.readings

theorem ParkedOk.of {u : Setup} {ch : Channel} (h : ChannelOk u ch) (e : ch.state = .parked) (keep : Byte) :
    ParkedOk u { ch with ctx := { ch.ctx with parkSet := ch.ctx.parkSet &&& keep } } where
  state := e
  ctx :=
    { h.ctx with
      cleared := by simp
      demandOff := fun _ _ => h.ctx.demandOff (by simp [e]) (by simp [e])
      setpointOff := fun _ _ => h.ctx.setpointOff (by simp [e]) (by simp [e])
      current := fun _ => h.ctx.current (by simp [e])
      parked := by simp
      unparked := by simp
      seen := byte_seen_and _ _ _ h.ctx.seen
      reason := by simp
      unstarted := by simp }
  reason := by have := h.ctx.reason; simp [e] at this; simpa using this
  readings := h.readings

theorem ParkedOk.park {u : Setup} {ch : Channel} (h : ParkedOk u ch) (c : ChanId) (clock : Word) (k : Cause) :
    ParkedOk u (ch.park c clock k).1 := by
  unfold Channel.park
  simp only [h.state]
  split_ifs
  · exact h
  · exact ⟨by simp [h.state], { h.ctx with
      cleared := by simp
      parked := by simp
      unparked := by simp
      seen := byte_seen_or _ _ _ h.ctx.seen }, h.reason, h.readings⟩

theorem ParkedOk.parkEach {u : Setup} {ch : Channel} (h : ParkedOk u ch) (c : ChanId) (clock : Word)
    (ks : List Cause) : ParkedOk u (ch.parkEach c clock ks).1 := by
  induction ks generalizing ch with
  | nil => exact h
  | cons k ks ih => exact ih (h.park c clock k)

theorem ChannelOk.cmdResume {u : Setup} {ch : Channel} (h : ChannelOk u ch) (env : CommandEnv) (tag : Byte) :
    ChannelOk u (ch.cmdResume env tag).chan := by
  unfold Channel.cmdResume
  split_ifs with e
  · have p := (ParkedOk.of h e (ch.persisting env.view)).parkEach env.id env.clock (ch.lookCauses env.view)
    dsimp only
    generalize hq : Channel.parkEach _ env.id env.clock (ch.lookCauses env.view) = q at *
    obtain ⟨q, out⟩ := q
    dsimp only at p ⊢
    split_ifs with z
    · exact ⟨{ p.ctx with
        cleared := by simp [Verdict.accept]
        demandOff := by simp [Verdict.accept]
        demandMax := by simp [Verdict.accept]
        setpointOff := by simp [Verdict.accept]
        current := fun _ => p.ctx.current (by simp)
        parked := by simp [Verdict.accept]
        unparked := fun _ => z
        reason := by simp [Verdict.accept, p.reason]
        unstarted := by simp [Verdict.accept]
        overRun := by simp [Verdict.accept]
        losRun := by simp [Verdict.accept] }, p.readings⟩
    · refine ⟨?_, p.readings⟩
      rw [p.state]
      exact { p.ctx with
        cleared := by simp
        demandOff := fun _ _ => p.ctx.demandOff (by simp) (by simp)
        setpointOff := fun _ _ => p.ctx.setpointOff (by simp) (by simp)
        current := fun _ => p.ctx.current (by simp)
        parked := fun _ => z
        unparked := by simp
        reason := by simp [p.reason]
        unstarted := by simp }
  · exact h

theorem ChannelOk.cmdClose {u : Setup} {ch : Channel} (h : ChannelOk u ch) (env : CommandEnv) (tag : Byte) :
    ChannelOk u (ch.cmdClose env tag).chan := by
  unfold Channel.cmdClose
  split <;> first | exact h | skip
  all_goals
    rename_i e
    exact (h.tagged (by simp [e]) tag).enterClosing env.id env.clock .operator (by simp [Channel.tagged, e])

theorem ChannelOk.cmdRelease {u : Setup} {ch : Channel} (h : ChannelOk u ch) (env : CommandEnv) (tag : Byte) :
    ChannelOk u (ch.cmdRelease env tag).chan := by
  unfold Channel.cmdRelease
  split <;> first | exact h | exact h.vacate

theorem ChannelOk.command {u : Setup} {ch : Channel} (h : ChannelOk u ch) (env : CommandEnv) (eu : env.setup = u)
    (big : Bool) (k : Command) (tag : Byte) (arg : Half) : ChannelOk u (ch.command env big k tag arg).chan := by
  cases k
  · exact h.cmdLoad env eu big tag
  · exact h.cmdStart env tag
  · exact h.cmdRetarget tag _
  · exact h.cmdExtend env eu tag _
  · exact h.cmdPark env tag
  · exact h.cmdResume env tag
  · exact h.cmdClose env tag
  · exact h.cmdRelease env tag

/-! ### Sample arrivals -/

theorem ReadingsOk.update {r : Readings} (h : ReadingsOk r) (smp : Sample) : ReadingsOk (r.update smp) := by
  unfold Readings.update
  dsimp only
  split <;> constructor <;> (try split_ifs) <;> simp [h.window] <;>
    first | exact h.measured | exact h.losCount | exact Nat.min_le_right _ _

theorem ContextOk.countTake {u : Setup} {st : ChState} {x : Context} (h : ContextOk u st x)
    (started : st ≠ .vacant) (notArmed : st ≠ .armed) (n : Nat) : ContextOk u st (x.countTake n) :=
  { h with
    cleared := fun e => absurd e started
    unstarted := fun e => absurd e notArmed
    take := Nat.min_le_right _ _ }

theorem ContextOk.measure {u : Setup} {st : ChState} {x : Context} (h : ContextOk u st x)
    (started : st ≠ .vacant) (notArmed : st ≠ .armed) (a g : Bool) (p n : Nat) :
    ContextOk u st (x.measure a g p n) := by
  have t := h.countTake started notArmed n
  unfold Context.measure
  dsimp only
  split_ifs
  all_goals
    exact { t with
      cleared := fun e => absurd e started
      overRun := by first | exact h.overRun | exact Nat.min_le_right _ _ | exact Nat.zero_le _
      losRun := by first | exact h.losRun | exact Nat.min_le_right _ _ | exact Nat.zero_le _ }

theorem ContextOk.judge {u : Setup} {st : ChState} {x : Context} (h : ContextOk u st x)
    (run : st = .ramp ∨ st = .hold) (r g : Bool) (rise flow : Nat) : ContextOk u st (x.judge r g rise flow) := by
  have target : x.targetNow ≤ x.pmax := by
    unfold Context.targetNow
    dsimp only
    split_ifs <;> omega
  have key : ContextOk u st (x.setpoints r rise) :=
    { h with
      cleared := by rcases run with rfl | rfl <;> simp
      setpoint := by
        simp only [Context.setpoints]
        split_ifs
        · exact le_trans (Nat.min_le_left _ _) target
        · exact target
      setpointOff := by rcases run with rfl | rfl <;> simp }
  unfold Context.judge
  dsimp only
  split_ifs
  · exact { key with cleared := by rcases run with rfl | rfl <;> simp }
  · exact { key with cleared := by rcases run with rfl | rfl <;> simp }
  · exact h

theorem steppedDemand_le {d m p : Nat} (h : d ≤ 63) : steppedDemand d m p ≤ 63 := by
  unfold steppedDemand; split_ifs <;> omega

theorem ContextOk.advance {u : Setup} {x : Context} (h : ContextOk u .hold x) (more : x.onLastStep = false)
    (m : Nat) : ContextOk u .ramp (x.advance m) :=
  { h.running (.inr rfl) (.inl rfl) with
    cleared := by simp
    current := fun _ => by
      simp only [Context.onLastStep, decide_eq_false_iff_not, not_le] at more
      exact more }

theorem ContextOk.move {u : Setup} {st : ChState} {x : Context} (h : ContextOk u st x)
    (run : st = .ramp ∨ st = .hold) (m : Nat) :
    ContextOk u (x.move st m).state (x.move st m).ctx ∧
      ((x.move st m).state = .ramp ∨ (x.move st m).state = .hold) := by
  have hold : ContextOk u .hold x := h.running run (.inr rfl)
  have due : x.advanceDue = true → x.onLastStep = false := by
    intro e; simp only [Context.advanceDue, Bool.and_eq_true, Bool.not_eq_true'] at e; exact e.1
  unfold Context.move
  split_ifs with h1 h2 h3 h4
  · exact ⟨hold.advance (due h2) m, .inl rfl⟩
  · exact ⟨hold, .inr rfl⟩
  · exact ⟨hold.advance (due h4) m, .inl rfl⟩
  · exact ⟨hold, .inr rfl⟩
  · exact ⟨h.running run (.inl rfl), .inl rfl⟩

theorem ContextOk.setDemand {u : Setup} {st : ChState} {x : Context} (h : ContextOk u st x)
    (run : st = .ramp ∨ st = .hold) {d : Nat} (hd : d ≤ 63) : ContextOk u st { x with demand := d } :=
  { h with
    cleared := by rcases run with rfl | rfl <;> simp
    demandOff := by rcases run with rfl | rfl <;> simp
    demandMax := hd }

theorem ChannelOk.regulate {u : Setup} {ch : Channel} (h : ChannelOk u ch) (run : ch.state = .ramp ∨ ch.state = .hold)
    (env : SampleEnv) (g : Bool) : ChannelOk u (ch.regulate env g).1 := by
  unfold Channel.regulate
  dsimp only
  split_ifs
  all_goals first
    | exact ⟨h.ctx.setDemand run (Nat.zero_le _), h.readings⟩
    | skip
  all_goals
    have mv := h.ctx.move run ch.readings.measured
    refine ⟨mv.1.setDemand mv.2 ?_, h.readings⟩
    first | exact Nat.zero_le _ | exact h.ctx.demandMax | exact steppedDemand_le h.ctx.demandMax

theorem withCtx {u : Setup} {ch : Channel} {x : Context} (h : ContextOk u ch.state x) (r : ReadingsOk ch.readings) :
    ChannelOk u { ch with ctx := x } := ⟨h, r⟩

theorem ChannelOk.runSample {u : Setup} {ch : Channel} (h : ChannelOk u ch) (run : ch.state = .ramp ∨ ch.state = .hold)
    (env : SampleEnv) (smp : Sample) : ChannelOk u (ch.runSample env smp).1 := by
  have nv : ch.state ≠ .vacant := by rcases run with e | e <;> simp [e]
  have na : ch.state ≠ .armed := by rcases run with e | e <;> simp [e]
  have x₁ := h.ctx.measure nv na env.autoPark (isGood smp) ch.readings.measured (countedPulses smp)
  have x₃ := x₁.judge run (ch.state == .ramp) (isGood smp) env.rise ch.readings.flow
  have hx := withCtx x₃ h.readings
  unfold Channel.runSample
  dsimp only
  split
  · refine hx.enterClosing env.id env.clock _ ?_
    rcases run with e | e
    · exact .inl e
    · exact .inr (.inl e)
  · split
    · exact hx.park _ _ _
    · exact hx.regulate run _ _

theorem ChannelOk.parkedSample {u : Setup} {ch : Channel} (h : ChannelOk u ch) (e : ch.state = .parked)
    (env : SampleEnv) (smp : Sample) : ChannelOk u (ch.parkedSample env smp).1 := by
  have hx := withCtx (h.ctx.measure (by simp [e]) (by simp [e]) env.autoPark (isGood smp) ch.readings.measured
    (countedPulses smp)) h.readings
  unfold Channel.parkedSample
  dsimp only
  split_ifs
  · exact hx.enterClosing env.id env.clock _ (.inr (.inr e))
  · split
    · exact hx.park _ _ _
    · exact hx

theorem ChannelOk.sample {u : Setup} {ch : Channel} (h : ChannelOk u ch) (env : SampleEnv) (smp : Sample) :
    ChannelOk u (ch.sample env smp).1 := by
  have h' : ChannelOk u { ch with readings := ch.readings.update smp } := ⟨h.ctx, h.readings.update smp⟩
  unfold Channel.sample
  dsimp only
  unfold Channel.stageWork
  split
  · exact h'
  · exact h'
  · exact h'
  · rename_i e; exact h'.runSample (.inl e) env smp
  · rename_i e; exact h'.runSample (.inr e) env smp
  · rename_i e; exact h'.parkedSample e env smp
  · rename_i e
    have e' : ch.state = .closing := e
    exact withCtx (h'.ctx.countTake (by simp [e']) (by simp [e']) (countedPulses smp)) h'.readings

/-! ### Gauges and neighbour reports -/

theorem ChannelOk.gaugeSample {u : Setup} {ch : Channel} (h : ChannelOk u ch) (c : ChanId) (clock : Word) (g : Gauge) :
    ChannelOk u (ch.gaugeSample c clock g).1 := by
  unfold Channel.gaugeSample
  split
  case h_4 => exact h
  case h_5 => exact h
  case h_6 => exact h
  case h_7 => exact h
  all_goals
    rename_i e
    dsimp only
    split_ifs
    · refine ChannelOk.park ?_ c clock .uplift
      exact ⟨{ h.ctx with cleared := by simp [e] }, h.readings⟩
    · exact ⟨{ h.ctx with cleared := by simp [e] }, h.readings⟩
    · exact h.park _ _ _

theorem ChannelOk.takeReport {u : Setup} {ch : Channel} (h : ChannelOk u ch) (c : ChanId) (clock : Word) (r : Report) :
    ChannelOk u (ch.takeReport c clock r).1 := by
  unfold Channel.takeReport
  split
  case h_3 => exact h
  case h_4 => exact h
  case h_5 => exact h
  case h_6 => exact h
  case h_7 => exact h
  all_goals
    rename_i e
    dsimp only
    split_ifs
    · refine ChannelOk.park ?_ c clock .communication
      exact ⟨{ h.ctx with cleared := by simp [e] }, h.readings⟩
    · exact ⟨{ h.ctx with cleared := by simp [e] }, h.readings⟩
    · exact h

end Sys2Proof.Machine
end

