-- ==== Sys2Proof/Laws/CloseRecords.lean ====
section
/-! SUPPORT. Close records are accounted for: which operations of a channel build one, and how a staging adds to the
close records that wait (R86, R158). -/

namespace Sys2Proof.Machine

/-- No record of the list is a close record. -/
def NoClose (rs : List Record) : Prop := ∀ r ∈ rs, r.isClose = false

theorem NoClose.nil : NoClose [] := by intro r h; simp at h

theorem NoClose.one {r : Record} (h : r.isClose = false) : NoClose [r] := by intro x hx; simp at hx; subst hx; exact h

theorem NoClose.append {a b : List Record} (ha : NoClose a) (hb : NoClose b) : NoClose (a ++ b) := by
  intro r h; rcases List.mem_append.1 h with h | h
  · exact ha r h
  · exact hb r h

theorem NoClose.count {rs : List Record} (h : NoClose rs) (k : ChanId) : rs.countP (·.closes k) = 0 := by
  rw [List.countP_eq_zero]
  intro r hr
  simp [Record.closes, h r hr]

/-! ### Counting at the staging queue -/

/-- A staging adds exactly its record to the close records that wait; a close record is never dropped (R158). -/
theorem State.stage_closeCount (s : State) (r : Record) (h : s.loader.mode = .running ∨ r.isClose = false) (k : ChanId) :
    (s.stage r).ring.closeCount k = s.ring.closeCount k + [r].countP (·.closes k) := by
  by_cases hc : r.isClose = true
  · have run : s.loader.mode = .running := by
      rcases h with h | h
      · exact h
      · simp [h] at hc
    have quiet : s.silent r = false := by
      have : r.payload.maskable = false := by
        revert hc; unfold Record.isClose Payload.maskable; split <;> simp_all
      simp [State.silent, run, this]
    unfold State.stage
    simp only [quiet, hc, Bool.false_eq_true, if_false, if_true]
    split_ifs
    · simp only [Ring.closeCount, List.countP_append]; omega
    · simp only [Ring.closeCount, List.countP_append]; omega
  · have nc : r.isClose = false := by simpa using hc
    have zero : [r].countP (·.closes k) = 0 := (NoClose.one nc).count k
    rw [zero, Nat.add_zero]
    rcases s.stage_ring r with e | ⟨_, e⟩ | ⟨_, hx, _⟩
    · rw [e]
    · rw [e]; simp only [Ring.closeCount, List.countP_append, zero]; omega
    · simp [nc] at hx

theorem State.stageAll_closeCount (s : State) (rs : List Record) (h : s.loader.mode = .running ∨ NoClose rs)
    (k : ChanId) : (s.stageAll rs).ring.closeCount k = s.ring.closeCount k + rs.countP (·.closes k) := by
  induction rs generalizing s with
  | nil => simp [State.stageAll]
  | cons r rs ih =>
    have h1 : s.loader.mode = .running ∨ r.isClose = false := h.imp id (fun n => n r (by simp))
    have h2 : (s.stage r).loader.mode = .running ∨ NoClose rs := by
      rcases h with h | h
      · left; simp [h]
      · right; exact fun x hx => h x (by simp [hx])
    have := ih (s.stage r) h2
    simp only [State.stageAll, List.foldl_cons] at this ⊢
    rw [this, s.stage_closeCount r h1 k]
    simp only [List.countP_cons, List.countP_nil]
    omega

/-- The record of an effect. -/
def Effect.record : Effect → Record
  | .stage r => r
  | .news r _ _ => r

theorem State.perform_closeCount (s : State) (e : Effect) (h : s.loader.mode = .running ∨ e.record.isClose = false)
    (k : ChanId) : (s.perform e).ring.closeCount k = s.ring.closeCount k + [e.record].countP (·.closes k) := by
  cases e with
  | stage r => exact s.stage_closeCount r h k
  | news r f a =>
    simp only [State.perform, State.stageAndRaise, Effect.record] at h ⊢
    split_ifs
    · exact State.stage_closeCount { s with choices := s.choices + 1 } r h k
    · exact State.stage_closeCount (State.raise { s with choices := s.choices + 1 } f a) r h k
    · exact State.stage_closeCount (s.raise f a) r h k

theorem State.performAll_closeCount (s : State) (es : List Effect)
    (h : s.loader.mode = .running ∨ NoClose (es.map Effect.record)) (k : ChanId) :
    (s.performAll es).ring.closeCount k = s.ring.closeCount k + (es.map Effect.record).countP (·.closes k) := by
  induction es generalizing s with
  | nil => simp [State.performAll]
  | cons e es ih =>
    have h1 : s.loader.mode = .running ∨ e.record.isClose = false := h.imp id (fun n => n _ (by simp))
    have h2 : (s.perform e).loader.mode = .running ∨ NoClose (es.map Effect.record) := by
      rcases h with h | h
      · left; simp [h]
      · right; exact fun x hx => h x (by simp at hx ⊢; right; exact hx)
    have := ih (s.perform e) h2
    simp only [State.performAll, List.foldl_cons] at this ⊢
    rw [this, s.perform_closeCount e h1 k, List.map_cons]
    simp only [List.countP_cons, List.countP_nil]
    omega

/-- The merge of several lists has exactly their elements. -/
theorem interleave_perm {α : Type} (pick : Nat → Nat) (n : Nat) (ls : List (List α)) (h : ls.flatten.length ≤ n) :
    (interleave pick n ls).Perm ls.flatten := by
  induction n generalizing ls with
  | zero => simp only [Nat.le_zero, List.length_eq_zero_iff] at h; rw [h]; simp [interleave]
  | succ n ih =>
    have flat : (ls.filter (fun l => !l.isEmpty)).flatten = ls.flatten := List.flatten_filter_not_isEmpty
    unfold interleave
    split
    · rename_i e; rw [← flat, e]; simp
    · rename_i l e; rw [← flat, e]; simp
    · rename_i l₀ rest _ e
      dsimp only
      have lt : pick n % (l₀ :: rest).length < (l₀ :: rest).length := Nat.mod_lt _ (by simp)
      generalize hi : pick n % (l₀ :: rest).length = i at *
      have get : (l₀ :: rest)[i]? = some (l₀ :: rest)[i] := List.getElem?_eq_getElem lt
      have ne : (l₀ :: rest)[i] ≠ [] := by
        have : (l₀ :: rest)[i] ∈ ls.filter (fun l => !l.isEmpty) := by rw [e]; exact List.getElem_mem lt
        simpa using (List.mem_filter.1 this).2
      rw [get]
      obtain ⟨x, xs, hx⟩ := List.exists_cons_of_ne_nil ne
      rw [hx]
      simp only
      have split1 : (l₀ :: rest) = (l₀ :: rest).take i ++ (x :: xs) :: (l₀ :: rest).drop (i + 1) := by
        rw [← hx, List.cons_getElem_drop_succ, List.take_append_drop]
      have split2 : (l₀ :: rest).set i xs = (l₀ :: rest).take i ++ xs :: (l₀ :: rest).drop (i + 1) :=
        List.set_eq_take_append_cons_drop .. |>.trans (by rw [if_pos lt])
      have perm : (x :: ((l₀ :: rest).set i xs).flatten).Perm ls.flatten := by
        rw [← flat, e, split2]
        conv => rhs; rw [split1]
        simp only [List.flatten_append, List.flatten_cons, List.cons_append]
        exact List.perm_middle.symm
      have len : ((l₀ :: rest).set i xs).flatten.length ≤ n := by
        have := perm.length_eq
        simp only [List.length_cons] at this
        omega
      exact ((ih _ len).cons x).trans perm

theorem State.stageTogether_closeCount (s : State) (gs : List (List Record)) (h : ∀ g ∈ gs, NoClose g) (k : ChanId) :
    (s.stageTogether gs).ring.closeCount k = s.ring.closeCount k := by
  have perm := interleave_perm (Config.arrivalPick s.choices) gs.flatten.length gs le_rfl
  have nc : NoClose gs.flatten := by
    intro r hr
    obtain ⟨g, hg, hr⟩ := List.mem_flatten.1 hr
    exact h g hg r hr
  have nc' : NoClose (interleave (Config.arrivalPick s.choices) gs.flatten.length gs) :=
    fun r hr => nc r (perm.mem_iff.1 hr)
  have := State.stageAll_closeCount { s with choices := s.choices + 1 } _ (.inr nc') k
  rw [nc'.count k] at this
  exact this

theorem State.eachChan_closeCount (s : State) (o : List Record) (f : ChanId → Channel → Channel × List Record)
    (ho : NoClose o) (hf : ∀ c, NoClose (f c s.chans[c]).2) (k : ChanId) :
    (s.eachChan o f).ring.closeCount k = s.ring.closeCount k := by
  refine State.stageTogether_closeCount { s with chans := Vector.ofFn (fun c => (f c s.chans[c]).1) } _ ?_ k
  intro g hg
  rcases List.mem_cons.1 hg with rfl | hg
  · exact ho
  · obtain ⟨c, _, rfl⟩ := List.mem_map.1 hg
    exact hf c

@[simp] theorem State.eachChan_get (s : State) (o : List Record) (f : ChanId → Channel → Channel × List Record)
    (c : ChanId) : (s.eachChan o f).chans[c] = (f c s.chans[c]).1 := by
  simp [State.eachChan]

/-! ### The operations of a channel -/

theorem Channel.park_noClose (ch : Channel) (c : ChanId) (clock : Word) (k : Cause) :
    NoClose (ch.park c clock k).2 := by
  unfold Channel.park
  split <;> (try split_ifs) <;> first | exact NoClose.nil | exact NoClose.one rfl

/-- Parking neither enters nor leaves CLOSING. -/
theorem Channel.park_closing (ch : Channel) (c : ChanId) (clock : Word) (k : Cause) :
    (ch.park c clock k).1.state = .closing ↔ ch.state = .closing := by
  unfold Channel.park
  split <;> (try split_ifs) <;> simp_all

theorem Channel.parkEach_noClose (ch : Channel) (c : ChanId) (clock : Word) (ks : List Cause) :
    NoClose (ch.parkEach c clock ks).2 := by
  induction ks generalizing ch with
  | nil => exact NoClose.nil
  | cons k ks ih => exact (ch.park_noClose c clock k).append (ih _)

theorem Channel.parkEach_closing (ch : Channel) (c : ChanId) (clock : Word) (ks : List Cause) :
    (ch.parkEach c clock ks).1.state = .closing ↔ ch.state = .closing := by
  induction ks generalizing ch with
  | nil => rfl
  | cons k ks ih => exact (ih _).trans (ch.park_closing c clock k)

/-- An operation of channel `c` accounts for its close record: it stays in CLOSING if it was there, and stages exactly
one close record, its own, if it enters CLOSING. -/
structure Accounts (c : ChanId) (before after : Channel) (rs : List Record) : Prop where
  stays : before.state = .closing → after.state = .closing
  count : ∀ k, rs.countP (·.closes k) =
    if k = c ∧ after.state = .closing ∧ before.state ≠ .closing then 1 else 0

theorem Accounts.of_noClose {c : ChanId} {a b : Channel} {rs : List Record} (h : b.state = .closing ↔ a.state = .closing)
    (n : NoClose rs) : Accounts c a b rs where
  stays := h.2
  count := by
    intro k
    rw [n.count k, if_neg]
    rintro ⟨_, h1, h2⟩
    exact h2 (h.1 h1)

/-- Records that are no close records may go along. -/
theorem Accounts.prepend {c : ChanId} {a b : Channel} {rs ns : List Record} (h : Accounts c a b rs) (n : NoClose ns) :
    Accounts c a b (ns ++ rs) where
  stays := h.stays
  count := by intro k; rw [List.countP_append, n.count k, h.count k, Nat.zero_add]

theorem Accounts.enterClosing {c : ChanId} {ch before : Channel} (clock : Word) (r : CloseReason)
    (h : before.state ≠ .closing) :
    Accounts c before (ch.enterClosing c clock r).1 [(ch.enterClosing c clock r).2] where
  stays := fun e => absurd e h
  count := by
    intro k
    by_cases hk : k = c
    · subst hk
      simp [Channel.enterClosing, Record.closes, Record.isClose, Channel.record, Channel.recordWithTag, h]
    · have : ¬ c = k := fun e => hk e.symm
      simp [Channel.enterClosing, Record.closes, Record.isClose, Channel.record, Channel.recordWithTag, hk, this]

theorem Channel.command_accounts (ch : Channel) (env : CommandEnv) (big : Bool) (k : Command) (tag : Byte)
    (arg : Half) :
    Accounts env.id ch (ch.command env big k tag arg).chan (ch.command env big k tag arg).out := by
  cases k <;> simp only [Channel.command]
  · unfold Channel.cmdLoad
    split_ifs with e
    · dsimp only; split
      · exact .of_noClose Iff.rfl .nil
      · exact .of_noClose (by simp [Verdict.accept, e]) .nil
    · exact .of_noClose Iff.rfl .nil
  · unfold Channel.cmdStart
    split_ifs with e
    · split
      · exact .of_noClose Iff.rfl .nil
      · exact .of_noClose (by simp [Verdict.accept, e]) (.one rfl)
    · exact .of_noClose Iff.rfl .nil
  · unfold Channel.cmdRetarget
    dsimp only
    split
    case h_3 e =>
      refine .of_noClose ?_ .nil
      dsimp only
      split_ifs <;> simp [e]
    all_goals exact .of_noClose Iff.rfl .nil
  · unfold Channel.cmdExtend
    split <;> (try split_ifs) <;> exact .of_noClose Iff.rfl .nil
  · unfold Channel.cmdPark
    split <;> first | exact .of_noClose Iff.rfl .nil | skip
    all_goals
      rename_i e
      refine .of_noClose ?_ (Channel.park_noClose _ _ _ _)
      exact (Channel.park_closing _ _ _ _).trans Iff.rfl
  · unfold Channel.cmdResume
    split_ifs with e
    · dsimp only
      have p1 := Channel.parkEach_closing { ch with ctx := { ch.ctx with
        parkSet := ch.ctx.parkSet &&& ch.persisting env.view } } env.id env.clock (ch.lookCauses env.view)
      have p2 := Channel.parkEach_noClose { ch with ctx := { ch.ctx with
        parkSet := ch.ctx.parkSet &&& ch.persisting env.view } } env.id env.clock (ch.lookCauses env.view)
      split_ifs
      · exact .of_noClose (by simp [Verdict.accept, e]) (p2.append (.one rfl))
      · exact .of_noClose p1 p2
    · exact .of_noClose Iff.rfl .nil
  · unfold Channel.cmdClose
    split <;> first | exact .of_noClose Iff.rfl .nil | skip
    all_goals
      rename_i e
      exact Accounts.enterClosing env.clock .operator (by simp [e])
  · unfold Channel.cmdRelease
    split <;> first | exact .of_noClose Iff.rfl .nil | skip
    · rename_i e; exact .of_noClose (by simp [Verdict.accept, Channel.vacate, e]) (.one rfl)
    · rename_i e; exact .of_noClose (by simp [Verdict.accept, Channel.vacate, e]) .nil

theorem Channel.gaugeSample_accounts (ch : Channel) (c : ChanId) (clock : Word) (g : Gauge) :
    NoClose (ch.gaugeSample c clock g).2 ∧ ((ch.gaugeSample c clock g).1.state = .closing ↔ ch.state = .closing) := by
  unfold Channel.gaugeSample
  split <;> first | exact ⟨NoClose.nil, Iff.rfl⟩ | skip
  all_goals
    dsimp only
    split_ifs
    · exact ⟨Channel.park_noClose _ _ _ _, (Channel.park_closing _ _ _ _).trans Iff.rfl⟩
    · exact ⟨NoClose.nil, Iff.rfl⟩
    · exact ⟨Channel.park_noClose _ _ _ _, Channel.park_closing _ _ _ _⟩

theorem Channel.tripRecords_noClose (ch : Channel) (c : ChanId) (clock : Word) (r : Report) (n : Nat)
    (ws : List Watch) : NoClose (ch.tripRecords c clock r n ws) := by
  induction ws generalizing n with
  | nil => exact NoClose.nil
  | cons w ws ih =>
    unfold Channel.tripRecords
    refine NoClose.append ?_ (ih _)
    split_ifs
    · exact .one rfl
    · exact .nil

theorem Channel.takeReport_accounts (ch : Channel) (c : ChanId) (clock : Word) (r : Report) :
    NoClose (ch.takeReport c clock r).2 ∧ ((ch.takeReport c clock r).1.state = .closing ↔ ch.state = .closing) := by
  unfold Channel.takeReport
  split <;> first | exact ⟨NoClose.nil, Iff.rfl⟩ | skip
  all_goals
    dsimp only
    split_ifs
    · exact ⟨(ch.tripRecords_noClose c clock r 1 _).append (Channel.park_noClose _ _ _ _),
        (Channel.park_closing _ _ _ _).trans Iff.rfl⟩
    · exact ⟨ch.tripRecords_noClose c clock r 1 _, Iff.rfl⟩
    · exact ⟨NoClose.nil, Iff.rfl⟩

theorem Channel.sample_news (ch : Channel) (env : SampleEnv) (smp : Sample) :
    NoClose ((ch.losNews env smp).map Effect.record) ∧
    (∀ x p, NoClose ((ch.overNews env x p).map Effect.record)) ∧
    (∀ x a b, NoClose ((ch.ginNews env x a b).map Effect.record)) := by
  refine ⟨?_, ?_, ?_⟩
  · unfold Channel.losNews; dsimp only; split_ifs <;> first | exact .nil | exact .one rfl
  · intro x p; unfold Channel.overNews; split_ifs <;> first | exact .nil | exact .one rfl
  · intro x a b; unfold Channel.ginNews; dsimp only; split_ifs <;> first | exact .nil | exact .one rfl

theorem map_stage_record (rs : List Record) : (rs.map Effect.stage).map Effect.record = rs := by
  rw [List.map_map]; exact List.map_id _

theorem Channel.regulate_accounts (ch : Channel) (run : ch.state = .ramp ∨ ch.state = .hold) (env : SampleEnv)
    (g : Bool) :
    (ch.regulate env g).1.state ≠ .closing ∧ NoClose ((ch.regulate env g).2.map Effect.record) := by
  unfold Channel.regulate
  dsimp only
  have mv : ∀ x : Context, (x.move ch.state ch.readings.measured).state ≠ .closing := by
    intro x; unfold Context.move; split_ifs <;> simp
  split_ifs <;> refine ⟨?_, ?_⟩ <;> first | exact mv _ | exact .one rfl | exact .nil | skip
  all_goals rcases run with e | e <;> simp [e]

theorem Channel.sample_accounts (ch : Channel) (env : SampleEnv) (smp : Sample) :
    Accounts env.id ch (ch.sample env smp).1 ((ch.sample env smp).2.map Effect.record) := by
  unfold Channel.sample
  dsimp only
  rw [List.map_append]
  refine Accounts.prepend ?_ (ch.sample_news env smp).1
  generalize hb : ({ ch with readings := ch.readings.update smp } : Channel) = b
  have hs : b.state = ch.state := by rw [← hb]
  have key : Accounts env.id b (b.stageWork env smp).1 ((b.stageWork env smp).2.map Effect.record) := by
    unfold Channel.stageWork
    have news := b.sample_news env smp
    have run : b.state = .ramp ∨ b.state = .hold →
        Accounts env.id b (b.runSample env smp).1 ((b.runSample env smp).2.map Effect.record) := by
      intro run
      have nc : b.state ≠ .closing := by rcases run with e | e <;> simp [e]
      unfold Channel.runSample
      dsimp only
      rw [List.map_append, List.map_append]
      refine Accounts.prepend ?_ ((news.2.1 _ _).append (news.2.2 _ _ _))
      split
      · exact Accounts.enterClosing _ _ nc
      · split
        · refine .of_noClose ?_ ?_
          · exact (Channel.park_closing _ _ _ _).trans Iff.rfl
          · simp only [Channel.parkNow, map_stage_record]; exact Channel.park_noClose _ _ _ _
        · have rg := fun x => Channel.regulate_accounts { b with ctx := x } run env (isGood smp)
          exact .of_noClose ⟨fun h => absurd h (rg _).1, fun h => absurd h nc⟩ (rg _).2
    split
    case h_4 e => exact run (.inl e)
    case h_5 e => exact run (.inr e)
    case h_6 e =>
      have nc : b.state ≠ .closing := by simp [e]
      unfold Channel.parkedSample
      dsimp only
      rw [List.map_append]
      refine Accounts.prepend ?_ (news.2.1 _ _)
      split_ifs
      · exact Accounts.enterClosing _ _ nc
      · split
        · refine .of_noClose ?_ ?_
          · exact (Channel.park_closing _ _ _ _).trans Iff.rfl
          · simp only [Channel.parkNow, map_stage_record]; exact Channel.park_noClose _ _ _ _
        · exact .of_noClose Iff.rfl .nil
    all_goals exact .of_noClose Iff.rfl .nil
  exact ⟨fun h => key.stays (hs.trans h), fun k => by rw [key.count k, hs]⟩

end Sys2Proof.Machine
end

