-- ==== Sys2Proof/Laws/Step.lean ====
section
/-! SUPPORT. What a step can do, said once: every command comes to one of the operations of the blocks, and a property
that each of them gives is given by every step. -/

namespace Sys2Proof.Machine

/-- A command ends in one of these operations, whatever the command. -/
theorem exec_cases {P : State → Prop} (s : State)
    (access : ∀ a, P (s.access a))
    (assertReset : P s.assertReset) (releaseReset : P s.releaseReset) (noAck : P s.noAck) (retryRead : P s.retryRead)
    (readDone : ∀ b, P (s.readDone b)) (tick : P s.tick)
    (fillArmed : ∀ c, P (s.fillArmed { channel := c, fresh := true } true)) (expire : ∀ k, P (s.expire k))
    (grant : P s.grant) (timeout : P s.memTimeout)
    (heldDone : ∀ d, P (s.memHeldDone d)) (heldFailed : P s.memHeldFailed)
    (drainDone : P s.memDrainDone) (drainFailed : P s.memDrainFailed)
    (fetchDone : ∀ b d, P (s.memFetchDone b d)) (fetchFailed : P s.memFetchFailed)
    (staleEnd : ∀ b, P (s.memStaleEnd b))
    (slotDone : P s.memSlotDone) (producerDone : P s.memProducerDone) (ringFailed : P s.memRingFailed)
    (rewriteDone : P s.memRewriteDone)
    (sampled : ∀ c x, P (s.sampled c x)) (reportTaken : ∀ a b, P (s.reportTaken a b))
    (gaugeSampled : ∀ g r v, P (s.gaugeSampled g r v)) (changeRaw : ∀ l v, P (s.changeRaw l v))
    (debounceExpired : ∀ l, P (s.debounceExpired l)) (c : Instr) (t : State) (h : exec c s = .next t) : P t := by
  cases c <;> (injection h with h; subst h) <;> first
    | exact access _ | exact assertReset | exact releaseReset | exact noAck | exact retryRead | exact readDone _
    | exact tick | exact fillArmed _ | exact expire _ | exact grant | exact timeout | exact heldDone _
    | exact heldFailed | exact drainDone | exact drainFailed | exact fetchDone _ _ | exact fetchFailed
    | exact staleEnd _ | exact slotDone | exact producerDone | exact ringFailed | exact rewriteDone
    | exact sampled _ _ | exact reportTaken _ _ | exact gaugeSampled _ _ _ | exact changeRaw _ _
    | exact debounceExpired _

/-- Every command ends in a next state: no rule of the spec stops the part. -/
theorem exec_next (c : Instr) (s : State) : ∃ t, exec c s = .next t := by cases c <;> exact ⟨_, rfl⟩

/-- A property that does not look at the queue of commands, and that every command keeps, is kept by every step. -/
theorem step_keeps {P : State → Prop} (ignores : ∀ s p, P s → P { s with pending := p })
    (keeps : ∀ c s t, P s → exec c s = .next t → P t) (s t : State) (hs : P s) (h : step s = .next t) : P t := by
  unfold step at h
  split at h
  · injection h with h; subst h; exact hs
  · exact keeps _ _ _ (ignores s _ hs) h

/-- An access is answered in LOADING, plain in SAFE_PASS, and classified in RUNNING; anything true of each of these is
true of an access (R1, R17, R18). -/
theorem access_cases {P : State → Prop} (s : State) (a : Access) (same : P s) (answer : ∀ x, P (s.answer x))
    (plain : ∀ b : Access, b.be ≠ 0 → s.loader.mode ≠ .loading → P (s.plainAccess b))
    (mapTable : ∀ b : Access, b.be ≠ 0 → s.loader.mode = .running → P (s.mapTableAccess b))
    (ringHeader : ∀ b : Access, b.be ≠ 0 → s.loader.mode = .running → P (s.ringHeaderAccess b))
    (miss : ∀ p, s.loader.mode = .running → s.map.entry? p = none → P (s.miss p))
    (page : ∀ (b : Access) (e : CacheEntry), b.be ≠ 0 → s.loader.mode = .running → e ∈ s.map.cache →
      P ((s.mapMap (·.touch e)).pageAccess b e)) : P (s.access a) := by
  unfold State.access
  split_ifs
  · exact same
  unfold State.take
  split
  · exact answer _
  · rename_i m
    split_ifs with hb
    · exact answer _
    · exact plain _ hb (by simp [m])
  · rename_i m
    split_ifs with hb
    · exact answer _
    · unfold State.classified
      split
      · unfold State.windowAccess
        split
        · rename_i he; exact miss _ m he
        · rename_i he; exact page _ _ hb m (MapUnit.entry?_mem he).1
      · exact mapTable _ hb m
      · exact ringHeader _ hb m
      · exact plain _ hb (by simp [m])

end Sys2Proof.Machine
end

