-- ==== Sys2Proof/Laws/Access.lean ====
section
/-! SUPPORT. What an access is answered with, by where it goes: one lemma for each condition that a statement puts on an
access, so that no proof unfolds the port and the classifier. -/

namespace Sys2Proof.Machine

/-! ### Addresses and words -/

theorem wordAddr_aligned {a : Addr} (h : alignedAddr a = true) : wordAddr a = a := by
  unfold alignedAddr at h
  unfold wordAddr
  simp only [beq_iff_eq] at h
  ext i hi
  have h0 := congrArg (BitVec.getLsbD · 0) h
  have h1 := congrArg (BitVec.getLsbD · 1) h
  simp at h0 h1
  interval_cases i <;> simp [h0, h1]

theorem byteSwap_byteSwap (w : Word) : byteSwap (byteSwap w) = w := by
  unfold byteSwap
  ext i hi
  simp only [BitVec.getElem_append, BitVec.getElem_extractLsb', BitVec.getLsbD_append, BitVec.getLsbD_extractLsb']
  interval_cases i <;> simp

/-- Laying a value out on the lanes and reading it back gives the value (R185). -/
@[simp] theorem inOrder_inOrder (big : Bool) (w : Word) : inOrder big (inOrder big w) = w := by
  unfold inOrder; split_ifs <;> simp [byteSwap_byteSwap]

@[simp] theorem orderCode_orderValue (c t : Byte) (a : Half) : orderCode (orderValue c t a) = c := by
  unfold orderCode orderValue
  ext i hi
  simp only [BitVec.getElem_extractLsb', BitVec.getLsbD_append]
  interval_cases i <;> simp

@[simp] theorem orderTag_orderValue (c t : Byte) (a : Half) : orderTag (orderValue c t a) = t := by
  unfold orderTag orderValue
  ext i hi
  simp only [BitVec.getElem_extractLsb', BitVec.getLsbD_append]
  interval_cases i <;> simp

@[simp] theorem orderArg_orderValue (c t : Byte) (a : Half) : orderArg (orderValue c t a) = a := by
  unfold orderArg orderValue
  ext i hi
  simp only [BitVec.getElem_extractLsb', BitVec.getLsbD_append]
  interval_cases i <;> simp

@[simp] theorem Command.ofCode_code (k : Command) : Command.ofCode k.code = some k := by cases k <;> rfl

theorem Command.ofCode_unknown {c : Byte} (h : c = 0 ∨ 8 < c.toNat) : Command.ofCode c = none := by
  unfold Command.ofCode
  have : c.toNat = 0 ∨ 8 < c.toNat := by
    rcases h with rfl | h
    · exact .inl rfl
    · exact .inr h
  split <;> first | omega | rfl

/-! ### The rows of accesses -/

theorem accessOf_exec {c : Instr} {a : Access} (h : accessOf c = some a) (s : State) : exec c s = .next (s.access a) := by
  cases c <;> simp only [accessOf, Option.some.injEq, reduceCtorEq] at h <;> subst h <;> rfl

theorem orderRow_exec (cmd : Command) (addr : Addr) (tag : Byte) (arg : Half) (s : State) :
    exec (orderRow cmd addr tag arg) s = .next (s.accessValue addr (orderValue cmd.code tag arg)) := by
  cases cmd <;> rfl

/-! ### Where an access goes -/

theorem State.access_loading {s : State} (held : s.port.held = none) (mode : s.loader.mode = .loading) (a : Access) :
    s.access a = s.answer .retry := by
  simp [State.access, State.take, held, mode]

theorem State.access_noEnable {s : State} (held : s.port.held = none) (mode : s.loader.mode ≠ .loading) (a : Access)
    (be : a.be = 0) : s.access a = s.answer .error := by
  unfold State.access State.take
  rw [held]
  cases h : s.loader.mode <;> simp [be]
  exact absurd h mode

theorem State.access_plain {s : State} {a : Access} (h : s.reachesPlain a.addr) (be : a.be ≠ 0) :
    s.access a = s.plainAccess a := by
  obtain ⟨held, al, m⟩ := h
  unfold State.access State.take
  rw [held, wordAddr_aligned al]
  rcases m with m | ⟨m, k⟩
  · simp only [m]; rw [if_neg be]; rfl
  · simp only [m]; rw [if_neg be]; simp [State.classified, k]

theorem State.access_mapTable {s : State} {a : Access} (h : s.reaches a.addr .mapTable) (be : a.be ≠ 0) :
    s.access a = s.mapTableAccess a := by
  obtain ⟨⟨m, held⟩, al, k⟩ := h
  unfold State.access State.take
  rw [held, wordAddr_aligned al]
  simp only [m]; rw [if_neg be]; simp [State.classified, k]

theorem State.access_ringHeader {s : State} {a : Access} (h : s.reaches a.addr .ringHeader) (be : a.be ≠ 0) :
    s.access a = s.ringHeaderAccess a := by
  obtain ⟨⟨m, held⟩, al, k⟩ := h
  unfold State.access State.take
  rw [held, wordAddr_aligned al]
  simp only [m]; rw [if_neg be]; simp [State.classified, k]

theorem Setup.classify_window {u : Setup} {a : Addr} (h : u.inWindow a = true) : u.classify a = .window := by
  simp [Setup.classify, h]

/-- A window access that hits goes to its page, its entry now the most recently used (R38). -/
theorem State.access_hit {s : State} {a : Access} {e : CacheEntry} (h : s.hits a.addr e) (be : a.be ≠ 0) :
    s.access a = (s.used e).pageAccess a e := by
  obtain ⟨⟨m, held⟩, al, w, k⟩ := h
  unfold State.access State.take
  rw [held, wordAddr_aligned al]
  simp only [m]; rw [if_neg be]; simp only [State.classified, Setup.classify_window w, State.windowAccess, k]; rfl

/-- A window access that misses (R39). -/
theorem State.access_miss {s : State} {a : Access} (h : s.misses a.addr) (be : a.be ≠ 0) :
    s.access a = s.miss (pageOf a.addr) := by
  obtain ⟨⟨m, held⟩, al, w, k⟩ := h
  unfold State.access State.take
  rw [held, wordAddr_aligned al]
  simp only [m]; rw [if_neg be]; simp [State.classified, Setup.classify_window w, State.windowAccess, k]

/-- A command word given as a value goes to its page in the page's byte order (R57, R174). -/
theorem State.accessValue_hit {s : State} {addr : Addr} {e : CacheEntry} (h : s.hits addr e) (v : Word) :
    s.accessValue addr v =
      (s.used e).pageAccess { addr := addr, be := 0xF, write := some (inOrder (s.pageOrder e.attrs.swap) v) } e := by
  unfold State.accessValue
  have : s.orderAt addr = s.pageOrder e.attrs.swap := by unfold State.orderAt; rw [h.2.2.2]
  rw [this, State.access_hit h (by simp)]

end Sys2Proof.Machine
end

