-- ==== Sys2Proof/Laws/Bits.lean ====
section
/-! SUPPORT. The bits of the layouts: one bit for each channel, lanes, byte order, masked writes, and the fields and areas
of the setup stream. -/

namespace Sys2Proof.Machine

theorem ofBools_bits : ∀ a0 a1 a2 a3 a4 a5 a6 a7 : Bool,
    let w : Byte := BitVec.ofBool a7 ++ BitVec.ofBool a6 ++ BitVec.ofBool a5 ++ BitVec.ofBool a4 ++ BitVec.ofBool a3 ++
      BitVec.ofBool a2 ++ BitVec.ofBool a1 ++ BitVec.ofBool a0
    w.getLsbD 0 = a0 ∧ w.getLsbD 1 = a1 ∧ w.getLsbD 2 = a2 ∧ w.getLsbD 3 = a3 ∧ w.getLsbD 4 = a4 ∧ w.getLsbD 5 = a5 ∧
      w.getLsbD 6 = a6 ∧ w.getLsbD 7 = a7 := by decide

/-- Bit c of a word of channel bits is that of channel c. -/
theorem chanBits_bit (f : ChanId → Bool) (c : ChanId) : (chanBits f).getLsbD c.val = f c := by
  have h := ofBools_bits (f 0) (f 1) (f 2) (f 3) (f 4) (f 5) (f 6) (f 7)
  obtain ⟨h0, h1, h2, h3, h4, h5, h6, h7⟩ := h
  unfold chanBits
  fin_cases c
  exacts [h0, h1, h2, h3, h4, h5, h6, h7]

/-- The last field of a word of fields. -/
theorem wordOf_cons (hi lo v : Nat) (fields : List (Nat × Nat × Nat)) : wordOf ((hi, lo, v) :: fields) =
    (BitVec.ofNat (hi + 1 - lo) v).setWidth 32 <<< lo ||| wordOf fields := rfl

/-- A word of no field. -/
theorem wordOf_nil : wordOf [] = 0#32 := rfl

/-- A mark as the value of a field. -/
theorem ofNat_mark (b : Bool) (w : Nat) : BitVec.ofNat w b.toNat = (BitVec.ofBool b).setWidth w := by
  rw [← BitVec.ofNat_toNat]
  cases b <;> rfl

/-- The number in some bits of a word, as the part cuts it out. -/
theorem toNat_cut (w : Word) (lo n : Nat) (h : 0 < n) : (w.extractLsb' lo n).toNat = bitsOf w (lo + n - 1) lo := by
  unfold bitsOf
  rw [BitVec.extractLsb'_toNat, Nat.shiftRight_eq_div_pow, show lo + n - 1 + 1 - lo = n by omega]

/-- A bit of a lane mask is the enable of its lane. -/
theorem laneMask_bit (be : Lanes) (i : Nat) (h : i < 32) : (laneMask be).getLsbD i = be.getLsbD (i / 8) := by
  unfold laneMask
  interval_cases i <;> (simp [BitVec.getLsbD_append]; split_ifs <;> simp_all)

/-- A bit of a byte-swapped word. -/
theorem byteSwap_bit (w : Word) (i : Nat) (h : i < 32) : (byteSwap w).getLsbD i = w.getLsbD
    (8 * (3 - i / 8) + i % 8) := by
  unfold byteSwap
  interval_cases i <;>
    (simp only [BitVec.getLsbD_append, BitVec.getLsbD_extractLsb']; simp)

/-- A bit of a value mask is the enable of the lane that carries it. -/
theorem valueMask_bit (big : Bool) (be : Lanes) (i : Nat) (h : i < 32) : (valueMask big be).getLsbD i = be.getLsbD
    (if big then 3 - i / 8 else i / 8) := by
  unfold valueMask inOrder
  cases big
  · simp [laneMask_bit be i h]
  · simp [byteSwap_bit _ i h]
    rw [laneMask_bit _ _ (by omega)]
    congr 1
    omega

/-- A masked write takes the new bit where the mask is set. -/
theorem mergeBits_bit {w : Nat} (m a b : BitVec w) (i : Nat) (h : i < w) :
    (mergeBits m a b).getLsbD i = if m.getLsbD i then b.getLsbD i else a.getLsbD i := by
  unfold mergeBits
  simp [h]
  cases m[i] <;> simp

/-- A byte of a whole stream. -/
theorem streamByte_get (b : Vector Byte 32) (k : Nat) (h : k < 32) : streamByte b.toList k = b[k] := by
  unfold streamByte
  rw [Vector.getElem?_toList, Vector.getElem?_eq_getElem h]; rfl

theorem bits_2_6 (x : Byte) : (x.extractLsb' 2 6 = 0#6) ↔ x.toNat < 4 := by revert x; decide

theorem bits_4_4 (x : Byte) : (x.extractLsb' 4 4 = 0#4) ↔ x.toNat < 16 := by revert x; decide

theorem bits_6_2 (x : Byte) : (x.extractLsb' 6 2 = 0#2) ↔ x.toNat < 64 := by revert x; decide

theorem Setup.ringSlots_eq (u : Setup) : u.ringSlots = 64 * 2 ^ u.ringCode.toNat := rfl

/-- The placement tests: no two areas share a byte and the ring area ends in the address space. -/
theorem Setup.placementOk_iff (u : Setup) : u.placementOk = true ↔
    ((u.mapBase.toNat + 1024 ≤ u.windowBase.toNat * 1048576 ∨ u.windowBase.toNat * 1048576 + 1048576 ≤ u.mapBase.toNat) ∧ (u.ringBase.toNat + 32 + 32 * (64 * 2 ^ u.ringCode.toNat) ≤ u.windowBase.toNat * 1048576 ∨ u.windowBase.toNat * 1048576 + 1048576 ≤ u.ringBase.toNat) ∧
      (u.ringBase.toNat + 32 + 32 * (64 * 2 ^ u.ringCode.toNat) ≤ u.mapBase.toNat ∨ u.mapBase.toNat + 1024 ≤ u.ringBase.toNat) ∧ u.ringBase.toNat + 32 + 32 * (64 * 2 ^ u.ringCode.toNat) ≤ 16777216) := by
    unfold Setup.placementOk Setup.ringLast areasOverlap
    rw [Setup.ringSlots_eq]
    have : 0 < 2 ^ u.ringCode.toNat := by positivity
    simp only [Bool.and_eq_true, Bool.not_eq_true', Bool.and_eq_false_iff, decide_eq_false_iff_not, decide_eq_true_eq]
    omega

/-- The field tests, field by field. -/
theorem streamFieldsOk_iff (b : Vector Byte 32) : streamFieldsOk b.toList = true ↔
    (b[0] = 3 ∧ b[1].toNat < 4 ∧ b[2].toNat < 16 ∧ b[4].toNat < 64 ∧ b[6].toNat < 64 ∧ b[8].toNat < 4 ∧
        b[24] = 0 ∧ b[25] = 0 ∧ b[26] = 0 ∧ b[27] = 0 ∧ b[28] = 0 ∧ b[29] = 0 ∧
        (setupOf b.toList).ceiling0.toNat ≤ 8000 ∧ (setupOf b.toList).ceiling1.toNat ≤ 8000 ∧
    (setupOf b.toList).ceiling2.toNat ≤ 8000 ∧ (setupOf b.toList).ceiling3.toNat ≤ 8000) := by
  unfold streamFieldsOk setupOf
  simp only [List.all_cons, List.all_nil, Bool.and_true, Bool.and_eq_true, beq_iff_eq, decide_eq_true_eq]
  rw [streamByte_get b 0 (by omega), streamByte_get b 1 (by omega), streamByte_get b 2 (by omega), streamByte_get b 4 (by omega), streamByte_get b 6 (by omega), streamByte_get b 8 (by omega), streamByte_get b 24 (by omega), streamByte_get b 25 (by omega), streamByte_get b 26 (by omega), streamByte_get b 27 (by omega), streamByte_get b 28 (by omega), streamByte_get b 29 (by omega), bits_2_6, bits_2_6, bits_4_4, bits_6_2, bits_6_2]
  have e3 : (3#8 : Byte) = 3 := rfl
  have e0 : (0#8 : Byte) = 0 := rfl
  rw [e3, e0]
  simp only [and_assoc]

theorem streamHalf_crc (b : Vector Byte 32) : streamHalf b.toList 30 = b[30] ++ b[31] := by
    unfold streamHalf; rw [streamByte_get b 30 (by omega), streamByte_get b 31 (by omega)]

end Sys2Proof.Machine
end

