-- ==== Sys2Proof/Laws/KeepBlocks.lean ====
section
/-! SUPPORT. What each operation of a step keeps of the shapes of the blocks: the posted write queue, the map unit with
its fetch, the capture buffer pool, the staging queue, the status unit and the indices of the ring. -/

namespace Sys2Proof.Machine

theorem QueueOk.queueWrite (s : State) (e : QEntry) (h : QueueOk s.queue) (he : e.be ≠ 0) : QueueOk
    (s.queueWrite e).queue := by
  unfold State.queueWrite
  split_ifs with hf
  · simpa using h
  · simp [State.queueFull] at hf
    simpa using h.enqueue e hf he

theorem QueueOk.orderWrite (s : State) (w : OrderWrite) (h : QueueOk s.queue) (l : s.queue.length < 8)
    (hb : w.be ≠ 0) :
    QueueOk (s.orderWrite w).queue := by
  have a : ∀ t : State, ∀ d be, t.queue = s.queue → be ≠ 0 → QueueOk (t.queueOrder w d be).queue := by
    intro t d be ht hbe
    simp only [State.queueOrder, State.enqueue_queue, ht]
    exact h.enqueue _ l hbe
  unfold State.orderWrite
  dsimp only
  split_ifs
  · unfold State.orderWord
    dsimp only
    split_ifs
    · simpa [State.orderWidth] using h
    · split
      · unfold State.orderCommand
        dsimp only
        split
        · split_ifs <;> exact a _ _ _ (by simp) hb
        · simpa using h
        · split_ifs <;> exact a _ _ _ (by simp) (by decide)
      · exact a _ _ _ (by simp) hb
  · simpa using h
  · exact a _ _ _ (by simp) hb
  · exact a _ _ _ rfl hb

/-- A processor access keeps the queue in shape. -/
theorem QueueOk.access (s : State) (a : Access) (h : QueueOk s.queue) : QueueOk (s.access a).queue := by
  refine access_cases (P := fun t => QueueOk t.queue) s a h (fun _ => h) ?_ ?_ ?_ ?_ ?_
  · intro b hb _
    unfold State.plainAccess
    split
    · simpa using h
    · exact QueueOk.queueWrite _ _ h hb
  · intro b hb _
    unfold State.mapTableAccess
    split
    · simpa using h
    · split_ifs with hf
      · simpa using h
      · simp [State.queueFull] at hf
        simpa using h.enqueue _ hf hb
  · intro b hb _
    unfold State.ringHeaderAccess State.consumerWrite
    dsimp only
    split
    · simpa using h
    · split_ifs with h1 h2 hf
      · simpa using h
      · simpa using h
      · simp [State.queueFull] at hf
        simpa using h.enqueue _ hf hb
      · simpa using h
  · intro p _ _
    simpa using h
  · intro b e hb _ _
    unfold State.pageAccess
    split
    · simpa using h
    · unfold State.passAccess
      dsimp only
      split
      · simpa using h
      · split_ifs
        · simpa using h
        · simpa using h
        all_goals first
          | exact QueueOk.queueWrite _ _ (by simpa using h) hb
          | exact QueueOk.queueWrite _ _ (by simpa using h) (reverseLanes_ne_zero hb)
    · unfold State.orderAccess
      dsimp only
      split
      · split_ifs <;> simpa using h
      · split_ifs with h1 h2
        · simpa using h
        · simpa using h
        · simp [State.queueFull] at h2
          simp only [State.answer_queue]
          exact QueueOk.orderWrite _ _ (by simpa using h) (Nat.lt_of_not_le (of_decide_eq_false h2.1)) hb
    · simpa using h
    · simpa using h

theorem State.snoop_map (s : State) (p : PageId) : (s.snoop p).map = s.map.forget p s.fetchOutstanding := by
  unfold State.snoop; dsimp only; (repeat' split) <;> simp

theorem State.fetchOutstanding_congr {s t : State} (h : t.mem = s.mem) : t.fetchOutstanding = s.fetchOutstanding := by
  simp [State.fetchOutstanding, h]

theorem State.fetchOutstanding_none {t : State} (h : t.mem = none) : t.fetchOutstanding = false := by
  simp [State.fetchOutstanding, h]

theorem State.FetchOk.same {s t : State} (h : s.FetchOk) (m : t.map = s.map) (e : t.mem = s.mem) : t.FetchOk :=
  ⟨by rw [m]; exact h.unit, by rw [m, State.fetchOutstanding_congr e]; exact h.flying⟩

theorem State.FetchOk.free {t : State} (h : MapOk t.map) (e : t.mem = none) : t.FetchOk :=
  ⟨h, by rw [State.fetchOutstanding_none e]; simp⟩

theorem Fetcher.spoil_flying (f : Fetcher) (h : f.phase ≠ .idle) : (f.spoil true).phase ≠ .idle := by
  unfold Fetcher.spoil; rw [if_neg h]; exact h

theorem State.FetchOk.miss (s : State) (p : PageId) (h : s.FetchOk) (hn : s.map.entry? p = none) :
    (s.miss p).FetchOk := by
  unfold State.miss
  split_ifs with h1 h2
  · exact ⟨by simpa using h.unit.clearMark, h.flying⟩
  · refine ⟨by simpa using h.unit.startFetch (MapUnit.entry?_none hn) h1, ?_⟩
    simp [MapUnit.startFetch]
  · exact h.same rfl rfl

theorem MapOk.restart (m : MapUnit) (o : Bool) : MapOk
    { cache := [], fetcher := m.fetcher.spoil o, failed := none } := by
  constructor <;> simp [MapUnit.pinnedCount, MapUnit.pages]

theorem MemAccess.abandon_fetch (m : MemAccess) : (m.abandon.initiator == .fetch) = (m.initiator == .fetch) := by
  unfold MemAccess.abandon; split
  · rename_i a b e; simp [e]
  · rfl

theorem State.FetchOk.restart (s : State) (h : s.FetchOk) : s.restart.FetchOk := by
  refine ⟨MapOk.restart _ _, ?_⟩
  have : s.restart.fetchOutstanding = s.fetchOutstanding := by
    unfold State.restart State.fetchOutstanding
    cases hm : s.mem with
    | none => simp
    | some m => simp [MemAccess.abandon_fetch]
  rw [this]
  intro ho
  show (s.map.fetcher.spoil s.fetchOutstanding).phase ≠ .idle
  rw [ho]; exact Fetcher.spoil_flying _ (h.flying ho)

theorem State.FetchOk.statusWrite (s : State) (a : Addr) (be : Lanes) (d : Word) (b : Bool) (h : s.FetchOk) :
    (s.statusWrite a be d b).FetchOk := by
  unfold State.statusWrite
  dsimp only
  split <;> (try split_ifs)
  all_goals first
    | exact State.FetchOk.restart s h
    | exact h.same (by simp [State.writeStatusWord, State.writeFilterMask, State.writeRampTable]) (by simp [State.writeStatusWord, State.writeFilterMask, State.writeRampTable])

/-- A processor access keeps the map unit and its fetch in shape. -/
theorem State.FetchOk.access (s : State) (a : Access) (h : s.FetchOk) : (s.access a).FetchOk := by
  refine access_cases (P := fun t => t.FetchOk) s a h (fun _ => h.same rfl rfl) ?_ ?_ ?_ ?_ ?_
  · intro b _ _; exact h.same (by simp) (by simp)
  · intro b hb _
    unfold State.mapTableAccess
    split
    · exact h.same (by simp) (by simp)
    · split_ifs
      · exact h.same (by simp) (by simp)
      · refine ⟨?_, ?_⟩
        · simp only [State.answer_map, State.snoop_map]
          exact h.unit.forget _ _
        · intro ho
          have ho : s.fetchOutstanding = true := by
            rw [← ho]; exact (State.fetchOutstanding_congr (by simp)).symm
          simp only [State.answer_map, State.snoop_map]
          show (if _ then (s.map.fetcher.spoil s.fetchOutstanding) else s.map.fetcher).phase ≠ .idle
          split_ifs
          · rw [ho]; exact Fetcher.spoil_flying _ (h.flying ho)
          · exact h.flying ho
  · intro b hb _; exact h.same (by simp) (by simp)
  · intro p _ hn; exact State.FetchOk.miss s p h hn
  · intro b e hb _ he
    have ht : (s.mapMap (·.touch e)).FetchOk := ⟨h.unit.touch he, h.flying⟩
    unfold State.pageAccess
    split <;> try (apply ht.same <;> simp <;> done)
    unfold State.statusAccess
    dsimp only
    split
    · exact ht.same (by simp) (by simp)
    · split_ifs
      · exact ht.same (by simp) (by simp)
      · exact (State.FetchOk.statusWrite _ _ _ _ _ ht).same rfl rfl

theorem MapOk.notFlying {m : MapUnit} (h : MapOk m) : MapOk { m with fetcher := { m.fetcher with phase := .idle } } :=
  MapOk.setFetcher h _ (by simp)

theorem MapOk.fetchStaleEnd (s : State) (b : Bool) (h : MapOk s.map) : MapOk (s.fetchStaleEnd b).map := by
  unfold State.fetchStaleEnd State.fetchPhase
  split_ifs <;> simpa using MapOk.notFlying h

theorem State.fetchOutstanding_of (s : State) (h : s.initiator? = some .fetch) : s.fetchOutstanding = true := by
  unfold State.initiator? at h
  unfold State.fetchOutstanding
  cases hm : s.mem with
  | none => simp [hm] at h
  | some m => simp [hm] at h ⊢; exact h

theorem State.placeEntry_map (s : State) : s.placeEntry.map = { s.map with
      cache := s.map.makeRoom ++ [s.map.fetched s.map.fetcher.page s.map.fetcher.word0]
      fetcher := { s.map.fetcher with phase := .idle } } := by
  unfold State.placeEntry; dsimp only; split_ifs <;> rfl

theorem State.FetchOk.fetchReadFailed (s : State) (h : s.FetchOk) (o : s.initiator? = some .fetch) :
    s.fetchReadFailed.FetchOk := by
  unfold State.fetchReadFailed
  split_ifs
  · exact .free (MapOk.fetchStaleEnd _ _ (by simpa using h.unit)) (by simp)
  · refine .free ?_ (by simp)
    have := MapOk.failed h.unit (h.flying (State.fetchOutstanding_of s o))
    simpa [State.fetchFail, State.fetchPhase] using this

theorem State.grantTo_map (s : State) (r : Requester) : (s.grantTo r).map = s.map := by
  cases r <;> simp [State.grantTo, State.grantFetch, State.grantDrain, State.grantHeld] <;> split <;> rfl

theorem State.requester_fetch {s : State} (h : s.requester = some .fetcher) : s.map.fetcher.phase ≠ .idle := by
  unfold State.requester at h
  split_ifs at h with h1 <;> first | (simpa [State.fetchWants] using h1) | simp at h

theorem State.grantRing_notFetch (s : State) (hm : s.mem = none) : s.grantRing.fetchOutstanding = false := by
  unfold State.grantRing State.ringWrite
  dsimp only
  split_ifs
  all_goals first | rfl | (split <;> first | rfl | simp [State.fetchOutstanding, hm])

theorem State.FetchOk.grantTo (s : State) (h : s.FetchOk) {r : Requester} (hm : s.mem = none)
    (hr : s.requester = some r) :
    (s.grantTo r).FetchOk := by
  refine ⟨by rw [State.grantTo_map]; exact h.unit, ?_⟩
  intro ho
  rw [State.grantTo_map]
  cases r
  · exact State.requester_fetch hr
  · simp [State.grantTo, State.grantRing_notFetch s hm] at ho
  · simp only [State.grantTo, State.grantDrain] at ho; split at ho <;> simp [State.fetchOutstanding, hm] at ho
  · simp only [State.grantTo, State.grantHeld] at ho; split at ho <;> simp [State.fetchOutstanding, hm] at ho

theorem PoolOk.fillArmed (s : State) (k : BufKey) (st : Bool) (h : PoolOk s.pool) : PoolOk
    (s.fillArmed k st).pool := by
  unfold State.fillArmed
  split
  · rename_i i hi
    split_ifs with ha
    · refine h.fill i k ?_ _ _
      intro j hj hk
      exact hj ((h.keys i j (by rw [ha]; simp [Buffer.key?]) (by rw [hk, Pool.holder_key hi])).symm)
    · exact h
  · exact h

theorem PoolOk.expire (s : State) (k : BufKey) (h : PoolOk s.pool) : PoolOk (s.expire k).pool := by
  unfold State.expire
  split
  · split_ifs
    · exact h.release _
    · exact h
  · exact h

theorem PoolOk.serve (s : State) (r : SnapRead) (i : Fin 6) (w : Vector Word 12) (h : PoolOk s.pool) : PoolOk
    (s.serve r i w).pool := by
  unfold State.serve
  dsimp only
  split_ifs
  · exact h.release _
  · exact h

theorem PoolOk.snapRead (s : State) (r : SnapRead) (h : PoolOk s.pool) : PoolOk (s.snapRead r).pool := by
  unfold State.snapRead
  split_ifs
  · exact h.releaseChan _
  · exact h
  · unfold State.snapWord
    split
    · rename_i hn
      unfold State.snapObtain
      split
      · exact h
      · split_ifs with hf
        · exact h.arm _ _ (Pool.holder_none hn) hf
        · exact PoolOk.serve _ _ _ _ (h.fill _ _ (fun j _ => Pool.holder_none hn j) _ _)
    · split
      · exact PoolOk.serve _ _ _ _ h
      · exact h

/-- A processor access keeps the pool in shape. -/
theorem PoolOk.access (s : State) (a : Access) (h : PoolOk s.pool) : PoolOk (s.access a).pool := by
  refine access_cases (P := fun t => PoolOk t.pool) s a h (fun _ => h) ?_ ?_ ?_ ?_ ?_
  · intro b _ _; simpa using h
  · intro b hb _
    unfold State.mapTableAccess
    split
    · simpa using h
    · split_ifs
      · simpa using h
      · simp only [State.answer_pool]
        unfold State.snoop
        dsimp only
        split
        · split
          · exact h.releaseChan _
          · exact h
        · exact h
  · intro b hb _; simpa using h
  · intro p _ hn; simpa using h
  · intro b e hb _ he
    have ht : PoolOk (s.mapMap (·.touch e)).pool := h
    unfold State.pageAccess
    split
    · simpa using h
    · simpa using h
    · simpa using h
    · unfold State.snapAccess
      split
      · exact PoolOk.snapRead _ _ h
      · simpa using h
    · unfold State.statusAccess
      dsimp only
      split
      · simpa using h
      · split_ifs
        · simpa using h
        · simp only [State.answer_pool]
          unfold State.statusWrite
          dsimp only
          split <;> (try split_ifs) <;> first | (exact PoolOk.empty) | (simpa [State.writeStatusWord,
              State.writeFilterMask, State.writeRampTable] using h)

theorem StagingOk.orderWrite (s : State) (w : OrderWrite) (h : StagingOk s.ring) : StagingOk
    (s.orderWrite w).ring := by
  unfold State.orderWrite
  dsimp only
  split_ifs
  · unfold State.orderWord
    dsimp only
    split_ifs
    · unfold State.orderWidth; dsimp only; exact StagingOk.stage (by simpa using h) _
    · split
      · unfold State.orderCommand
        dsimp only
        have key : ∀ rs ch, StagingOk ((s.setChan w.chan ch).stageAll rs).ring := fun rs ch => StagingOk.stageAll (by simpa using h) _
        split
        · simp only [State.queueAsWritten_frame]
          split_ifs
          · exact (key _ _).stage _
          · exact key _ _
        · refine StagingOk.stage ?_ _; exact key _ _
        · simp only [State.queueOrder_frame]
          split_ifs
          · exact (key _ _).stageAndRaise _ _ _
          · exact key _ _
      · unfold State.orderUnknown
        simp only [State.queueAsWritten_frame]
        exact StagingOk.stage (by simpa using h) _
  · exact h
  · simpa using h
  · simpa using h

/-- A processor access keeps the staging queue in shape. -/
theorem StagingOk.access (s : State) (a : Access) (h : StagingOk s.ring) : StagingOk (s.access a).ring := by
  refine access_cases (P := fun t => StagingOk t.ring) s a h (fun _ => h) ?_ ?_ ?_ ?_ ?_
  · intro b _ _; simpa using h
  · intro b hb _; simpa using h
  · intro b hb _
    unfold State.ringHeaderAccess State.consumerWrite
    dsimp only
    split
    · simpa using h
    · split_ifs
      · simpa using h
      · simpa using h
      · exact ⟨h.length, h.full, h.close⟩
      · simpa using h
  · intro p _ hn; simpa using h
  · intro b e hb _ he
    unfold State.pageAccess
    split
    · unfold State.invalidAccess
      dsimp only [State.answer_ring]
      exact StagingOk.stage (by simpa using h) _
    · simpa using h
    · unfold State.orderAccess
      dsimp only
      split
      · split_ifs <;> simpa using h
      · split_ifs
        · simpa using h
        · simpa using h
        · simp only [State.answer_ring]
          exact StagingOk.orderWrite _ _ h
    · simpa using h
    · unfold State.statusAccess
      dsimp only
      split
      · simpa using h
      · split_ifs
        · simpa using h
        · simp only [State.answer_ring]
          unfold State.statusWrite
          dsimp only
          split
          · exact h
          · split_ifs
            · exact StagingOk.restarted _
            · exact h
          · exact h
          · unfold State.writeStopMasks; dsimp only; refine StagingOk.eachChan ?_ _ _; exact h
          · exact h
          · exact h

theorem StagingOk.drainFailed (s : State) (h : StagingOk s.ring) : StagingOk s.drainFailed.ring := by
  unfold State.drainFailed
  split
  · exact h
  · dsimp only; exact StagingOk.stage (by simpa using h) _

theorem StagingOk.fetchError (s : State) (h : StagingOk s.ring) : StagingOk s.fetchError.ring :=
  StagingOk.stage (s := State.raise _ _ _) h _

theorem StatusOk.orderWrite (s : State) (w : OrderWrite) (h : StatusOk s.status) : StatusOk
    (s.orderWrite w).status := by
  unfold State.orderWrite
  dsimp only
  split_ifs
  · unfold State.orderWord
    dsimp only
    split_ifs
    · unfold State.orderWidth; dsimp only; exact StatusOk.stage (StatusOk.raise _ _) _
    · split
      · unfold State.orderCommand
        dsimp only
        have key : ∀ rs ch, StatusOk ((s.setChan w.chan ch).stageAll rs).status := fun rs ch => StatusOk.stageAll (by exact h) _
        split
        · simp only [State.queueAsWritten_frame]
          split_ifs
          · exact (key _ _).stage _
          · exact key _ _
        · exact StatusOk.stage (StatusOk.raise _ _) _
        · simp only [State.queueOrder_frame]
          split_ifs
          · exact StatusOk.stageAndRaise _ _ _
          · exact StatusOk.raise _ _
      · unfold State.orderUnknown
        simp only [State.queueAsWritten_frame]
        exact StatusOk.stage (by simpa using h) _
  · exact StatusOk.raise _ _
  · simpa using h
  · simpa using h

theorem StatusOk.dropOwned (s : State) (a : Addr) : StatusOk (s.dropOwned a).status := StatusOk.raise _ _

/-- A processor access keeps the fault address at 0 where no flag is set. -/
theorem StatusOk.access (s : State) (a : Access) (h : StatusOk s.status) : StatusOk (s.access a).status := by
  refine access_cases (P := fun t => StatusOk t.status) s a h (fun _ => h) ?_ ?_ ?_ ?_ ?_
  · intro b _ _; simpa using h
  · intro b hb _; simpa using h
  · intro b hb _
    unfold State.ringHeaderAccess State.consumerWrite
    dsimp only
    split
    · simpa using h
    · split_ifs
      · exact StatusOk.dropOwned _ _
      · simpa using h
      · exact h
      · exact StatusOk.dropOwned _ _
  · intro p _ hn; simpa using h
  · intro b e hb _ he
    unfold State.pageAccess
    split
    · unfold State.invalidAccess
      dsimp only [State.answer_status]
      exact StatusOk.stage (StatusOk.raise _ _) _
    · unfold State.passAccess
      dsimp only
      split
      · simpa using h
      · split_ifs <;> first | exact StatusOk.dropOwned _ _ | simpa using h
    · unfold State.orderAccess
      dsimp only
      split
      · split_ifs <;> simpa using h
      · split_ifs
        · exact StatusOk.dropOwned _ _
        · simpa using h
        · simp only [State.answer_status]
          exact StatusOk.orderWrite _ _ h
    · unfold State.snapAccess
      split
      · simpa using h
      · exact StatusOk.dropOwned _ _
    · unfold State.statusAccess
      dsimp only
      split
      · simpa using h
      · split_ifs
        · exact StatusOk.dropOwned _ _
        · simp only [State.answer_status]
          unfold State.statusWrite
          dsimp only
          split
          · exact StatusOk.writeFlags _ _ _
          · split_ifs
            · exact h
            · exact StatusOk.raise _ _
          · exact h
          · unfold State.writeStopMasks; dsimp only; refine StatusOk.eachChan ?_ _ _; exact h
          · exact h
          · exact StatusOk.raise _ _

theorem StatusOk.fetchError (s : State) : StatusOk s.fetchError.status :=
  StatusOk.stage (s := State.raise _ _ _) (StatusOk.raise _ _) _

theorem State.IndicesOk.same {s t : State} (h : s.IndicesOk) (l : t.loader = s.loader)
    (p : t.ring.producer = s.ring.producer) (c : t.ring.copy = s.ring.copy)
    (m : t.mem = s.mem ∨ t.mem = none) : t.IndicesOk := by
  refine ⟨by rw [l]; exact h.before, by rw [l, p]; exact h.producer, by rw [l, c]; exact h.copy, ?_⟩
  intro b a e
  rw [l]
  rcases m with m | m
  · exact h.undo b a (by unfold State.initiator? at e ⊢; rw [← m]; exact e)
  · simp [State.initiator?, m] at e

theorem State.stage_indices (s : State) (r : Record) : (s.stage r).ring.producer = s.ring.producer ∧
    (s.stage r).ring.copy = s.ring.copy := by
  rcases s.stage_ring r with e | ⟨_, e⟩ | ⟨_, _, e⟩ <;> rw [e] <;> exact ⟨rfl, rfl⟩

theorem State.stageAll_indices (s : State) (rs : List Record) : (s.stageAll rs).ring.producer = s.ring.producer ∧
    (s.stageAll rs).ring.copy = s.ring.copy := by
  induction rs generalizing s with
  | nil => exact ⟨rfl, rfl⟩
  | cons r rs ih => have := ih (s.stage r); have := State.stage_indices s r; simp_all [State.stageAll]

theorem State.stageAndRaise_indices (s : State) (r : Record) (f : Flag) (a : Addr) :
    (s.stageAndRaise r f a).ring.producer = s.ring.producer ∧ (s.stageAndRaise r f a).ring.copy = s.ring.copy := by
  unfold State.stageAndRaise
  dsimp only
  split_ifs
  · exact State.stage_indices { s with choices := s.choices + 1 } r
  · exact State.stage_indices (State.raise { s with choices := s.choices + 1 } f a) r
  · exact State.stage_indices (s.raise f a) r

theorem State.performAll_indices (s : State) (es : List Effect) : (s.performAll es).ring.producer = s.ring.producer ∧
    (s.performAll es).ring.copy = s.ring.copy := by
  induction es generalizing s with
  | nil => exact ⟨rfl, rfl⟩
  | cons e es ih =>
    have h1 := ih (s.perform e)
    have h2 : (s.perform e).ring.producer = s.ring.producer ∧ (s.perform e).ring.copy = s.ring.copy := by
      cases e
      · exact State.stage_indices _ _
      · exact State.stageAndRaise_indices _ _ _ _
    simp_all [State.performAll]

theorem State.eachChan_indices (s : State) (o) (f) : (s.eachChan o f).ring.producer = s.ring.producer ∧
    (s.eachChan o f).ring.copy = s.ring.copy :=
  State.stageAll_indices _ _

theorem State.orderWrite_indices (s : State) (w : OrderWrite) : (s.orderWrite w).ring.producer = s.ring.producer ∧
    (s.orderWrite w).ring.copy = s.ring.copy := by
  unfold State.orderWrite
  dsimp only
  split_ifs
  · unfold State.orderWord
    dsimp only
    split_ifs
    · unfold State.orderWidth; dsimp only; exact State.stage_indices _ _
    · split
      · unfold State.orderCommand
        dsimp only
        have key : ∀ rs ch, ((s.setChan w.chan ch).stageAll rs).ring.producer = s.ring.producer ∧
            ((s.setChan w.chan ch).stageAll rs).ring.copy = s.ring.copy := fun rs ch => State.stageAll_indices _ _
        split
        · simp only [State.queueAsWritten_frame]
          split_ifs
          · exact ⟨(State.stage_indices _ _).1.trans (key _ _).1, (State.stage_indices _ _).2.trans (key _ _).2⟩
          · exact key _ _
        · exact ⟨(State.stage_indices _ _).1.trans (key _ _).1, (State.stage_indices _ _).2.trans (key _ _).2⟩
        · simp only [State.queueOrder_frame]
          split_ifs
          · exact ⟨(State.stageAndRaise_indices _ _ _ _).1.trans (key _ _).1,
                (State.stageAndRaise_indices _ _ _ _).2.trans (key _ _).2⟩
          · exact key _ _
      · unfold State.orderUnknown
        simp only [State.queueAsWritten_frame]
        exact State.stage_indices _ _
  · exact ⟨rfl, rfl⟩
  · simp
  · simp

theorem State.IndicesOk.sameRing {s t : State} (h : s.IndicesOk) (l : t.loader = s.loader) (r : t.ring = s.ring)
    (m : t.mem = s.mem) : t.IndicesOk :=
  State.IndicesOk.same h l (by rw [r]) (by rw [r]) (.inl m)

theorem State.IndicesOk.restart (s : State) (h : s.IndicesOk) : s.restart.IndicesOk := by
  refine ⟨h.before, h.copy, h.copy, ?_⟩
  intro b a e
  unfold State.initiator? State.restart at e
  cases hm : s.mem with
  | none => simp [hm] at e
  | some m =>
    simp only [hm, Option.map_some, Option.some.injEq] at e
    unfold MemAccess.abandon at e
    split at e
    · rename_i x y hx
      simp at e
      exact h.undo b y (by simp [State.initiator?, hm, hx, e.1])
    · exact h.undo b a (by simp [State.initiator?, hm, e])

/-- A processor access keeps the ring indices below N. -/
theorem State.IndicesOk.access (s : State) (a : Access) (h : s.IndicesOk) : (s.access a).IndicesOk := by
  refine access_cases (P := fun t => t.IndicesOk) s a h (fun _ => State.IndicesOk.sameRing h rfl rfl rfl) ?_ ?_ ?_ ?_ ?_
  · intro b _ _; exact State.IndicesOk.same h (by simp) (by simp) (by simp) (by simp)
  · intro b hb _; exact State.IndicesOk.same h (by simp) (by simp) (by simp) (by simp)
  · intro b hb _
    unfold State.ringHeaderAccess State.consumerWrite
    dsimp only
    split
    · exact State.IndicesOk.same h (by simp) (by simp) (by simp) (by simp)
    · split_ifs with h1 h2
      · exact State.IndicesOk.sameRing h (by first | rfl | simp) (by first | rfl | simp) (by first | rfl | simp)
      · exact State.IndicesOk.sameRing h (by first | rfl | simp) (by first | rfl | simp) (by first | rfl | simp)
      · push Not at h2
        exact ⟨h.before, h.producer, h2.2, h.undo⟩
      · exact State.IndicesOk.sameRing h (by first | rfl | simp) (by first | rfl | simp) (by first | rfl | simp)
  · intro p _ hn; exact State.IndicesOk.same h (by simp) (by simp) (by simp) (by simp)
  · intro b e hb _ he
    have ht : (s.mapMap (·.touch e)).IndicesOk := State.IndicesOk.sameRing h rfl rfl rfl
    unfold State.pageAccess
    split
    · refine State.IndicesOk.same ht (by simp) ?_ ?_ (by simp)
      · exact (State.stage_indices _ _).1
      · exact (State.stage_indices _ _).2
    · exact State.IndicesOk.same ht (by simp) (by simp) (by simp) (by simp)
    · unfold State.orderAccess
      dsimp only
      split
      · split_ifs <;> exact State.IndicesOk.same ht (by simp) (by simp) (by simp) (by simp)
      · split_ifs
        · exact State.IndicesOk.sameRing ht (by first | rfl | simp) (by first | rfl | simp) (by first | rfl | simp)
        · exact State.IndicesOk.sameRing ht (by first | rfl | simp) (by first | rfl | simp) (by first | rfl | simp)
        · exact State.IndicesOk.same ht (by simp) (State.orderWrite_indices _ _).1 (State.orderWrite_indices _ _).2 (by simp)
    · exact State.IndicesOk.same ht (by simp) (by simp) (by simp) (by simp)
    · unfold State.statusAccess
      dsimp only
      split
      · exact State.IndicesOk.sameRing ht (by first | rfl | simp) (by first | rfl | simp) (by first | rfl | simp)
      · split_ifs
        · exact State.IndicesOk.sameRing ht (by first | rfl | simp) (by first | rfl | simp) (by first | rfl | simp)
        · suffices hh : ∀ t : State, t.IndicesOk → ∀ a be d bg,
              (t.statusWrite a be d bg).IndicesOk from State.IndicesOk.sameRing (hh _ ht b.addr b.be ‹Word› (State.pageOrder (s.mapMap (·.touch e)) e.attrs.swap)) (by simp only [State.answer_loader]) (by simp only [State.answer_ring]) (by simp only [State.answer_mem])
          intro t ht a be d bg
          unfold State.statusWrite
          dsimp only
          split
          · exact State.IndicesOk.sameRing ht (by first | rfl | simp) (by first | rfl | simp) (by first | rfl | simp)
          · split_ifs
            · exact State.IndicesOk.restart _ ht
            · exact State.IndicesOk.sameRing ht (by first | rfl | simp) (by first | rfl | simp) (by first | rfl | simp)
          · exact State.IndicesOk.sameRing ht (by first | rfl | simp) (by first | rfl | simp) (by first | rfl | simp)
          · unfold State.writeStopMasks; dsimp only; refine State.IndicesOk.same ht (by simp) ?_ ?_ (by simp)
            · rw [(State.eachChan_indices _ _ _).1]
            · rw [(State.eachChan_indices _ _ _).2]
          · exact State.IndicesOk.sameRing ht (by first | rfl | simp) (by first | rfl | simp) (by first | rfl | simp)
          · exact State.IndicesOk.sameRing ht (by first | rfl | simp) (by first | rfl | simp) (by first | rfl | simp)

theorem Setup.ringSlots_pos (u : Setup) : 0 < u.ringSlots := by unfold Setup.ringSlots; positivity

end Sys2Proof.Machine
end

