-- ==== Sys2Proof/Laws/KeepChannels.lean ====
section
/-! SUPPORT. What each operation of a step keeps of the account of the close records, of the envelope of the channels,
and of the governing blocks while the loader is not RUNNING. -/

namespace Sys2Proof.Machine

theorem State.CloseRecordsOk.same {s t : State} (h : s.CloseRecordsOk)
    (r : ∀ k, t.ring.closeCount k = s.ring.closeCount k)
    (c : ∀ k : ChanId, t.chans[k].state = .closing ↔ s.chans[k].state = .closing) : t.CloseRecordsOk := by
  intro k; rw [r, h k]; simp only [c k]

theorem State.CloseRecordsOk.congr {s t : State} (h : s.CloseRecordsOk) (r : t.ring = s.ring) (c : t.chans = s.chans) :
    t.CloseRecordsOk := by
  intro k; rw [r, c]; exact h k

theorem State.CloseRecordsOk.stage {s : State} (h : s.CloseRecordsOk) (r : Record) (hr : r.isClose = false) :
    (s.stage r).CloseRecordsOk :=
  State.CloseRecordsOk.same h (fun k => by rw [s.stage_closeCount r (.inr hr), (NoClose.one hr).count]; rfl) (by simp)

theorem State.CloseRecordsOk.stageAll {s : State} (h : s.CloseRecordsOk) (rs : List Record) (hr : NoClose rs) :
    (s.stageAll rs).CloseRecordsOk :=
  State.CloseRecordsOk.same h (fun k => by rw [s.stageAll_closeCount rs (.inr hr), hr.count]; rfl) (by simp)

theorem State.CloseRecordsOk.stageAndRaise {s : State} (h : s.CloseRecordsOk) (r : Record) (f : Flag) (a : Addr)
    (hr : r.isClose = false) : (s.stageAndRaise r f a).CloseRecordsOk :=
  State.CloseRecordsOk.same h (fun k => by
    have := s.perform_closeCount (.news r f a) (.inr hr) k
    simp only [State.perform, Effect.record] at this
    rw [this, (NoClose.one hr).count]; rfl) (by simp)

theorem chans_set_get (v : Vector Channel 8) (c k : ChanId) (x : Channel) :
    (v.set c x)[k] = if k = c then x else v[k] := by
  by_cases h : k = c
  · subst h; simp
  · have : (c : Nat) ≠ (k : Nat) := fun e => h (Fin.ext e.symm)
    simp [h, this]

/-- a channel op with records -/
theorem State.CloseRecordsOk.setPerformAll {s : State} (h : s.CloseRecordsOk) (run : s.loader.mode = .running)
    (c : ChanId) (ch : Channel) (es : List Effect)
    (a : Accounts c s.chans[c] ch (es.map Effect.record)) : ((s.setChan c ch).performAll es).CloseRecordsOk := by
  intro k
  rw [State.performAll_closeCount (s.setChan c ch) es (.inl run) k, a.count k]
  simp only [State.performAll_frame, State.setChan_chans, chans_set_get, State.setChan_ring, h k]
  by_cases hk : k = c
  · subst hk
    have := a.stays
    clear a h
    generalize s.chans[k].state = q at *
    by_cases h1 : q = .closing
    · simp [h1, this h1]
    · simp [h1]
  · simp [hk]

theorem State.CloseRecordsOk.setStageAll {s : State} (h : s.CloseRecordsOk) (run : s.loader.mode = .running)
    (c : ChanId) (ch : Channel) (rs : List Record)
    (a : Accounts c s.chans[c] ch rs) : ((s.setChan c ch).stageAll rs).CloseRecordsOk := by
  intro k
  rw [State.stageAll_closeCount (s.setChan c ch) rs (.inl run) k, a.count k]
  simp only [State.stageAll_frame, State.setChan_chans, chans_set_get, State.setChan_ring, h k]
  by_cases hk : k = c
  · subst hk
    have := a.stays
    clear a h
    generalize s.chans[k].state = q at *
    by_cases h1 : q = .closing
    · simp [h1, this h1]
    · simp [h1]
  · simp [hk]

theorem State.CloseRecordsOk.eachChan {s : State} (h : s.CloseRecordsOk) (o : List Record)
    (f : ChanId → Channel → Channel × List Record) (ho : NoClose o)
    (hf : ∀ c, NoClose (f c s.chans[c]).2 ∧ ((f c s.chans[c]).1.state = .closing ↔ s.chans[c].state = .closing)) :
    (s.eachChan o f).CloseRecordsOk :=
  State.CloseRecordsOk.same h (State.eachChan_closeCount s o f ho (fun c => (hf c).1)) (fun k => by rw [State.eachChan_get]; exact (hf k).2)

theorem State.CloseRecordsOk.restart (s : State) : s.restart.CloseRecordsOk := by
  intro k
  have h1 : s.restart.ring.closeCount k = 0 := rfl
  have h2 : s.restart.chans[k].state = .vacant := by simp [State.restart, Channel.restarted, Channel.vacate]
  rw [h1, h2]; simp

theorem State.CloseRecordsOk.setChan {s : State} (h : s.CloseRecordsOk) (c : ChanId) (ch : Channel)
    (e : ch.state = s.chans[c].state) : (s.setChan c ch).CloseRecordsOk := by
  refine State.CloseRecordsOk.same h (fun _ => rfl) ?_
  intro k
  simp only [State.setChan_chans, chans_set_get]
  split_ifs with hk
  · subst hk; rw [e]
  · rfl

theorem State.CloseRecordsOk.mapChan {s : State} (h : s.CloseRecordsOk) (c : ChanId) (f : Channel → Channel)
    (e : (f s.chans[c]).state = s.chans[c].state) : (s.mapChan c f).CloseRecordsOk :=
  State.CloseRecordsOk.setChan h c _ e

theorem State.CloseRecordsOk.orderWrite (s : State) (w : OrderWrite) (h : s.CloseRecordsOk)
    (run : s.loader.mode = .running) : (s.orderWrite w).CloseRecordsOk := by
  unfold State.orderWrite
  dsimp only
  split_ifs
  · unfold State.orderWord
    dsimp only
    split_ifs
    · unfold State.orderWidth; dsimp only
      refine State.CloseRecordsOk.stage ?_ _ rfl
      refine State.CloseRecordsOk.congr (State.CloseRecordsOk.mapChan h w.chan (fun ch => ch.latch 0 0 .refused .width) rfl) rfl rfl
    · split
      · unfold State.orderCommand
        dsimp only
        generalize hv : (s.chan w.chan).command _ _ _ _ _ = v
        have acc := Channel.command_accounts (s.chan w.chan) (s.commandEnv w.chan) w.big ‹Command› (orderTag (inOrder w.big w.data)) (orderArg (inOrder w.big w.data))
        rw [hv] at acc
        have key : ∀ a b o r,
            ((s.setChan w.chan (v.chan.latch a b o r)).stageAll v.out).CloseRecordsOk := fun a b o r =>
          State.CloseRecordsOk.setStageAll h run w.chan _ _ ⟨acc.stays, acc.count⟩
        split
        · refine State.CloseRecordsOk.congr ?_ (by simp) (State.queueAsWritten_frame _ _).2.2.2.2.1
          split_ifs
          · exact State.CloseRecordsOk.stage (key _ _ _ _) _ rfl
          · exact key _ _ _ _
        · refine State.CloseRecordsOk.stage ?_ _ rfl
          exact State.CloseRecordsOk.congr (key _ _ _ _) rfl rfl
        · refine State.CloseRecordsOk.congr ?_ (by simp) (State.queueOrder_frame _ _ _ _).2.2.2.2.1
          split_ifs
          · exact State.CloseRecordsOk.stageAndRaise (key _ _ _ _) _ _ _ rfl
          · exact State.CloseRecordsOk.congr (key _ _ _ _) rfl rfl
      · unfold State.orderUnknown
        refine State.CloseRecordsOk.congr ?_ (by simp) (State.queueAsWritten_frame _ _).2.2.2.2.1
        refine State.CloseRecordsOk.stage ?_ _ rfl
        exact State.CloseRecordsOk.mapChan h w.chan _ rfl
  · exact h
  · unfold State.captureArea
    refine State.CloseRecordsOk.congr ?_ (by simp) (State.queueAsWritten_frame _ _).2.2.2.2.1
    exact State.CloseRecordsOk.mapChan h w.chan _ (by unfold Channel.capture; dsimp only; split_ifs <;> rfl)
  · exact State.CloseRecordsOk.congr h (by simp) (State.queueAsWritten_frame _ _).2.2.2.2.1

/-- A processor access keeps the account of the close records. -/
theorem State.CloseRecordsOk.access (s : State) (a : Access) (h : s.CloseRecordsOk) :
    (s.access a).CloseRecordsOk := by
  refine access_cases (P := fun t => t.CloseRecordsOk) s a h (fun _ => h) ?_ ?_ ?_ ?_ ?_
  · intro b _ _; exact State.CloseRecordsOk.congr h (by simp) (by simp)
  · intro b hb _; exact State.CloseRecordsOk.congr h (by simp) (by simp)
  · intro b hb _
    refine State.CloseRecordsOk.same h ?_ (by simp)
    intro k
    unfold State.ringHeaderAccess State.consumerWrite
    dsimp only
    (repeat' split) <;> first | rfl | simp
    all_goals rfl
  · intro p _ hn; exact State.CloseRecordsOk.congr h (by simp) (by simp)
  · intro b e hb run he
    have ht : (s.mapMap (·.touch e)).CloseRecordsOk := h
    unfold State.pageAccess
    split
    · unfold State.invalidAccess
      dsimp only
      refine State.CloseRecordsOk.congr (State.CloseRecordsOk.stage (s := State.raise (s.mapMap (·.touch e)) _ _) ?_ (State.blockRecord (State.raise (s.mapMap (·.touch e)) .mapFault b.addr) (.mapFault b.addr b.write.isSome)) rfl) rfl rfl
      exact ht
    · exact State.CloseRecordsOk.congr ht (by simp) (by simp)
    · unfold State.orderAccess
      dsimp only
      split
      · split_ifs <;> exact State.CloseRecordsOk.congr ht (by simp) (by simp)
      · split_ifs
        · exact State.CloseRecordsOk.congr ht (by simp) (by simp)
        · exact ht
        · exact State.CloseRecordsOk.congr (State.CloseRecordsOk.orderWrite _ _ ht run) rfl rfl
    · exact State.CloseRecordsOk.congr ht (by simp) (by simp)
    · unfold State.statusAccess
      dsimp only
      split
      · exact ht
      · split_ifs
        · exact State.CloseRecordsOk.congr ht (by simp) (by simp)
        · refine State.CloseRecordsOk.congr (s := State.statusWrite (s.mapMap (·.touch e)) b.addr b.be _ (State.pageOrder (s.mapMap (·.touch e)) e.attrs.swap)) ?_ rfl rfl
          unfold State.statusWrite
          dsimp only
          split
          · exact ht
          · split_ifs
            · exact State.CloseRecordsOk.restart _
            · exact ht
          · exact ht
          · unfold State.writeStopMasks
            dsimp only
            refine State.CloseRecordsOk.eachChan ?_ [] _ .nil ?_
            · exact ht
            · intro c; exact ⟨Channel.parkEach_noClose _ _ _ _, Channel.parkEach_closing _ _ _ _⟩
          · exact ht
          · exact ht

theorem State.CloseRecordsOk.fetchError (s : State) (h : s.CloseRecordsOk) : s.fetchError.CloseRecordsOk := by
  unfold State.fetchError; dsimp only
  exact State.CloseRecordsOk.stage (s := s.raise .memErr _) h _ rfl

theorem Ring.removeHead_closeCount (r : Ring) (x : Record) (xs : List Record) (e : r.staging = x :: xs) (k : ChanId) :
    r.removeHead.closeCount k + [x].countP (·.closes k) = r.closeCount k := by
  unfold Ring.removeHead Ring.closeCount
  split
  · rename_i hh; simp [e, hh, List.countP_cons]
  · rename_i y ys hh
    simp only [e, hh, List.tail_cons, List.countP_append, List.countP_cons, List.countP_nil]
    omega

/-- A published close record takes its channel out of CLOSING, so the account stands. -/
theorem State.CloseRecordsOk.publishDone (s : State) (h : s.CloseRecordsOk) : s.publishDone.CloseRecordsOk := by
  unfold State.publishDone
  split
  · exact h
  · rename_i x xs e
    have cnt := Ring.removeHead_closeCount s.ring x xs e
    intro k
    have r : ∀ t : State, (t.closePublished x).ring = t.ring := by intro t; simp
    rw [r]
    show Ring.closeCount s.ring.removeHead k = _
    have hk := h k
    have ck := cnt k
    unfold State.closePublished
    split
    · rename_i c hc hch
      simp only [State.mapChan_chans, chans_set_get]
      by_cases e1 : k = c
      · subst e1
        have one : [x].countP (·.closes k) = 1 := by simp [Record.closes, hc, hch]
        rw [one] at ck
        have hcl : s.chans[k].state = .closing := by
          by_contra hn; rw [if_neg hn] at hk; omega
        rw [if_pos hcl] at hk
        have np : (Channel.published s.chans[k]).state ≠ .closing := by unfold Channel.published; rw [if_pos hcl]; simp
        rw [if_pos rfl, if_neg np]; omega
      · have zero : [x].countP (·.closes k) = 0 := by
          have : ¬ c = k := fun e => e1 e.symm
          simp [Record.closes, hch, this]
        rw [zero] at ck
        rw [if_neg e1, ← hk]; omega
    · rename_i hn
      have zero : [x].countP (·.closes k) = 0 := by
        simp only [Record.closes, List.countP_cons, List.countP_nil]
        rw [if_neg]
        intro hx
        simp at hx
        exact hn k hx.1 hx.2
      rw [zero] at ck
      show _ = if s.chans[k].state = .closing then 1 else 0
      rw [← hk]; omega

theorem State.ChannelsOk.congr {s t : State} (h : s.ChannelsOk) (l : t.loader = s.loader) (c : t.chans = s.chans) :
    t.ChannelsOk :=
  ⟨by rw [l, c]; exact h.off, by rw [l, c]; exact h.ok⟩

/-- a running block whose every channel is fine -/
theorem State.ChannelsOk.running {s t : State} (run : s.loader.mode = .running) (l : t.loader = s.loader)
    (c : ∀ k : ChanId, ChannelOk s.loader.setup t.chans[k]) : t.ChannelsOk :=
  ⟨fun hn => absurd run (by rw [← l]; exact hn), by rw [l]; exact c⟩

theorem State.ChannelsOk.set {s t : State} (h : s.ChannelsOk) (run : s.loader.mode = .running)
    (l : t.loader = s.loader) (c : ChanId) (ch : Channel)
    (e : t.chans = s.chans.set c ch) (ok : ChannelOk s.loader.setup ch) : t.ChannelsOk := by
  refine State.ChannelsOk.running run l ?_
  intro k; rw [e, chans_set_get]; split_ifs
  · exact ok
  · exact h.ok k

theorem State.ChannelsOk.orderWrite (s : State) (w : OrderWrite) (h : s.ChannelsOk) (run : s.loader.mode = .running) :
    (s.orderWrite w).ChannelsOk := by
  unfold State.orderWrite
  dsimp only
  split_ifs
  · unfold State.orderWord
    dsimp only
    split_ifs
    · unfold State.orderWidth; dsimp only
      exact State.ChannelsOk.set h run (by simp) w.chan _ (by simp only [State.stage_frame, State.raise_chans, State.mapChan_chans]; rfl) ((h.ok w.chan).latch _ _ _ _)
    · split
      · unfold State.orderCommand
        dsimp only
        generalize hv : (s.chan w.chan).command _ _ _ _ _ = v
        have ok := ChannelOk.command (h.ok w.chan) (s.commandEnv w.chan) rfl w.big ‹Command› (orderTag (inOrder w.big w.data)) (orderArg (inOrder w.big w.data))
        have hv' : s.chans[w.chan] = s.chan w.chan := rfl
        rw [hv', hv] at ok
        have key : ∀ a b o r, ((s.setChan w.chan (v.chan.latch a b o r)).stageAll v.out).ChannelsOk := fun a b o r =>
          State.ChannelsOk.set h run (by simp) w.chan _ (by simp only [State.stageAll_frame, State.setChan_chans]; rfl) (ok.latch _ _ _ _)
        split
        · refine State.ChannelsOk.congr ?_ (State.queueAsWritten_frame _ _).1 (State.queueAsWritten_frame _ _).2.2.2.2.1
          split_ifs
          · exact State.ChannelsOk.congr (key _ _ _ _) (by simp; done) (by simp only [State.stage_frame, State.raise_chans, State.stageAndRaise_frame]; rfl)
          · exact key _ _ _ _
        · exact State.ChannelsOk.congr (key _ _ _ _) (by simp; done) (by simp only [State.stage_frame, State.raise_chans, State.stageAndRaise_frame]; rfl)
        · refine State.ChannelsOk.congr ?_ (State.queueOrder_frame _ _ _ _).1 (State.queueOrder_frame _ _ _ _).2.2.2.2.1
          split_ifs
          · exact State.ChannelsOk.congr (key _ _ _ _) (by simp; done) (by simp only [State.stage_frame, State.raise_chans, State.stageAndRaise_frame]; rfl)
          · exact State.ChannelsOk.congr (key _ _ _ _) (by simp; done) (by simp only [State.stage_frame, State.raise_chans, State.stageAndRaise_frame]; rfl)
      · unfold State.orderUnknown
        exact State.ChannelsOk.set h run (by simp) w.chan _ (by simp only [State.queueAsWritten_frame, State.stage_frame, State.raise_chans, State.mapChan_chans]; rfl) ((h.ok w.chan).latch _ _ _ _)
  · exact State.ChannelsOk.congr h rfl rfl
  · unfold State.captureArea
    exact State.ChannelsOk.set h run (by simp) w.chan _ (by simp only [State.queueAsWritten_frame, State.stage_frame, State.raise_chans, State.mapChan_chans]; rfl) ((h.ok w.chan).capture _ _ _)
  · exact State.ChannelsOk.congr h (by simp) (by simp)

/-- A processor access keeps every channel within its envelope. -/
theorem State.ChannelsOk.access (s : State) (a : Access) (h : s.ChannelsOk) : (s.access a).ChannelsOk := by
  refine access_cases (P := fun t => t.ChannelsOk) s a h (fun _ => State.ChannelsOk.congr h rfl rfl) ?_ ?_ ?_ ?_ ?_
  · intro b _ _; exact State.ChannelsOk.congr h (by simp) (by simp)
  · intro b hb _; exact State.ChannelsOk.congr h (by simp) (by simp)
  · intro b hb _; exact State.ChannelsOk.congr h (by simp) (by simp)
  · intro p _ hn; exact State.ChannelsOk.congr h (by simp) (by simp)
  · intro b e hb run he
    have ht : (s.mapMap (·.touch e)).ChannelsOk := State.ChannelsOk.congr h rfl rfl
    unfold State.pageAccess
    split
    · exact State.ChannelsOk.congr ht (by simp) (by simp)
    · exact State.ChannelsOk.congr ht (by simp) (by simp)
    · unfold State.orderAccess
      dsimp only
      split
      · split_ifs <;> exact State.ChannelsOk.congr ht (by simp) (by simp)
      · split_ifs
        · exact State.ChannelsOk.congr ht (by simp) (by simp)
        · exact State.ChannelsOk.congr ht (by simp) (by simp)
        · exact State.ChannelsOk.congr (State.ChannelsOk.orderWrite _ _ ht run) rfl rfl
    · exact State.ChannelsOk.congr ht (by simp) (by simp)
    · unfold State.statusAccess
      dsimp only
      split
      · exact State.ChannelsOk.congr ht (by simp) (by simp)
      · split_ifs
        · exact State.ChannelsOk.congr ht (by simp) (by simp)
        · refine State.ChannelsOk.congr (s := State.statusWrite (s.mapMap (·.touch e)) b.addr b.be _ (State.pageOrder (s.mapMap (·.touch e)) e.attrs.swap)) ?_ rfl rfl
          unfold State.statusWrite
          dsimp only
          split
          · exact State.ChannelsOk.congr ht rfl rfl
          · split_ifs
            · refine State.ChannelsOk.running (s := s) run rfl ?_
              intro k
              have : (State.restart (s.mapMap (·.touch e))).chans[k] = s.chans[k].restarted := by simp [State.restart]
              rw [this]
              exact (h.ok k).restarted
            · exact State.ChannelsOk.congr ht rfl rfl
          · exact State.ChannelsOk.congr ht rfl rfl
          · unfold State.writeStopMasks
            dsimp only
            refine State.ChannelsOk.running (s := s) run (by simp) ?_
            intro k
            rw [State.eachChan_get]
            exact ChannelOk.parkEach (h.ok k) _ _ _
          · exact State.ChannelsOk.congr ht rfl rfl
          · exact State.ChannelsOk.congr ht rfl rfl

/-- everything QuietOk looks at is unchanged -/
theorem State.QuietOk.congr {s t : State} (h : s.QuietOk) (l : t.loader = s.loader) (m : t.map = s.map)
    (c : t.chans = s.chans) (f : t.field.gauges = s.field.gauges ∧ t.field.reports = s.field.reports)
    (p : t.pool = s.pool) (r : t.ring = s.ring) (u : t.status = s.status) (e : t.mem = s.mem)
    (q : t.queue = s.queue) (d : t.port.held = s.port.held) : t.QuietOk := by
  have i : t.initiator? = s.initiator? := by simp [State.initiator?, e]
  exact ⟨by rw [l]; exact h.setup, by rw [l, m]; exact h.map, by rw [l, c]; exact h.chans, by rw [l, f.1, f.2]; exact h.gauges, by rw [l, p]; exact h.pool,
    by rw [l, r]; exact h.ring, by rw [l, u]; exact h.status, by rw [l, i]; exact h.mem, by rw [l, q]; exact h.queue, by rw [l, q, d, e, u]; exact h.empty⟩

/-- running: nothing asked -/
theorem State.QuietOk.running {t : State} (run : t.loader.mode = .running) : t.QuietOk := by
  constructor <;> intro hn <;> first | exact absurd run hn | (rw [run] at hn; cases hn)

/-- A processor access outside RUNNING leaves the governing blocks at reset. -/
theorem State.QuietOk.access (s : State) (a : Access) (h : s.QuietOk) : (s.access a).QuietOk := by
  refine access_cases (P := fun t => t.QuietOk) s a h (fun _ => State.QuietOk.congr h rfl rfl rfl ⟨rfl,
      rfl⟩ rfl rfl rfl rfl rfl rfl) ?_ ?_ ?_ ?_ ?_
  · intro b hb hl
    have nl : (s.plainAccess b).loader = s.loader := by simp
    have i : (s.plainAccess b).initiator? = s.initiator? := by simp [State.initiator?]
    refine ⟨by simpa using h.setup, by simpa using h.map, by simpa using h.chans, by simpa using h.gauges, by simpa using h.pool, by simpa using h.ring, by simpa using h.status, by rw [nl, i]; exact h.mem, ?_, fun hh => absurd (by simpa using hh) hl⟩
    intro hn
    rw [nl] at hn
    unfold State.plainAccess State.readMemory State.queueWrite
    split
    · split_ifs <;> exact h.queue hn
    · split_ifs
      · exact h.queue hn
      · intro e he
        simp at he
        rcases he with he | he
        · exact h.queue hn e he
        · subst he; rfl
  · intro b hb run; exact State.QuietOk.running (by simpa using run)
  · intro b hb run; exact State.QuietOk.running (by simpa using run)
  · intro p run hn; exact State.QuietOk.running (by simpa using run)
  · intro b e hb run he
    refine State.QuietOk.running ?_
    unfold State.pageAccess; split <;> simpa using run

/-- not running: the part as the invariant leaves it, with a new status word, queue, port, memory access -/
theorem State.QuietOk.safePass {s t : State} (h : s.QuietOk) (l : t.loader = s.loader)
    (nl : s.loader.mode = .loading → t = s) (m : t.map = s.map) (c : t.chans = s.chans) (f : t.field = s.field)
    (p : t.pool = s.pool) (r : t.ring = s.ring) (u : t.status = s.status ∨ ∃ a, t.status = s.status.raise .memErr a)
    (i : t.initiator? = none ∨ t.initiator? = some .heldRead ∨ t.initiator? = some .drain)
    (q : ∀ e ∈ t.queue, e ∈ s.queue) : t.QuietOk := by
  refine ⟨by rw [l]; exact h.setup, by rw [l, m]; exact h.map, by rw [l, c]; exact h.chans, by rw [l, f]; exact h.gauges, by rw [l, p]; exact h.pool,
    by rw [l, r]; exact h.ring, ?_, fun _ => i, ?_, ?_⟩
  · rw [l]; intro hn
    obtain ⟨x, y, e⟩ := h.status hn
    rcases u with u | ⟨a, u⟩
    · exact ⟨x, y, by rw [u, e]⟩
    · refine ⟨x ||| Flag.memErr.bit, (if (s.status.any) then y else a), ?_⟩
      rw [u]
      simp only [Status.raise, e]
      simp [Status.reset]
  · rw [l]; intro hn e he; exact h.queue hn e (q e he)
  · rw [l]; intro hl; rw [nl hl]; exact h.empty hl

end Sys2Proof.Machine
end

