-- ==== Sys2Proof/Laws/Orders.lean ====
section
/-! SUPPORT. What an access to an ORDER, SNAP or STATUS page becomes once it hits: an order word accepted, refused, or
queued with its argument clamped, and the capture buffer a key finds. -/

namespace Sys2Proof.Machine

/-- An accepted write of an ORDER page is taken by its order capture and answered COMPLETE. -/
theorem State.access_accepted {s : State} {addr e c} (h : s.acceptsOrder addr e c) {be : Lanes} (hb : be ≠ 0)
    (d : Word) :
    s.access { addr := addr, be := be, write := some d } =
      ((s.used e).orderWrite
        { chan := c, addr := addr, be := be, data := d, big := s.pageOrder e.attrs.swap }).answer .completeWrite := by
  obtain ⟨hit, role, wp, len, bar⟩ := h
  rw [State.access_hit hit hb]
  unfold State.pageAccess
  rw [role]
  simp only [State.orderAccess]
  rw [if_neg (by simp [wp]), if_neg]
  · rfl
  · have q : (s.used e).queue = s.queue := rfl
    simp only [State.queueFull, q]
    cases hb : e.attrs.barrier
    · simp; omega
    · simp [bar hb]

/-- An accepted order word goes to its command, or to the refusal of an unknown code. -/
theorem State.accessValue_accepted {s : State} {addr e c} (h : s.acceptsWord addr e c) (code tag : Byte)
    (arg : Half) :
    s.accessValue addr (orderValue code tag arg) =
      (let w : OrderWrite :=
        { chan := c, addr := addr, be := 0xF, data := inOrder (s.pageOrder e.attrs.swap) (orderValue code tag arg)
          big := s.pageOrder e.attrs.swap }
       match Command.ofCode code with
       | some cmd => (s.used e).orderCommand w cmd tag arg
       | none => (s.used e).orderUnknown w code tag arg).answer .completeWrite := by
  have : s.orderAt addr = s.pageOrder e.attrs.swap := by unfold State.orderAt; rw [h.1.1.2.2.2]
  unfold State.accessValue
  rw [this, State.access_accepted h.1 (by simp)]
  simp only [State.orderWrite, h.2, if_true, State.orderWord]
  rw [if_neg (by simp)]
  simp only [inOrder_inOrder, orderCode_orderValue, orderTag_orderValue, orderArg_orderValue] <;>
    cases Command.ofCode code <;> rfl

theorem State.chan_setChan (s : State) (c : ChanId) (ch : Channel) : (s.setChan c ch).chan c = ch := by
  unfold State.setChan State.chan; simp

/-- The order write of an order word given by its fields. -/
def orderWriteOf (s : State) (addr : Addr) (e : CacheEntry) (c : ChanId) (code tag : Byte) (arg : Half) :
    OrderWrite :=
  { chan := c, addr := addr, be := 0xF, data := inOrder (s.pageOrder e.attrs.swap) (orderValue code tag arg)
    big := s.pageOrder e.attrs.swap }

/-- The row of a command at an accepted order word. -/
theorem exec_orderRow_accepted {s : State} {addr e c} (h : s.acceptsWord addr e c) (cmd : Command) (tag : Byte)
    (arg : Half) :
    exec (orderRow cmd addr tag arg) s = .next
    (((s.used e).orderCommand (orderWriteOf s addr e c cmd.code tag arg) cmd tag arg).answer .completeWrite) := by
  rw [orderRow_exec, State.accessValue_accepted h]
  simp [orderWriteOf]

/-- A command refused with the channel left alone, its word queued as written. -/
theorem exec_orderRow_refused {s : State} {addr e c} (h : s.acceptsWord addr e c) (cmd : Command) (tag : Byte)
    (arg : Half) (why : Reason)
    (hv : s.chans[c].command ((s.used e).commandEnv c) (s.pageOrder e.attrs.swap) cmd tag arg = Verdict.refuse s.chans[c] why)
    (hd : s.chans[c].disposal cmd arg (Verdict.refuse s.chans[c] why) = .asWritten) :
    exec (orderRow cmd addr tag arg) s = .next
      (((({ s.used e with chans := s.chans.set c { s.chans[c] with
          result := { code := cmd.code, tag := tag, outcome := .refused, reason := why } } } : State).stage
        (s.chans[c].refusedRecord c s.status.clock cmd.code tag arg why)).enqueue
        (s.wordEntry addr e c cmd.code tag arg)).answer .completeWrite) := by
  rw [exec_orderRow_accepted h]
  have hc : (s.used e).chan c = s.chans[c] := rfl
  unfold State.orderCommand
  simp only [orderWriteOf, hc, hv, hd]
  simp only [Verdict.refuse, if_true, State.stageAll, List.foldl, State.refusal, State.chan_setChan]
  rfl

/-- A command taken, its word queued as written. -/
theorem exec_orderRow_taken {s : State} {addr e c} (h : s.acceptsWord addr e c) (cmd : Command) (tag : Byte)
    (arg : Half) (v : Verdict)
    (hv : s.chans[c].command ((s.used e).commandEnv c) (s.pageOrder e.attrs.swap) cmd tag arg = v)
    (hne : v.outcome ≠ .refused)
    (hd : s.chans[c].disposal cmd arg v = .asWritten) :
    exec (orderRow cmd addr tag arg) s = .next
      (((State.stageAll { s.used e with chans := s.chans.set c { v.chan with
          result := { code := cmd.code, tag := tag, outcome := v.outcome, reason := v.reason } } } v.out).enqueue
        (s.wordEntry addr e c cmd.code tag arg)).answer .completeWrite) := by
  rw [exec_orderRow_accepted h]
  have hc : (s.used e).chan c = s.chans[c] := rfl
  unfold State.orderCommand
  simp only [orderWriteOf, hc, hv, hd]
  rw [if_neg hne]
  rfl

/-- A RETARGET above Pmax that is taken: CLAMP, and the word queued with Pmax. -/
theorem exec_retarget_substituted {s : State} {addr e c} (h : s.acceptsWord addr e c) (tag : Byte) (arg : Half)
    (v : Verdict)
    (hv : s.chans[c].command ((s.used e).commandEnv c) (s.pageOrder e.attrs.swap) .retarget tag arg = v)
    (hne : v.outcome ≠ .refused) (ho : v.out = [])
    (hd : s.chans[c].disposal .retarget arg v = .substituted s.chans[c].ctx.pmax) :
    exec (.retarget addr tag arg) s = .next
      (((State.raise { s.used e with chans := s.chans.set c { v.chan with
          result := { code := 3, tag := tag, outcome := v.outcome, reason := v.reason } } } .clamp addr).enqueue
        (s.wordEntry addr e c 3 tag (half s.chans[c].ctx.pmax))).answer .completeWrite) := by
  show exec (orderRow .retarget addr tag arg) s = _
  rw [exec_orderRow_accepted h]
  have hc : (s.used e).chan c = s.chans[c] := rfl
  unfold State.orderCommand
  simp only [orderWriteOf, hc, hv, hd, ho]
  rw [if_neg hne]
  rfl

/-- A write of a STATUS page without WP is taken by the status unit. -/
theorem State.access_status_write {s : State} {addr e} (h : s.hits addr e) (r : e.role = .status)
    (w : e.attrs.wp = false) {be : Lanes} (hb : be ≠ 0) (d : Word) :
    s.access { addr := addr, be := be, write := some d } =
    ((s.used e).statusWrite addr be d (s.loader.setup.bigEndian != e.attrs.swap)).answer .completeWrite := by
  rw [State.access_hit h hb]
  unfold State.pageAccess
  rw [r]
  simp only [State.statusAccess]
  rw [if_neg (by rw [w]; decide)]
  rfl

/-- A read of a SNAP page is taken by the pool. -/
theorem State.access_snap_read {s : State} {addr e c} (h : s.hits addr e) (r : e.role = .snap c) {be : Lanes}
    (hb : be ≠ 0) :
    s.access { addr := addr, be := be, write := none } =
      (s.used e).snapRead
        { key := { channel := c, fresh := addr.getLsbD 19 }, offset := offsetOf addr, be := be
          big := s.loader.setup.bigEndian != e.attrs.swap } := by
  rw [State.access_hit h hb]
  unfold State.pageAccess
  rw [r]
  rfl

theorem State.snapRead_word {s : State} {rd : SnapRead} (h : rd.offset < 0x30) : s.snapRead rd = s.snapWord rd := by
  unfold State.snapRead
  rw [if_neg (by show ¬ rd.offset = 0xFFC; omega), if_neg (by omega)]

/-- The buffer that holds a key is the holder of the key. -/
theorem Pool.holder_of_key {p : Pool} (h : PoolOk p) {k : BufKey} {i : Fin 6} (hk : p.bufs[i].key? = some k) :
    p.holder k = some i := by
  cases hh : p.holder k with
  | none => exact absurd hk (Pool.holder_none hh i)
  | some j =>
    have := Pool.holder_key hh
    rw [h.keys j i (by rw [this]; simp) (by rw [this, hk])]

theorem Pool.holder_of_no_key {p : Pool} {k : BufKey} (hk : ∀ i : Fin 6, p.bufs[i].key? ≠ some k) :
    p.holder k = none := by
  cases hh : p.holder k with
  | none => rfl
  | some j => exact absurd (Pool.holder_key hh) (hk j)

/-- No buffer is obtained exactly where all six are ARMED, and the one obtained is FREE or the head of the fill order. -/
theorem Pool.obtain_cases (p : Pool) (h : PoolOk p) : (p.obtain = none ↔ ∀ i : Fin 6, ∃ k', p.bufs[i] = .armed k') ∧
   ∀ i, p.obtain = some i → (p.bufs[i] = .free ∨ (∀ j : Fin 6, p.bufs[j] ≠ .free) ∧ p.fillOrder.head? = some i) := by
  unfold Pool.obtain
  cases hf : (List.finRange 6).find? (fun i => p.bufs[i] == .free) with
  | some i =>
    have := List.find?_some hf
    simp at this
    refine ⟨⟨by simp, fun q => ?_⟩, fun j hj => ?_⟩
    · obtain ⟨k', hk⟩ := q i; have this : p.bufs[i] = .free := this; rw [hk] at this; cases this
    · simp at hj; subst hj; exact .inl this
  | none =>
    rw [List.find?_eq_none] at hf
    simp at hf
    have nf : ∀ j : Fin 6, p.bufs[j] ≠ .free := fun j => by exact hf j
    refine ⟨⟨fun q i => ?_, fun q => ?_⟩, fun j hj => .inr ⟨nf, hj⟩⟩
    · cases hb : p.bufs[i] with
      | free => exact absurd hb (nf i)
      | armed k => exact ⟨k, rfl⟩
      | filled k st sn =>
        have := (h.filled i).2 (by rw [hb]; rfl)
        simp at q
        rw [q] at this; cases this
    · cases hl : p.fillOrder with
      | nil => rfl
      | cons a l =>
        have := (h.filled a).1 (by rw [hl]; simp)
        obtain ⟨k', hk⟩ := q a
        rw [hk] at this; cases this

end Sys2Proof.Machine
end

