-- ==== Sys2Proof/Laws/Parks.lean ====
section
/-! SUPPORT. Park causes that arise one after another, the records they offer, the look of a RESUME, the trips of a
neighbour report, and the records of an event that every channel takes. -/

namespace Sys2Proof.Machine

/-- The marks of a list of causes. -/
def orMarks (cs : List Cause) : Byte := cs.foldr (fun x m => x.mark ||| m) 0

theorem or_mark (k : Cause) (P : Byte) (h : (P &&& k.mark != 0) = true) : P ||| k.mark = P := by
  cases k <;> revert P <;> decide

theorem mark_fresh (k : Cause) (P : Byte) (h : (P &&& k.mark != 0) = true) : k.mark &&& ~~~P = 0 := by
  cases k <;> revert P <;> decide

theorem and_or_distrib (a b c : Byte) : (a ||| b) &&& c = (a &&& c) ||| (b &&& c) := by
  ext i hi
  simp only [BitVec.getElem_and, BitVec.getElem_or, Bool.and_or_distrib_right]

theorem or_mark_of_mem (P m : Byte) (k : Cause) (h : (P &&& k.mark != 0) = true) : P |||
    (k.mark ||| m) = P ||| m := by
  rw [← BitVec.or_assoc, or_mark k P h]

theorem or_fresh_of_mem (P m S : Byte) (k : Cause) (h : (P &&& k.mark != 0) = true) :
    S ||| (k.mark ||| m) &&& ~~~P = S ||| m &&& ~~~P := by
  rw [and_or_distrib, mark_fresh k P h]; simp

theorem or_fresh_of_new (P m k S : Byte) (h : (P &&& k != 0) = false) :
    (S ||| k) ||| (m &&& ~~~(P ||| k)) = S ||| (k ||| m) &&& ~~~P := by
  have h : P &&& k = 0 := by simpa using h
  ext i hi
  have e : (P &&& k)[i] = (0 : Byte)[i] := by rw [h]
  simp only [BitVec.getElem_and] at e
  simp only [BitVec.getElem_or, BitVec.getElem_and, BitVec.getElem_not]
  cases hP : P[i] <;> cases hk : k[i] <;> cases S[i] <;> cases m[i] <;> simp_all

theorem or_fresh (x y z : Byte) : x ||| y ||| z &&& ~~~y = x ||| (y ||| z) := by
  ext i hi
  simp only [BitVec.getElem_or, BitVec.getElem_and, BitVec.getElem_not]
  cases x[i] <;> cases y[i] <;> cases z[i] <;> rfl

/-- Causes that arise in PARKED join the set, and those not in it the causes seen. -/
theorem Channel.parkEach_in_parked (cs : List Cause) : ∀ (ch : Channel) (c : ChanId)
    (clock : Word), ch.state = .parked →
    (ch.parkEach c clock cs).1 =
    { ch with ctx := { ch.ctx with parkSet := ch.ctx.parkSet ||| orMarks cs, causesSeen := ch.ctx.causesSeen ||| (orMarks cs &&& ~~~ch.ctx.parkSet) } } := by
  induction cs with
  | nil => intro ch c k h; simp [Channel.parkEach, orMarks]
  | cons x cs ih =>
    intro ch c k h
    simp only [Channel.parkEach]
    have e : orMarks (x :: cs) = x.mark ||| orMarks cs := rfl
    rw [e]
    unfold Channel.park
    simp only [h]
    by_cases hh : ch.ctx.holds x = true
    · rw [if_pos hh, ih _ _ _ h, or_mark_of_mem _ _ _ hh, or_fresh_of_mem _ _ _ _ hh]
      simp only [h]
    · rw [if_neg hh, ih _ _ _ rfl]
      dsimp only
      rw [or_fresh_of_new _ _ _ _ (by simpa [Context.holds] using hh), BitVec.or_assoc]

/-- Causes that arise one after another leave the channel as if they had arisen together. -/
theorem Channel.parkEach_parkedBy (cs : List Cause) (ch : Channel) (c : ChanId) (clock : Word) :
    (ch.parkEach c clock cs).1 = ch.parkedBy (orMarks cs) := by
  cases cs with
  | nil => rfl
  | cons k cs =>
    have ne : orMarks (k :: cs) ≠ 0 := by
      show k.mark ||| orMarks cs ≠ 0
      generalize orMarks cs = m
      cases k <;> simp only [Cause.mark] <;> (clear *-; revert m; decide)
    unfold Channel.parkedBy
    rw [if_neg ne]
    cases hs : ch.state with
    | vacant => simp only [Channel.parkEach, Channel.park, hs]; clear ne; induction cs with
      | nil => rfl
      | cons x cs ih => simp only [Channel.parkEach, Channel.park, hs]; exact ih
    | armed => simp only [Channel.parkEach, Channel.park, hs]; clear ne; induction cs with
      | nil => rfl
      | cons x cs ih => simp only [Channel.parkEach, Channel.park, hs]; exact ih
    | closing => simp only [Channel.parkEach, Channel.park, hs]; clear ne; induction cs with
      | nil => rfl
      | cons x cs ih => simp only [Channel.parkEach, Channel.park, hs]; exact ih
    | closed => simp only [Channel.parkEach, Channel.park, hs]; clear ne; induction cs with
      | nil => rfl
      | cons x cs ih => simp only [Channel.parkEach, Channel.park, hs]; exact ih
    | parked =>
      rw [Channel.parkEach_in_parked _ _ _ _ hs]; simp only [hs]
    | ramp =>
      simp only [Channel.parkEach, Channel.park, hs]
      rw [Channel.parkEach_in_parked _ _ _ _ rfl]
      have e : orMarks (k :: cs) = k.mark ||| orMarks cs := rfl
      dsimp only
      rw [e]
      have : ch.ctx.causesSeen ||| k.mark ||| orMarks cs &&& ~~~k.mark = ch.ctx.causesSeen ||| (k.mark |||
          orMarks cs) := by
        generalize ch.ctx.causesSeen = x; generalize k.mark = y; generalize orMarks cs = z; clear *-; exact or_fresh x y z
      rw [this]
    | hold =>
      simp only [Channel.parkEach, Channel.park, hs]
      rw [Channel.parkEach_in_parked _ _ _ _ rfl]
      have e : orMarks (k :: cs) = k.mark ||| orMarks cs := rfl
      dsimp only
      rw [e]
      have : ch.ctx.causesSeen ||| k.mark ||| orMarks cs &&& ~~~k.mark = ch.ctx.causesSeen ||| (k.mark |||
          orMarks cs) := by
        generalize ch.ctx.causesSeen = x; generalize k.mark = y; generalize orMarks cs = z; clear *-; exact or_fresh x y z
      rw [this]

theorem Channel.park_parkedBy (ch : Channel) (c : ChanId) (clock : Word) (k : Cause) :
    (ch.park c clock k).1 = ch.parkedBy k.mark := by
  have := Channel.parkEach_parkedBy [k] ch c clock
  have e : orMarks [k] = k.mark := by cases k <;> rfl
  rw [e] at this
  exact this

/-- The records of causes that arise are PARKED records of their channel. -/
theorem Channel.parkEach_kind (cs : List Cause) : ∀ (ch : Channel) (c : ChanId) (clock : Word), ∀ r ∈
    (ch.parkEach c clock cs).2, ∃ k ∈ cs, ∃ set, r.channel = some c ∧ r.payload = .parked k set := by
  induction cs with
  | nil => intro ch c clock r hr; simp [Channel.parkEach] at hr
  | cons k cs ih =>
    intro ch c clock r hr
    simp only [Channel.parkEach] at hr
    rcases List.mem_append.1 hr with hr | hr
    · refine ⟨k, by simp, ?_⟩
      unfold Channel.park at hr
      split at hr
      · simp at hr; subst hr; exact ⟨_, rfl, rfl⟩
      · simp at hr; subst hr; exact ⟨_, rfl, rfl⟩
      · split at hr
        · simp at hr
        · simp at hr; subst hr; exact ⟨_, rfl, rfl⟩
      all_goals simp at hr
    · obtain ⟨k', hk, h⟩ := ih _ _ _ r hr
      exact ⟨k', by simp [hk], h⟩

/-- One cause that arises in PARKED. -/
theorem Channel.park_in_parked (ch : Channel) (c : ChanId) (clock : Word) (k : Cause) (st : ch.state = .parked) :
   ch.park c clock k = if ch.ctx.parkSet &&& k.mark = 0 then ({ ch with
        ctx := { ch.ctx with
          parkSet := ch.ctx.parkSet ||| k.mark
          causesSeen := ch.ctx.causesSeen ||| k.mark } }, [ch.ctx.ownRecord c clock (.parked k (ch.ctx.parkSet |||
              k.mark))]) else (ch, []) := by
  unfold Channel.park
  simp only [st]
  by_cases h : ch.ctx.parkSet &&& k.mark = 0
  · have : ch.ctx.holds k = false := by simp [Context.holds, h]
    rw [if_pos h, this]; simp only [Bool.false_eq_true, if_false]; rfl
  · have : ch.ctx.holds k = true := by simpa [Context.holds] using h
    rw [if_neg h, this]; simp

/-- Each cause that joins a set, with the set as it then is. -/
def parkPairs : Byte → List Cause → List (Cause × Byte)
  | _, [] => []
  | K, k :: L => if K &&& k.mark = 0 then (k, K ||| k.mark) :: parkPairs (K ||| k.mark) L else parkPairs K L

/-- The records of causes that arise in PARKED, one for each that joins the set. -/
theorem Channel.parkEach_records (L : List Cause) : ∀ (ch : Channel) (c : ChanId)
    (clock : Word) , ch.state = .parked →
   (ch.parkEach c clock L).2 = (parkPairs ch.ctx.parkSet L).map
    (fun p => ch.ctx.ownRecord c clock (.parked p.1 p.2)) := by
  induction L with
  | nil => intros; rfl
  | cons k L ih =>
    intro ch c clock st
    simp only [Channel.parkEach, parkPairs]
    rw [Channel.park_in_parked _ _ _ _ st]
    by_cases h : ch.ctx.parkSet &&& k.mark = 0
    · rw [if_pos h, if_pos h]
      dsimp only
      rw [ih _ c clock (by exact st)]
      rfl
    · rw [if_neg h, if_neg h]
      dsimp only
      rw [ih _ c clock (by exact st)]
      rfl

/-- The causes that the look of a RESUME shows, in its order. -/
def looked (a b p l : Bool) : List Cause := (if a then [Cause.stopA] else []) ++
    (if b then [Cause.stopB] else []) ++ (if p then [] else [Cause.permit]) ++ (if l then [Cause.los] else [])

theorem parkPairs_looked (a b p l : Bool) (K : Byte) : parkPairs K (looked a b p l) = 
   [Cause.stopA, .stopB, .permit, .los].filterMap (fun k =>
      if (0#4 ++ BitVec.ofBool l ++ BitVec.ofBool (!p) ++ BitVec.ofBool b ++ BitVec.ofBool a : Byte) &&& k.mark ≠ 0 ∧
    K &&& k.mark = 0 then
        some (k, (K ||| ((0#4 ++ BitVec.ofBool l ++ BitVec.ofBool (!p) ++ BitVec.ofBool b ++ BitVec.ofBool a : Byte) &&& (k.mark ||| (k.mark - 1)))))
      else none) := by
  cases a <;> cases b <;> cases p <;> cases l <;> (revert K; decide)

/-- The PARKED records of the look of a RESUME. -/
theorem Channel.lookCauses_records (ch : Channel) (c : ChanId) (clock : Word) (view : FieldView)
    (st : ch.state = .parked) (K : Byte) :
    (({ ch with ctx := { ch.ctx with parkSet := K } } : Channel).parkEach c clock (ch.lookCauses view)).2 =
        [Cause.stopA, .stopB, .permit, .los].filterMap (fun k =>
      if (0#4 ++ BitVec.ofBool ch.readings.los ++ BitVec.ofBool (!view.permit) ++ BitVec.ofBool view.stopB ++ BitVec.ofBool view.stopA : Byte) &&& k.mark ≠ 0 ∧ K &&& k.mark = 0 then
        some (ch.ctx.ownRecord c clock (.parked k (K |||
            ((0#4 ++ BitVec.ofBool ch.readings.los ++ BitVec.ofBool (!view.permit) ++ BitVec.ofBool view.stopB ++ BitVec.ofBool view.stopA : Byte) &&& (k.mark ||| (k.mark - 1))))))
      else none) := by
  rw [Channel.parkEach_records _ _ _ _ (by exact st)]
  have : ch.lookCauses view = looked view.stopA view.stopB view.permit ch.readings.los := rfl
  rw [this]
  dsimp only
  rw [parkPairs_looked, List.map_filterMap]
  congr 1
  funext k
  split_ifs <;> rfl

/-- An event that every channel takes: what becomes of each, and all the records, in some order. -/
theorem State.eachChan_offersIn (s : State) (o : List Record) (f : ChanId → Channel → Channel × List Record) :
    State.OffersIn { s with chans := Vector.ofFn (fun c => (f c s.chans[c]).1) } (s.eachChan o f)
      (o ++ (List.finRange 8).flatMap (fun c => (f c s.chans[c]).2)) := by
  unfold State.eachChan
  unfold State.stageTogether
  refine ⟨interleave (Config.arrivalPick s.choices) (o :: (List.finRange 8).map (fun c => (f c s.chans[c]).2)).flatten.length (o :: (List.finRange 8).map (fun c => (f c s.chans[c]).2)), s.choices + 1, ?_, rfl⟩
  have := interleave_perm (Config.arrivalPick s.choices) (o :: (List.finRange 8).map (fun c => (f c s.chans[c]).2)).flatten.length (o :: (List.finRange 8).map (fun c => (f c s.chans[c]).2)) (le_refl _)
  refine this.trans ?_
  simp [List.flatMap]

theorem stopCauses_perm : ∀ z x y : Bool, (stopCauses z x y).Perm
    ((if x = true then [.stopA] else []) ++ if y = true then [.stopB] else []) := by decide

theorem stopCauses_marks : ∀ z x y : Bool,
    ((if x = true then 1 else 0) ||| (if y = true then 2 else 0) : Byte) = orMarks (stopCauses z x y) := by decide

/-- The COMMUNICATION records of a report, in list order. -/
theorem Channel.tripRecords_eq (ch : Channel) (c : ChanId) (clock : Word) (r : Report) (ws : List Watch) :
    ∀ n, ch.tripRecords c clock r n ws =
   (ws.zipIdx n).filterMap (fun (p : Watch × Nat) =>
      if (!p.1.tripped && p.1.channel == r.watched && decide (p.1.threshold ≤ r.measured)) = true then
        some (ch.record c clock (.communication p.2 p.1.channel p.1.threshold r.measured p.1.action))
      else none) := by
  induction ws with
  | nil => intro n; rfl
  | cons w ws ih =>
    intro n
    simp only [Channel.tripRecords, List.zipIdx_cons, List.filterMap_cons]
    rw [ih]
    unfold Watch.trips
    split_ifs with h <;> simp [h]

end Sys2Proof.Machine
end

