-- ==== Sys2Proof/Laws/Samples.lean ====
section
/-! SUPPORT. A sample arrival: what it leaves of the rest of the state, and what each part of the stage work does. -/

namespace Sys2Proof.Machine

/-- Offering records and raising flags touches the staging queue, the held close records, the flags with the fault
address and the trap, and the counter of free values, and nothing else. -/
structure Kept (s t : State) : Prop where
  chans : t.chans = s.chans
  loader : t.loader = s.loader
  port : t.port = s.port
  mem : t.mem = s.mem
  queue : t.queue = s.queue
  map : t.map = s.map
  field : t.field = s.field
  pool : t.pool = s.pool
  ring : ({ t.ring with staging := s.ring.staging, held := s.ring.held } : Ring) = s.ring
  status :
    ({ t.status with
        flags := s.status.flags, faultAddr := s.status.faultAddr, te := s.status.te, trap := s.status.trap } : Status) =
      s.status
  pending : t.pending = s.pending

theorem Kept.refl (s : State) : Kept s s := ⟨rfl, rfl, rfl, rfl, rfl, rfl, rfl, rfl, rfl, rfl, rfl⟩

theorem Kept.trans {a b c : State} (h : Kept a b) (k : Kept b c) : Kept a c := by
  refine ⟨k.chans.trans h.chans, k.loader.trans h.loader, k.port.trans h.port, k.mem.trans h.mem,
      k.queue.trans h.queue, k.map.trans h.map, k.field.trans h.field, k.pool.trans h.pool, ?_, ?_,
      k.pending.trans h.pending⟩
  · have := congrArg (fun x : Ring => ({ x with staging := a.ring.staging, held := a.ring.held } : Ring)) k.ring
    exact this.trans h.ring
  · have := congrArg (fun x : Status => ({ x with flags := a.status.flags, faultAddr := a.status.faultAddr, te := a.status.te, trap := a.status.trap } : Status)) k.status
    exact this.trans h.status

theorem Kept.stage (s : State) (r : Record) : Kept s (s.stage r) := by
  unfold State.stage; split_ifs <;> exact ⟨rfl, rfl, rfl, rfl, rfl, rfl, rfl, rfl, rfl, rfl, rfl⟩

theorem Kept.raise (s : State) (f : Flag) (a : Addr) : Kept s
    (s.raise f a) := ⟨rfl, rfl, rfl, rfl, rfl, rfl, rfl, rfl, rfl, rfl, rfl⟩

theorem Kept.choices (s : State) (n : Nat) : Kept s
    { s with choices := n } := ⟨rfl, rfl, rfl, rfl, rfl, rfl, rfl, rfl, rfl, rfl, rfl⟩

theorem Kept.perform (s : State) (e : Effect) : Kept s (s.perform e) := by
  cases e with
  | stage r => exact Kept.stage s r
  | news r f a =>
    show Kept s (s.stageAndRaise r f a)
    unfold State.stageAndRaise
    split_ifs
    · exact (Kept.choices s _).trans ((Kept.stage _ _).trans (Kept.raise _ _ _))
    · exact (Kept.choices s _).trans ((Kept.raise _ _ _).trans (Kept.stage _ _))
    · exact (Kept.raise _ _ _).trans (Kept.stage _ _)

theorem Kept.performAll (es : List Effect) : ∀ s : State, Kept s (s.performAll es) := by
  induction es with
  | nil => exact Kept.refl
  | cons e es ih => intro s; exact (Kept.perform s e).trans (ih _)

/-- The state after a channel has taken its sample and before it hands the sample on. -/
def State.sampledAlone (s : State) (c : ChanId) (smp : Sample) : State :=
  ((s.setChan c ((s.chan c).sample (s.sampleEnv c smp) smp).1).performAll ((s.chan c).sample (s.sampleEnv c smp) smp).2)

theorem State.sampled_eq {s : State} (m : s.loader.mode = .running) (c : ChanId) (smp : Sample) :
    s.sampled c smp = ((State.sampledAlone s c smp).handOn c).fillArmed { channel := c, fresh := true } false := by
  unfold State.sampled; rw [if_pos m]; rfl

/-- A fill of an ARMED buffer touches the pool alone. -/
theorem State.fillArmed_kept (s : State) (k : BufKey) (st : Bool) : { s.fillArmed k st with pool := s.pool } = s := by
  unfold State.fillArmed; split
  · split_ifs <;> rfl
  · rfl

theorem State.fillArmed_chans' (s : State) (k st) : (s.fillArmed k st).chans = s.chans := by
  have h := congrArg State.chans (State.fillArmed_kept s k st)
  exact h

theorem State.fillArmed_field' (s : State) (k st) : (s.fillArmed k st).field = s.field := by
  have h := congrArg State.field (State.fillArmed_kept s k st)
  exact h

theorem State.fillArmed_status' (s : State) (k st) : (s.fillArmed k st).status = s.status := by
  have h := congrArg State.status (State.fillArmed_kept s k st)
  exact h

theorem State.sampled_chans' {s : State} (m : s.loader.mode = .running) (c : ChanId) (smp : Sample) :
    (s.sampled c smp).chans = s.chans.set c ((s.chan c).sample (s.sampleEnv c smp) smp).1 := by
  rw [State.sampled_eq m, State.fillArmed_chans']
  exact (Kept.performAll _ _).chans

/-- What becomes of the channel that takes a sample. -/
theorem State.sampled_chan {s : State} (m : s.loader.mode = .running) (c : ChanId) (smp : Sample) :
    (s.sampled c smp).chans[c] = ((s.chan c).sample (s.sampleEnv c smp) smp).1 := by
  rw [State.sampled_chans' m]; simp

/-- No other channel is touched by a sample. -/
theorem State.sampled_other {s : State} (m : s.loader.mode = .running) (c : ChanId) (smp : Sample) (k : ChanId)
    (h : k ≠ c) :
    (s.sampled c smp).chans[k] = s.chans[k] := by
  have := State.sampled_chans' m c smp
  have e : (s.sampled c smp).chans[k] = (s.chans.set c ((s.chan c).sample (s.sampleEnv c smp) smp).1)[k] := by rw [this]
  rw [e]
  have : c.val ≠ k.val := fun q => h (Fin.ext q.symm)
  simp [Vector.getElem_set_ne _ _ this]

theorem Channel.park_readings (ch : Channel) (c : ChanId) (clock : Word) (k : Cause) :
    (ch.park c clock k).1.readings = ch.readings ∧ (ch.park c clock k).1.image = ch.image ∧
    (ch.park c clock k).1.result = ch.result := by
  unfold Channel.park; split <;> try split_ifs
  all_goals exact ⟨rfl, rfl, rfl⟩

/-- The stage work leaves the readings, the image and the result word. -/
theorem Channel.stageWork_readings (ch : Channel) (env : SampleEnv) (smp : Sample) :
    (ch.stageWork env smp).1.readings = ch.readings ∧ (ch.stageWork env smp).1.image = ch.image ∧
    (ch.stageWork env smp).1.result = ch.result := by
  have reg : ∀ (ch : Channel) g, (ch.regulate env g).1.readings = ch.readings ∧
      (ch.regulate env g).1.image = ch.image ∧ (ch.regulate env g).1.result = ch.result := by
    intro ch g; unfold Channel.regulate; dsimp only; split_ifs <;> exact ⟨rfl, rfl, rfl⟩
  have rs : (ch.runSample env smp).1.readings = ch.readings ∧ (ch.runSample env smp).1.image = ch.image ∧
      (ch.runSample env smp).1.result = ch.result := by
    unfold Channel.runSample
    dsimp only
    split
    · exact ⟨rfl, rfl, rfl⟩
    · split
      · exact Channel.park_readings _ _ _ _
      · exact reg _ _
  have ps : (ch.parkedSample env smp).1.readings = ch.readings ∧ (ch.parkedSample env smp).1.image = ch.image ∧
      (ch.parkedSample env smp).1.result = ch.result := by
    unfold Channel.parkedSample
    dsimp only
    split
    · exact ⟨rfl, rfl, rfl⟩
    · split
      · exact Channel.park_readings _ _ _ _
      · exact ⟨rfl, rfl, rfl⟩
  unfold Channel.stageWork
  split
  all_goals first | exact rs | exact ps | exact ⟨rfl, rfl, rfl⟩

/-- A raise leaves every set flag set, and sets its own. -/
theorem Status.raise_has (u : Status) (f : Flag) (a : Addr) (g : Flag) (h : u.flags.getLsbD g.index = true ∨ f = g) :
    (u.raise f a).flags.getLsbD g.index = true := by
  unfold Status.raise
  simp only
  rw [BitVec.getLsbD_or]
  rcases h with h | rfl
  · rw [h]; rfl
  · have : f.bit.getLsbD f.index = true := by cases f <;> decide
    rw [this]; simp

theorem State.stage_has (s : State) (r : Record) (g : Flag) (h : s.status.flags.getLsbD g.index = true) :
    (s.stage r).status.flags.getLsbD g.index = true := by
  unfold State.stage; split_ifs
  · exact h
  · exact h
  · exact h
  · exact Status.raise_has _ _ _ _ (.inl h)

theorem State.stageAndRaise_has (s : State) (r : Record) (f : Flag) (a : Addr) (g : Flag)
    (h : s.status.flags.getLsbD g.index = true ∨ f = g) :
    (s.stageAndRaise r f a).status.flags.getLsbD g.index = true := by
  unfold State.stageAndRaise
  split_ifs
  · refine Status.raise_has _ _ _ _ ?_
    rcases h with h | h
    · left; exact State.stage_has _ _ _ h
    · right; exact h
  · exact State.stage_has _ _ _ (Status.raise_has _ _ _ _ h)
  · exact State.stage_has _ _ _ (Status.raise_has _ _ _ _ h)

theorem State.performAll_has (es : List Effect) (g : Flag) : ∀ (s : State), s.status.flags.getLsbD g.index = true →
    (s.performAll es).status.flags.getLsbD g.index = true := by
  induction es with
  | nil => intro s h; exact h
  | cons e es ih =>
    intro s h
    refine ih (s.perform e) ?_
    cases e with
    | stage r => exact State.stage_has _ _ _ h
    | news r f a => exact State.stageAndRaise_has _ _ _ _ _ (.inl h)

/-- Two contexts agree on take, specific take, elapsed, peak and the two runs. -/
def Context.SameMeasures (x y : Context) : Prop := x.take = y.take ∧ x.specificTake = y.specificTake ∧
    x.elapsed = y.elapsed ∧ x.peak = y.peak ∧ x.losRun = y.losRun ∧ x.overRun = y.overRun

theorem Context.SameMeasures.trans {x y z : Context} (h : Context.SameMeasures x y) (k : Context.SameMeasures y z) :
    Context.SameMeasures x z := ⟨h.1.trans k.1, h.2.1.trans k.2.1, h.2.2.1.trans k.2.2.1, h.2.2.2.1.trans k.2.2.2.1,
        h.2.2.2.2.1.trans k.2.2.2.2.1, h.2.2.2.2.2.trans k.2.2.2.2.2⟩

/-- context facts State.sampledAlone a park / regulate / close -/
theorem Channel.park_measures (ch : Channel) (c : ChanId) (clock : Word) (k : Cause) :
    ((ch.park c clock k).1.ctx.take = ch.ctx.take ∧ (ch.park c clock k).1.ctx.specificTake = ch.ctx.specificTake ∧
        (ch.park c clock k).1.ctx.elapsed = ch.ctx.elapsed ∧
     (ch.park c clock k).1.ctx.peak = ch.ctx.peak ∧ (ch.park c clock k).1.ctx.losRun = ch.ctx.losRun ∧
    (ch.park c clock k).1.ctx.overRun = ch.ctx.overRun) := by
  unfold Channel.park; split <;> try split_ifs
  all_goals exact ⟨rfl, rfl, rfl, rfl, rfl, rfl⟩

theorem Channel.regulate_measures (ch : Channel) (env : SampleEnv) (g : Bool) :
    ((ch.regulate env g).1.ctx.take = ch.ctx.take ∧ (ch.regulate env g).1.ctx.specificTake = ch.ctx.specificTake ∧
        (ch.regulate env g).1.ctx.elapsed = ch.ctx.elapsed ∧
     (ch.regulate env g).1.ctx.peak = ch.ctx.peak ∧ (ch.regulate env g).1.ctx.losRun = ch.ctx.losRun ∧
    (ch.regulate env g).1.ctx.overRun = ch.ctx.overRun) := by
  unfold Channel.regulate; dsimp only
  split_ifs
  all_goals (try unfold Context.move; dsimp only)
  all_goals (try split_ifs)
  all_goals exact ⟨rfl, rfl, rfl, rfl, rfl, rfl⟩

theorem Context.judge_measures (x : Context) (a b : Bool) (r f : Nat) :
    ((x.judge a b r f).take = x.take ∧ (x.judge a b r f).specificTake = x.specificTake ∧
        (x.judge a b r f).elapsed = x.elapsed ∧
     (x.judge a b r f).peak = x.peak ∧ (x.judge a b r f).losRun = x.losRun ∧
    (x.judge a b r f).overRun = x.overRun) := by
  unfold Context.judge; split_ifs <;> exact ⟨rfl, rfl, rfl, rfl, rfl, rfl⟩

theorem Channel.sample_run (ch : Channel) (env : SampleEnv) (smp : Sample)
    (st : ch.state = .ramp ∨ ch.state = .hold) :
   (ch.sample env smp).1 = (({ ch with readings := ch.readings.update smp } : Channel).runSample env smp).1 := by
  obtain ⟨s, x, r, i, re⟩ := ch
  rcases st with st | st <;> (simp only at st; subst st; rfl)

theorem Channel.sample_parked (ch : Channel) (env : SampleEnv) (smp : Sample) (st : ch.state = .parked) :
   (ch.sample env smp).1 = (({ ch with readings := ch.readings.update smp } : Channel).parkedSample env smp).1 := by
  obtain ⟨s, x, r, i, re⟩ := ch
  simp only at st; subst st; rfl

/-- The measurements of a stage after a sample are those of step 1 of R85. -/
theorem Channel.sample_measures (ch : Channel) (env : SampleEnv) (smp : Sample)
    (st : ch.state = .ramp ∨ ch.state = .hold ∨ ch.state = .parked) :
   Context.SameMeasures (ch.sample env smp).1.ctx
    (ch.ctx.measure env.autoPark (isGood smp) (ch.readings.update smp).measured (countedPulses smp)) := by
  have run : Context.SameMeasures (({ ch with readings := ch.readings.update smp } : Channel).runSample env smp).1.ctx (ch.ctx.measure env.autoPark (isGood smp) (ch.readings.update smp).measured (countedPulses smp)) := by
    unfold Channel.runSample
    dsimp only
    split
    · exact Context.judge_measures _ _ _ _ _
    · split
      · exact Context.SameMeasures.trans (Channel.park_measures _ _ _ _) (Context.judge_measures _ _ _ _ _)
      · exact Context.SameMeasures.trans (Channel.regulate_measures _ _ _) (Context.judge_measures _ _ _ _ _)
  rcases st with st | st | st
  · rw [Channel.sample_run _ _ _ (.inl st)]; exact run
  · rw [Channel.sample_run _ _ _ (.inr st)]; exact run
  · rw [Channel.sample_parked _ _ _ st]
    unfold Channel.parkedSample
    dsimp only
    split
    · exact ⟨rfl, rfl, rfl, rfl, rfl, rfl⟩
    · split
      · exact Channel.park_measures _ _ _ _
      · exact ⟨rfl, rfl, rfl, rfl, rfl, rfl⟩

theorem Channel.park_not_closing (ch : Channel) (c : ChanId) (clock : Word) (k : Cause) (h : ch.state ≠ .closing) :
    (ch.park c clock k).1.state ≠ .closing := by
  unfold Channel.park; split <;> try split_ifs
  all_goals simp_all

theorem Channel.regulate_not_closing (ch : Channel) (env : SampleEnv) (g : Bool) (h : ch.state ≠ .closing) :
    (ch.regulate env g).1.state ≠ .closing := by
  unfold Channel.regulate; dsimp only
  split_ifs
  all_goals (try unfold Context.move; dsimp only)
  all_goals (try split_ifs)
  all_goals simp_all

theorem Context.judge_keeps (x : Context) (a b : Bool) (r f : Nat) : (x.judge a b r f).cap = x.cap ∧
    (x.judge a b r f).curve = x.curve ∧ (x.judge a b r f).tref = x.tref ∧ (x.judge a b r f).steps = x.steps ∧
    (x.judge a b r f).stepIndex = x.stepIndex := by
  unfold Context.judge; split_ifs <;> exact ⟨rfl, rfl, rfl, rfl, rfl⟩

theorem Context.measure_keeps (x : Context) (a b : Bool) (r f : Nat) : (x.measure a b r f).cap = x.cap ∧
    (x.measure a b r f).curve = x.curve ∧ (x.measure a b r f).tref = x.tref ∧ (x.measure a b r f).steps = x.steps ∧
    (x.measure a b r f).stepIndex = x.stepIndex ∧ (x.measure a b r f).take = min (x.take + f) 4294967295
  ∧ (x.measure a b r f).qref = x.qref ∧ (x.measure a b r f).refusalCount = x.refusalCount ∧
    (x.measure a b r f).stepTime = x.stepTime := by
  unfold Context.measure; dsimp only; split_ifs <;> exact ⟨rfl, rfl, rfl, rfl, rfl, rfl, rfl, rfl, rfl⟩

/-- The close conditions as one chain (R83, R84). -/
theorem Context.closeMet_eq (x : Context) (inHold good : Bool) (p : Nat) : x.closeMet inHold good p =
   if x.cap ≤ x.take then some .cap
   else if good = true ∧ 0 < x.take ∧ x.curve ≤ p * x.take then some .gin
   else if good = true ∧ inHold = true ∧ x.steps.length ≤ x.stepIndex + 1 ∧
    x.tref * 10 ≤ x.refusalCount then some .refusal
   else if good = true ∧ inHold = true ∧ x.steps.length ≤ x.stepIndex + 1 ∧ 0 < x.currentStep.hold ∧
    x.currentStep.hold * 10 ≤ x.stepTime then some .schedule
   else none := by
  unfold Context.closeMet Context.onLastStep
  simp only [Bool.and_eq_true, decide_eq_true_eq, and_assoc]

/-- A sample in RAMP or HOLD that meets a close condition. -/
theorem Channel.runSample_closes (ch : Channel) (env : SampleEnv) (smp : Sample) (why : CloseReason)
   (h : ((ch.ctx.measure env.autoPark (isGood smp) ch.readings.measured (countedPulses smp)).judge (ch.state == .ramp) (isGood smp) env.rise ch.readings.flow).closeMet (!(ch.state == .ramp)) (isGood smp) ch.readings.measured = some why) :
   (ch.runSample env smp).1.state = .closing ∧ (ch.runSample env smp).1.ctx.closeReason = some why ∧
    (ch.runSample env smp).1.ctx.demand = 0 ∧ (ch.runSample env smp).1.ctx.setpoint = 0 ∧
    (ch.runSample env smp).1.ctx.stepIndex = ch.ctx.stepIndex ∧ (ch.runSample env smp).1.ctx.parkSet = ch.ctx.parkSet ∧
    (ch.runSample env smp).1.ctx.causesSeen = ch.ctx.causesSeen := by
  unfold Channel.runSample
  dsimp only
  rw [h]
  refine ⟨rfl, rfl, rfl, rfl, ?_, ?_, ?_⟩ <;>
    (simp only [Channel.closeNow, Channel.enterClosing]; unfold Context.judge Context.measure; dsimp only;
     split_ifs <;> rfl)

theorem Channel.runSample_stays_open (ch : Channel) (env : SampleEnv) (smp : Sample) (st : ch.state ≠ .closing)
   (h : ((ch.ctx.measure env.autoPark (isGood smp) ch.readings.measured (countedPulses smp)).judge (ch.state == .ramp) (isGood smp) env.rise ch.readings.flow).closeMet (!(ch.state == .ramp)) (isGood smp) ch.readings.measured = none) :
   (ch.runSample env smp).1.state ≠ .closing := by
  unfold Channel.runSample
  dsimp only
  rw [h]
  dsimp only
  split
  · exact Channel.park_not_closing _ _ _ _ st
  · exact Channel.regulate_not_closing _ _ _ st

/-- Steps 6 and 7 of R85: where the stage stands, and whether its step advanced. -/
theorem Context.move_eq (x : Context) (st : ChState) (measured : Nat) (hst : st = .ramp ∨ st = .hold) (target : Nat)
    (ht : x.holdTarget = target) :
    let inRamp := st = .ramp
    let reaches := inRamp ∧ target ≤ measured + 20
    let advances := x.stepIndex + 1 < x.steps.length ∧ x.currentStep.hold * 10 ≤ x.stepTime ∧ (reaches ∨ ¬inRamp)
    (x.move st measured).state = (if advances then .ramp else if reaches ∨ ¬inRamp then .hold else .ramp) ∧
    (x.move st measured).ctx.stepIndex = (if advances then x.stepIndex + 1 else x.stepIndex) ∧
    (x.move st measured).ctx.stepTime = (if advances then 0 else x.stepTime) ∧
    (x.move st measured).ctx.ceiling = (if advances then measured else x.ceiling) ∧
    (x.move st measured).ctx.setpoint = x.setpoint ∧ (x.move st measured).ctx.holdTarget = x.holdTarget ∧
    ((x.move st measured).advanced = true ↔ advances) := by
  dsimp only
  have due : x.advanceDue = true ↔ x.stepIndex + 1 < x.steps.length ∧ x.currentStep.hold * 10 ≤ x.stepTime := by
    unfold Context.advanceDue Context.onLastStep; simp
  unfold Context.move
  subst ht
  rcases hst with rfl | rfl
  · by_cases h1 : x.holdTarget ≤ measured + 20
    · by_cases h2 : x.advanceDue = true
      · have h3 := due.1 h2
        simp [h1, h2, h3, Context.advance]
      · have h3 : ¬ (x.stepIndex + 1 < x.steps.length ∧ x.currentStep.hold * 10 ≤ x.stepTime) := fun q => h2 (due.2 q)
        have h4 : ¬ (x.stepIndex + 1 < x.steps.length ∧ x.currentStep.hold * 10 ≤ x.stepTime ∧
            x.holdTarget ≤ measured + 20) := fun q => h3 ⟨q.1, q.2.1⟩
        simp only [h1, h2, if_true, if_false, true_and, not_true_eq_false, or_false, and_true, reduceCtorEq,
            Bool.false_eq_true]
        simp [h3]
    · simp [h1]
  · by_cases h2 : x.advanceDue = true
    · have h3 := due.1 h2
      simp [h2, h3, Context.advance]
    · have h3 : ¬ (x.stepIndex + 1 < x.steps.length ∧ x.currentStep.hold * 10 ≤ x.stepTime) := fun q => h2 (due.2 q)
      simp [h2, h3]

theorem Channel.park_parks (ch : Channel) (c : ChanId) (clock : Word) (k : Cause)
    (h : ch.state = .ramp ∨ ch.state = .hold) : (ch.park c clock k).1.state = .parked := by
  unfold Channel.park; rcases h with h | h <;> rw [h]

theorem Channel.regulate_not_parked (ch : Channel) (env : SampleEnv) (g : Bool) (h : ch.state ≠ .parked) :
    (ch.regulate env g).1.state ≠ .parked := by
  unfold Channel.regulate; dsimp only
  split_ifs
  all_goals (try unfold Context.move; dsimp only)
  all_goals (try split_ifs)
  all_goals simp_all

/-- A good sample is one that is not LOS. -/
theorem isGood_iff (smp : Sample) : isGood smp = true ↔ smp.loop ≠ .los := by
  unfold isGood; cases smp.loop <;> simp

/-- Staging a record reads no channel. -/
theorem State.stage_withChans (s : State) (v : Vector Channel 8) (r : Record) :
    ({ s with chans := v } : State).stage r = { s.stage r with chans := v } := by
  unfold State.stage
  have : ({ s with chans := v } : State).silent r = s.silent r := rfl
  rw [this]
  dsimp only
  split_ifs <;> rfl

/-- A record and a flag of one event read no channel. -/
theorem State.stageAndRaise_withChans (s : State) (v : Vector Channel 8) (r : Record) (f : Flag) (a : Addr) :
    ({ s with chans := v } : State).stageAndRaise r f a = { s.stageAndRaise r f a with chans := v } := by
  unfold State.stageAndRaise
  have : ({ s with chans := v } : State).drops r = s.drops r := rfl
  rw [this]
  dsimp only
  split_ifs
  · exact congrArg (State.raise · f a) (State.stage_withChans { s with choices := s.choices + 1 } v r)
  · exact State.stage_withChans (({ s with choices := s.choices + 1 } : State).raise f a) v r
  · exact State.stage_withChans (s.raise f a) v r

/-- The effects of an event read no channel. -/
theorem State.performAll_withChans (es : List Effect) : ∀ (s : State) (v : Vector Channel 8),
    ({ s with chans := v } : State).performAll es = { s.performAll es with chans := v } := by
  induction es with
  | nil => intros; rfl
  | cons e es ih =>
    intro s v
    show (({ s with chans := v } : State).perform e).performAll es = { (s.perform e).performAll es with chans := v }
    rw [← ih]
    congr 1
    cases e with
    | stage r => exact State.stage_withChans s v r
    | news r f a => exact State.stageAndRaise_withChans s v r f a

/-- The mark GIN-limited after steps 2 and 3 of R85 at a good sample (R108). -/
theorem Context.judge_ginLimited (x : Context) (inRamp : Bool) (rise flow : Nat) :
    (x.judge inRamp true rise flow).ginLimited = true ↔ x.ginLimited = true ∨
      (0 < x.take ∧ x.pginNow ≤ x.pmax ∧ x.pginNow < x.currentStep.pressure ∧
        (inRamp = true → x.pginNow ≤ (if inRamp then x.risenCeiling rise else x.ceiling))) := by
  have marks : (x.judge inRamp true rise flow).ginLimited =
      ((x.setpoints inRamp rise).ginLimited || (x.setpoints inRamp rise).ginBegins inRamp) := by
    unfold Context.judge; cases inRamp <;> rfl
  rw [marks]
  show (x.ginLimited || (!x.ginLimited && (decide (0 < x.take) && decide (x.pginNow ≤ x.pmax) &&
    decide (x.pginNow < x.currentStep.pressure) &&
    (!inRamp || decide (x.pginNow ≤ (if inRamp then x.risenCeiling rise else x.ceiling)))))) = true ↔ _
  cases x.ginLimited <;> cases inRamp <;> simp [and_assoc]

end Sys2Proof.Machine
end

