-- ==== Sys2Proof/Tests/Slice0.lean ====
section
/-! SUPPORT. Tests: the well-formedness check on ill-formed commands; the spec's own worked values; and, for each
statement with hypotheses (Sys2Proof/Certificates/Slice0/Obligations.lean), concrete values that meet them, clause by
clause, at the boundaries of their ranges. -/

namespace Sys2Proof.Tests

open Sys2Proof.Machine

/-! ### A small station -/

/-- The fields of the stream of 11.6, without its CRC. -/
def streamFields : List Byte :=
  [3, 0, 3, 0xDF, 0, 0x40, 0, 0x80, 2, 0x36, 0x9C, 0x14, 0x3C, 0x64, 0x05, 0xDC, 0x0B, 0xB8, 0x11, 0x94, 0x17, 0x70,
    2, 0x58, 0, 0, 0, 0, 0, 0]

/-- A stream with its CRC in its last two bytes. -/
def sealedStream (fields : List Byte) : List Byte :=
  let r := crcOf fields
  fields ++ [r.extractLsb' 8 8, r.extractLsb' 0 8]

/-- No attribute. -/
def bare : Attrs := { pin := false, swap := false, barrier := false, wp := false }

/-- The attribute WP alone. -/
def protect : Attrs := { bare with wp := true }

/-- The attribute BARRIER alone. -/
def ordered : Attrs := { bare with barrier := true }

/-- The attribute SWAP alone. -/
def swapped : Attrs := { bare with swap := true }

/-- An unpinned cached entry. -/
def cached (p : PageId) (r : Role) (a : Attrs) : CacheEntry := { page := p, role := r, attrs := a, pinned := false }

/-- A line settled at a level. -/
def settled (level : Bool) : Line := { raw := level, accepted := level, timer := false }

/-- A line whose debounce timer runs toward a level. -/
def turning (level : Bool) : Line := { raw := level, accepted := !level, timer := true }

/-- No stop asserted, every permit present, every gauge at 100 µm. -/
def quietField : Field :=
  { stopA := settled false, stopB := settled false, permits := Vector.replicate 8 (settled true)
    gauges := Vector.replicate 4 { reading := 100, valid := true, sampled := true }, reports := [] }

/-- A RUNNING part under the stream of 11.6, with eleven pages cached and channel 2 behind pages 2, 3, 6 and 10. -/
def base : State :=
  { State.reset with
    field := quietField
    loader :=
      { mode := .running, phase := .notBegun, attempts := 1, resetLine := false, setup := setupOf streamFields }
    map :=
      { MapUnit.reset with
        cache :=
          [cached 0 .status bare, cached 1 .pass bare, cached 2 (.order 2) bare, cached 3 (.snap 2) bare,
            cached 4 .invalid bare, cached 5 .pass swapped, cached 6 (.order 2) protect, cached 7 .status protect,
            cached 8 .pass protect, cached 9 .pass ordered, cached 10 (.order 2) ordered] } }

/-- The address of an offset in a window page, with bit 19 clear. -/
def at_ (page offset : Nat) : Addr := BitVec.ofNat 24 (0x300000 + 4096 * page + offset)

/-- A stage of channel 2 after the worked example of 4.9. -/
def stage : Context :=
  { Context.cleared with
    hole := 214, stageNo := 9, topDepth := 725, length := 50, band := 2, pmax := 4000, gin := 1500, cap := 55000
    qref := 20, tref := 600, rampSlot := 1, gauge := 1, upliftLimit := 200, baseline := 100
    steps := [{ pressure := 1500, hold := 300 }, { pressure := 2500, hold := 300 }, { pressure := 4000, hold := 0 }]
    watches := [{ channel := 4, action := .park, threshold := 300, tripped := false }]
    lastTag := 5 }

/-- Channel 2 in a state with a context. -/
def chan (st : ChState) (x : Context) : Channel := { Channel.reset with state := st, ctx := x }

/-- The small station with channel 2 replaced. -/
def withChan (ch : Channel) : State := { base with chans := base.chans.set 2 ch }

/-- The small station with channel 2 in a state of the stage. -/
def inState (st : ChState) : State := withChan (chan st stage)

/-- A queue entry of plain traffic. -/
def entry (addr : Addr) : QEntry := { addr := addr, data := 0, be := 0xF, origin := .plain }

/-- The small station with n plain writes waiting. -/
def queued (n : Nat) (s : State) : State := { s with queue := List.replicate n (entry 0x100) }

/-- A record that is not a close record, and one that is. -/
def news : Record := plainRecord 7 (.permitChange true)
def closing : Record := stage.ownRecord 2 7 (.stageClosed .operator 0 0 0 0 0 0)

/-- The small station with a staging queue. -/
def staged (rs : List Record) (s : State) : State := { s with ring := { s.ring with staging := rs } }

/-- The small station with an access outstanding. -/
def busy (i : Initiator) (s : State) : State :=
  { s with mem := some { initiator := i, addr := 0x200000, be := 0xF, write := none } }

/-- The state after a command. -/
def after (c : Instr) (s : State) : State :=
  match exec c s with
  | .next t => t
  | _ => s

/-- The states after the commands of a list in turn. -/
def run : State → List Instr → State
  | s, [] => s
  | s, c :: cs => run (after c s) cs

/-- A good sample of a pressure and a count of pulses. -/
def good (p n : Nat) : Sample := { loop := .good p, pulses := n, rampSelect := 0 }

/-! ### Well-formedness: one ill-formed term for each check -/

theorem test_wf_refuses_long_stream : (Instr.setupReadComplete (List.replicate 33 0)).wf = false := by decide
theorem test_wf_refuses_odd_loading_access :
    (Instr.loadingAccess { addr := 1, be := 0xF, write := none }).wf = false := by decide
theorem test_wf_refuses_odd_noEnable : (Instr.noEnableAccess 2 none).wf = false := by decide
theorem test_wf_refuses_bare_accesses :
    ([.plainRead 0 0, .plainWrite 0 0 0, .mapTableRead 0 0, .mapTableWrite 0 0 0, .ringHeaderRead 0 0,
      .producerWordWrite 0 0 0, .consumerWordWrite 4 0 0, .passRead 0 0, .passWrite 0 0 0,
      .invalidPageAccess { addr := 0, be := 0, write := none }, .orderWriteProtected 0 0 0, .snapWrite 0 0 0,
      .statusOtherWrite 0 0 0, .statusPageRead 0 0] : List Instr).all (fun c => !c.wf) = true := by decide
theorem test_wf_refuses_odd_accesses :
    ([.plainRead 1 1, .plainWrite 2 1 0, .mapTableRead 3 1, .mapTableWrite 1 1 0, .ringHeaderRead 1 1,
      .producerWordWrite 1 1 0, .consumerWordWrite 5 1 0, .passRead 1 1, .passWrite 1 1 0, .snapWrite 1 1 0,
      .statusOtherWrite 1 1 0, .statusPageRead 1 1] : List Instr).all (fun c => !c.wf) = true := by decide
theorem test_wf_refuses_wrong_offsets :
    ([.orderMemoryRead 4 1, .orderAreaWrite 4 1 0, .orderAreaWrite 0x50 1 0, .programAreaWrite 0x4C 1 0,
      .resultWordWrite 8 1 0, .orderWordWidth 4 1 0, .snapWordRead 0x2C 1, .snapWordRead 0xFFC 1,
      .snapEndWordRead 0x28 1, .snapFlushRead 0xFF8 1, .governorStatusWrite 4 1 0, .restart 0,
      .eventFilterMaskWrite 8 1 0, .stopMaskWrite 0xC 1 0, .rampOptionTableWrite 0x10 1 0,
      .resultWordRead 0 1] : List Instr).all (fun c => !c.wf) = true := by decide
theorem test_wf_refuses_order_words_elsewhere :
    ([.orderWordUnknown 4 0 0 0, .load 4 0 0, .start 4 0 0, .retarget 4 0 0, .extend 4 0 0, .park 4 0 0, .resume 4 0 0,
      .close 4 0 0, .release 4 0 0] : List Instr).all (fun c => !c.wf) = true := by decide
theorem test_wf_refuses_width_with_four_enables : (Instr.orderWordWidth 0 0xF 0).wf = false := by decide
theorem test_wf_refuses_unknown_of_a_known_code :
    (Instr.orderWordUnknown 0 1 0 0).wf = false ∧ (Instr.orderWordUnknown 0 8 0 0).wf = false ∧
      (Instr.orderWordUnknown 0 9 0 0).wf = true := by decide
theorem test_wf_refuses_report_to_itself : (Instr.neighbourReport 3 3).wf = false := by decide

/-! ### Worked values of the spec -/

theorem test_crc_check_value : crcOf [0x31, 0x32, 0x33, 0x34, 0x35, 0x36, 0x37, 0x38, 0x39] = 0x29B1 := by
  decide +kernel
theorem test_order_word_value : orderValue 3 7 4000 = 0x0FA00703 := by decide
theorem test_order_word_little_endian_lanes :
    (inOrder false (orderValue 3 7 4000)).extractLsb' 0 8 = 0x03 ∧
      (inOrder false (orderValue 3 7 4000)).extractLsb' 24 8 = 0x0F := by decide
theorem test_stream_of_the_station :
    let u := setupOf streamFields
    u.windowBase = 3 ∧ u.mapBase = 0x010000 ∧ u.ringBase = 0x020000 ∧ u.ringSlots = 256 ∧ u.autoPark = 0xDF ∧
      u.siteCap = 600 ∧ u.rampSlots = 0xC963 ∧ u.ringLast = 0x02201F := by decide
theorem test_stream_passes : streamOk (sealedStream streamFields) = true := by decide +kernel
theorem test_stream_with_ring_in_window_fails :
    streamOk (sealedStream (streamFields.set 6 0x0C)) = false := by decide +kernel
theorem test_depth_band : (setupOf streamFields).bandOf 725 = 2 := by decide

/-! ### From reset -/

theorem test_reset_idles : step State.reset = .next State.reset := rfl
theorem test_step_runs_the_front :
    step { base with pending := [.governorClockTick, .arbiterGrant] } =
      exec .governorClockTick { base with pending := [.arbiterGrant] } := rfl
theorem test_station_starts :
    let s := run State.reset [.resetRelease, .setupReadComplete (sealedStream streamFields)]
    s.loader.mode = .running ∧ s.ring.rewritePending = true ∧ s.status.rampTable = 0xC963 := by decide +kernel

/-! ### Values that meet the hypotheses of the statements -/

theorem test_meets_StepRunsTheFrontCommand : base.pending = [] := by decide

theorem test_meets_SetupLoaderAndClock :
    State.reset.loader.resetLine = true ∧
    (let s := run State.reset [.resetRelease]
     s.loader.mode = .loading ∧ s.loader.phase = .reading ∧ s.loader.attempts < 3) ∧
    (let s := run State.reset [.resetRelease, .setupReadNoAck]
     s.loader.mode = .loading ∧ s.loader.phase = .waiting) ∧
    (let s := run State.reset
      [.resetRelease, .setupReadNoAck, .setupRetryWaitExpiry, .setupReadNoAck, .setupRetryWaitExpiry]
     s.loader.mode = .loading ∧ s.loader.phase = .reading ∧ 3 ≤ s.loader.attempts) ∧
    streamOk ((sealedStream streamFields ++ List.replicate 32 0xFF#8).take 32) = true ∧
    streamOk (([3, 0] ++ List.replicate 32 0xFF#8).take 32) = false ∧
    base.loader.mode = .running ∧ State.reset.loader.mode ≠ .running := by decide +kernel

/-- The classes at their edges: the last byte below the window and the first in it, the map table's last word and the one
after it, the two words of the ring header and the one after them. -/
theorem test_meets_AddressesAndLanes :
    let u := base.loader.setup
    u.classify 0x2FFFFC = .plain ∧ u.classify 0x300000 = .window ∧ u.classify 0x3FFFFC = .window ∧
    u.classify 0x400000 = .plain ∧ u.classify 0x00FFFC = .plain ∧ u.classify 0x010000 = .mapTable ∧
    u.classify 0x0103FC = .mapTable ∧ u.classify 0x010400 = .plain ∧ u.classify 0x01FFFC = .plain ∧
    u.classify 0x020000 = .ringHeader ∧ u.classify 0x020004 = .ringHeader ∧ u.classify 0x020008 = .plain ∧
    freshOf 0x380000 = true ∧ freshOf 0x37FFFC = false ∧ windowMemAddr 0x3FFFFC = 0x37FFFC ∧ pageOf 0x37FFFC = 127 := by
  decide

theorem test_meets_FlagsAndRecords :
    base.loader.mode = .running ∧ State.reset.loader.mode ≠ .running ∧
    (let s := { base with status := { base.status with filterMask := 0x8002 } }
     let r := plainRecord 7 .orderReleased
     let r' := plainRecord 7 (.memoryError 0 none)
     r.payload.maskable = true ∧ s.status.filterMask.getLsbD (r.payload.kind.toNat - 1) = true ∧
       r'.payload.maskable = true ∧ s.status.filterMask.getLsbD (r'.payload.kind.toNat - 1) = true) ∧
    news.payload.maskable = true ∧ base.status.filterMask.getLsbD (news.payload.kind.toNat - 1) = false ∧
    (staged (List.replicate 7 news) base).ring.staging.length < 8 ∧
    8 ≤ (staged (List.replicate 8 news) base).ring.staging.length ∧ closing.isClose = true ∧ news.isClose = false ∧
    closing.payload.maskable = false := by decide

theorem test_meets_AccessesAnsweredAtOnce :
    State.reset.port.held = none ∧ State.reset.loader.mode = .loading ∧
    accessOf (.plainRead 0 0xF) = some { addr := 0, be := 0xF, write := none } ∧
    base.port.held = none ∧ base.loader.mode ≠ .loading ∧
    accessOf (.passRead (at_ 1 0) 0) = some { addr := at_ 1 0, be := 0, write := none } := by decide

theorem test_meets_ReadsHeldForMemory :
    base.reachesPlain 0 ∧ base.reachesPlain 0xFFFFFC ∧ base.reachesPlain 0x010400 ∧
    base.reaches 0x010000 .mapTable ∧ base.reaches 0x0103FC .mapTable ∧
    base.reaches 0x020000 .ringHeader ∧ base.reaches 0x020004 .ringHeader ∧
    base.hits (at_ 1 0xFFC) (cached 1 .pass bare) ∧ base.hits (at_ 5 0) (cached 5 .pass swapped) ∧
    base.hits (at_ 2 0) (cached 2 (.order 2) bare) ∧ offsetOf (at_ 2 0) ≠ 4 ∧
    base.hits (at_ 2 8) (cached 2 (.order 2) bare) ∧ offsetOf (at_ 2 8) ≠ 4 := by
  unfold State.reachesPlain State.reaches State.hits State.ready; decide

theorem test_meets_PlainWrites :
    (queued 7 base).reachesPlain 0x100 ∧ (queued 8 base).reachesPlain 0x100 ∧ 8 ≤ (queued 8 base).queue.length ∧
    (queued 7 base).queue.length < 8 ∧
    ({ State.reset with loader := { Loader.reset with mode := .safePass } } : State).reachesPlain 0x300000 := by
  unfold State.reachesPlain; decide

theorem test_meets_MapTableWrites :
    (queued 7 base).reaches 0x010018 .mapTable ∧ (queued 7 base).queue.length < 8 ∧
    (queued 8 base).reaches 0x010018 .mapTable ∧ 8 ≤ (queued 8 base).queue.length := by
  unfold State.reaches State.ready; decide

theorem test_meets_RingHeaderWrites :
    let p := base.loader.setup.ringBase
    base.reaches p .ringHeader ∧ base.reaches (p + 4) .ringHeader ∧
    (inOrder base.loader.setup.bigEndian 255).toNat < 64 * 2 ^ base.loader.setup.ringCode.toNat ∧
    64 * 2 ^ base.loader.setup.ringCode.toNat ≤ (inOrder base.loader.setup.bigEndian 256).toNat ∧
    (queued 7 base).reaches (p + 4) .ringHeader ∧ (queued 8 base).reaches (p + 4) .ringHeader ∧
    (queued 7 base).queue.length < 8 ∧ 8 ≤ (queued 8 base).queue.length := by
  unfold State.reaches State.ready; decide

theorem test_meets_PassWrites :
    (queued 8 base).hits (at_ 8 0) (cached 8 .pass protect) ∧ (queued 1 base).hits (at_ 9 0) (cached 9 .pass ordered) ∧
    (queued 8 base).hits (at_ 1 0) (cached 1 .pass bare) ∧ (queued 7 base).hits (at_ 5 0) (cached 5 .pass swapped) := by
  unfold State.hits State.ready; decide

theorem test_meets_InvalidPagesAndMisses :
    base.hits (at_ 4 0) (cached 4 .invalid bare) ∧ (cached 4 .invalid bare).role = .invalid ∧
    base.misses (at_ 127 0xFFC) ∧ base.misses (at_ 11 0) ∧
    accessOf (.passRead (at_ 11 0) 0xF) = some { addr := at_ 11 0, be := 0xF, write := none } ∧
    ({ base with map := { base.map with failed := some 11 } } : State).misses (at_ 11 0) := by
  unfold State.hits State.misses State.ready; decide

theorem test_meets_ResultWordReads :
    base.hits (at_ 2 4) (cached 2 (.order 2) bare) ∧ offsetOf (at_ 2 4) = 4 := by
  unfold State.hits State.ready; decide

theorem test_meets_OrderWritesTurnedAway :
    (queued 0 base).hits (at_ 6 0) (cached 6 (.order 2) protect) ∧ protect.wp = true ∧
    (queued 8 base).hits (at_ 2 8) (cached 2 (.order 2) bare) ∧ 8 ≤ (queued 8 base).queue.length ∧
    (queued 1 base).hits (at_ 10 0x50) (cached 10 (.order 2) ordered) ∧ (queued 1 base).queue ≠ [] := by
  unfold State.hits State.ready; decide

theorem test_meets_OrderPageWrites :
    (queued 7 base).acceptsOrder (at_ 2 8) (cached 2 (.order 2) bare) 2 ∧ offsetOf (at_ 2 8) = 8 + 4 * 0 ∧
    (queued 7 base).acceptsOrder (at_ 2 0x4C) (cached 2 (.order 2) bare) 2 ∧ offsetOf (at_ 2 0x4C) = 8 + 4 * 17 ∧
    base.acceptsOrder (at_ 10 0x50) (cached 10 (.order 2) ordered) 2 ∧ 0x50 ≤ offsetOf (at_ 10 0x50) := by
  unfold State.acceptsOrder State.hits State.ready; decide

theorem test_meets_ResultWordWrites :
    base.acceptsOrder (at_ 2 4) (cached 2 (.order 2) bare) 2 ∧ offsetOf (at_ 2 4) = 4 := by
  unfold State.acceptsOrder State.hits State.ready; decide

theorem test_meets_OrderWordsOfNoCommand :
    base.acceptsWord (at_ 2 0) (cached 2 (.order 2) bare) 2 ∧ (7#4 : Lanes) ≠ 0 ∧ (7#4 : Lanes) ≠ 0xF ∧
    8 < (9#8 : Byte).toNat := by
  unfold State.acceptsWord State.acceptsOrder State.hits State.ready; decide

theorem test_meets_CommandsRefusedByState :
    (inState .armed).acceptsWord (at_ 2 0) (cached 2 (.order 2) bare) 2 ∧
    (inState .armed).chans[(2 : ChanId)].state = .armed ∧
    Command.refusedIn .load .armed = some .busy ∧ Command.refusedIn .start .vacant = some .state ∧
    Command.refusedIn .retarget .armed = some .state ∧ 4000 ≤ stage.pmax ∧
    Command.refusedIn .retarget .vacant = some .state ∧ Command.refusedIn .extend .closed = some .state ∧
    Command.refusedIn .park .armed = some .state ∧ Command.refusedIn .resume .hold = some .state ∧
    Command.refusedIn .close .closing = some .busy ∧ Command.refusedIn .release .closing = some .busy := by
  unfold State.acceptsWord State.acceptsOrder State.hits State.ready; decide

/-- The staged image of 4.9 as it passes at the third LOAD, and the one with Pmax 5000. -/
def image (pmax : Nat) : Vector Word 18 :=
  let w (low high : Nat) : Word := BitVec.ofNat 32 (low + high * 65536)
  #v[w 214 265, w 725 50, w pmax 1500, w 40000 0, w 20 600, w 200 769, w 1500 300, w 2500 300, w 4000 0, 0, 0, 0, w 1 0,
    w 300 516, 0, 0, 0, 0]

/-- Channel 2 VACANT with an image. -/
def imaged (pmax : Nat) : State := withChan { Channel.reset with image := image pmax }

/-- The order-word offset of page 2, which is accepted whatever channel 2, the field and the staging queue hold. -/
theorem takesWord (ch : Channel) (f : Field) (rs : List Record) :
    State.acceptsWord { staged rs (withChan ch) with field := f } (at_ 2 0) (cached 2 (.order 2) bare) 2 :=
  have window : base.loader.setup.inWindow (at_ 2 0) = true := by decide
  have entry : base.map.entry? (pageOf (at_ 2 0)) = some (cached 2 (.order 2) bare) := by decide
  have room : base.queue.length < 8 := by decide
  ⟨⟨⟨⟨rfl, rfl⟩, by decide, window, entry⟩, rfl, rfl, room, fun _ => rfl⟩, by decide⟩

/-- An order word of page 2 is accepted. -/
def Word2 (s : State) : Prop := s.acceptsWord (at_ 2 0) (cached 2 (.order 2) bare) 2

theorem test_meets_LoadInVacant :
    let order (s : State) := stageOrderOf (s.pageOrder bare.swap) s.chans[(2 : ChanId)].image
    (imaged 4000).acceptsWord (at_ 2 0) (cached 2 (.order 2) bare) 2 ∧
    (imaged 4000).chans[(2 : ChanId)].state = .vacant ∧
    (order (imaged 4000)).firstFailure 2 base.loader.setup = none ∧
    (imaged 5000).acceptsWord (at_ 2 0) (cached 2 (.order 2) bare) 2 ∧
    (order (imaged 5000)).firstFailure 2 base.loader.setup = some .pmaxCeiling ∧
    (order (imaged 3999)).firstFailure 2 base.loader.setup = some .stepOverPmax := by
  unfold State.acceptsWord State.acceptsOrder State.hits State.ready; decide

/-- Channel 2 ARMED after a good sample, and under field values of a choice. -/
def armed (f : Field) (r : Readings) : State :=
  { withChan { chan .armed stage with readings := r } with field := f }

/-- Readings after one good sample. -/
def heard : Readings := { Readings.reset with measured := 120, sampled := true }

theorem test_meets_StartInArmed :
    let stop := { quietField with stopA := settled true }
    let none := { quietField with permits := Vector.replicate 8 (settled false) }
    let mute := { quietField with gauges := Vector.replicate 4 { reading := 100, valid := false, sampled := true } }
    (∀ f r, Word2 (armed f r)) ∧ (armed quietField heard).chans[(2 : ChanId)].state = .armed ∧
    (none.permits[(2 : ChanId)]).accepted = false ∧ (stop.permits[(2 : ChanId)]).accepted = true ∧
    stop.stopA.accepted = true ∧ base.status.maskA.getLsbD 2 = false ∧ quietField.stopB.accepted = false ∧
    quietField.stopA.accepted = false ∧ Readings.reset.sampled = false ∧ heard.los = false ∧ heard.sampled = true ∧
    (mute.gauges[(1 : GaugeId)]).valid = false ∧ (quietField.gauges[(1 : GaugeId)]).valid = true ∧ stage.gauge = 1 :=
  ⟨fun f _ => takesWord _ f [], by decide⟩

theorem test_meets_RetargetOfALoadedStage :
    (∀ st rs, Word2 (staged rs (inState st))) ∧ (inState .ramp).chans[(2 : ChanId)].state = .ramp ∧
    (inState .hold).chans[(2 : ChanId)].state = .hold ∧ (inState .closing).chans[(2 : ChanId)].state = .closing ∧
    ¬stage.pmax < (4000#16 : Half).toNat ∧ stage.pmax < (4001#16 : Half).toNat ∧
    stage.setpoint + 20 < min (21#16 : Half).toNat stage.pmax ∧
    (staged (List.replicate 7 news) (inState .armed)).ring.staging.length < 8 :=
  ⟨fun _ rs => takesWord _ quietField rs, by decide⟩

theorem test_meets_ExtendOfALoadedStage :
    (∀ st, Word2 (inState st)) ∧ (inState .ramp).chans[(2 : ChanId)].state = .ramp ∧
    (inState .armed).chans[(2 : ChanId)].state = .armed ∧
    stage.cap + (500#16 : Half).toNat * 10 ≤ base.loader.setup.siteCap.toNat * 100 ∧
    base.loader.setup.siteCap.toNat * 100 < stage.cap + (501#16 : Half).toNat * 10 :=
  ⟨fun _ => takesWord _ quietField [], by decide⟩

/-- Channel 2 PARKED with a cause set. -/
def parkedWith (set : Byte) : State := withChan (chan .parked { stage with parkSet := set, causesSeen := set })

theorem test_meets_ParkCommands :
    (∀ st, Word2 (inState st)) ∧ (∀ set, Word2 (parkedWith set)) ∧
    (parkedWith 0x01).chans[(2 : ChanId)].state = .parked ∧ (inState .hold).chans[(2 : ChanId)].state = .hold ∧
    (parkedWith 0x01).chans[(2 : ChanId)].ctx.parkSet.getLsbD 7 = false ∧
    (parkedWith 0x80).chans[(2 : ChanId)].ctx.parkSet.getLsbD 7 = true ∧
    (inState .closed).chans[(2 : ChanId)].state = .closed :=
  ⟨fun _ => takesWord _ quietField [], fun _ => takesWord _ quietField [], by decide⟩

/-- With the operator's cause alone nothing persists; under an asserted stop line the set keeps a cause and takes
one. -/
theorem test_meets_ResumeInParked :
    let stop := { quietField with stopA := settled true }
    (∀ set f, Word2 { parkedWith set with field := f }) ∧ (parkedWith 0x80).chans[(2 : ChanId)].state = .parked ∧
    (parkedWith 0x80).chans[(2 : ChanId)].ctx.parkSet.getLsbD 4 = false ∧
    (parkedWith 0x80).chans[(2 : ChanId)].readings.los = false ∧
    quietField.stopA.accepted = false ∧ quietField.stopB.accepted = false ∧
    quietField.permits[(2 : ChanId)].accepted = true ∧
    stop.stopA.accepted = true ∧ base.status.maskA.getLsbD 2 = false :=
  ⟨fun _ f => takesWord _ f [], by decide⟩

theorem test_meets_CloseCommands : ∀ st, Word2 (inState st) ∧ (inState st).chans[(2 : ChanId)].state = st :=
  fun _ => ⟨takesWord _ quietField [], rfl⟩

theorem test_meets_ReleaseCommands : ∀ st, Word2 (inState st) ∧ (inState st).chans[(2 : ChanId)].state = st :=
  fun _ => ⟨takesWord _ quietField [], rfl⟩

theorem test_meets_ParkCauses :
    (chan .ramp stage).state = .ramp ∧ (chan .hold stage).state = .hold ∧ (chan .parked stage).state = .parked ∧
    ({ stage with parkSet := 0x01 } : Context).parkSet &&& Cause.stopB.mark = 0 ∧
    ({ stage with parkSet := 0x01 } : Context).parkSet &&& Cause.stopA.mark ≠ 0 ∧
    (chan .closing stage).state ≠ .parked := by decide

/-- The shape of a pool, read off its data. -/
theorem poolOk {p : Pool}
    (keys : ∀ i j : Fin 6, p.bufs[i].key? ≠ none → p.bufs[i].key? = p.bufs[j].key? → i = j)
    (order : p.fillOrder.Nodup) (filled : ∀ i : Fin 6, i ∈ p.fillOrder ↔ p.bufs[i].isFilled = true)
    (armed : ∀ i : Fin 6, (match p.bufs[i] with | .armed k => k.fresh | _ => true) = true) : PoolOk p :=
  ⟨keys, order, filled, fun i k h => by have := armed i; rw [h] at this; exact this⟩

/-- A key of a channel. -/
def key (c : ChanId) (fresh : Bool) : BufKey := { channel := c, fresh := fresh }

/-- A snapshot of zeros. -/
def blank : Vector Word 12 := Vector.replicate 12 0

/-- Channel 2 has a FILLED and an ARMED buffer. -/
def mixed : Pool :=
  { bufs := #v[.filled (key 2 false) false blank, .free, .armed (key 2 true), .free, .free, .free], fillOrder := [0] }

/-- Six ARMED buffers, none for channel 2. -/
def allArmed : Pool :=
  { bufs := #v[.armed (key 0 true), .armed (key 1 true), .armed (key 3 true), .armed (key 4 true), .armed (key 5 true),
      .armed (key 6 true)]
    fillOrder := [] }

/-- Six FILLED buffers, none for channel 2. -/
def allFilled : Pool :=
  { bufs := #v[.filled (key 0 true) false blank, .filled (key 1 true) false blank, .filled (key 3 false) true blank,
      .filled (key 4 false) false blank, .filled (key 5 true) false blank, .filled (key 6 true) false blank]
    fillOrder := [3, 0, 1, 2, 5, 4] }

/-- The small station with a pool. -/
def pooled (p : Pool) : State := { base with pool := p }

theorem mixed_ok : PoolOk mixed := poolOk (by decide) (by decide) (by decide) (by decide)
theorem allArmed_ok : PoolOk allArmed := poolOk (by decide) (by decide) (by decide) (by decide)
theorem allFilled_ok : PoolOk allFilled := poolOk (by decide) (by decide) (by decide) (by decide)

/-- The address of an offset in page 3 through its fresh alias. -/
def fresh (offset : Nat) : Addr := at_ 3 offset ||| 0x80000

theorem test_meets_SnapReadsOfAHeldKey :
    let hit (a : Addr) := (pooled mixed).hits a (cached 3 (.snap 2) bare)
    hit (at_ 3 0) ∧ hit (at_ 3 0x28) ∧ hit (at_ 3 0x2C) ∧ hit (fresh 0x2C) ∧ hit (at_ 3 0x30) ∧ hit (fresh 0xFF8) ∧
    (at_ 3 0).getLsbD 19 = false ∧ (fresh 0x2C).getLsbD 19 = true ∧
    (pooled mixed).pool.bufs[(0 : Fin 6)] = .filled (key 2 false) false blank ∧
    (pooled mixed).pool.bufs[(2 : Fin 6)] = .armed (key 2 true) ∧ offsetOf (at_ 3 0x28) = 4 * 10 ∧
    offsetOf (fresh 0x2C) = 0x2C := by
  unfold State.hits State.ready; decide

theorem test_meets_SnapReadsThatObtain :
    let hit (p : Pool) (a : Addr) := (pooled p).hits a (cached 3 (.snap 2) bare)
    let unheld (p : Pool) (f : Bool) := ∀ i : Fin 6, (pooled p).pool.bufs[i].key? ≠ some (key 2 f)
    hit allArmed (at_ 3 0) ∧ unheld allArmed false ∧
    hit allFilled (at_ 3 0x28) ∧ unheld allFilled false ∧ hit allFilled (at_ 3 0x2C) ∧
    hit allFilled (fresh 0x2C) ∧ unheld allFilled true ∧ (pooled allFilled).pool.bufs[(0 : Fin 6)].isFilled = true ∧
    hit Pool.empty (at_ 3 0) ∧ unheld Pool.empty false ∧ offsetOf (at_ 3 0x28) = 4 * 10 := by
  unfold State.hits State.ready; decide

theorem test_meets_SnapFlush :
    (pooled mixed).hits (at_ 3 0xFFC) (cached 3 (.snap 2) bare) ∧
    (pooled mixed).hits (fresh 0xFFC) (cached 3 (.snap 2) bare) ∧ offsetOf (fresh 0xFFC) = 0xFFC := by
  unfold State.hits State.ready; decide

theorem test_meets_BufferTimers :
    mixed.bufs[(2 : Fin 6)] = .armed (key 2 true) ∧ (∀ i : Fin 6, mixed.bufs[i] ≠ .armed (key 3 true)) ∧
    mixed.bufs[(0 : Fin 6)] = .filled (key 2 false) false blank ∧
    (∀ i : Fin 6, mixed.bufs[i].key? ≠ some (key 3 true)) := by decide

theorem test_meets_WritesThePartOwns :
    base.hits (at_ 3 0xFFC) (cached 3 (.snap 2) bare) ∧ base.hits (at_ 7 0) (cached 7 .status protect) ∧
    base.hits (at_ 0 4) (cached 0 .status bare) ∧ offsetOf (at_ 0 4) = 4 ∧
    base.hits (at_ 0 0x18) (cached 0 .status bare) ∧ offsetOf (at_ 0 0x18) = 0x18 ∧
    base.hits (at_ 0 8) (cached 0 .status bare) ∧ offsetOf (at_ 0 8) = 8 ∧
    inOrder (base.pageOrder bare.swap) 0xC3A50F79 ≠ 0xC3A50F78 := by
  unfold State.hits State.ready; decide

theorem test_meets_StatusPages :
    base.hits (at_ 0 0) (cached 0 .status bare) ∧ offsetOf (at_ 0 0) = 0 ∧
    base.hits (at_ 0 8) (cached 0 .status bare) ∧ offsetOf (at_ 0 8) = 8 ∧
    base.hits (at_ 0 0xC) (cached 0 .status bare) ∧ offsetOf (at_ 0 0xC) = 0xC ∧
    base.hits (at_ 0 0x10) (cached 0 .status bare) ∧ offsetOf (at_ 0 0x10) = 0x10 ∧
    base.hits (at_ 0 0x14) (cached 0 .status bare) ∧ offsetOf (at_ 0 0x14) = 0x14 ∧
    base.hits (at_ 0 0x50) (cached 0 .status bare) ∧ offsetOf (at_ 0 0x50) = 0x50 := by
  unfold State.hits State.ready; decide

/-! ### Commands on the small station -/

/-- Channel 2 of a state. -/
def two (s : State) : Channel := s.chans[(2 : ChanId)]

theorem test_map_entry_of_12_2 :
    resolveRole 0x00090402 = .order 4 ∧ resolveAttrs 0x00090402 = { pin := true, swap := false, barrier := false, wp := true } := by
  decide
theorem test_load_over_the_band_ceiling :
    (two (after (.load (at_ 2 0) 1 0) (imaged 5000))).result =
      { code := 1, tag := 1, outcome := .refused, reason := .pmaxCeiling } := by decide
theorem test_load_accepted :
    let t := after (.load (at_ 2 0) 3 0) (imaged 4000)
    (two t).state = .armed ∧ (two t).ctx.cap = 40000 ∧ (two t).ctx.band = 2 ∧ (two t).ctx.lastTag = 3 := by decide
theorem test_start_takes_baseline_and_ceiling :
    let t := after (.start (at_ 2 0) 5 0) (armed quietField heard)
    (two t).state = .ramp ∧ (two t).ctx.baseline = 100 ∧ (two t).ctx.ceiling = 120 ∧ t.ring.staging.length = 1 := by decide
theorem test_extend_in_litres :
    (two (after (.extend (at_ 2 0) 8 500) (inState .ramp))).ctx.cap = 60000 := by decide
theorem test_extend_over_the_ceiling_is_kept_out :
    let t := after (.extend (at_ 2 0) 6 800) (inState .ramp)
    (two t).result.reason = .capCeiling ∧ t.queue = [] ∧ t.status.faultAddr = 0x302000 ∧
      t.status.flags.getLsbD Flag.refuse.index = true := by decide
theorem test_retarget_is_clamped_in_memory :
    (after (.retarget (at_ 2 0) 7 4500) (inState .ramp)).queue =
      [{ addr := 0x302000, data := 0x0FA00703, be := 0xF, origin := .order 2 }] := by decide
theorem test_park_stops_the_pump :
    let t := after (.park (at_ 2 0) 9 0) (inState .hold)
    (two t).state = .parked ∧ (two t).ctx.parkSet = 0x80 := by decide
theorem test_resume_of_the_operators_park :
    (two (after (.resume (at_ 2 0) 10 0) (parkedWith 0x80))).state = .ramp := by decide
theorem test_close_offers_its_record :
    let t := after (.close (at_ 2 0) 11 0) (inState .ramp)
    (two t).state = .closing ∧ t.ring.staging.map (·.isClose) = [true] := by decide
theorem test_release_of_a_closed_stage :
    let t := after (.release (at_ 2 0) 12 0) (inState .closed)
    (two t).state = .vacant ∧ (two t).ctx = Context.cleared ∧ t.ring.staging = [] := by decide
theorem test_width_is_kept_out :
    let t := after (.orderWordWidth (at_ 2 0) 0x3 0x0FA00703) (inState .ramp)
    (two t).result.reason = .width ∧ (two t).result.code = 0 ∧ t.queue = [] := by decide
theorem test_image_takes_enabled_lanes :
    (two (after (.orderAreaWrite (at_ 2 8) 0x5 0xAABBCCDD) base)).image[(0 : Fin 18)] = 0x00BB00DD := by decide
theorem test_pass_write_through_swap :
    (after (.passWrite (at_ 5 0) 0x1 0x00000011) base).queue =
      [{ addr := 0x305000, data := 0x11000000, be := 0x8, origin := .pass }] := by decide
theorem test_drain_error_latches :
    let t := after .drainError (busy .drain (queued 1 base))
    t.queue = [] ∧ t.status.faultAddr = 0x100 ∧ t.ring.staging.length = 1 ∧ t.mem = none := by decide
theorem test_published_close_record_closes :
    let t := after .producerWriteComplete (busy (.ring (.producerWord 0) false) (staged [closing] (inState .closing)))
    (two t).state = .closed ∧ t.ring.sequence = 1 ∧ t.ring.staging = [] := by decide
theorem test_restart_vacates :
    let t := after (.restart (at_ 0 8)) (inState .closing)
    (two t).state = .vacant ∧ t.map.cache = [] ∧ t.ring.rewritePending = true := by decide

/-! ### The memory port -/

/-- The small station with a fetch in a phase. -/
def fetching (ph : FetchPhase) (stale : Bool) (s : State) : State :=
  { s with map := { s.map with fetcher := { phase := ph, page := 11, stale := stale, word0 := 0x00010001 } } }

/-- The small station with a read held. -/
def holding (s : State) : State :=
  { s with port := { held := some { addr := 0x100, be := 0x3, reversed := false }, answer := none } }

/-- The small station with a publish at its next access. -/
def publishing (n : Nat) (s : State) : State := { staged [news] s with ring := { (staged [news] s).ring with next := n } }

/-- Whom the arbiter grants. -/
def granted (s : State) : Option Initiator := (after .arbiterGrant s).mem.map (·.initiator)

theorem test_meets_ArbiterGrants :
    (busy .drain base).mem ≠ none ∧ granted (fetching .first false (queued 8 base)) = some .fetch ∧
    granted (queued 6 (holding base)) = some .drain ∧ granted (queued 1 base) = some .drain ∧
    granted (queued 5 (holding base)) = some .heldRead ∧
    granted { base with ring := { base.ring with rewritePending := true } } = some (.ring .rewrite false) ∧
    granted (publishing 0 base) = some (.ring (.slotWord 0) false) ∧
    granted (publishing 7 base) = some (.ring (.slotWord 7) false) ∧
    granted (publishing 8 base) = some (.ring (.producerWord 0) false) ∧
    granted (staged (List.replicate 4 news) (queued 8 base)) = some (.ring (.slotWord 0) false) ∧
    granted (staged (List.replicate 3 news) (queued 1 base)) = some .drain ∧ granted base = none := by decide

theorem test_meets_Outputs :
    (let s := publishing 8 base
     s.mem = none ∧ s.attention = false ∧ (after .arbiterGrant s).attention = true ∧
     (after .arbiterGrant s).initiator? = some (.ring (.producerWord 0) false)) ∧
    base.hits (at_ 0 8) (cached 0 .status bare) ∧ offsetOf (at_ 0 8) = 8 ∧ bare.wp = false ∧
    (after (.restart (at_ 0 8)) { base with status := { base.status with trap := true } }).attention = true ∧
    (chan .hold { stage with demand := 63 }).strokeDemand = 63 ∧ (chan .closed stage).valveShut = true := by
  unfold State.hits State.ready; decide

theorem test_meets_HeldReadsAndDrainsEnd :
    (busy .heldRead (holding base)).initiator? = some .heldRead ∧
    (holding base).port.held = some { addr := 0x100, be := 0x3, reversed := false } ∧
    (busy .drain (queued 1 base)).initiator? = some .drain ∧ (queued 1 base).queue = [entry 0x100] := by decide

theorem test_meets_FetchesEnd :
    let s (ph : FetchPhase) (stale : Bool) := busy .fetch (fetching ph stale base)
    (s .first false).initiator? = some .fetch ∧ (s .first false).map.fetcher.phase = .first ∧
    (s .second false).map.fetcher.phase = .second ∧ (s .second false).map.fetcher.stale = false ∧
    (s .first true).initiator? = some .fetch ∧ (s .first true).map.fetcher.stale = true := by decide

theorem test_meets_RingAccessesEnd :
    let s (a : RingAccess) (b : Bool) := busy (.ring a b) (staged [closing] (inState .closing))
    ((s (.slotWord 7) false).mem.map (·.initiator)) = some (.ring (.slotWord 7) false) ∧
    ((s (.producerWord 0) false).mem.map (·.initiator)) = some (.ring (.producerWord 0) false) ∧
    (s (.producerWord 0) false).ring.staging = [closing] ∧ closing.isClose = true ∧ closing.channel = some 2 ∧
    (s (.producerWord 0) false).chans[(2 : ChanId)].state = .closing ∧ news.isClose = false ∧
    ((s .rewrite false).mem.map (·.initiator)) = some (.ring .rewrite false) ∧
    ((s .rewrite true).mem.map (·.initiator)) = some (.ring .rewrite true) := by decide

/-! ### Samples, reports, gauges and lines -/

/-- Channel 2 after a sample. -/
def sampled (smp : Sample) (ch : Channel) : Channel := (after (.sampleArrival 2 smp) (withChan ch)).chans[(2 : ChanId)]

/-- A LOS sample. -/
def lost : Sample := { loop := .los, pulses := 0, rampSelect := 0 }

theorem test_meets_ReadingsAtASample :
    State.reset.loader.mode ≠ .running ∧ base.loader.mode = .running ∧
    (sampled (good 8001 3) (chan .vacant Context.cleared)).readings.measured = 8000 ∧
    (sampled (good 100 3) (chan .closing stage)).ctx.take = 3 ∧ (sampled lost (chan .armed stage)).readings.losCount = 1 ∧
    (sampled (good 100 3) (chan .closed stage)).ctx = stage := by decide +kernel

/-- The kinds of the records that a sample of channel 2 stages. -/
def told (smp : Sample) (ch : Channel) : List Nat :=
  (after (.sampleArrival 2 smp) (withChan ch)).ring.staging.map (·.payload.kind.toNat)

/-- Each record of a sample alone, and the two flags with the field address of channel 2. -/
theorem test_meets_HandedOnAtASample :
    base.loader.mode = .running ∧ (pooled mixed).pool.bufs[(2 : Fin 6)] = .armed (key 2 true) ∧
    (∀ i : Fin 6, base.pool.bufs[i] ≠ .armed (key 2 true)) ∧ told (good 100 0) (chan .ramp stage) = [] ∧
    told lost (chan .armed stage) = [10] ∧
    told (good 100 0) { chan .vacant Context.cleared with readings := { Readings.reset with los := true } } = [11] ∧
    told (good 4001 0) (chan .hold stage) = [9] ∧
    told (good 100 0) (chan .hold { stage with take := 10000 }) = [5] ∧
    told (good 100 1) (chan .hold { stage with take := 54999, ginLimited := true }) = [14] ∧
    told (good 4001 0) (chan .hold { stage with overRun := 2 }) = [6] ∧
    told lost (chan .parked { stage with parkSet := 0x80 }) = [10, 6] ∧
    told lost (chan .parked { stage with parkSet := 0x08 }) = [10] ∧
    told (good 1480 0) (chan .ramp stage) = [4] ∧ told (good 1480 0) (chan .ramp { stage with stepTime := 3000 }) = [4] ∧
    (let u := (after (.sampleArrival 2 (good 4001 0)) (inState .hold)).status
     u.flags.getLsbD Flag.overPress.index = true ∧ u.faultAddr = 0xFFFF09) ∧
    (let u := (after (.sampleArrival 2 lost) (inState .closed)).status
     u.flags.getLsbD Flag.los.index = true ∧ u.faultAddr = 0xFFFF09) := by decide +kernel

theorem test_meets_MeasurementsOfAStage :
    (sampled (good 900 12) (chan .ramp stage)).ctx.take = 12 ∧ (sampled (good 900 12) (chan .hold stage)).ctx.peak = 900 ∧
    (sampled lost (chan .parked stage)).ctx.elapsed = 1 := by decide +kernel

/-- Each close condition alone closes the stage with its reason, at its boundary, and one short of it does not. -/
theorem test_meets_CloseAtASample :
    let last := { stage with stepIndex := 2 }
    let why (smp : Sample) (st : ChState) (x : Context) := (sampled smp (chan st x)).ctx.closeReason
    why (good 100 1) .parked { stage with take := 54999 } = some .cap ∧
    why (good 100 1) .parked { stage with take := 54998 } = none ∧
    why (good 750 0) .hold { stage with take := 10000, gin := 15 } = some .gin ∧
    why (good 7 0) .hold { stage with take := 10000, gin := 15 } = none ∧
    why (good 100 0) .hold { last with refusalCount := 5999 } = some .refusal ∧
    why (good 100 0) .hold { last with refusalCount := 5998 } = none ∧
    why (good 100 10) .hold { last with steps := [{ pressure := 1, hold := 1 }], stepIndex := 0, stepTime := 9 } =
      some .schedule ∧
    why (good 100 10) .hold { last with steps := [{ pressure := 1, hold := 1 }], stepIndex := 0, stepTime := 8 } = none := by
  decide +kernel

theorem test_meets_RegulationAtASample :
    (sampled (good 100 0) (chan .ramp stage)).state = .ramp ∧ (sampled (good 1480 0) (chan .ramp stage)).state = .hold ∧
    (sampled (good 1479 0) (chan .ramp stage)).state = .ramp ∧
    (sampled (good 1480 0) (chan .hold { stage with stepTime := 2999 })).ctx.stepIndex = 1 ∧
    (sampled (good 1480 0) (chan .hold { stage with stepTime := 2998 })).ctx.stepIndex = 0 ∧
    (let last := { stage with stepIndex := 2, refusalCount := 7 }
     (sampled (good 100 0) (chan .hold last)).ctx.refusalCount = 8 ∧
     (sampled (good 100 1) (chan .hold last)).ctx.refusalCount = 0) ∧
    (let full := sampled (good 100 0) (chan .hold { stage with take := 10000 })
     full.ctx.pgin = 750 ∧ full.ctx.holdTarget = 750 ∧ full.ctx.ginLimited = true) ∧
    (sampled (good 100 1) (chan .hold { stage with take := 54999 })).state = .closing ∧
    (sampled (good 4001 0) (chan .hold { stage with overRun := 2 })).state = .parked := by decide +kernel

theorem test_meets_ParkAtASample :
    let st (smp : Sample) (x : Context) := (sampled smp (chan .ramp x)).state
    st (good 4001 0) { stage with overRun := 2 } = .parked ∧ st (good 4001 0) { stage with overRun := 1 } = .hold ∧
    st lost stage = .parked ∧
    (let s := { inState .ramp with chans := base.chans.set 5 (chan .ramp { stage with losRun := 19 }) }
     (after (.sampleArrival 5 lost) s).chans[(5 : ChanId)].state = .parked) ∧
    (let s := { inState .ramp with chans := base.chans.set 5 (chan .ramp { stage with losRun := 18 }) }
     (after (.sampleArrival 5 lost) s).chans[(5 : ChanId)].state = .ramp) ∧
    (let set (smp : Sample) (x : Context) := (sampled smp (chan .parked { x with parkSet := 0x80 })).ctx.parkSet
     set (good 4001 0) { stage with overRun := 2 } = 0xA0 ∧ set (good 4001 0) { stage with overRun := 1 } = 0x80 ∧
     set lost stage = 0x88) := by decide +kernel

/-- The small station with channel 2 in a state and one report of channel 4 on its way to it. -/
def reported (st : ChState) (seen : ChState) (kPa : Nat) : State :=
  { inState st with
    field := { quietField with reports := [{ watched := 4, watcher := 2, state := seen, measured := kPa, los := false }] } }

theorem test_meets_NeighbourReports :
    let st (s : State) := (after (.neighbourReport 4 2) s).chans[(2 : ChanId)].state
    st (reported .ramp .vacant 300) = .parked ∧ st (reported .hold .armed 300) = .parked ∧
    st (reported .ramp .vacant 299) = .ramp ∧ st (reported .ramp .parked 300) = .ramp ∧
    st (reported .armed .vacant 300) = .armed ∧
    (let first : Report := { watched := 4, watcher := 3, state := .vacant, measured := 8000, los := false }
     let s := reported .ramp .vacant 300
     let t := after (.neighbourReport 4 2)
       { s with field := { s.field with reports := first :: s.field.reports ++ [first] } }
     t.chans[(2 : ChanId)].state = .parked ∧ t.field.reports = [first, first]) ∧
    (∀ r ∈ base.field.reports, r.watched = 4 → r.watcher ≠ 2) := by decide +kernel

theorem test_meets_GaugeSamples :
    let st (g : GaugeId) (r : Half) (v : Bool) := (after (.gaugeSample g r v) (inState .ramp)).chans[(2 : ChanId)]
    State.reset.loader.mode ≠ .running ∧ base.loader.mode = .running ∧ (st 1 300 true).state = .parked ∧
    (st 1 299 true).state = .ramp ∧ (st 1 299 true).ctx.uplift = 199 ∧ (st 1 99 true).ctx.uplift = 0 ∧
    (st 1 0 false).state = .parked ∧ (st 0 65535 true).state = .ramp := by decide +kernel

theorem test_meets_DebouncedLines :
    let s := { inState .ramp with field := { quietField with stopA := turning true } }
    let p := { inState .ramp with field := { quietField with permits := Vector.replicate 8 (turning false) } }
    true ≠ (base.field.line (.stop .stopA)).raw ∧ false = (base.field.line (.stop .stopA)).raw ∧
    (let l : Line := { raw := true, accepted := true, timer := true }; l.timer = true ∧ l.raw = l.accepted) ∧
    (s.field.line (.stop .stopA)).timer = true ∧
    (s.field.line (.stop .stopA)).raw ≠ (s.field.line (.stop .stopA)).accepted ∧ s.loader.mode = .running ∧
    (p.field.permits[(2 : ChanId)]).timer = true ∧
    (p.field.permits[(2 : ChanId)]).raw ≠ (p.field.permits[(2 : ChanId)]).accepted ∧
    (after (.debounceExpiry (.stop .stopA)) { s with loader := { s.loader with mode := .safePass } }).field.stopA =
      settled true ∧
    (let r := { State.reset with field := { State.reset.field with stopB := turning false } }
     (r.field.line (.stop .stopB)).timer = true ∧ r.loader.mode ≠ .running) := by decide +kernel

/-! ### States that meet the invariants -/

/-- The small station with a plain write, a record and a held page waiting, and a command in its queue. -/
def living : State := { staged [news] (queued 1 (pooled mixed)) with pending := [.governorClockTick] }

theorem test_meets_StepKeepsTheBlocks :
    QueueOk living.queue ∧ PoolOk living.pool ∧ StagingOk living.ring ∧ StatusOk living.status ∧ living.FetchOk ∧
    living.IndicesOk ∧ step living = .next (after .governorClockTick { living with pending := [] }) := by
  refine ⟨⟨by decide, by decide⟩, mixed_ok, ⟨by decide, by decide, by decide⟩, fun _ => rfl,
    ⟨⟨by decide, by decide, by decide, by decide, fun p h => ?_⟩, by decide⟩,
    ⟨by decide, by decide, by decide, fun b a h => ?_⟩, rfl⟩
  · cases h
  · cases h

theorem test_meets_StepKeepsTheCloseRecords :
    (staged [closing] (inState .closing)).CloseRecordsOk := by
  unfold State.CloseRecordsOk; decide

theorem test_meets_StepKeepsTheEnvelope :
    (withChan (chan .ramp stage)).ChannelsOk := by
  refine ⟨by decide, fun c => ?_⟩
  have other : ChannelOk base.loader.setup Channel.reset := ChannelOk.reset _
  have this : ChannelOk base.loader.setup (chan .ramp stage) :=
    { ctx := by constructor <;> decide, readings := by constructor <;> decide }
  fin_cases c
  all_goals first | exact other | exact this

theorem test_meets_StepKeepsTheQuiet :
    ({ State.reset with pending := [.resetRelease] } : State).QuietOk ∧
    step { State.reset with pending := [.resetRelease] } = .next (after .resetRelease State.reset) := by
  refine ⟨⟨fun _ => rfl, fun _ => rfl, fun _ c => ?_, fun _ => ⟨rfl, rfl⟩, fun _ => rfl, fun _ => rfl,
    fun _ => ⟨_, _, rfl⟩, fun _ => .inl rfl, fun _ e he => ?_, fun _ => ⟨rfl, rfl, rfl, rfl⟩⟩, rfl⟩
  · fin_cases c <;> rfl
  · cases he

end Sys2Proof.Tests
end

section
/-! SUPPORT. The quiet of the governing blocks (`State.QuietOk`), operation by operation. Outside RUNNING each operation
of a step comes to the same state, to a change of the loader or of the lines alone, or to the end of a held read or of a
drain; in RUNNING the invariant asks nothing. -/

namespace Sys2Proof.Machine

/-! ### The block outside RUNNING -/

/-- Outside RUNNING the memory port carries nothing, a held read or a drain. -/
theorem State.QuietOk.initiator_cases {s : State} (h : s.QuietOk) (off : s.loader.mode ≠ .running) :
    s.initiator? = none ∨ s.initiator? = some .heldRead ∨ s.initiator? = some .drain := h.mem off

/-- An operation that does nothing outside RUNNING and keeps the loader keeps the quiet. -/
theorem State.QuietOk.idle {s t : State} (h : s.QuietOk) (l : t.loader = s.loader)
    (same : s.loader.mode ≠ .running → t = s) : t.QuietOk := by
  by_cases run : s.loader.mode = .running
  · exact .running (by rw [l]; exact run)
  · rw [same run]; exact h

/-- The quiet looks at the loader's mode and setup values alone, and at no line of the field. -/
theorem State.QuietOk.withLoaderAndField {s : State} (h : s.QuietOk) (l : Loader) (f : Field)
    (mode : l.mode = s.loader.mode) (setup : l.setup = s.loader.setup) (gauges : f.gauges = s.field.gauges)
    (reports : f.reports = s.field.reports) : ({ s with loader := l, field := f } : State).QuietOk where
  setup off := by rw [setup]; exact h.setup (mode ▸ off)
  map off := h.map (mode ▸ off)
  chans off := h.chans (mode ▸ off)
  gauges off := by rw [gauges, reports]; exact h.gauges (mode ▸ off)
  pool off := h.pool (mode ▸ off)
  ring off := h.ring (mode ▸ off)
  status off := h.status (mode ▸ off)
  mem off := h.mem (mode ▸ off)
  queue off := h.queue (mode ▸ off)
  empty loading := h.empty (mode ▸ loading)

theorem Field.setLine_gauges (f : Field) (line : FieldLine) (l : Line) : (f.setLine line l).gauges = f.gauges := by
  rcases line with (_ | _) | _ <;> rfl

theorem Field.setLine_reports (f : Field) (line : FieldLine) (l : Line) : (f.setLine line l).reports = f.reports := by
  rcases line with (_ | _) | _ <;> rfl

/-! ### Reset and the setup loader -/

theorem State.QuietOk.assertReset (s : State) : s.assertReset.QuietOk where
  setup _ := rfl
  map _ := rfl
  chans _ c := by simp [State.assertReset, State.reset]
  gauges _ := ⟨rfl, rfl⟩
  pool _ := rfl
  ring _ := rfl
  status _ := ⟨0, 0, rfl⟩
  mem _ := .inl rfl
  queue _ e he := by cases he
  empty _ := ⟨rfl, rfl, rfl, rfl⟩

theorem State.QuietOk.releaseReset {s : State} (h : s.QuietOk) : s.releaseReset.QuietOk := by
  unfold State.releaseReset
  split_ifs
  · exact h.withLoaderAndField _ _ rfl rfl rfl rfl
  · exact h

theorem Loader.loadingIn_mode {l : Loader} {p : ReadPhase} (h : l.loadingIn p = true) : l.mode = .loading := by
  simp only [Loader.loadingIn, Bool.and_eq_true, beq_iff_eq] at h
  exact h.1

/-- LOADING leaves for SAFE_PASS with nothing in the block (R184). -/
theorem State.QuietOk.enterSafePass {s : State} (h : s.QuietOk) (loading : s.loader.mode = .loading) :
    s.enterSafePass.QuietOk := by
  have off : s.loader.mode ≠ .running := by rw [loading]; decide
  exact ⟨fun _ => h.setup off, fun _ => h.map off, fun _ => h.chans off, fun _ => h.gauges off, fun _ => h.pool off,
    fun _ => h.ring off, fun _ => h.status off, fun _ => h.mem off, fun _ => h.queue off, nofun⟩

theorem State.QuietOk.noAck {s : State} (h : s.QuietOk) : s.noAck.QuietOk := by
  unfold State.noAck
  split_ifs with reading third
  · exact h.enterSafePass (Loader.loadingIn_mode reading)
  · exact h.withLoaderAndField _ s.field rfl rfl rfl rfl
  · exact h

theorem State.QuietOk.retryRead {s : State} (h : s.QuietOk) : s.retryRead.QuietOk := by
  unfold State.retryRead
  split_ifs
  · exact h.withLoaderAndField _ s.field rfl rfl rfl rfl
  · exact h

theorem State.QuietOk.readDone {s : State} (h : s.QuietOk) (bytes : List Byte) : (s.readDone bytes).QuietOk := by
  unfold State.readDone
  dsimp only
  split_ifs with reading
  · exact .running rfl
  · exact h.enterSafePass (Loader.loadingIn_mode reading)
  · exact h

theorem State.QuietOk.tick {s : State} (h : s.QuietOk) : s.tick.QuietOk := by
  unfold State.tick
  split_ifs with run
  · exact .running run
  · exact h

/-! ### The buffers -/

theorem Pool.holder_empty (k : BufKey) : Pool.empty.holder k = none :=
  Pool.holder_of_no_key (by simp [Pool.empty, Buffer.key?])

theorem State.QuietOk.fillArmed {s : State} (h : s.QuietOk) (k : BufKey) (stale : Bool) :
    (s.fillArmed k stale).QuietOk :=
  h.idle (by simp) fun off => by unfold State.fillArmed; rw [h.pool off, Pool.holder_empty]

theorem State.QuietOk.expire {s : State} (h : s.QuietOk) (k : BufKey) : (s.expire k).QuietOk :=
  h.idle (by simp) fun off => by unfold State.expire; rw [h.pool off, Pool.holder_empty]

/-! ### The memory port -/

/-- Outside RUNNING only a held read and the queue ask for the memory port. -/
theorem State.QuietOk.requester {s : State} (h : s.QuietOk) (off : s.loader.mode ≠ .running) {r : Requester}
    (asks : s.requester = some r) : r = .queue ∧ s.queue ≠ [] ∨ r = .heldRead ∧ s.port.held ≠ none := by
  have noFetch : s.fetchWants = false := by unfold State.fetchWants; rw [h.map off]; rfl
  have noRing : s.ringWants = false := by unfold State.ringWants; rw [h.ring off]; rfl
  unfold State.requester at asks
  simp only [noFetch, noRing, Bool.false_and, Bool.false_eq_true, if_false] at asks
  split_ifs at asks with many held one <;> injection asks with asks <;> subst asks
  · exact .inl ⟨rfl, fun empty => by simp [empty] at many⟩
  · exact .inr ⟨rfl, Option.isSome_iff_ne_none.1 held⟩
  · exact .inl ⟨rfl, fun empty => by simp [empty] at one⟩

theorem State.grantHeld_initiator {s : State} (held : s.port.held ≠ none) :
    s.grantHeld.initiator? = some .heldRead := by
  unfold State.grantHeld
  split
  · contradiction
  · rfl

theorem State.grantDrain_initiator {s : State} (waits : s.queue ≠ []) :
    s.grantDrain.initiator? = some .drain := by
  unfold State.grantDrain
  split
  · contradiction
  · rfl

theorem State.grant_ring_of_not_ringWriter (s : State) (h : s.requester ≠ some .ringWriter) :
    s.grant.ring = s.ring := by
  unfold State.grant
  split
  · rename_i r _ asks
    cases r with
    | fetcher => rfl
    | ringWriter => exact absurd asks h
    | queue => simp only [State.grantTo, State.grantDrain]; split <;> rfl
    | heldRead => simp only [State.grantTo, State.grantHeld]; split <;> rfl
  · rfl

theorem State.QuietOk.grant {s : State} (h : s.QuietOk) : s.grant.QuietOk := by
  by_cases run : s.loader.mode = .running
  · exact .running (by simpa using run)
  have ring : s.grant.ring = s.ring :=
    s.grant_ring_of_not_ringWriter fun asks => by simpa using h.requester run asks
  have initiator : s.grant.initiator? = none ∨ s.grant.initiator? = some .heldRead ∨
      s.grant.initiator? = some .drain := by
    unfold State.grant
    split
    · rename_i r _ asks
      obtain ⟨rfl, waits⟩ | ⟨rfl, held⟩ := h.requester run asks
      · exact .inr (.inr (State.grantDrain_initiator waits))
      · exact .inr (.inl (State.grantHeld_initiator held))
    · exact h.initiator_cases run
  have loading : s.loader.mode = .loading → s.grant = s := by
    intro loading
    obtain ⟨queue, held, mem, _⟩ := h.empty loading
    unfold State.grant
    split
    · rename_i r _ asks
      obtain ⟨_, waits⟩ | ⟨_, holds⟩ := h.requester run asks
      · exact absurd queue waits
      · exact absurd held holds
    · rfl
  exact h.safePass (by simp) loading (by simp) (by simp) (by simp) (by simp) ring (.inl (by simp)) initiator
    (by simp)

/-- In LOADING nothing is outstanding. -/
theorem State.QuietOk.initiator_loading {s : State} (h : s.QuietOk) (loading : s.loader.mode = .loading) :
    s.initiator? = none := by
  obtain ⟨_, _, mem, _⟩ := h.empty loading
  simp [State.initiator?, mem]

/-- Only in RUNNING is a read of the fetcher outstanding. -/
theorem State.QuietOk.running_of_fetch {s : State} (h : s.QuietOk) (fetches : s.initiator? = some .fetch) :
    s.loader.mode = .running := by
  by_contra off
  rcases h.initiator_cases off with e | e | e <;> rw [e] at fetches <;> cases fetches

/-- Only in RUNNING is an access of the ring writer outstanding. -/
theorem State.QuietOk.running_of_ring {s : State} (h : s.QuietOk) {a : RingAccess} {abandoned : Bool}
    (writes : s.initiator? = some (.ring a abandoned)) : s.loader.mode = .running := by
  by_contra off
  rcases h.initiator_cases off with e | e | e <;> rw [e] at writes <;> cases writes

/-- The end of a held read, however it ends. -/
theorem State.QuietOk.answerHeld {s : State} (h : s.QuietOk) (reads : s.initiator? = some .heldRead)
    (a : HeldRead → Answer) : (s.portFree.answerHeld a).QuietOk :=
  h.safePass (by simp) (fun loading => by rw [h.initiator_loading loading] at reads; cases reads) (by simp) (by simp)
    (by simp) (by simp) (by simp) (.inl (by simp)) (.inl (by simp [State.initiator?])) (by simp)

theorem State.QuietOk.memHeldDone {s : State} (h : s.QuietOk) (data : Word) : (s.memHeldDone data).QuietOk := by
  unfold State.memHeldDone
  split
  · exact h.answerHeld ‹_› _
  · exact h

theorem State.QuietOk.memHeldFailed {s : State} (h : s.QuietOk) : s.memHeldFailed.QuietOk := by
  unfold State.memHeldFailed
  split
  · exact h.answerHeld ‹_› _
  · exact h

theorem State.QuietOk.memDrainDone {s : State} (h : s.QuietOk) : s.memDrainDone.QuietOk := by
  unfold State.memDrainDone
  split
  · rename_i drains
    exact h.safePass rfl (fun loading => by rw [h.initiator_loading loading] at drains; cases drains) rfl rfl rfl rfl
      rfl (.inl rfl) (.inl rfl) fun _ => List.mem_of_mem_tail
  · exact h

/-- Outside RUNNING no record is staged (R140, R165, R184). -/
theorem State.stage_off {s : State} (off : s.loader.mode ≠ .running) (r : Record) : s.stage r = s := by
  simp [State.stage, State.silent, off]

/-- A failed drain outside RUNNING loses its head and raises MEMERR, and no more. -/
theorem State.drainFailed_off {s : State} (off : s.loader.mode ≠ .running) :
    s.drainFailed = s ∨ ∃ a, s.drainFailed = s.popQueue.raise .memErr a := by
  unfold State.drainFailed
  split
  · exact .inl rfl
  · rename_i e _ _
    exact .inr ⟨e.addr, State.stage_off (s := s.popQueue.raise .memErr e.addr) off _⟩

theorem State.QuietOk.memDrainFailed {s : State} (h : s.QuietOk) : s.memDrainFailed.QuietOk := by
  unfold State.memDrainFailed
  split
  · rename_i drains
    by_cases run : s.loader.mode = .running
    · exact .running (by simpa using run)
    have loading : s.loader.mode = .loading → s.portFree.drainFailed = s := fun loading => by
      rw [h.initiator_loading loading] at drains; cases drains
    obtain e | ⟨a, e⟩ := State.drainFailed_off (s := s.portFree) run <;> rw [e] at loading ⊢
    · exact h.safePass rfl loading rfl rfl rfl rfl rfl (.inl rfl) (.inl rfl) fun _ => id
    · exact h.safePass rfl loading rfl rfl rfl rfl rfl (.inr ⟨a, rfl⟩) (.inl rfl) fun _ => List.mem_of_mem_tail
  · exact h

theorem State.QuietOk.memFetchDone {s : State} (h : s.QuietOk) (first : Bool) (data : Word) :
    (s.memFetchDone first data).QuietOk := by
  unfold State.memFetchDone
  split
  · have run := h.running_of_fetch ‹_›
    refine .running ?_
    unfold State.fetchRead
    split_ifs <;> simpa using run
  · exact h

theorem State.QuietOk.memFetchFailed {s : State} (h : s.QuietOk) : s.memFetchFailed.QuietOk := by
  unfold State.memFetchFailed
  split
  · have run := h.running_of_fetch ‹_›
    refine .running ?_
    unfold State.fetchReadFailed
    split_ifs <;> simpa using run
  · exact h

theorem State.QuietOk.memStaleEnd {s : State} (h : s.QuietOk) (failed : Bool) : (s.memStaleEnd failed).QuietOk := by
  unfold State.memStaleEnd
  split
  · have run := h.running_of_fetch ‹_›
    split_ifs
    · exact .running (by simpa using run)
    · exact h
  · exact h

theorem State.QuietOk.memSlotDone {s : State} (h : s.QuietOk) : s.memSlotDone.QuietOk := by
  unfold State.memSlotDone
  split
  · have run := h.running_of_ring ‹_›
    split_ifs <;> exact .running (by simpa using run)
  · exact h

theorem State.QuietOk.memProducerDone {s : State} (h : s.QuietOk) : s.memProducerDone.QuietOk := by
  unfold State.memProducerDone
  split
  · have run := h.running_of_ring ‹_›
    split_ifs <;> exact .running (by simpa using run)
  · exact h

theorem State.QuietOk.memRewriteDone {s : State} (h : s.QuietOk) : s.memRewriteDone.QuietOk := by
  unfold State.memRewriteDone
  split
  · have run := h.running_of_ring ‹_›
    split_ifs <;> exact .running (by simpa using run)
  · exact h

theorem State.QuietOk.memRingFailed {s : State} (h : s.QuietOk) : s.memRingFailed.QuietOk := by
  unfold State.memRingFailed
  split
  · rename_i m mem
    split
    · rename_i a abandoned ring
      have run := h.running_of_ring (a := a) (abandoned := abandoned) (by simp [State.initiator?, mem, ring])
      exact .running (by simpa using run)
    · exact h
  · exact h

/-- The timeout ends each access as an error of its initiator does (R2). -/
theorem State.QuietOk.memTimeout {s : State} (h : s.QuietOk) : s.memTimeout.QuietOk := by
  unfold State.memTimeout
  split
  · exact h.memHeldFailed
  · exact h.memDrainFailed
  · exact h.memFetchFailed
  · exact h.memRingFailed
  · exact h

/-! ### The field -/

theorem State.QuietOk.sampled {s : State} (h : s.QuietOk) (c : ChanId) (smp : Sample) : (s.sampled c smp).QuietOk :=
  h.idle (by simp) fun off => by unfold State.sampled; rw [if_neg off]

theorem State.QuietOk.gaugeSampled {s : State} (h : s.QuietOk) (g : GaugeId) (reading : Half) (valid : Bool) :
    (s.gaugeSampled g reading valid).QuietOk :=
  h.idle (by simp) fun off => by unfold State.gaugeSampled; rw [if_neg off]

theorem State.QuietOk.reportTaken {s : State} (h : s.QuietOk) (watched watcher : ChanId) :
    (s.reportTaken watched watcher).QuietOk :=
  h.idle (by simp) fun off => by unfold State.reportTaken; rw [(h.gauges off).2]; rfl

theorem State.QuietOk.changeRaw {s : State} (h : s.QuietOk) (line : FieldLine) (level : Bool) :
    (s.changeRaw line level).QuietOk :=
  h.withLoaderAndField s.loader _ rfl rfl (Field.setLine_gauges ..) (Field.setLine_reports ..)

/-- A change of a line accepted outside RUNNING is handed to no channel (R140). -/
theorem State.debounceExpired_off {s : State} (off : s.loader.mode ≠ .running) (line : FieldLine) :
    s.debounceExpired line = { s with field := s.field.setLine line (s.field.line line).expired } := by
  simp [State.debounceExpired, off]

theorem State.QuietOk.debounceExpired {s : State} (h : s.QuietOk) (line : FieldLine) :
    (s.debounceExpired line).QuietOk := by
  by_cases run : s.loader.mode = .running
  · exact .running (by simpa using run)
  rw [State.debounceExpired_off run]
  exact h.withLoaderAndField s.loader _ rfl rfl (Field.setLine_gauges ..) (Field.setLine_reports ..)

/-! ### Every command -/

theorem State.QuietOk.exec {c : Instr} {s t : State} (h : s.QuietOk) (runs : exec c s = .next t) : t.QuietOk :=
  exec_cases (P := State.QuietOk) s
    (access := fun a => .access s a h)
    (assertReset := .assertReset s) (releaseReset := h.releaseReset) (noAck := h.noAck) (retryRead := h.retryRead)
    (readDone := h.readDone) (tick := h.tick)
    (fillArmed := fun _ => h.fillArmed _ true) (expire := h.expire)
    (grant := h.grant) (timeout := h.memTimeout)
    (heldDone := h.memHeldDone) (heldFailed := h.memHeldFailed)
    (drainDone := h.memDrainDone) (drainFailed := h.memDrainFailed)
    (fetchDone := h.memFetchDone) (fetchFailed := h.memFetchFailed) (staleEnd := h.memStaleEnd)
    (slotDone := h.memSlotDone) (producerDone := h.memProducerDone) (ringFailed := h.memRingFailed)
    (rewriteDone := h.memRewriteDone)
    (sampled := h.sampled) (reportTaken := h.reportTaken) (gaugeSampled := h.gaugeSampled)
    (changeRaw := h.changeRaw) (debounceExpired := h.debounceExpired) c t runs

/-- Settles O60, by the invariant `QuietOk` through each operation a command can come to. -/
theorem stepKeepsTheQuiet : Obligations.StepKeepsTheQuiet := by
  unfold Obligations.StepKeepsTheQuiet
  intro s t quiet runs
  exact step_keeps (P := State.QuietOk)
    (ignores := fun s _ h => h.congr rfl rfl rfl ⟨rfl, rfl⟩ rfl rfl rfl rfl rfl rfl)
    (keeps := fun _ _ _ h e => h.exec e) s t quiet runs

end Sys2Proof.Machine
end

section
/-! SUPPORT. Addresses, lanes and the words of the layouts, field by field: the arithmetic of the fields of an address,
and the words that the part builds by `++` as the words of their fields (`wordOf`). -/

namespace Sys2Proof.Machine

/-! ### Fields of an address -/

/-- What a mask takes away from a word and what it leaves add up to the word. -/
theorem toNat_and_not_add {w : Nat} (a m : BitVec w) : (a &&& ~~~m).toNat + (a &&& m).toNat = a.toNat := by
  have apart : (a &&& ~~~m) &&& (a &&& m) = 0#w := by
    ext i hi
    simp only [BitVec.getElem_and, BitVec.getElem_not, BitVec.getElem_zero]
    cases a[i] <;> cases m[i] <;> rfl
  have whole : (a &&& ~~~m) ||| (a &&& m) = a := by
    ext i hi
    simp only [BitVec.getElem_or, BitVec.getElem_and, BitVec.getElem_not]
    cases a[i] <;> cases m[i] <;> rfl
  rw [← BitVec.toNat_add_of_and_eq_zero apart, BitVec.add_eq_or_of_and_eq_zero _ _ apart, whole]

theorem offsetOf_eq (a : Addr) : offsetOf a = a.toNat % 4096 := by
  simp [offsetOf, BitVec.extractLsb'_toNat]

theorem pageOf_toNat (a : Addr) : (pageOf a).toNat = a.toNat / 4096 % 128 := by
  simp [pageOf, BitVec.extractLsb'_toNat, Nat.shiftRight_eq_div_pow]

theorem freshOf_iff (a : Addr) : freshOf a = true ↔ a.toNat / 524288 % 2 = 1 := by
  rw [freshOf, BitVec.getLsbD, Nat.testBit_eq_decide_div_mod_eq, decide_eq_true_iff]

theorem windowMemAddr_toNat (a : Addr) :
    (windowMemAddr a).toNat = a.toNat - a.toNat / 524288 % 2 * 524288 := by
  have bit : (a &&& 0x80000#24).toNat = a.toNat / 524288 % 2 * 524288 := by
    rw [BitVec.toNat_and]
    show a.toNat &&& 2 ^ 19 = _
    rw [Nat.and_two_pow, Nat.toNat_testBit]
    norm_num
  have sum := toNat_and_not_add a 0x80000#24
  show (a &&& ~~~0x80000#24).toNat = _
  omega

theorem wordAddr_toNat (a : Addr) : (wordAddr a).toNat = a.toNat / 4 * 4 := by
  have low : (a &&& 3#24).toNat = a.toNat % 4 := by
    rw [BitVec.toNat_and]
    exact Nat.and_two_pow_sub_one_eq_mod a.toNat 2
  have sum := toNat_and_not_add a 3#24
  show (a &&& ~~~3#24).toNat = _
  omega

/-! ### The class of an address -/

theorem Setup.inWindow_iff (u : Setup) (a : Addr) :
    u.inWindow a = true ↔ a.toNat / 1048576 = u.windowBase.toNat := by
  have := a.isLt
  have top : (a.extractLsb' 20 4).toNat = a.toNat / 1048576 := by
    rw [BitVec.extractLsb'_toNat, Nat.shiftRight_eq_div_pow]
    omega
  rw [Setup.inWindow, beq_iff_eq, ← BitVec.toNat_inj, top]

theorem Setup.inMapTable_iff (u : Setup) (a : Addr) :
    u.inMapTable a = true ↔ u.mapBase.toNat ≤ a.toNat ∧ a.toNat < u.mapBase.toNat + 1024 := by
  simp [Setup.inMapTable]

/-- The first class that holds (R5). -/
theorem Setup.classify_cases (u : Setup) (a : Addr) :
    (u.inWindow a = true → u.classify a = .window) ∧
    (¬u.inWindow a = true → u.inMapTable a = true → u.classify a = .mapTable) ∧
    (¬u.inWindow a = true → ¬u.inMapTable a = true → a = u.producerAddr ∨ a = u.consumerAddr →
      u.classify a = .ringHeader) ∧
    (¬u.inWindow a = true → ¬u.inMapTable a = true → ¬(a = u.producerAddr ∨ a = u.consumerAddr) →
      u.classify a = .plain) := by
  refine ⟨fun w => ?_, fun w m => ?_, fun w m h => ?_, fun w m h => ?_⟩
  · exact if_pos w
  · exact (if_neg w).trans (if_pos m)
  · exact (if_neg w).trans ((if_neg m).trans (if_pos h))
  · exact (if_neg w).trans ((if_neg m).trans (if_neg h))

/-! ### Lanes -/

theorem byteSwap_lane (w : Word) (k : Fin 4) :
    (byteSwap w).extractLsb' (8 * k.val) 8 = w.extractLsb' (8 * (3 - k.val)) 8 := by
  ext i hi
  simp only [BitVec.getElem_extractLsb']
  rw [byteSwap_bit w _ (by omega)]
  congr 1
  omega

theorem laneMask_lane (be : Lanes) (k : Fin 4) :
    (laneMask be).extractLsb' (8 * k.val) 8 = if be.getLsbD k.val then 0xFF else 0 := by
  ext i hi
  rw [BitVec.getElem_extractLsb', laneMask_bit be _ (by omega), show (8 * k.val + i) / 8 = k.val by omega]
  split_ifs with on
  · interval_cases i <;> simp [on]
  · simpa using on

theorem reverseLanes_bit : ∀ (be : Lanes) (k : Fin 4),
    (reverseLanes be).getLsbD k.val = be.getLsbD (3 - k.val) := by decide

/-! ### Words built by `++` -/

/-- A word built by `++` and put at bit `lo` of a wider one holds its lower part there and its upper part above it. -/
theorem append_at {m n : Nat} (v lo : Nat) (x : BitVec m) (y : BitVec n) :
    (x ++ y).setWidth v <<< lo = y.setWidth v <<< lo ||| x.setWidth v <<< (lo + n) := by
  ext i hi
  simp only [BitVec.getElem_setWidth, BitVec.getLsbD_append, BitVec.getElem_or, BitVec.getElem_shiftLeft]
  by_cases below : i < lo
  · simp [below, show i < lo + n by omega]
  by_cases low : i - lo < n
  · simp [below, low, show i < lo + n by omega]
  · rw [show i - (lo + n) = i - lo - n by omega]
    simp [below, low, show lo + n ≤ i by omega, BitVec.getLsbD_of_ge y (i - lo) (by omega)]

/-- A word is itself put at bit 0: the start of its cutting into fields by `append_at`. -/
theorem word_at_zero (w : Word) : w = w.setWidth 32 <<< 0 := by simp

@[simp] theorem ofNat_bool (b : Bool) : BitVec.ofNat 1 b.toNat = BitVec.ofBool b := by cases b <;> rfl

theorem orderValue_wordOf (code tag : Byte) (arg : Half) :
    orderValue code tag arg = wordOf [(7, 0, code.toNat), (15, 8, tag.toNat), (31, 16, arg.toNat)] := by
  rw [word_at_zero (orderValue _ _ _), orderValue, append_at, append_at]
  simp [wordOf_cons, wordOf_nil]

/-- The words of two lists of fields lie side by side. -/
theorem wordOf_append (fs gs : List (Nat × Nat × Nat)) : wordOf (fs ++ gs) = wordOf fs ||| wordOf gs := by
  induction fs with
  | nil => simp [wordOf_nil]
  | cons f fs ih =>
    obtain ⟨hi, lo, v⟩ := f
    rw [List.cons_append, wordOf_cons, wordOf_cons, ih, BitVec.or_assoc]

/-- A field of one bit. -/
theorem wordOf_mark (i : Nat) (b : Bool) (fs : List (Nat × Nat × Nat)) :
    wordOf ((i, i, b.toNat) :: fs) = (BitVec.ofBool b).setWidth 32 <<< i ||| wordOf fs := by
  rw [wordOf_cons, Nat.add_sub_cancel_left, ofNat_bool]

/-- The marks of the channels put at bit `lo` of a word, channel c at bit `lo + c`. -/
theorem chanBits_at (f : ChanId → Bool) (lo : Nat) : (chanBits f).setWidth 32 <<< lo =
    wordOf ((List.finRange 8).map (fun c => (lo + c.val, lo + c.val, (f c).toNat))) := by
  have channels : List.finRange 8 = [0, 1, 2, 3, 4, 5, 6, 7] := by decide
  rw [chanBits, channels]
  iterate rw [append_at]
  simp only [List.map_cons, List.map_nil, wordOf_mark, wordOf_nil, BitVec.or_zero]
  rfl

/-- Settles O5: the fields of an address by arithmetic, the classes in their order, and lanes and fields bit by bit. -/
theorem addressesAndLanes : Obligations.AddressesAndLanes := by
  unfold Obligations.AddressesAndLanes
  refine ⟨fun a => ⟨offsetOf_eq a, pageOf_toNat a, freshOf_iff a, windowMemAddr_toNat a, wordAddr_toNat a⟩,
    fun u a => ?_, fun w be k => ⟨rfl, byteSwap_lane w k, rfl, reverseLanes_bit be k, laneMask_lane be k⟩,
    orderValue_wordOf⟩
  intro window table header
  obtain ⟨isWindow, isTable, isHeader, isPlain⟩ := u.classify_cases a
  rw [Setup.inWindow_iff, Setup.inMapTable_iff] at isTable isHeader isPlain
  exact ⟨u.inWindow_iff a, fun h => isWindow ((u.inWindow_iff a).2 h), isTable, isHeader, isPlain, rfl⟩

end Sys2Proof.Machine
end

section
/-! SUPPORT. Where an access goes by the role of its page, what each kind of traffic does with it, and the statements on
the traffic of the processor port that follow. -/

namespace Sys2Proof.Machine

/-! ### A step and a reset -/

/-- Settles O1: both clauses are the two branches of `step`. -/
theorem stepRunsTheFrontCommand : Obligations.StepRunsTheFrontCommand := by
  unfold Obligations.StepRunsTheFrontCommand
  refine ⟨fun c rest s => rfl, fun s idle => ?_⟩
  rw [step, idle]

/-- The lines at reset: the accepted level withdrawn, the raw level as it stands (R123). -/
theorem permits_inReset (f : Field) : f.inReset.permits =
    f.permits.map (fun l => { raw := l.raw, accepted := false, timer := false }) := by
  simp only [Field.inReset, Field.reset, mapVector_eq, Vector.map_map]
  rfl

/-- Settles O3, block by block; the pins are the one block that keeps anything. -/
theorem resetAssertion : Obligations.ResetAssertion := by
  unfold Obligations.ResetAssertion
  intro s
  have answer : (if s.port.held.isSome then some Answer.retry else none) =
      if s.port.held = none then none else some .retry := by cases s.port.held <;> rfl
  rw [← permits_inReset, ← answer]
  rfl

/-! ### Rows given by a value -/

theorem orderWordUnknown_exec (addr : Addr) (code tag : Byte) (arg : Half) (s : State) :
    exec (.orderWordUnknown addr code tag arg) s = .next (s.accessValue addr (orderValue code tag arg)) := rfl

theorem restart_exec (addr : Addr) (s : State) : exec (.restart addr) s = .next (s.accessValue addr restartCode) := rfl

theorem State.accessValue_loading {s : State} (held : s.port.held = none) (mode : s.loader.mode = .loading)
    (addr : Addr) (v : Word) : s.accessValue addr v = s.answer .retry :=
  State.access_loading held mode _

theorem State.accessValue_miss {s : State} {addr : Addr} (h : s.misses addr) (v : Word) :
    s.accessValue addr v = s.miss (pageOf addr) :=
  State.access_miss (a := { addr := addr, be := 0xF, write := some (inOrder (s.orderAt addr) v) }) h
    (show 0xF#4 ≠ 0 by decide)

/-- Settles O9: each row is an access, and an access is answered before it is classified. -/
theorem accessesAnsweredAtOnce : Obligations.AccessesAnsweredAtOnce := by
  unfold Obligations.AccessesAnsweredAtOnce
  intro s held
  refine ⟨fun c a row loading => ?_, fun cmd addr tag arg loading => ?_, fun addr code tag arg loading => ?_,
    fun addr loading => ?_, fun a loading => ?_, fun c a row mode none => ?_, fun addr write mode => ?_⟩
  · rw [accessOf_exec row, State.access_loading held loading]
  · rw [orderRow_exec, State.accessValue_loading held loading]
  · rw [orderWordUnknown_exec, State.accessValue_loading held loading]
  · rw [restart_exec, State.accessValue_loading held loading]
  · rw [accessOf_exec rfl, State.access_loading held loading]
  · rw [accessOf_exec row, State.access_noEnable held mode a none]
  · rw [accessOf_exec rfl, State.access_noEnable held mode _ rfl]

/-! ### Where an access goes by the role of its page -/

section Roles

variable {s : State} {a : Access} {e : CacheEntry}

theorem State.access_invalid (h : s.hits a.addr e) (be : a.be ≠ 0) (role : e.role = .invalid) :
    s.access a = (s.used e).invalidAccess a := by
  rw [State.access_hit h be, State.pageAccess, role]

theorem State.access_pass (h : s.hits a.addr e) (be : a.be ≠ 0) (role : e.role = .pass) :
    s.access a = (s.used e).passAccess a e.attrs := by
  rw [State.access_hit h be, State.pageAccess, role]

theorem State.access_order {c : ChanId} (h : s.hits a.addr e) (be : a.be ≠ 0) (role : e.role = .order c) :
    s.access a = (s.used e).orderAccess a c e.attrs := by
  rw [State.access_hit h be, State.pageAccess, role]

theorem State.access_snap {c : ChanId} (h : s.hits a.addr e) (be : a.be ≠ 0) (role : e.role = .snap c) :
    s.access a = (s.used e).snapAccess a c e.attrs := by
  rw [State.access_hit h be, State.pageAccess, role]

theorem State.access_status (h : s.hits a.addr e) (be : a.be ≠ 0) (role : e.role = .status) :
    s.access a = (s.used e).statusAccess a e.attrs := by
  rw [State.access_hit h be, State.pageAccess, role]

end Roles

/-! ### The queue and memory reads -/

theorem State.queueFull_iff (s : State) : s.queueFull = true ↔ 8 ≤ s.queue.length := by
  simp [State.queueFull]

/-- A write that is to be queued: RETRY into a full queue, else the newest entry (R21, R22). -/
theorem State.queueWrite_eq (s : State) (e : QEntry) : s.queueWrite e =
    if 8 ≤ s.queue.length then s.answer .retry
    else ({ s with queue := s.queue ++ [e] } : State).answer .completeWrite := by
  simp only [State.queueWrite, State.queueFull_iff]
  rfl

/-- Settles O10: every one of the five reads comes to `State.readMemory`. -/
theorem readsHeldForMemory : Obligations.ReadsHeldForMemory := by
  unfold Obligations.ReadsHeldForMemory
  intro s addr be enabled
  refine ⟨fun h => ?_, fun h => ?_, fun h => ?_, fun e h role => ?_, fun e c h role off => ?_⟩
  · rw [accessOf_exec rfl, State.access_plain h enabled]; rfl
  · rw [accessOf_exec rfl, State.access_mapTable h enabled]; rfl
  · rw [accessOf_exec rfl, State.access_ringHeader h enabled]; rfl
  · rw [accessOf_exec rfl, State.access_pass h enabled role]; rfl
  · rw [accessOf_exec rfl, State.access_order h enabled role]
    simp only [State.orderAccess, if_neg off]
    rfl

/-- Settles O11: plain traffic is `State.queueWrite`. -/
theorem plainWrites : Obligations.PlainWrites := by
  unfold Obligations.PlainWrites
  intro s addr be data enabled h
  rw [accessOf_exec rfl, State.access_plain h enabled]
  exact congrArg Host.Outcome.next (s.queueWrite_eq _)

/-! ### Map-table writes -/

theorem State.fetchOutstanding_iff (s : State) : s.fetchOutstanding = true ↔ s.initiator? = some .fetch := by
  unfold State.fetchOutstanding State.initiator?
  cases s.mem <;> simp

/-- What the snoop of a page leaves of the fetcher (R43, R44). -/
theorem MapUnit.forget_fetcher (m : MapUnit) (p : PageId) (reading : Bool) : (m.forget p reading).fetcher =
    if m.fetcher.page = p ∧ m.fetcher.phase ≠ .idle then
      { m.fetcher with stale := true, phase := if reading then m.fetcher.phase else .idle }
    else m.fetcher := by
  simp only [MapUnit.forget, Fetcher.spoil]
  by_cases page : m.fetcher.page = p <;> by_cases idle : m.fetcher.phase = .idle <;> simp [page, idle]

/-- The pool after a snoop: the buffers of a cached SNAP page's channel are freed (R43). -/
theorem State.snoop_pool (s : State) (p : PageId) : (s.snoop p).pool =
    match s.map.entry? p with
    | some { role := .snap c, .. } => s.pool.releaseChan c
    | _ => s.pool := by
  unfold State.snoop
  cases s.map.entry? p with
  | none => rfl
  | some e =>
    obtain ⟨page, role, attrs, pinned⟩ := e
    cases role <;> rfl

/-- A snoop changes the map unit and the pool alone. -/
theorem State.snoop_eq (s : State) (p : PageId) :
    s.snoop p = { s with map := s.map.forget p s.fetchOutstanding, pool := (s.snoop p).pool } := by
  unfold State.snoop
  dsimp only
  split
  · split <;> rfl
  · rfl

/-- Settles O12: the write joins the queue and its page is snooped. -/
theorem mapTableWrites : Obligations.MapTableWrites := by
  unfold Obligations.MapTableWrites
  intro s addr be data enabled h p f reading
  rw [accessOf_exec rfl, State.access_mapTable h enabled]
  simp only [State.mapTableAccess, State.queueFull_iff]
  refine ⟨fun full => ?_, fun room => ?_⟩
  · rw [if_pos full]
  · rw [if_neg (Nat.not_le.2 room), State.snoop_eq, State.snoop_pool]
    have map : s.map.forget p s.fetchOutstanding =
        { cache := s.map.cache.filter (·.page != p)
          fetcher :=
            if f.page = p ∧ f.phase ≠ .idle then
              { f with stale := true, phase := if reading then f.phase else .idle }
            else f
          failed := if s.map.failed = some p then none else s.map.failed } := by
      simp only [reading, ← State.fetchOutstanding_iff]
      exact congrArg (fun x => ({ s.map.forget p s.fetchOutstanding with fetcher := x } : MapUnit))
        (s.map.forget_fetcher p s.fetchOutstanding)
    rw [← map]
    rfl

/-! ### Ring-header writes -/

/-- The four ends of a write of the consumer word (R10, R160). -/
theorem State.consumerWrite_eq (s : State) (addr : Addr) (be : Lanes) (data : Word) : s.consumerWrite addr be data =
    let value := (inOrder s.loader.setup.bigEndian data).toNat
    if be ≠ 0xF ∨ s.loader.setup.ringSlots ≤ value then s.dropOwned addr
    else if 8 ≤ s.queue.length then s.answer .retry
    else ({ s with
      queue := s.queue ++ [{ addr := addr, data := data, be := be, origin := .ringHeader }]
      ring := { s.ring with copy := value } } : State).answer .completeWrite := by
  unfold State.consumerWrite
  simp only [State.queueFull_iff]
  rfl

/-- The consumer word stands next to the producer word. -/
theorem Setup.producerAddr_ne_consumerAddr (u : Setup) : u.ringBase ≠ u.consumerAddr := by
  simp [Setup.consumerAddr]

/-- Settles O13: the two header words, and of the consumer word the ends of `State.consumerWrite_eq`. -/
theorem ringHeaderWrites : Obligations.RingHeaderWrites := by
  unfold Obligations.RingHeaderWrites
  intro s be data enabled u p q value n
  have consumer (h : s.reaches q .ringHeader) :
      exec (.consumerWordWrite q be data) s = .next (s.consumerWrite q be data) := by
    rw [accessOf_exec rfl, State.access_ringHeader h enabled]
    exact congrArg Host.Outcome.next (if_pos rfl)
  refine ⟨fun h => ?_, fun h drop => ?_, fun h whole fits full => ?_, fun h whole fits room => ?_⟩
  · rw [accessOf_exec rfl, State.access_ringHeader h enabled]
    exact congrArg Host.Outcome.next (if_neg u.producerAddr_ne_consumerAddr)
  · rw [consumer h, State.consumerWrite_eq]
    exact congrArg Host.Outcome.next (if_pos drop)
  · have kept : ¬(be ≠ 0xF ∨ n ≤ value) := fun c => c.elim (· whole) (Nat.not_le.2 fits)
    rw [consumer h, State.consumerWrite_eq]
    exact congrArg Host.Outcome.next ((if_neg kept).trans (if_pos full))
  · have kept : ¬(be ≠ 0xF ∨ n ≤ value) := fun c => c.elim (· whole) (Nat.not_le.2 fits)
    rw [consumer h, State.consumerWrite_eq]
    exact congrArg Host.Outcome.next ((if_neg kept).trans (if_neg (Nat.not_le.2 room)))

/-! ### PASS writes -/

/-- BARRIER holds a write back while the queue holds an entry (R23). -/
theorem barrier_iff (barrier : Bool) (q : List QEntry) :
    (barrier && !q.isEmpty) = true ↔ barrier = true ∧ q ≠ [] := by
  simp

/-- Settles O14: the tests of a PASS write in their order. -/
theorem passWrites : Obligations.PassWrites := by
  unfold Obligations.PassWrites
  intro s addr be data e enabled h role
  rw [accessOf_exec rfl, State.access_pass h enabled role]
  simp only [State.passAccess, barrier_iff, State.queueWrite_eq]
  rfl

/-! ### Accesses no page takes -/

/-- What a miss comes to (R27, R39, R40, R46). -/
theorem State.miss_eq (s : State) (p : PageId) : s.miss p =
    if s.map.failed = some p then ({ s with map := { s.map with failed := none } } : State).answer .error
    else if s.map.fetcher.phase = .idle ∧ s.queue.all (fun q => q.origin != .mapTable) = true then
      ({ s with map := { s.map with
        fetcher := { s.map.fetcher with phase := .first, page := p, stale := false } } } : State).answer .retry
    else s.answer .retry := by
  have free : (!s.mapWriteQueued) = s.queue.all (fun q => q.origin != .mapTable) := by
    simp [State.mapWriteQueued, List.not_any_eq_all_not, bne]
  simp only [State.miss, free]
  rfl

/-- Settles O15: an INVALID page by its role, and every row of a missing page by the miss. -/
theorem invalidPagesAndMisses : Obligations.InvalidPagesAndMisses := by
  unfold Obligations.InvalidPagesAndMisses
  refine ⟨fun s a e enabled h role => ?_, fun s addr h => ?_⟩
  · rw [accessOf_exec rfl, State.access_invalid h enabled role]
    rfl
  · intro t
    have missed : s.miss (pageOf addr) = t := s.miss_eq _
    refine ⟨fun c a row place enabled => ?_, fun cmd tag arg => ?_, fun code tag arg => ?_, ?_⟩
    · subst place
      rw [accessOf_exec row, State.access_miss h enabled, missed]
    · rw [orderRow_exec, State.accessValue_miss h, missed]
    · rw [orderWordUnknown_exec, State.accessValue_miss h, missed]
    · rw [restart_exec, State.accessValue_miss h, missed]

/-! ### ORDER pages -/

/-- The lowest field of a word built by `++`. -/
theorem extractLsb'_append_low {m n : Nat} (x : BitVec m) (y : BitVec n) : (x ++ y).extractLsb' 0 n = y := by
  rw [BitVec.extractLsb'_append_eq_of_add_le (by omega), BitVec.extractLsb'_eq_self]

/-- The fields of a result word at their places (12.3). -/
theorem Channel.resultWord_fields (ch : Channel) :
    ch.resultWord.extractLsb' 0 8 = ch.result.code ∧ ch.resultWord.extractLsb' 8 8 = ch.result.tag ∧
    ch.resultWord.extractLsb' 16 8 = ch.result.reason.code ∧
    ch.resultWord.extractLsb' 24 2 = ch.result.outcome.code ∧ ch.resultWord.extractLsb' 26 2 = 0 ∧
    ch.resultWord.extractLsb' 28 3 = ch.state.code ∧ ch.resultWord.extractLsb' 31 1 = 0 := by
  unfold Channel.resultWord
  refine ⟨?_, ?_, ?_, ?_, ?_, ?_, ?top⟩
  case top =>
    iterate rw [BitVec.extractLsb'_append_eq_of_le (by decide)]
    rfl
  all_goals
    iterate rw [BitVec.extractLsb'_append_eq_of_le (by decide)]
    exact extractLsb'_append_low _ _

/-- Settles O17: the word is the channel's result word. -/
theorem resultWordReads : Obligations.ResultWordReads := by
  unfold Obligations.ResultWordReads
  intro s addr be e c enabled h role off
  refine ⟨(s.chan c).resultWord, ?_, (s.chan c).resultWord_fields⟩
  rw [accessOf_exec rfl, State.access_order h enabled role]
  simp only [State.orderAccess, if_pos off]
  rfl

/-- A write of an ORDER page that is not accepted, whatever it carries (R12, R22, R23). -/
theorem State.orderAccess_turnedAway {s : State} {a : Access} {d : Word} {t : Attrs} (writes : a.write = some d)
    (c : ChanId) (turned : t.wp = true ∨ 8 ≤ s.queue.length ∨ t.barrier = true ∧ s.queue ≠ []) :
    s.orderAccess a c t = if t.wp = true then (s.raise .owned a.addr).answer .completeWrite else s.answer .retry := by
  simp only [State.orderAccess, writes, Bool.or_eq_true, State.queueFull_iff, barrier_iff]
  by_cases wp : t.wp = true
  · rw [if_pos wp, if_pos wp]
    rfl
  · rw [if_neg wp, if_neg wp, if_pos (turned.resolve_left wp)]

/-- Settles O18: every row is a write of the page that is turned away. -/
theorem orderWritesTurnedAway : Obligations.OrderWritesTurnedAway := by
  unfold Obligations.OrderWritesTurnedAway
  intro s addr be data e c enabled h role turned t
  have turnedAway (b : Lanes) (d : Word) (on : b ≠ 0) : s.access { addr := addr, be := b, write := some d } = t := by
    rw [State.access_order h on role]
    exact State.orderAccess_turnedAway rfl c turned
  have value (v : Word) : s.accessValue addr v = t := turnedAway 0xF _ (by decide)
  refine ⟨?_, ?_, ?_, ?_, ?_, fun code tag arg => ?_, fun cmd tag arg => ?_⟩
  iterate 5 · rw [accessOf_exec rfl, turnedAway be data enabled]
  · rw [orderWordUnknown_exec, value]
  · rw [orderRow_exec, value]

end Sys2Proof.Machine
end

section
/-! SUPPORT. SNAP and STATUS pages: the reads of a key that a buffer holds, the writes the part owns, and the words of a
STATUS page by their fields. -/

namespace Sys2Proof.Machine

/-! ### SNAP pages -/

/-- A read of a word whose key a FILLED buffer holds is served by that buffer (R143). -/
theorem State.snapRead_filled {s : State} {r : SnapRead} (ok : PoolOk s.pool) {i : Fin 6} {stale : Bool}
    {snap : Vector Word 12} (holds : s.pool.bufs[i] = .filled r.key stale snap) (word : r.offset < 0x30) :
    s.snapRead r = s.serve r i snap := by
  rw [State.snapRead_word word, State.snapWord, Pool.holder_of_key ok (i := i) (by rw [holds]; rfl)]
  simp only [holds]

/-- A read of a word whose key an ARMED buffer holds gives RETRY (R146). -/
theorem State.snapRead_armed {s : State} {r : SnapRead} (ok : PoolOk s.pool) {i : Fin 6}
    (holds : s.pool.bufs[i] = .armed r.key) (word : r.offset < 0x30) : s.snapRead r = s.answer .retry := by
  rw [State.snapRead_word word, State.snapWord, Pool.holder_of_key ok (i := i) (by rw [holds]; rfl)]
  simp only [holds]

/-- The offsets above the snapshot hold no word, the flush offset apart (R142). -/
theorem State.snapRead_above {s : State} {r : SnapRead} (above : 0x30 ≤ r.offset)
    (noFlush : r.offset ≠ flushOffset) : s.snapRead r = s.answer (.completeRead 0) := by
  rw [State.snapRead, if_neg noFlush, if_pos above]

theorem State.serve_word {s : State} {r : SnapRead} {w : Fin 12} (place : r.offset = 4 * w.val)
    (notEnd : r.offset ≠ endOffset) (i : Fin 6) (snap : Vector Word 12) :
    s.serve r i snap = s.answer (.completeRead (presented r.big r.be snap[w])) := by
  rw [State.serve, if_neg notEnd, show r.offset / 4 = w.val by omega, Vector.getElem?_eq_getElem w.isLt]
  rfl

theorem State.serve_end {s : State} {r : SnapRead} (place : r.offset = endOffset) (i : Fin 6) (snap : Vector Word 12) :
    s.serve r i snap =
      (s.answer (.completeRead (presented r.big r.be snap[11]))).mapPool (·.release i) := by
  rw [State.serve, if_pos place, place]
  rfl

/-- Settles O33: the buffer that holds the key is the holder, and it serves, waits or is not asked. -/
theorem snapReadsOfAHeldKey : Obligations.SnapReadsOfAHeldKey := by
  unfold Obligations.SnapReadsOfAHeldKey
  intro s addr be e c enabled h role ok k off big
  have read : s.access { addr := addr, be := be, write := none } =
      (s.used e).snapRead { key := k, offset := off, be := be, big := big } := State.access_snap_read h role enabled
  have usedOk : PoolOk (s.used e).pool := ok
  refine ⟨fun i w stale snap filled place notEnd => ?_, fun i stale snap filled place => ?_, fun i armed word => ?_,
    fun above noFlush => ?_⟩
  · have word : off < 0x30 := by omega
    rw [accessOf_exec rfl, read, State.snapRead_filled usedOk filled word, State.serve_word place notEnd]
    rfl
  · have word : off < 0x30 := by omega
    rw [accessOf_exec rfl, read, State.snapRead_filled usedOk filled word, State.serve_end place]
    rfl
  · have retry := State.snapRead_armed (r := { key := k, offset := off, be := be, big := big }) usedOk armed word
    exact ⟨by rw [accessOf_exec rfl, read, retry], by rw [accessOf_exec rfl, read, retry]⟩
  · rw [accessOf_exec rfl, read, State.snapRead_above above noFlush]

/-! ### Writes the part owns -/

/-- A write of a STATUS word that only raises OWNED: no word that can be written, or the command word without the whole
RESTART code (R168, R174). -/
theorem State.statusWrite_owned {addr : Addr} {be : Lanes} {data : Word} {big : Bool} (s : State)
    (owned :
      (offsetOf addr ≠ 0 ∧ offsetOf addr ≠ 8 ∧ offsetOf addr ≠ 0xC ∧ offsetOf addr ≠ 0x10 ∧
        offsetOf addr ≠ 0x14) ∨
      offsetOf addr = 8 ∧ ¬(be = 0xF ∧ inOrder big data = restartCode)) :
    s.statusWrite addr be data big = s.raise .owned addr := by
  unfold State.statusWrite
  dsimp only
  rcases owned with ⟨h0, h8, hC, h10, h14⟩ | ⟨h8, incomplete⟩
  · split <;> first | contradiction | rfl
  · simp only [h8, if_neg incomplete]

/-- Settles O38: each row is a write that a page drops, or that the status unit owns. -/
theorem writesThePartOwns : Obligations.WritesThePartOwns := by
  unfold Obligations.WritesThePartOwns
  intro s addr be data e enabled h t off
  have underWp (role : e.role = .status) (wp : e.attrs.wp = true) (b : Lanes) (d : Word) (on : b ≠ 0) :
      s.access { addr := addr, be := b, write := some d } = t := by
    rw [State.access_status h on role]
    exact if_pos wp
  have owned (role : e.role = .status)
      (word : (off ≠ 0 ∧ off ≠ 8 ∧ off ≠ 0xC ∧ off ≠ 0x10 ∧ off ≠ 0x14) ∨
        off = 8 ∧ ¬(be = 0xF ∧ inOrder (s.loader.setup.bigEndian != e.attrs.swap) data = restartCode)) :
      s.access { addr := addr, be := be, write := some data } = t := by
    by_cases wp : e.attrs.wp = true
    · exact underWp role wp be data enabled
    · rw [State.access_status_write h role (Bool.eq_false_iff.2 wp) enabled, State.statusWrite_owned _ word]
  refine ⟨fun c role => ?_, fun role wp => ?_, fun role word => ?_, fun role place part => ?_⟩
  · rw [accessOf_exec rfl, State.access_snap h enabled role]
    rfl
  · have row := underWp role wp be data enabled
    refine ⟨?_, ?_, ?_, ?_, ?_, ?_⟩
    case refine_2 => rw [restart_exec, State.accessValue, underWp role wp 0xF _ (by decide)]
    all_goals rw [accessOf_exec rfl, row]
  · rw [accessOf_exec rfl, owned role (.inl word)]
  · rw [accessOf_exec rfl, owned role (.inr ⟨place, fun whole => part.elim (· whole.1) (· whole.2)⟩)]

/-! ### The words of a STATUS page -/

/-- The bit ANY of the governor status word (R170). -/
@[simp] theorem ofNat_any (u : Status) : BitVec.ofNat 1 (if u.flags = 0#9 then 0 else 1) = BitVec.ofBool u.any := by
  unfold Status.any
  by_cases none : u.flags = 0#9
  · simp [none]
  · rw [if_neg none, show (u.flags != 0) = true from bne_iff_ne.2 none]
    rfl

theorem addrWord_wordOf (a : Addr) : addrWord a = wordOf [(23, 0, a.toNat)] := by
  rw [word_at_zero (addrWord a), addrWord, append_at]
  simp [wordOf_cons, wordOf_nil]

theorem lowHalf_wordOf (x : Half) : (0#16 ++ x : Word) = wordOf [(15, 0, x.toNat)] := by
  rw [word_at_zero (0#16 ++ x : Word), append_at]
  simp [wordOf_cons, wordOf_nil]

theorem twoHalves_wordOf (x y : Half) : (y ++ x : Word) = wordOf [(15, 0, x.toNat), (31, 16, y.toNat)] := by
  rw [word_at_zero (y ++ x : Word), append_at]
  simp [wordOf_cons, wordOf_nil]

theorem readback_wordOf (g : Gauge) :
    g.readback = wordOf [(15, 0, g.reading.toNat), (16, 16, g.valid.toNat)] := by
  rw [word_at_zero g.readback, Gauge.readback]
  iterate rw [append_at]
  simp [wordOf_cons, wordOf_nil]

/-- The words of several fields, each cut at its `++` from the lowest field up. -/
theorem statusWord_fields (s : State) :
    s.statusWord 0x00 = wordOf [(8, 0, s.status.flags.toNat), (16, 16, if s.status.flags = 0 then 0 else 1),
      (24, 24, s.status.te.toNat), (25, 25, s.status.trap.toNat), (26, 26, s.ring.halted.toNat)] ∧
    s.statusWord 0x10 = wordOf [(7, 0, s.status.maskA.toNat), (15, 8, s.status.maskB.toNat),
      (16, 16, s.field.stopA.accepted.toNat), (17, 17, s.field.stopB.accepted.toNat)] ∧
    s.statusWord 0x30 = wordOf [(8, 0, s.ring.producer), (24, 16, s.ring.copy)] ∧
    s.statusWord 0x34 = wordOf [(0, 0, s.loader.setup.bigEndian.toNat), (1, 1, s.loader.setup.pinMode.toNat),
      (11, 8, s.loader.setup.windowBase.toNat), (23, 16, s.loader.setup.autoPark.toNat),
      (25, 24, s.loader.setup.ringCode.toNat)] ∧
    s.statusWord 0x40 = wordOf [(7, 0, s.loader.setup.bound1.toNat), (15, 8, s.loader.setup.bound2.toNat),
      (23, 16, s.loader.setup.bound3.toNat)] := by
  refine ⟨?_, ?_, ?_, ?_, ?_⟩
  all_goals
    rw [word_at_zero (s.statusWord _)]
    simp only [State.statusWord]
    iterate rw [append_at]
    simp [wordOf_cons, wordOf_nil]

theorem statusWord_channels (s : State) : s.statusWord 0x18 =
    wordOf ((List.finRange 8).map (fun c => (0 + c.val, 0 + c.val, (s.field.permits[c].accepted).toNat)) ++
      (List.finRange 8).map (fun c => (8 + c.val, 8 + c.val, (s.chans[c].readings.los).toNat))) := by
  rw [word_at_zero (s.statusWord _)]
  simp only [State.statusWord]
  rw [append_at, append_at, chanBits_at, chanBits_at, wordOf_append]
  simp

theorem statusWord_gauge (s : State) : ∀ g : GaugeId, s.statusWord (0x1C + 4 * g.val) = s.field.gauges[g].readback
  | 0 | 1 | 2 | 3 => rfl

/-- An offset past the setup summary holds no word. -/
theorem statusWord_above (s : State) {o : Nat} (above : 0x50 ≤ o) : s.statusWord o = 0 := by
  unfold State.statusWord
  split <;> first | omega | rfl

/-- Settles O39, word by word. -/
theorem statusPageReads : Obligations.StatusPageReads := by
  unfold Obligations.StatusPageReads
  intro s addr be e enabled h role big w u v marks
  obtain ⟨governor, stop, ring, options, bounds⟩ := statusWord_fields s
  refine ⟨?_, governor, addrWord_wordOf _, rfl, lowHalf_wordOf _, stop, lowHalf_wordOf _, statusWord_channels s,
    fun g => (statusWord_gauge s g).trans (readback_wordOf _), rfl, ring, options, addrWord_wordOf _,
    addrWord_wordOf _, bounds, twoHalves_wordOf _ _, twoHalves_wordOf _ _, twoHalves_wordOf _ _,
    fun o => statusWord_above s⟩
  rw [accessOf_exec rfl, State.access_status h enabled role]
  rfl

end Sys2Proof.Machine
end

section
/-! SUPPORT. The memory port: whom the arbiter grants, what each initiator is granted, and how a held read and a drain
end. -/

namespace Sys2Proof.Machine

/-! ### The arbiter -/

theorem State.fetchWants_iff (s : State) : s.fetchWants = true ↔ s.map.fetcher.phase ≠ .idle := by
  simp [State.fetchWants]

/-- When the ring writer asks for the port (R161, R164). -/
theorem State.ringWants_iff (s : State) : s.ringWants = true ↔
    s.ring.halted = false ∧ (s.ring.rewritePending = true ∨
      s.ring.staging ≠ [] ∧ (s.ring.producer + 1) % (64 * 2 ^ s.loader.setup.ringCode.toNat) ≠ s.ring.copy) := by
  simp [State.ringWants, Ring.wants, Ring.full, Setup.ringSlots]

section Requester

variable {s : State}

theorem State.requester_fetcher (fetches : s.fetchWants = true) : s.requester = some .fetcher := by
  simp [State.requester, fetches]

/-- The ring writer's turn: early with 4 or more records, else after all others (R16). -/
theorem State.requester_ringWriter (noFetch : ¬s.fetchWants = true) (writes : s.ringWants = true)
    (turn : 4 ≤ s.ring.staging.length ∨ s.queue = [] ∧ s.port.held = none) : s.requester = some .ringWriter := by
  by_cases many : 4 ≤ s.ring.staging.length
  · simp [State.requester, noFetch, writes, many]
  · obtain ⟨empty, free⟩ := turn.resolve_left many
    simp [State.requester, noFetch, writes, many, empty, free]

/-- The queue's turn: before a held read with 6 or more entries, else where no read is held (R16). -/
theorem State.requester_queue (noFetch : ¬s.fetchWants = true)
    (noRing : ¬(s.ringWants = true ∧ 4 ≤ s.ring.staging.length)) (waits : s.queue ≠ [])
    (turn : 6 ≤ s.queue.length ∨ s.port.held = none) : s.requester = some .queue := by
  have one : 1 ≤ s.queue.length := List.length_pos_iff.2 waits
  by_cases many : 6 ≤ s.queue.length
  · simp [State.requester, noFetch, noRing, many]
  · simp [State.requester, noFetch, noRing, many, turn.resolve_left many, one]

theorem State.requester_heldRead (noFetch : ¬s.fetchWants = true)
    (noRing : ¬(s.ringWants = true ∧ 4 ≤ s.ring.staging.length)) (few : s.queue.length < 6)
    (held : s.port.held.isSome = true) : s.requester = some .heldRead := by
  simp [State.requester, noFetch, noRing, Nat.not_le.2 few, held]

theorem State.requester_none (noFetch : ¬s.fetchWants = true) (noRing : ¬s.ringWants = true) (empty : s.queue = [])
    (free : s.port.held = none) : s.requester = none := by
  simp [State.requester, noFetch, noRing, empty, free]

/-- One access at a time: a busy port grants nothing (R2). -/
theorem State.grant_busy (busy : s.mem ≠ none) : s.grant = s := by
  unfold State.grant
  split
  · contradiction
  · rfl

theorem State.grant_to {r : Requester} (free : s.mem = none) (asks : s.requester = some r) :
    s.grant = s.grantTo r := by
  simp only [State.grant, free, asks]

theorem State.grant_idle (nobody : s.requester = none) : s.grant = s := by
  unfold State.grant
  split
  · rename_i asks
    rw [nobody] at asks
    cases asks
  · rfl

/-! ### What each initiator is granted -/

theorem State.grantDrain_cons {q : QEntry} {rest : List QEntry} (queue : s.queue = q :: rest) : s.grantDrain =
    { s with mem := some { initiator := .drain, addr := q.addr, be := q.be, write := some q.data } } := by
  simp only [State.grantDrain, queue]

theorem State.grantHeld_some {h : HeldRead} (held : s.port.held = some h) : s.grantHeld =
    { s with mem := some { initiator := .heldRead, addr := h.addr, be := h.be, write := none } } := by
  simp only [State.grantHeld, held]

theorem State.grantRing_rewrite (pending : s.ring.rewritePending = true) : s.grantRing =
    { s with
      mem := some (s.ringWrite .rewrite s.loader.setup.producerAddr (BitVec.ofNat 32 s.ring.producer)) } :=
  if_pos pending

/-- A slot word of the publish under way (R161). -/
theorem State.grantRing_slot {x : Record} {rest : List Record} (noRewrite : s.ring.rewritePending = false)
    (staged : s.ring.staging = x :: rest) {k : Fin 8} (next : s.ring.next = k.val) : s.grantRing =
    { s with
      mem := some (s.ringWrite (.slotWord k.val) (s.loader.setup.slotAddr s.ring.producer k.val)
        (x.words s.ring.sequence)[k]) } := by
  simp only [State.grantRing, noRewrite, staged, next, k.isLt, dite_true, Bool.false_eq_true, if_false]
  rfl

/-- The producer word of the publish under way, at whose grant the producer advances (R161). -/
theorem State.grantRing_producer {x : Record} {rest : List Record} (noRewrite : s.ring.rewritePending = false)
    (staged : s.ring.staging = x :: rest) (last : 8 ≤ s.ring.next) : s.grantRing =
    { s with
      mem := some (s.ringWrite (.producerWord s.ring.producer) s.loader.setup.producerAddr
        (BitVec.ofNat 32 ((s.ring.producer + 1) % s.loader.setup.ringSlots)))
      ring := { s.ring with producer := (s.ring.producer + 1) % s.loader.setup.ringSlots } } := by
  simp only [State.grantRing, noRewrite, staged, Nat.not_lt.2 last, dite_false, Bool.false_eq_true, if_false]

end Requester

/-- Settles O43: whose turn it is by the `State.requester_` lemmas, what it is granted by those of its initiator. -/
theorem arbiterGrants : Obligations.ArbiterGrants := by
  unfold Obligations.ArbiterGrants
  intro s u r n fetches writes granted entry word ringTurn
  have noFetch (h : ¬fetches) : ¬s.fetchWants = true := fun w => h (s.fetchWants_iff.1 w)
  have noEarly (h : ¬(writes ∧ 4 ≤ r.staging.length)) : ¬(s.ringWants = true ∧ 4 ≤ s.ring.staging.length) :=
    fun w => h ⟨s.ringWants_iff.1 w.1, w.2⟩
  refine ⟨fun busy => congrArg Host.Outcome.next (State.grant_busy busy), fun free => ⟨?_, ?_, ?_, ?_, ?_, ?_⟩⟩
  · intro fetch
    exact congrArg Host.Outcome.next (State.grant_to free (State.requester_fetcher (s.fetchWants_iff.2 fetch)))
  · intro idle early q rest queue turn
    have asks := State.requester_queue (noFetch idle) (noEarly early) (by rw [queue]; nofun) turn
    exact congrArg Host.Outcome.next ((State.grant_to free asks).trans (State.grantDrain_cons queue))
  · intro idle early few h held
    have asks := State.requester_heldRead (noFetch idle) (noEarly early) few (by rw [held]; rfl)
    exact congrArg Host.Outcome.next ((State.grant_to free asks).trans (State.grantHeld_some held))
  · rintro ⟨idle, writer, turn⟩ pending
    have asks := State.requester_ringWriter (noFetch idle) (s.ringWants_iff.2 writer) turn
    exact congrArg Host.Outcome.next ((State.grant_to free asks).trans (State.grantRing_rewrite pending))
  · rintro ⟨idle, writer, turn⟩ noRewrite x rest staged
    have asks := State.requester_ringWriter (noFetch idle) (s.ringWants_iff.2 writer) turn
    refine ⟨fun k next => ?_, fun last => ?_⟩
    · exact congrArg Host.Outcome.next
        ((State.grant_to free asks).trans (State.grantRing_slot noRewrite staged next))
    · exact congrArg Host.Outcome.next
        ((State.grant_to free asks).trans (State.grantRing_producer noRewrite staged last))
  · intro idle silent empty noRead
    have asks := State.requester_none (noFetch idle) (fun w => silent (s.ringWants_iff.1 w)) empty noRead
    exact congrArg Host.Outcome.next (State.grant_idle asks)

/-! ### The end of a held read and of a drain -/

theorem State.answerHeld_some {s : State} {h : HeldRead} (held : s.port.held = some h) (a : HeldRead → Answer) :
    s.answerHeld a = { s with port := { held := none, answer := some (a h) } } := by
  simp only [State.answerHeld, held]

/-- A held read ends with the data or with an error, the timeout an error too (R2, R8). -/
theorem State.heldRead_ends {s : State} {h : HeldRead} (reads : s.initiator? = some .heldRead)
    (held : s.port.held = some h) :
    let ended (a : Answer) : State := { s with mem := none, port := { held := none, answer := some a } }
    (∀ data, s.memHeldDone data = ended (.completeRead (h.data data))) ∧ s.memHeldFailed = ended .error ∧
      s.memTimeout = ended .error := by
  have failed : s.memHeldFailed = { s with mem := none, port := { held := none, answer := some .error } } := by
    simp only [State.memHeldFailed, reads]
    exact State.answerHeld_some (s := s.portFree) held _
  refine ⟨fun data => ?_, failed, ?_⟩
  · simp only [State.memHeldDone, reads]
    exact State.answerHeld_some (s := s.portFree) held _
  · simp only [State.memTimeout, reads]
    exact failed

/-- A drain removes the head; where it fails its write is lost, with MEMERR and then the record (R28, R29). -/
theorem State.drain_ends {s : State} {q : QEntry} {rest : List QEntry} (drains : s.initiator? = some .drain)
    (queue : s.queue = q :: rest) :
    let done : State := { s with mem := none, queue := rest }
    s.memDrainDone = done ∧ s.memDrainFailed = (done.raise .memErr q.addr).stage (s.drainRecord q) ∧
      s.memTimeout = s.memDrainFailed := by
  have popped : s.portFree.popQueue = { s with mem := none, queue := rest } := by
    simp only [State.popQueue, State.portFree, queue, List.tail_cons]
  refine ⟨?_, ?_, ?_⟩
  · simp only [State.memDrainDone, drains]
    exact popped
  · simp only [State.memDrainFailed, drains, State.drainFailed, State.portFree_queue, queue, popped]
    rfl
  · simp only [State.memTimeout, drains]

/-- The record of a lost write by its fields (R29, R154). -/
theorem State.drainRecord_eq (s : State) (q : QEntry) : s.drainRecord q =
    match q.origin with
    | .order c =>
      { channel := some c, tag := 0, clock := s.status.clock, hole := s.chans[c].ctx.hole
        stageNo := s.chans[c].ctx.stageNo, payload := .memoryError q.addr (some q.origin) }
    | o => plainRecord s.status.clock (.memoryError q.addr (some o)) := by
  unfold State.drainRecord
  cases q.origin <;> rfl

/-- Settles O44, by the ends of a held read and of a drain. -/
theorem heldReadsAndDrainsEnd : Obligations.HeldReadsAndDrainsEnd := by
  unfold Obligations.HeldReadsAndDrainsEnd
  intro s
  refine ⟨fun h reads held => ?_, fun q rest drains queue => ?_⟩
  · obtain ⟨done, failed, timeout⟩ := State.heldRead_ends reads held
    exact ⟨fun data => congrArg Host.Outcome.next (done data), congrArg Host.Outcome.next failed,
      congrArg Host.Outcome.next timeout⟩
  · obtain ⟨done, failed, timeout⟩ := State.drain_ends drains queue
    rw [State.drainRecord_eq] at failed
    exact ⟨congrArg Host.Outcome.next done, congrArg Host.Outcome.next failed,
      congrArg Host.Outcome.next (timeout.trans failed)⟩

end Sys2Proof.Machine
end

section
/-! SUPPORT. What an accepted write of an ORDER page outside the order word leaves in the staged image and the queue. -/

namespace Sys2Proof.Machine

/-- Word `k` of the staged image takes the enabled lanes of a write at its offset (R53, R54). -/
theorem Channel.capture_word (ch : Channel) (k : Fin 18) (be : Lanes) (data : Word) :
    ch.capture (8 + 4 * k.val) be data =
      { ch with image := ch.image.set k ((ch.image[k] &&& ~~~laneMask be) ||| (data &&& laneMask be)) } := by
  have place : (8 + 4 * k.val - 8) / 4 = k.val := by omega
  simp only [Channel.capture, place, k.isLt, dite_true]
  rfl

/-- A write at the offset of an image word is captured and queued (R52, R54). -/
theorem State.orderWrite_area (s : State) {w : OrderWrite} {k : Fin 18} (place : offsetOf w.addr = 8 + 4 * k.val) :
    s.orderWrite w = s.captureArea w := by
  have := k.isLt
  simp only [State.orderWrite]
  rw [if_neg (by omega), if_neg (by omega), if_pos (by omega)]

/-- A write above the order area is queued and no more (R52). -/
theorem State.orderWrite_program (s : State) {w : OrderWrite} (above : 0x50 ≤ offsetOf w.addr) :
    s.orderWrite w = s.queueAsWritten w := by
  simp only [State.orderWrite]
  rw [if_neg (by omega), if_neg (by omega), if_neg (by omega)]

/-- Settles O19, by the region the write falls in. -/
theorem orderPageWrites : Obligations.OrderPageWrites := by
  unfold Obligations.OrderPageWrites
  intro s addr be data e c enabled accepted entry
  refine ⟨fun k place => ?_, fun above => ?_⟩
  · rw [accessOf_exec rfl, State.access_accepted accepted enabled, State.orderWrite_area _ place, State.captureArea,
      place]
    simp only [Channel.capture_word]
    rfl
  · rw [accessOf_exec rfl, State.access_accepted accepted enabled, State.orderWrite_program _ above]
    rfl

end Sys2Proof.Machine
end

section
/-! SUPPORT. The shapes of the blocks (R20, R37 to R46, R141, R146, R157 to R163, R170): the ends a command can come to,
each with its guard, and what each end keeps of each block. -/

namespace Sys2Proof.Machine

/-! ### What a command comes to -/

/-- `Ends s t`: a command in `s` ends in `t` by one of these operations, each with the guard under which it acts. The
end of an access of the memory port stands here by what it does, whichever row brought it; an event of the field by the
records it stages, with whatever it leaves of the channels, the lines and the counter of free values. -/
inductive Ends (s : State) : State → Prop
  | same : Ends s s
  | access (a : Access) : Ends s (s.access a)
  | assertReset : Ends s s.assertReset
  /-- the loader or the lines alone change, RUNNING neither entered nor left -/
  | idle (l : Loader) (f : Field) (setup : l.setup = s.loader.setup)
      (mode : l.mode = .running ↔ s.loader.mode = .running) : Ends s { s with loader := l, field := f }
  | enterRunning (u : Setup) (off : s.loader.mode ≠ .running) : Ends s (s.enterRunning u)
  | tick : Ends s s.tick
  | fillArmed (k : BufKey) : Ends s (s.fillArmed k true)
  | expire (k : BufKey) : Ends s (s.expire k)
  | grantTo (r : Requester) (free : s.mem = none) (asks : s.requester = some r) : Ends s (s.grantTo r)
  | heldEnd (a : HeldRead → Answer) (reads : s.initiator? = some .heldRead) : Ends s (s.portFree.answerHeld a)
  | drainDone (drains : s.initiator? = some .drain) : Ends s s.portFree.popQueue
  | drainFailed (drains : s.initiator? = some .drain) : Ends s s.portFree.drainFailed
  | fetchStaleEnd (failed : Bool) (fetches : s.initiator? = some .fetch) : Ends s (s.portFree.fetchStaleEnd failed)
  | fetchFirstDone (data : Word) (fetches : s.initiator? = some .fetch) (first : s.map.fetcher.phase = .first) :
      Ends s (s.portFree.fetchFirstDone data)
  | placeEntry (fetches : s.initiator? = some .fetch) (second : s.map.fetcher.phase = .second) :
      Ends s s.portFree.placeEntry
  | fetchFail (fetches : s.initiator? = some .fetch) : Ends s s.portFree.fetchFail
  | abandoned (a : RingAccess) (writes : s.initiator? = some (.ring a true)) : Ends s s.portFree
  | slotDone (k : Nat) (writes : s.initiator? = some (.ring (.slotWord k) false)) : Ends s (s.portFree.slotDone k)
  | publishDone (p : Nat) (writes : s.initiator? = some (.ring (.producerWord p) false)) : Ends s s.portFree.publishDone
  | rewriteDone (writes : s.initiator? = some (.ring .rewrite false)) : Ends s s.portFree.rewriteDone
  | ringFailed (a : RingAccess) (abandoned : Bool) (addr : Addr)
      (writes : s.initiator? = some (.ring a abandoned)) : Ends s (s.portFree.ringFailed a abandoned addr)
  | sampled (chans : Vector Channel 8) (f : Field) (es : List Effect) (k : BufKey) :
      Ends s (State.fillArmed { State.performAll { s with chans := chans } es with field := f } k false)
  | staged (chans : Vector Channel 8) (f : Field) (n : Nat) (rs : List Record) :
      Ends s (State.stageAll { s with chans := chans, field := f, choices := n } rs)

namespace Ends

/-! #### The loader: only the completed read of a good stream enters RUNNING -/

/-- LOADING to SAFE_PASS, or a change of the loader within LOADING. -/
theorem loading {s : State} {l : Loader} (phase : ∃ p, s.loader.loadingIn p = true)
    (setup : l.setup = s.loader.setup) (off : l.mode ≠ .running) : Ends s { s with loader := l } := by
  obtain ⟨p, loading⟩ := phase
  have mode := Loader.loadingIn_mode loading
  exact .idle l s.field setup ⟨fun run => absurd run off, fun run => by rw [mode] at run; cases run⟩

theorem releaseReset (s : State) : Ends s s.releaseReset := by
  unfold State.releaseReset
  split_ifs
  · exact .idle _ _ rfl .rfl
  · exact .same

theorem noAck (s : State) : Ends s s.noAck := by
  unfold State.noAck
  split_ifs with reading third
  · exact .loading ⟨_, reading⟩ rfl nofun
  · exact .idle _ s.field rfl .rfl
  · exact .same

theorem retryRead (s : State) : Ends s s.retryRead := by
  unfold State.retryRead
  split_ifs
  · exact .idle _ s.field rfl .rfl
  · exact .same

theorem readDone (s : State) (bytes : List Byte) : Ends s (s.readDone bytes) := by
  unfold State.readDone
  dsimp only
  split_ifs with reading
  · exact .enterRunning _ (by rw [Loader.loadingIn_mode reading]; nofun)
  · exact .loading ⟨_, reading⟩ rfl nofun
  · exact .same

/-! #### The memory port -/

theorem grant (s : State) : Ends s s.grant := by
  unfold State.grant
  split
  · exact .grantTo _ ‹_› ‹_›
  · exact .same

theorem memHeldDone (s : State) (data : Word) : Ends s (s.memHeldDone data) := by
  unfold State.memHeldDone
  split
  · exact .heldEnd _ ‹_›
  · exact .same

theorem memHeldFailed (s : State) : Ends s s.memHeldFailed := by
  unfold State.memHeldFailed
  split
  · exact .heldEnd _ ‹_›
  · exact .same

theorem memDrainDone (s : State) : Ends s s.memDrainDone := by
  unfold State.memDrainDone
  split
  · exact .drainDone ‹_›
  · exact .same

theorem memDrainFailed (s : State) : Ends s s.memDrainFailed := by
  unfold State.memDrainFailed
  split
  · exact .drainFailed ‹_›
  · exact .same

theorem memFetchDone (s : State) (first : Bool) (data : Word) : Ends s (s.memFetchDone first data) := by
  unfold State.memFetchDone State.fetchRead
  split
  · rename_i fetches
    split_ifs with stale one two
    · exact .fetchStaleEnd _ fetches
    · simp only [Bool.and_eq_true, beq_iff_eq] at one
      exact .fetchFirstDone _ fetches one.2
    · simp only [Bool.and_eq_true, beq_iff_eq] at two
      exact .placeEntry fetches two.2
    · exact .same
  · exact .same

theorem memFetchFailed (s : State) : Ends s s.memFetchFailed := by
  unfold State.memFetchFailed State.fetchReadFailed
  split
  · split_ifs
    · exact .fetchStaleEnd _ ‹_›
    · exact .fetchFail ‹_›
  · exact .same

theorem memStaleEnd (s : State) (failed : Bool) : Ends s (s.memStaleEnd failed) := by
  unfold State.memStaleEnd
  split
  · split_ifs
    · exact .fetchStaleEnd _ ‹_›
    · exact .same
  · exact .same

theorem memSlotDone (s : State) : Ends s s.memSlotDone := by
  unfold State.memSlotDone
  split
  · rename_i k abandoned writes
    cases abandoned
    · exact .slotDone k writes
    · exact .abandoned _ writes
  · exact .same

theorem memProducerDone (s : State) : Ends s s.memProducerDone := by
  unfold State.memProducerDone
  split
  · rename_i p abandoned writes
    cases abandoned
    · exact .publishDone p writes
    · exact .abandoned _ writes
  · exact .same

theorem memRewriteDone (s : State) : Ends s s.memRewriteDone := by
  unfold State.memRewriteDone
  split
  · rename_i abandoned writes
    cases abandoned
    · exact .rewriteDone writes
    · exact .abandoned _ writes
  · exact .same

theorem memRingFailed (s : State) : Ends s s.memRingFailed := by
  unfold State.memRingFailed
  split
  · rename_i m mem
    split
    · rename_i a abandoned ring
      exact .ringFailed a abandoned _ (by simp [State.initiator?, mem, ring])
    · exact .same
  · exact .same

/-- The timeout ends each access as an error of its initiator does (R2). -/
theorem memTimeout (s : State) : Ends s s.memTimeout := by
  unfold State.memTimeout
  split
  · exact memHeldFailed s
  · exact memDrainFailed s
  · exact memFetchFailed s
  · exact memRingFailed s
  · exact .same

/-! #### The field -/

theorem sample (s : State) (c : ChanId) (smp : Sample) : Ends s (s.sampled c smp) := by
  unfold State.sampled
  split_ifs
  · exact .sampled _ _ _ _
  · exact .same

theorem reportTaken (s : State) (watched watcher : ChanId) : Ends s (s.reportTaken watched watcher) := by
  unfold State.reportTaken
  split
  · exact .same
  · exact .staged _ _ s.choices _

/-- An event that every channel takes, after a change of the lines or gauges. -/
theorem eachChan (s : State) (f : Field) (others : List Record) (g : ChanId → Channel → Channel × List Record) :
    Ends s (State.eachChan { s with field := f } others g) :=
  .staged _ f _ _

theorem gaugeSampled (s : State) (g : GaugeId) (reading : Half) (valid : Bool) :
    Ends s (s.gaugeSampled g reading valid) := by
  unfold State.gaugeSampled
  split_ifs
  · exact eachChan s _ _ _
  · exact .same

theorem changeRaw (s : State) (line : FieldLine) (level : Bool) : Ends s (s.changeRaw line level) :=
  .idle s.loader _ rfl .rfl

/-- An accepted change is handed on as one event of every channel. -/
theorem lineChanged (s : State) (f : Field) (line : FieldLine) (level : Bool) :
    Ends s (State.lineChanged { s with field := f } line level) := by
  cases line with
  | stop l =>
    simp only [State.lineChanged, State.stopChanged]
    exact eachChan s f _ _
  | permit c =>
    simp only [State.lineChanged, State.permitChanged]
    exact eachChan s f _ _

theorem debounceExpired (s : State) (line : FieldLine) : Ends s (s.debounceExpired line) := by
  unfold State.debounceExpired
  dsimp only
  split_ifs
  · exact lineChanged s _ _ _
  · exact .idle s.loader _ rfl .rfl

/-! #### Every command -/

theorem of_exec {c : Instr} {s t : State} (runs : exec c s = .next t) : Ends s t :=
  exec_cases (P := Ends s) s (access := .access) (assertReset := .assertReset) (releaseReset := releaseReset s)
    (noAck := noAck s) (retryRead := retryRead s) (readDone := readDone s) (tick := .tick)
    (fillArmed := fun _ => .fillArmed _) (expire := .expire) (grant := grant s) (timeout := memTimeout s)
    (heldDone := memHeldDone s) (heldFailed := memHeldFailed s) (drainDone := memDrainDone s)
    (drainFailed := memDrainFailed s) (fetchDone := memFetchDone s) (fetchFailed := memFetchFailed s)
    (staleEnd := memStaleEnd s) (slotDone := memSlotDone s) (producerDone := memProducerDone s)
    (ringFailed := memRingFailed s) (rewriteDone := memRewriteDone s) (sampled := sample s)
    (reportTaken := reportTaken s) (gaugeSampled := gaugeSampled s) (changeRaw := changeRaw s)
    (debounceExpired := debounceExpired s) c t runs

/-- A step runs a command, and none looks at the commands that wait behind it. -/
theorem of_step {s t : State} (runs : step s = .next t) : t = s ∨ ∃ rest, Ends { s with pending := rest } t := by
  unfold step at runs
  split at runs
  · injection runs with e
    exact .inl e.symm
  · exact .inr ⟨_, .of_exec runs⟩

end Ends

/-! ### What the ends leave as it is -/

@[simp] theorem State.enterRunning_frame (s : State) (u : Setup) :
    (s.enterRunning u).mem = s.mem ∧
    (s.enterRunning u).queue = s.queue ∧
    (s.enterRunning u).map = s.map ∧
    (s.enterRunning u).pool = s.pool ∧
    (s.enterRunning u).ring = { s.ring with rewritePending := true } := by
  simp [State.enterRunning]

@[simp] theorem State.tick_frame (s : State) :
    s.tick.loader = s.loader ∧
    s.tick.mem = s.mem ∧
    s.tick.queue = s.queue ∧
    s.tick.map = s.map ∧
    s.tick.pool = s.pool ∧
    s.tick.ring = s.ring ∧
    s.tick.status.flags = s.status.flags ∧
    s.tick.status.faultAddr = s.status.faultAddr := by
  unfold State.tick; split_ifs <;> simp

/-- What a grant does: it takes the memory port, or gives it to nobody; at the grant of a producer word the producer
advances, and the access keeps the value to go back to (R161, R163). -/
theorem State.grantTo_cases {s : State} (free : s.mem = none) (r : Requester) :
    (∃ m, s.grantTo r = { s with mem := m } ∧ ∀ b a, m.map (·.initiator) ≠ some (.ring (.producerWord b) a)) ∨
    ∃ m, s.grantTo r = { s with
        mem := some m
        ring := { s.ring with producer := (s.ring.producer + 1) % s.loader.setup.ringSlots } } ∧
      m.initiator = .ring (.producerWord s.ring.producer) false := by
  have nobody : s = { s with mem := none } := by rw [← free]
  cases r with
  | fetcher => exact .inl ⟨_, rfl, nofun⟩
  | queue =>
    by_cases empty : s.queue = []
    · exact .inl ⟨none, by simpa only [State.grantTo, State.grantDrain, empty] using nobody, nofun⟩
    · obtain ⟨q, rest, queue⟩ := List.exists_cons_of_ne_nil empty
      exact .inl ⟨_, State.grantDrain_cons queue, nofun⟩
  | heldRead =>
    cases held : s.port.held with
    | none => exact .inl ⟨none, by simpa only [State.grantTo, State.grantHeld, held] using nobody, nofun⟩
    | some h => exact .inl ⟨_, State.grantHeld_some held, nofun⟩
  | ringWriter =>
    cases pending : s.ring.rewritePending with
    | true => exact .inl ⟨_, State.grantRing_rewrite pending, nofun⟩
    | false =>
      cases staged : s.ring.staging with
      | nil =>
        refine .inl ⟨none, ?_, nofun⟩
        simpa only [State.grantTo, State.grantRing, pending, staged, Bool.false_eq_true, if_false] using nobody
      | cons x rest =>
        by_cases slot : s.ring.next < 8
        · exact .inl ⟨_, State.grantRing_slot pending staged (k := ⟨_, slot⟩) rfl, nofun⟩
        · exact .inr ⟨_, State.grantRing_producer pending staged (Nat.not_lt.1 slot), rfl⟩

theorem State.grantTo_frame {s : State} (free : s.mem = none) (r : Requester) :
    (s.grantTo r).loader = s.loader ∧
    (s.grantTo r).queue = s.queue ∧
    (s.grantTo r).pool = s.pool ∧
    (s.grantTo r).ring.staging = s.ring.staging ∧
    (s.grantTo r).ring.held = s.ring.held ∧
    (s.grantTo r).status = s.status := by
  obtain ⟨m, e, _⟩ | ⟨m, e, _⟩ := State.grantTo_cases free r <;> simp [e]

theorem State.drainFailed_queue (s : State) : s.drainFailed.queue = s.queue.tail := by
  unfold State.drainFailed
  split
  · rename_i empty
    rw [empty, List.tail_nil]
  · simp

/-! ### The operations of the memory port, block by block -/

theorem StagingOk.congr {r q : Ring} (h : StagingOk r) (staging : q.staging = r.staging) (held : q.held = r.held) :
    StagingOk q :=
  ⟨by rw [staging]; exact h.length, by rw [staging, held]; exact h.full, by rw [held]; exact h.close⟩

theorem StatusOk.congr {u v : Status} (h : StatusOk u) (flags : v.flags = u.flags) (addr : v.faultAddr = u.faultAddr) :
    StatusOk v := by
  unfold StatusOk
  rw [flags, addr]
  exact h

/-- A publish ends with the head gone, and only a staged record is published (R162). -/
theorem StagingOk.publishDone {s : State} (h : StagingOk s.ring) : StagingOk s.publishDone.ring := by
  unfold State.publishDone
  split
  · exact h
  · rename_i x rest staged
    have removed : StagingOk s.ring.removeHead := h.removeHead (by rw [staged]; nofun)
    exact removed.congr (by simp) (by simp)

theorem RingAccess.undo_records (a : RingAccess) (r : Ring) :
    (a.undo r).staging = r.staging ∧ (a.undo r).held = r.held := by
  cases a <;> exact ⟨rfl, rfl⟩

theorem StagingOk.ringFailed {s : State} (h : StagingOk s.ring) (a : RingAccess) (abandoned : Bool) (addr : Addr) :
    StagingOk (s.ringFailed a abandoned addr).ring := by
  unfold State.ringFailed
  split_ifs
  · exact h
  · obtain ⟨staging, held⟩ := a.undo_records s.ring
    exact h.congr staging held

theorem StatusOk.placeEntry {s : State} (h : StatusOk s.status) : StatusOk s.placeEntry.status := by
  unfold State.placeEntry
  dsimp only
  split_ifs
  · exact .raise _ _
  · exact h

theorem StatusOk.drainFailed {s : State} (h : StatusOk s.status) : StatusOk s.drainFailed.status := by
  unfold State.drainFailed
  split
  · exact h
  · exact .stage (s := s.popQueue.raise _ _) (.raise _ _) _

theorem StatusOk.ringFailed (s : State) (a : RingAccess) (abandoned : Bool) (addr : Addr) :
    StatusOk (s.ringFailed a abandoned addr).status := by
  unfold State.ringFailed
  split_ifs <;> exact .raise _ _

theorem State.drainFailed_indices (s : State) :
    s.drainFailed.ring.producer = s.ring.producer ∧ s.drainFailed.ring.copy = s.ring.copy := by
  unfold State.drainFailed
  split
  · exact ⟨rfl, rfl⟩
  · exact State.stage_indices _ _

theorem State.fetchError_indices (s : State) :
    s.fetchError.ring.producer = s.ring.producer ∧ s.fetchError.ring.copy = s.ring.copy :=
  State.stage_indices (State.raise s _ _) _

theorem Ring.removeHead_indices (r : Ring) : r.removeHead.producer = r.producer ∧ r.removeHead.copy = r.copy := by
  unfold Ring.removeHead
  split <;> exact ⟨rfl, rfl⟩

theorem State.publishDone_indices (s : State) :
    s.publishDone.ring.producer = s.ring.producer ∧ s.publishDone.ring.copy = s.ring.copy := by
  unfold State.publishDone
  split
  · exact ⟨rfl, rfl⟩
  · rename_i x rest staged
    simpa using s.ring.removeHead_indices

/-! ### What each end keeps of each block -/

section Keeps

variable {s t : State}

/-- A write is queued by an access, and an entry leaves at the end of its drain (R21, R28, R29); no other end reaches the
queue, but the reset. -/
theorem Ends.keeps_queue (ends : Ends s t) (h : QueueOk s.queue) : QueueOk t.queue := by
  cases ends with
  | access a => exact h.access s a
  | assertReset => exact .nil
  | grantTo r free asks =>
    obtain ⟨_, queue, _⟩ := State.grantTo_frame free r
    rwa [queue]
  | drainDone => exact h.pop
  | drainFailed => rw [State.drainFailed_queue]; exact h.pop
  | _ => simpa using h

/-- A buffer changes by an access, by the fill of an armed one and by its timers. -/
theorem Ends.keeps_pool (ends : Ends s t) (h : PoolOk s.pool) : PoolOk t.pool := by
  cases ends with
  | access a => exact h.access s a
  | assertReset => exact .empty
  | grantTo r free asks =>
    obtain ⟨_, _, pool, _⟩ := State.grantTo_frame free r
    rwa [pool]
  | fillArmed k => exact h.fillArmed s k true
  | expire k => exact h.expire s k
  | sampled chans f es k => exact .fillArmed _ k false (by simpa using h)
  | _ => simpa using h

/-- The staging queue takes the records of an event and loses its head at the end of a publish (R156 to R158, R162). -/
theorem Ends.keeps_staging (ends : Ends s t) (h : StagingOk s.ring) : StagingOk t.ring := by
  cases ends with
  | access a => exact h.access s a
  | assertReset => exact ⟨Nat.zero_le 8, nofun, nofun⟩
  | grantTo r free asks =>
    obtain ⟨_, _, _, staging, held, _⟩ := State.grantTo_frame free r
    exact h.congr staging held
  | drainFailed => exact .drainFailed _ h
  | fetchStaleEnd failed =>
    cases failed
    · exact h
    · exact .fetchError _ h
  | fetchFail => exact .fetchError _ h
  | publishDone => exact .publishDone h
  | ringFailed a abandoned addr => exact .ringFailed (s := s.portFree) h a abandoned addr
  | sampled chans f es k =>
    have events := StagingOk.performAll (s := { s with chans := chans }) h es
    simpa using events
  | staged chans f n rs => exact .stageAll (s := { s with chans := chans, field := f, choices := n }) h rs
  | _ => exact h.congr (by simp) (by simp)

/-- An event raises flags, and with a flag set the fault address may be any (R170). -/
theorem Ends.keeps_status (ends : Ends s t) (h : StatusOk s.status) : StatusOk t.status := by
  cases ends with
  | access a => exact h.access s a
  | assertReset => exact fun _ => rfl
  | enterRunning => exact h
  | grantTo r free asks =>
    obtain ⟨_, _, _, _, _, status⟩ := State.grantTo_frame free r
    rwa [status]
  | drainFailed => exact .drainFailed h
  | fetchStaleEnd failed =>
    cases failed
    · exact h
    · exact .fetchError _
  | placeEntry => exact .placeEntry h
  | fetchFail => exact .fetchError _
  | ringFailed a abandoned addr => exact .ringFailed _ a abandoned addr
  | sampled chans f es k =>
    have events := StatusOk.performAll (s := { s with chans := chans }) h es
    simpa using events
  | staged chans f n rs => exact .stageAll (s := { s with chans := chans, field := f, choices := n }) h rs
  | _ => exact h.congr (by simp) (by simp)

/-- The map unit changes by an access and by the end of a read of the fetcher (R39 to R46). -/
theorem Ends.keeps_fetch (ends : Ends s t) (h : s.FetchOk) : t.FetchOk := by
  cases ends with
  | access a => exact h.access s a
  | assertReset => exact .free .reset rfl
  | grantTo r free asks => exact h.grantTo s free asks
  | fetchStaleEnd failed => exact .free (.fetchStaleEnd _ failed h.unit) (by simp)
  | fetchFirstDone data fetches first =>
    have flying : s.map.fetcher.phase ≠ .idle := by rw [first]; nofun
    exact .free (h.unit.setFetcher _ fun _ => ⟨flying, rfl⟩) (by simp)
  | placeEntry fetches second =>
    have flying : s.map.fetcher.phase ≠ .idle := by rw [second]; nofun
    refine .free ?_ (by simp)
    rw [State.placeEntry_map]
    exact h.unit.placed flying _
  | fetchFail fetches =>
    have failed := h.unit.failed (h.flying (s.fetchOutstanding_of fetches))
    exact .free (by simpa [State.fetchFail, State.fetchPhase] using failed) (by simp)
  | same | idle | enterRunning | tick | fillArmed | expire | sampled | staged => exact h.same (by simp) (by simp)
  | _ => exact .free (by simpa using h.unit) (by simp)

/-- A grant of the producer word advances the producer below N and keeps the value it had (R161, R163). -/
theorem State.IndicesOk.grantTo (h : s.IndicesOk) (free : s.mem = none) (r : Requester) : (s.grantTo r).IndicesOk := by
  obtain ⟨m, e, other⟩ | ⟨m, e, word⟩ := State.grantTo_cases free r <;> rw [e]
  · exact ⟨h.before, h.producer, h.copy, fun b a writes => absurd writes (other b a)⟩
  · refine ⟨h.before, Nat.mod_lt _ (Setup.ringSlots_pos _), h.copy, fun b a writes => ?_⟩
    have : b = s.ring.producer := by simp_all [State.initiator?]
    rw [this]
    exact h.producer

/-- A failed producer word takes the producer back to a value below N (R163). -/
theorem State.IndicesOk.ringFailed (h : s.IndicesOk) {a : RingAccess} {abandoned : Bool}
    (writes : s.initiator? = some (.ring a abandoned)) (addr : Addr) :
    (s.portFree.ringFailed a abandoned addr).IndicesOk := by
  unfold State.ringFailed
  split_ifs
  · exact h.same rfl rfl rfl (.inr rfl)
  · cases a with
    | producerWord b => exact ⟨h.before, h.undo b _ writes, h.copy, nofun⟩
    | slotWord k => exact h.same rfl rfl rfl (.inr rfl)
    | rewrite => exact h.same rfl rfl rfl (.inr rfl)

/-- Outside RUNNING the ring has its 64 slots of reset, and no setup value gives it fewer (R159, R165). -/
theorem State.IndicesOk.enterRunning (h : s.IndicesOk) (off : s.loader.mode ≠ .running) (u : Setup) :
    (s.enterRunning u).IndicesOk := by
  have grows : s.loader.setup.ringSlots ≤ u.ringSlots := by
    unfold Setup.ringSlots
    rw [h.before off]
    exact Nat.mul_le_mul_left 64 Nat.one_le_two_pow
  exact ⟨fun left => absurd rfl left, h.producer.trans_le grows, h.copy.trans_le grows,
    fun b a writes => (h.undo b a writes).trans_le grows⟩

/-- The indices move by a write of the consumer word, by a restart, by a grant and by the failure of the producer word
(R160 to R164). -/
theorem Ends.keeps_indices (ends : Ends s t) (h : s.IndicesOk) : t.IndicesOk := by
  cases ends with
  | access a => exact h.access s a
  | assertReset => exact ⟨fun _ => rfl, Nat.zero_lt_succ 63, Nat.zero_lt_succ 63, nofun⟩
  | idle l f setup mode =>
    refine ⟨fun off => ?_, ?_, ?_, ?_⟩ <;> simp only [setup]
    · exact h.before (fun run => off (mode.2 run))
    · exact h.producer
    · exact h.copy
    · exact h.undo
  | enterRunning u off => exact h.enterRunning off u
  | grantTo r free asks => exact h.grantTo free r
  | drainFailed =>
    obtain ⟨producer, copy⟩ := s.portFree.drainFailed_indices
    exact h.same (by simp) producer copy (.inr (by simp))
  | fetchStaleEnd failed =>
    cases failed
    · exact h.same rfl rfl rfl (.inr rfl)
    · obtain ⟨producer, copy⟩ := (s.portFree.fetchPhase .idle).fetchError_indices
      exact h.same (by simp) producer copy (.inr (by simp))
  | fetchFail =>
    obtain ⟨producer, copy⟩ := (s.portFree.fetchPhase .idle).fetchError_indices
    exact h.same (by simp) producer copy (.inr (by simp))
  | publishDone =>
    obtain ⟨producer, copy⟩ := s.portFree.publishDone_indices
    exact h.same (by simp) producer copy (.inr (by simp))
  | ringFailed a abandoned addr writes => exact h.ringFailed writes addr
  | sampled chans f es k =>
    obtain ⟨producer, copy⟩ := State.performAll_indices { s with chans := chans } es
    exact h.same (by simp) (by simpa using producer) (by simpa using copy) (by simp)
  | staged chans f n rs =>
    obtain ⟨producer, copy⟩ := State.stageAll_indices { s with chans := chans, field := f, choices := n } rs
    exact h.same (by simp) producer copy (by simp)
  | _ => exact h.same (by simp) (by simp) (by simp) (by simp)

end Keeps

/-! ### The statement -/

/-- Settles O57: each block keeps its shape through each end a command can come to. -/
theorem stepKeepsTheBlocks : Obligations.StepKeepsTheBlocks := by
  unfold Obligations.StepKeepsTheBlocks
  intro s t runs
  obtain rfl | ⟨rest, ends⟩ := Ends.of_step runs
  · exact ⟨id, id, id, id, id, id⟩
  · exact ⟨ends.keeps_queue, ends.keeps_pool, ends.keeps_staging, ends.keeps_status,
      fun h => ends.keeps_fetch (h.same rfl rfl), fun h => ends.keeps_indices (h.sameRing rfl rfl rfl)⟩

end Sys2Proof.Machine
end

section
/-! SUPPORT. How the reads of a fetch end, by the entry that word 0 resolves to and by what a failed read leaves; and what
a restart and a reset leave of every block. -/

namespace Sys2Proof.Machine

/-! ### The entry that word 0 resolves to -/

/-- A channel byte below 8 names its channel, every other one makes the entry INVALID (R35). -/
theorem roleOfChannel_eq (role : ChanId → Role) (n : Nat) :
    (if h : n < 8 then role ⟨n, h⟩ else .invalid) = if n ≤ 7 then role (Fin.ofNat 8 n) else .invalid := by
  by_cases h : n < 8
  · rw [dif_pos h, if_pos (Nat.le_of_lt_succ h)]
    exact congrArg role (Fin.ext (Nat.mod_eq_of_lt h).symm)
  · rw [dif_neg h, if_neg (by omega)]

/-- The role by the role code and the channel byte of word 0 (R35, 12.2). -/
theorem resolveRole_eq (w : Word) : resolveRole w =
    if bitsOf w 7 0 = 1 then .pass else if bitsOf w 7 0 = 4 then .status
    else if bitsOf w 7 0 = 2 ∧ bitsOf w 15 8 ≤ 7 then .order (Fin.ofNat 8 (bitsOf w 15 8))
    else if bitsOf w 7 0 = 3 ∧ bitsOf w 15 8 ≤ 7 then .snap (Fin.ofNat 8 (bitsOf w 15 8))
    else .invalid := by
  have code : (w.extractLsb' 0 8).toNat = bitsOf w 7 0 := toNat_cut w 0 8 (by decide)
  have channel : (w.extractLsb' 8 8).toNat = bitsOf w 15 8 := toNat_cut w 8 8 (by decide)
  simp only [resolveRole, code, channel, roleOfChannel_eq]
  split
  case h_5 notPass notOrder notSnap notStatus =>
    rw [if_neg notPass, if_neg notStatus, if_neg (notOrder ·.1), if_neg (notSnap ·.1)]
  all_goals simp [*]

/-- A PIN entry is placed unpinned exactly where 8 entries are pinned (R42). -/
theorem MapUnit.fetched_pinFull (m : MapUnit) (p : PageId) (w : Word) :
    ((m.fetched p w).attrs.pin && !(m.fetched p w).pinned) = (w.getLsbD 16 && !decide (m.pinnedCount < 8)) := by
  show (w.getLsbD 16 && !(w.getLsbD 16 && _)) = _
  cases w.getLsbD 16 <;> rfl

/-- A completed fetch places its entry, with PINFULL where its PIN does not hold (R41, R42). -/
theorem State.placeEntry_eq (s : State) : s.placeEntry =
    let f := s.map.fetcher
    let placed : State := { s with
      map := { s.map with
        cache := s.map.makeRoom ++ [s.map.fetched f.page f.word0], fetcher := { f with phase := .idle } } }
    if f.word0.getLsbD 16 && !decide (s.map.pinnedCount < 8) then
      placed.raise .pinFull (s.loader.setup.entryAddr f.page)
    else placed := by
  simp only [State.placeEntry, MapUnit.fetched_pinFull]
  rfl

/-! ### A read that fails -/

/-- The failure mark of a fetch goes onto what MEMERR and the record leave (R45). -/
theorem State.fetchFail_eq (s : State) : s.fetchFail =
    { (s.fetchPhase .idle).fetchError with
      map := { (s.fetchPhase .idle).map with failed := some s.map.fetcher.page } } := by
  obtain ⟨_, _, _, _, map, _⟩ := (s.fetchPhase .idle).fetchError_frame
  rw [State.fetchFail, State.mapMap, map]

/-- The failed read of a stale fetch leaves the failure mark as it is (R44). -/
theorem State.fetchStaleEnd_failed (s : State) : s.fetchStaleEnd true =
    { (s.fetchPhase .idle).fetchError with map := (s.fetchPhase .idle).map } := by
  obtain ⟨_, _, _, _, map, _⟩ := (s.fetchPhase .idle).fetchError_frame
  rw [← map]
  rfl

/-! ### The rows of a fetch read -/

section Fetch

variable {s : State}

theorem State.memFetchDone_of_fetch (fetches : s.initiator? = some .fetch) (first : Bool) (data : Word) :
    s.memFetchDone first data = s.fetchRead first data := by
  simp only [State.memFetchDone, fetches]

theorem State.memFetchFailed_of_fetch (fetches : s.initiator? = some .fetch) :
    s.memFetchFailed = s.fetchReadFailed := by
  simp only [State.memFetchFailed, fetches]

/-- The timeout of a fetch read is its failure (R2). -/
theorem State.memTimeout_of_fetch (fetches : s.initiator? = some .fetch) : s.memTimeout = s.fetchReadFailed := by
  simp only [State.memTimeout, fetches, State.memFetchFailed_of_fetch]

theorem State.memStaleEnd_of_stale (fetches : s.initiator? = some .fetch) (stale : s.map.fetcher.stale = true)
    (failed : Bool) : s.memStaleEnd failed = s.portFree.fetchStaleEnd failed := by
  simp only [State.memStaleEnd, fetches, stale, if_true]

theorem State.fetchRead_first (fresh : s.map.fetcher.stale = false) (first : s.map.fetcher.phase = .first)
    (data : Word) : s.fetchRead true data = s.portFree.fetchFirstDone data := by
  simp [State.fetchRead, fresh, first]

theorem State.fetchRead_second (fresh : s.map.fetcher.stale = false) (second : s.map.fetcher.phase = .second)
    (data : Word) : s.fetchRead false data = s.portFree.placeEntry := by
  simp [State.fetchRead, fresh, second]

theorem State.fetchReadFailed_fresh (fresh : s.map.fetcher.stale = false) :
    s.fetchReadFailed = s.portFree.fetchFail := by
  simp [State.fetchReadFailed, fresh]

theorem State.fetchReadFailed_stale (stale : s.map.fetcher.stale = true) :
    s.fetchReadFailed = s.portFree.fetchStaleEnd true := by
  simp [State.fetchReadFailed, stale]

end Fetch

/-- Settles O45: each row is the end of a fetch read, and each end is what the map unit does with it. -/
theorem fetchesEnd : Obligations.FetchesEnd := by
  unfold Obligations.FetchesEnd
  intro s data fetches m f entry idle room code channel role attrs pin fits placed failed
  have fails (fresh : f.stale = false) : s.fetchReadFailed = failed (some f.page) :=
    (State.fetchReadFailed_fresh fresh).trans s.portFree.fetchFail_eq
  have staleFails : s.portFree.fetchStaleEnd true = failed m.failed := s.portFree.fetchStaleEnd_failed
  refine ⟨fun fresh first => ?_, fun fresh second => ?_, fun fresh => ⟨?_, ?_⟩, fun stale => ⟨?_, ?_, ?_⟩⟩ <;>
    refine congrArg Host.Outcome.next ?_
  · rw [State.memFetchDone_of_fetch fetches, State.fetchRead_first fresh first]
    rfl
  · have resolved : resolveRole f.word0 = role := resolveRole_eq f.word0
    rw [State.memFetchDone_of_fetch fetches, State.fetchRead_second fresh second, State.placeEntry_eq]
    simp only [MapUnit.fetched, State.portFree_map, State.portFree_loader]
    rw [resolved]
    rfl
  · rw [State.memFetchFailed_of_fetch fetches, fails fresh]
  · rw [State.memTimeout_of_fetch fetches, fails fresh]
  · rw [State.memStaleEnd_of_stale fetches stale]
    rfl
  · rw [State.memStaleEnd_of_stale fetches stale, staleFails]
  · rw [State.memTimeout_of_fetch fetches, State.fetchReadFailed_stale stale, staleFails]

/-! ### The governor restart -/

/-- A fetch in flight at a restart becomes stale, and ends there if none of its reads is outstanding (R44, R49). -/
theorem State.spoiled_fetcher (s : State) : s.map.fetcher.spoil s.fetchOutstanding =
    if s.map.fetcher.phase = .idle then s.map.fetcher
    else { s.map.fetcher with
      stale := true, phase := if s.initiator? = some .fetch then s.map.fetcher.phase else .idle } := by
  simp only [Fetcher.spoil, State.fetchOutstanding_iff]

/-- A whole word given as a value, written to a STATUS page without WP (R14, R185). -/
theorem State.accessValue_status {s : State} {addr : Addr} {e : CacheEntry} (h : s.hits addr e)
    (role : e.role = .status) (wp : e.attrs.wp = false) (v : Word) : s.accessValue addr v =
      ((s.used e).statusWrite addr 0xF (inOrder (s.pageOrder e.attrs.swap) v)
        (s.pageOrder e.attrs.swap)).answer .completeWrite := by
  have whole : (0xF : Lanes) ≠ 0 := by decide
  rw [State.accessValue_hit h]
  exact (State.access_hit h whole).symm.trans (State.access_status_write h role wp whole _)

/-- The whole RESTART code at the command word of a STATUS page restarts the governor (R174). -/
theorem State.statusWrite_restart (s : State) {addr : Addr} (place : offsetOf addr = 8) (big : Bool) :
    s.statusWrite addr 0xF (inOrder big restartCode) big = s.restart := by
  simp only [State.statusWrite, place, inOrder_inOrder, and_self, if_true]

/-- Settles O42: the row writes the code in the page's byte order, and the restart goes block by block. -/
theorem governorRestart : Obligations.GovernorRestart := by
  unfold Obligations.GovernorRestart
  intro s addr e h role wp place f
  have restarts : s.accessValue addr restartCode = (s.used e).restart.answer .completeWrite := by
    rw [State.accessValue_status h role wp, State.statusWrite_restart _ place]
  rw [restart_exec, restarts, State.restart, mapVector_eq, State.spoiled_fetcher]
  rfl

/-! ### Reset -/

theorem State.reset_chan (c : ChanId) : State.reset.chans[c] = Channel.reset := by simp [State.reset]

theorem State.reset_permit (c : ChanId) : State.reset.field.permits[c] = Line.reset false false := by
  simp [State.reset, Field.reset]

theorem State.reset_gauge (g : GaugeId) : State.reset.field.gauges[g] = Gauge.reset := by
  simp [State.reset, Field.reset]

theorem State.reset_buf (i : Fin 6) : State.reset.pool.bufs[i] = .free := by simp [State.reset, Pool.empty]

/-- Right after reset the reset line is still asserted, so asserting it changes nothing (R178). -/
theorem State.reset_assertReset : State.reset.assertReset = State.reset := rfl

theorem State.CloseRecordsOk.reset : State.reset.CloseRecordsOk := by
  intro c
  rw [State.reset_chan]
  rfl

theorem State.ChannelsOk.reset : State.reset.ChannelsOk where
  off _ c := by rw [State.reset_chan]; rfl
  ok c := by rw [State.reset_chan]; exact .reset _

theorem State.IndicesOk.reset : State.reset.IndicesOk :=
  ⟨fun _ => rfl, Nat.zero_lt_succ 63, Nat.zero_lt_succ 63, nofun⟩

theorem State.QuietOk.reset : State.reset.QuietOk := State.reset_assertReset ▸ .assertReset State.reset

/-- Settles O2: the values block by block, and each invariant at them. -/
theorem resetState : Obligations.ResetState := by
  unfold Obligations.ResetState
  intro s
  refine ⟨rfl, rfl, rfl, rfl, rfl, rfl, rfl, rfl, rfl, rfl, rfl, fun c => ?_, rfl, rfl, rfl, rfl, State.reset_gauge,
    State.reset_buf, rfl, rfl, rfl, rfl, rfl, rfl, rfl, rfl, ?_⟩
  · rw [State.reset_chan, State.reset_permit]
    exact ⟨rfl, rfl, rfl, rfl, rfl, rfl, rfl, rfl, rfl⟩
  · exact ⟨.nil, .empty, ⟨Nat.zero_le 8, nofun, nofun⟩, fun _ => rfl, .free .reset rfl, .reset, .reset, .reset, .reset⟩

end Sys2Proof.Machine
end

section
/-! SUPPORT. The envelope of the channels (`State.ChannelsOk`), operation by operation: most of them touch neither the
loader nor a channel; RUNNING is entered with every channel VACANT; each event of a channel keeps its own envelope. -/

namespace Sys2Proof.Machine

/-! ### The ends of the memory port -/

@[simp] theorem State.memHeldDone_chans (s : State) (data : Word) :
    (s.memHeldDone data).loader = s.loader ∧ (s.memHeldDone data).chans = s.chans := by
  unfold State.memHeldDone; split <;> simp

@[simp] theorem State.memHeldFailed_chans (s : State) :
    s.memHeldFailed.loader = s.loader ∧ s.memHeldFailed.chans = s.chans := by
  unfold State.memHeldFailed; split <;> simp

@[simp] theorem State.memDrainDone_chans (s : State) :
    s.memDrainDone.loader = s.loader ∧ s.memDrainDone.chans = s.chans := by
  unfold State.memDrainDone; split <;> simp

@[simp] theorem State.memDrainFailed_chans (s : State) :
    s.memDrainFailed.loader = s.loader ∧ s.memDrainFailed.chans = s.chans := by
  unfold State.memDrainFailed; split <;> simp

@[simp] theorem State.memFetchDone_chans (s : State) (first : Bool) (data : Word) :
    (s.memFetchDone first data).loader = s.loader ∧ (s.memFetchDone first data).chans = s.chans := by
  unfold State.memFetchDone State.fetchRead
  split
  · split_ifs <;> simp
  · simp

@[simp] theorem State.memFetchFailed_chans (s : State) :
    s.memFetchFailed.loader = s.loader ∧ s.memFetchFailed.chans = s.chans := by
  unfold State.memFetchFailed State.fetchReadFailed
  split
  · split_ifs <;> simp
  · simp

@[simp] theorem State.memStaleEnd_chans (s : State) (failed : Bool) :
    (s.memStaleEnd failed).loader = s.loader ∧ (s.memStaleEnd failed).chans = s.chans := by
  unfold State.memStaleEnd
  split
  · split_ifs <;> simp
  · simp

@[simp] theorem State.memSlotDone_chans (s : State) :
    s.memSlotDone.loader = s.loader ∧ s.memSlotDone.chans = s.chans := by
  unfold State.memSlotDone
  split
  · split_ifs <;> simp
  · simp

@[simp] theorem State.memRewriteDone_chans (s : State) :
    s.memRewriteDone.loader = s.loader ∧ s.memRewriteDone.chans = s.chans := by
  unfold State.memRewriteDone
  split
  · split_ifs <;> simp
  · simp

@[simp] theorem State.memRingFailed_chans (s : State) :
    s.memRingFailed.loader = s.loader ∧ s.memRingFailed.chans = s.chans := by
  unfold State.memRingFailed
  split
  · split <;> simp
  · simp

@[simp] theorem State.memTimeout_chans (s : State) :
    s.memTimeout.loader = s.loader ∧ s.memTimeout.chans = s.chans := by
  unfold State.memTimeout
  split <;> simp

@[simp] theorem State.tick_chans (s : State) : s.tick.chans = s.chans := by
  unfold State.tick
  split_ifs <;> rfl

/-! ### Changes of the channels -/

section Envelope

variable {s : State}

/-- A change of one channel, in RUNNING or out of it, that keeps it within its envelope and VACANT if it is VACANT. -/
theorem State.ChannelsOk.setOne (h : s.ChannelsOk) {t : State} (loader : t.loader = s.loader) {c : ChanId}
    {ch : Channel} (chans : t.chans = s.chans.set c ch) (ok : ChannelOk s.loader.setup ch)
    (vacant : s.chans[c].state = .vacant → ch.state = .vacant) : t.ChannelsOk where
  off off k := by
    rw [loader] at off
    rw [chans, chans_set_get]
    split_ifs
    · exact vacant (h.off off c)
    · exact h.off off k
  ok k := by
    rw [loader, chans, chans_set_get]
    split_ifs
    · exact ok
    · exact h.ok k

/-- An event that every channel takes, after a change of the lines or gauges (R125, R127, R129, R131). -/
theorem State.ChannelsOk.eachChan (h : s.ChannelsOk) (run : s.loader.mode = .running) (f : Field) (others : List Record)
    (g : ChanId → Channel → Channel × List Record)
    (keeps : ∀ (u : Setup) (c : ChanId) (ch : Channel), ChannelOk u ch → ChannelOk u (g c ch).1) :
    (State.eachChan { s with field := f } others g).ChannelsOk :=
  .running run (by simp) fun c => by
    rw [State.eachChan_get]
    exact keeps _ c _ (h.ok c)

/-! ### Reset and the setup loader -/

theorem State.ChannelsOk.assertReset (s : State) : s.assertReset.ChannelsOk :=
  State.ChannelsOk.reset.congr rfl rfl

/-- A change of the loader that neither enters nor leaves RUNNING and keeps the setup values. -/
theorem State.ChannelsOk.withLoader (h : s.ChannelsOk) {t : State}
    (mode : t.loader.mode = .running ↔ s.loader.mode = .running) (setup : t.loader.setup = s.loader.setup)
    (chans : t.chans = s.chans) : t.ChannelsOk where
  off off c := by rw [chans]; exact h.off (fun run => off (mode.2 run)) c
  ok c := by rw [setup, chans]; exact h.ok c

theorem State.ChannelsOk.releaseReset (h : s.ChannelsOk) : s.releaseReset.ChannelsOk := by
  unfold State.releaseReset
  split_ifs
  · exact h.withLoader .rfl rfl rfl
  · exact h

/-- LOADING goes to SAFE_PASS with the setup values of reset (R184). -/
theorem State.ChannelsOk.enterSafePass (h : s.ChannelsOk) (loading : s.loader.mode = .loading) :
    s.enterSafePass.ChannelsOk :=
  h.withLoader ⟨nofun, fun run => by rw [loading] at run; cases run⟩ rfl rfl

/-- RUNNING is entered with every channel VACANT, whose cleared context lies within any setup values (R65, R96, R99). -/
theorem State.ChannelsOk.enterRunning (h : s.ChannelsOk) (off : s.loader.mode ≠ .running) (u : Setup) :
    (s.enterRunning u).ChannelsOk where
  off left := absurd rfl left
  ok c := by
    have vacant := h.off off c
    have ctx : ContextOk u s.chans[c].state s.chans[c].ctx := by
      rw [(h.ok c).ctx.cleared vacant, vacant]
      exact .clear u
    exact ⟨ctx, (h.ok c).readings⟩

theorem State.ChannelsOk.noAck (h : s.ChannelsOk) : s.noAck.ChannelsOk := by
  unfold State.noAck
  split_ifs with reading third
  · exact h.enterSafePass (Loader.loadingIn_mode reading)
  · exact h.withLoader .rfl rfl rfl
  · exact h

theorem State.ChannelsOk.retryRead (h : s.ChannelsOk) : s.retryRead.ChannelsOk := by
  unfold State.retryRead
  split_ifs
  · exact h.withLoader .rfl rfl rfl
  · exact h

theorem State.ChannelsOk.readDone (h : s.ChannelsOk) (bytes : List Byte) : (s.readDone bytes).ChannelsOk := by
  unfold State.readDone
  dsimp only
  split_ifs with reading
  · exact h.enterRunning (by rw [Loader.loadingIn_mode reading]; nofun) _
  · exact h.enterSafePass (Loader.loadingIn_mode reading)
  · exact h

/-! ### Publication of a close record -/

theorem Channel.published_vacant {ch : Channel} (vacant : ch.state = .vacant) : ch.published.state = .vacant := by
  simp [Channel.published, vacant]

/-- A published close record takes its channel from CLOSING to CLOSED (R88, R106). -/
theorem State.ChannelsOk.publishDone (h : s.ChannelsOk) : s.publishDone.ChannelsOk := by
  unfold State.publishDone
  split
  · exact h
  · unfold State.closePublished
    split
    · rename_i c _ _
      exact h.setOne rfl rfl (h.ok c).published Channel.published_vacant
    · exact h.congr rfl rfl

theorem State.ChannelsOk.memProducerDone (h : s.ChannelsOk) : s.memProducerDone.ChannelsOk := by
  unfold State.memProducerDone
  split
  · split_ifs
    · exact h.congr rfl rfl
    · exact State.ChannelsOk.publishDone (s := s.portFree) (h.congr rfl rfl)
  · exact h

/-! ### The field -/

/-- A sample arrival is the work of its channel; the reports and the buffer touch no channel (R85, R101). -/
theorem State.ChannelsOk.sampled (h : s.ChannelsOk) (c : ChanId) (smp : Sample) : (s.sampled c smp).ChannelsOk := by
  unfold State.sampled
  split_ifs with run
  · have ok := (h.ok c).sample (s.sampleEnv c smp) smp
    exact State.ChannelsOk.set h run (by simp) c _ (by simp [State.setChan, State.chan]) ok
  · exact h

/-- A VACANT channel takes no report (R134). -/
theorem Channel.takeReport_vacant {ch : Channel} (vacant : ch.state = .vacant) (c : ChanId) (clock : Word)
    (r : Report) : (ch.takeReport c clock r).1.state = .vacant := by
  simp [Channel.takeReport, vacant]

theorem State.ChannelsOk.reportTaken (h : s.ChannelsOk) (watched watcher : ChanId) :
    (s.reportTaken watched watcher).ChannelsOk := by
  unfold State.reportTaken
  split
  · exact h
  · rename_i r _
    exact h.setOne (by simp) (by simp [State.setChan, State.chan]) ((h.ok watcher).takeReport watcher s.status.clock r)
      (fun vacant => Channel.takeReport_vacant vacant _ _ _)

theorem State.ChannelsOk.gaugeSampled (h : s.ChannelsOk) (g : GaugeId) (reading : Half) (valid : Bool) :
    (s.gaugeSampled g reading valid).ChannelsOk := by
  unfold State.gaugeSampled
  split_ifs with run
  · refine h.eachChan run _ _ _ fun u c ch ok => ?_
    split_ifs
    · exact ok.gaugeSample c _ _
    · exact ok
  · exact h

/-- An accepted change parks the stages it concerns (R125, R126, R129). -/
theorem State.ChannelsOk.lineChanged (h : s.ChannelsOk) (run : s.loader.mode = .running) (f : Field) (line : FieldLine)
    (level : Bool) : (State.lineChanged { s with field := f } line level).ChannelsOk := by
  have parks (p : Prop) [Decidable p] (clock : Word) (k : Cause) (u : Setup) (c : ChanId) (ch : Channel)
      (ok : ChannelOk u ch) : ChannelOk u (if p then ch.park c clock k else (ch, [])).1 := by
    split_ifs
    · exact ok.park c clock k
    · exact ok
  cases line with
  | stop l =>
    simp only [State.lineChanged, State.stopChanged]
    exact h.eachChan run f _ _ fun u c ch => parks _ _ _ u c ch
  | permit p =>
    simp only [State.lineChanged, State.permitChanged]
    exact h.eachChan run f _ _ fun u c ch => parks _ _ _ u c ch

theorem State.ChannelsOk.debounceExpired (h : s.ChannelsOk) (line : FieldLine) :
    (s.debounceExpired line).ChannelsOk := by
  by_cases run : s.loader.mode = .running
  · unfold State.debounceExpired
    dsimp only
    split_ifs
    · exact h.lineChanged run _ line _
    · exact h.congr rfl rfl
  · rw [State.debounceExpired_off run]
    exact h.congr rfl rfl

/-! ### Every command -/

theorem State.ChannelsOk.exec {c : Instr} {t : State} (h : s.ChannelsOk) (runs : exec c s = .next t) : t.ChannelsOk :=
  have same {t : State} (loader : t.loader = s.loader) (chans : t.chans = s.chans) : t.ChannelsOk :=
    h.congr loader chans
  exec_cases (P := State.ChannelsOk) s
    (access := fun a => .access s a h)
    (assertReset := .assertReset s) (releaseReset := h.releaseReset) (noAck := h.noAck) (retryRead := h.retryRead)
    (readDone := h.readDone) (tick := same (by simp) s.tick_chans)
    (fillArmed := fun _ => same (by simp) (by simp)) (expire := fun _ => same (by simp) (by simp))
    (grant := same (by simp) (by simp)) (timeout := same (by simp) (by simp))
    (heldDone := fun _ => same (by simp) (by simp)) (heldFailed := same (by simp) (by simp))
    (drainDone := same (by simp) (by simp)) (drainFailed := same (by simp) (by simp))
    (fetchDone := fun _ _ => same (by simp) (by simp)) (fetchFailed := same (by simp) (by simp))
    (staleEnd := fun _ => same (by simp) (by simp))
    (slotDone := same (by simp) (by simp)) (producerDone := h.memProducerDone)
    (ringFailed := same (by simp) (by simp)) (rewriteDone := same (by simp) (by simp))
    (sampled := h.sampled) (reportTaken := h.reportTaken) (gaugeSampled := h.gaugeSampled)
    (changeRaw := fun _ _ => same (by simp) (by simp)) (debounceExpired := h.debounceExpired) c t runs

end Envelope

/-- Settles O59, by the invariant `ChannelsOk` through each operation a command can come to. -/
theorem stepKeepsTheEnvelope : Obligations.StepKeepsTheEnvelope := by
  unfold Obligations.StepKeepsTheEnvelope
  intro s t ok runs
  exact step_keeps (P := State.ChannelsOk) (ignores := fun s _ h => h.congr rfl rfl)
    (keeps := fun _ _ _ h e => h.exec e) s t ok runs

end Sys2Proof.Machine
end

section
/-! SUPPORT. Order words (R55 to R61): the raise of a flag, the words that reach no channel, and the commands that a
channel's state refuses. -/

namespace Sys2Proof.Machine

/-! ### The result word and the order words of no command -/

/-- A flag is set where its bit is (R169). -/
theorem Status.has_eq (u : Status) (f : Flag) : u.has f = u.flags.getLsbD f.index := by
  have place : f.index < 9 := by cases f <;> decide
  have bit : f.bit = BitVec.twoPow 9 f.index := (BitVec.twoPow_eq 9 f.index).symm
  rw [Status.has, bit, BitVec.and_twoPow]
  cases u.flags.getLsbD f.index
  · rfl
  · have nonzero : BitVec.twoPow 9 f.index ≠ 0 := by cases f <;> decide
    simpa using nonzero

/-- A raise: the flag set, the fault address latched with no flag set before, the trap taken on the flag's rise with TE
set (R169, R170, R172). -/
theorem Status.raise_eq (u : Status) (f : Flag) (addr : Addr) : u.raise f addr =
    { u with
      flags := u.flags ||| f.bit
      faultAddr := if u.flags = 0 then addr else u.faultAddr
      trap := if u.te = true ∧ u.flags.getLsbD f.index = false then true else u.trap
      te := if u.te = true ∧ u.flags.getLsbD f.index = false then false else u.te } := by
  have any : (if u.any = true then u.faultAddr else addr) = if u.flags = 0 then addr else u.faultAddr := by
    by_cases clear : u.flags = 0 <;> simp [Status.any, clear]
  rw [Status.raise, any, Status.has_eq]
  cases u.te <;> cases u.flags.getLsbD f.index <;> simp

/-- Settles O20: the write lands at the result word, where the capture raises OWNED and no more (R55). -/
theorem resultWordWrites : Obligations.ResultWordWrites := by
  unfold Obligations.ResultWordWrites
  intro s addr be data e c enabled accepted place
  have owned (w : OrderWrite) (here : w.addr = addr) : (s.used e).orderWrite w = (s.used e).raise .owned addr := by
    simp [State.orderWrite, here, place]
  rw [accessOf_exec rfl, State.access_accepted accepted enabled, owned _ rfl, State.raise, Status.raise_eq]
  rfl

/-- An order word is taken at offset 0 (R52). -/
theorem State.orderWrite_word (s : State) {w : OrderWrite} (place : offsetOf w.addr = 0) :
    s.orderWrite w = s.orderWord w := by
  simp only [State.orderWrite, place, if_true]

/-- The refusal of an order word with fewer than four enables (R56, R59, R61). -/
theorem State.orderWord_width (s : State) {w : OrderWrite} (part : w.be ≠ 0xF) : s.orderWord w =
    (({ s with chans := s.chans.set w.chan { s.chans[w.chan] with
        result := { code := 0, tag := 0, outcome := .refused, reason := .width } } } : State).raise
      .refuse w.addr).stage (s.chans[w.chan].refusedRecord w.chan s.status.clock 0 0 0 .width) := by
  simp only [State.orderWord, if_pos part, State.orderWidth, State.refusal, State.mapChan, State.setChan_chan_self]
  rfl

/-- The refusal of an order word whose code is no command (R57, R59, R61). -/
theorem State.orderUnknown_eq (s : State) (w : OrderWrite) (code tag : Byte) (arg : Half) :
    s.orderUnknown w code tag arg =
    (({ s with chans := s.chans.set w.chan { s.chans[w.chan] with
        result := { code := code, tag := tag, outcome := .refused, reason := .unknown } } } : State).stage
      (s.chans[w.chan].refusedRecord w.chan s.status.clock code tag arg .unknown)).queueAsWritten w := by
  simp only [State.orderUnknown, State.refusal, State.mapChan, State.setChan_chan_self]
  rfl

/-- Settles O21: both are refused before the channel, by their enables and by their code. -/
theorem orderWordsOfNoCommand : Obligations.OrderWordsOfNoCommand := by
  unfold Obligations.OrderWordsOfNoCommand
  intro s addr e c accepted after news
  obtain ⟨order, place⟩ := accepted
  refine ⟨fun be data enabled part => ?_, fun code tag arg unknown => ?_⟩
  · rw [accessOf_exec rfl, State.access_accepted order enabled, State.orderWrite_word _ place,
      State.orderWord_width _ part]
    rfl
  · rw [orderWordUnknown_exec, State.accessValue_accepted ⟨order, place⟩, Command.ofCode_unknown unknown]
    simp only [State.orderUnknown_eq]
    rfl

/-! ### Commands that the channel's state refuses -/

/-- A channel refuses a command that its state does not take, for the reason of the state (R62, R67, R69, R76, R89, R91,
R92, R95). -/
theorem Channel.command_refusedIn {ch : Channel} {cmd : Command} {why : Reason}
    (refused : cmd.refusedIn ch.state = some why) (env : CommandEnv) (big : Bool) (tag : Byte) (arg : Half) :
    ch.command env big cmd tag arg = Verdict.refuse ch why := by
  cases cmd with
  | load | start | resume =>
    -- taken in one state and refused in every other
    cases state : ch.state <;>
      simp_all [Command.refusedIn, Channel.command, Channel.cmdLoad, Channel.cmdStart, Channel.cmdResume]
  | retarget | extend =>
    cases state : ch.state <;> simp_all [Command.refusedIn, Channel.command, Channel.cmdRetarget, Channel.cmdExtend]
  | park | close | release =>
    cases state : ch.state <;>
      simp_all [Command.refusedIn, Channel.command, Channel.cmdPark, Channel.cmdClose, Channel.cmdRelease]

/-- The channel's state refuses with BUSY or STATE (R62, R89, R95). -/
theorem Command.refusedIn_reason {cmd : Command} {state : ChState} {why : Reason}
    (refused : cmd.refusedIn state = some why) : why = .busy ∨ why = .state := by
  unfold Command.refusedIn at refused
  split at refused <;> simp_all

/-- A refused word is queued as written, but for a RETARGET above the Pmax of a loaded stage and an EXTEND above the
site cap ceiling (R61, R68, R70). -/
theorem Channel.disposal_refuse (ch : Channel) {cmd : Command} {arg : Half} {why : Reason}
    (noClamp : cmd = .retarget → ch.state = .vacant ∨ arg.toNat ≤ ch.ctx.pmax) (noCap : why ≠ .capCeiling) :
    ch.disposal cmd arg (Verdict.refuse ch why) = .asWritten := by
  cases cmd with
  | retarget =>
    refine if_neg fun ⟨loaded, above⟩ => ?_
    rcases noClamp rfl with vacant | within
    · exact loaded vacant
    · omega
  | extend => exact if_neg noCap
  | _ => rfl

/-- Settles O22: the verdict is the refusal of the state, and the word is queued as written. -/
theorem commandsRefusedByState : Obligations.CommandsRefusedByState := by
  unfold Obligations.CommandsRefusedByState
  intro s addr e c cmd tag arg why accepted refused noClamp
  have noCap : why ≠ .capCeiling := by rcases Command.refusedIn_reason refused with rfl | rfl <;> nofun
  exact exec_orderRow_refused accepted cmd tag arg why (Channel.command_refusedIn refused _ _ _ _)
    (Channel.disposal_refuse _ noClamp noCap)

end Sys2Proof.Machine
end

section
/-! SUPPORT. LOAD (R53, R54, R63 to R66): the tests in their order, the depth band, and the stage order in the
staged image. -/

namespace Sys2Proof.Machine

/-! ### The tests -/

/-- The first test that fails, in a list of tests that begins with this one. -/
theorem firstReason_cons (failed : Bool) (why : Reason) (rest : List (Bool × Reason)) :
    (((failed, why) :: rest).find? (·.1)).map (·.2) =
      if failed = true then some why else (rest.find? (·.1)).map (·.2) := by
  cases failed <;> rfl

/-- No test fails where the first passes and none fails after it. -/
theorem firstReason_none (failed : Prop) [Decidable failed] (why : Reason) (rest : Option Reason) :
    (if failed then some why else rest) = none ↔ ¬failed ∧ rest = none := by
  split_ifs with h <;> simp [h]


/-- The depth band is the highest whose boundary, with boundary 0 at 0 m, lies at or below the top depth in whole metres
(R64). -/
theorem Setup.bandOf_highest (u : Setup) (depth : Nat) :
    let boundary (k : Fin 4) : Nat := [0, u.bound1.toNat, u.bound2.toNat, u.bound3.toNat][k]
    boundary (u.bandOf depth) ≤ depth / 10 ∧ ∀ k, u.bandOf depth < k → depth / 10 < boundary k := by
  intro boundary
  have b0 : boundary 0 = 0 := rfl
  have b1 : boundary 1 = u.bound1.toNat := rfl
  have b2 : boundary 2 = u.bound2.toNat := rfl
  have b3 : boundary 3 = u.bound3.toNat := rfl
  unfold Setup.bandOf
  dsimp only
  split_ifs with h3 h2 h1
  · exact ⟨h3, fun k above => by omega⟩
  · refine ⟨h2, fun k above => ?_⟩
    have : k = 3 := by omega
    rw [this]
    omega
  · refine ⟨h1, fun k above => ?_⟩
    have : k = 2 ∨ k = 3 := by omega
    rcases this with rfl | rfl <;> omega
  · refine ⟨Nat.zero_le _, fun k above => ?_⟩
    have : k = 1 ∨ k = 2 ∨ k = 3 := by omega
    rcases this with rfl | rfl | rfl <;> omega

theorem Setup.ceilingOf_eq (u : Setup) (k : Fin 4) : u.ceilingOf k =
    [u.ceiling0.toNat, u.ceiling1.toNat, u.ceiling2.toNat, u.ceiling3.toNat][k] := by
  fin_cases k <;> rfl

/-- The watch entries that LOAD refuses (R63, test 9). -/
theorem badWatch_eq (self : ChanId) (w : Nat × Nat × Nat) : badWatch self w =
    decide (7 < w.1 ∨ w.1 = self.val ∨ w.2.1 ≠ 1 ∧ w.2.1 ≠ 2 ∨ w.2.2 = 0 ∨ 8000 < w.2.2) := by
  simp only [badWatch, Bool.decide_or, Bool.decide_and, decide_not, Bool.not_or, Bool.or_assoc]
  rfl

/-- The tests pass exactly where every field lies in its range (R63). -/
theorem StageOrder.firstFailure_none_iff (o : StageOrder) (self : ChanId) (u : Setup) :
    o.firstFailure self u = none ↔
      (10 ≤ o.length ∧ o.length ≤ 300) ∧ (1 ≤ o.stepCount ∧ o.stepCount ≤ 6) ∧
      (1 ≤ o.pmax ∧ o.pmax ≤ u.ceilingOf (u.bandOf o.topDepth)) ∧
      (∀ p ∈ o.steps.take o.stepCount, p.pressure ≤ o.pmax) ∧ (1 ≤ o.gin ∧ o.gin ≤ 4000) ∧
      (1 ≤ o.cap ∧ o.cap ≤ u.siteCapDl) ∧ (1 ≤ o.tref ∧ o.tref ≤ 3600 ∧ o.qref ≤ 6000) ∧
      (o.gauge ≤ 3 ∧ 1 ≤ o.upliftLimit ∧ o.upliftLimit ≤ 5000) ∧
      (o.watchCount ≤ 4 ∧ ∀ w ∈ o.watches.take o.watchCount,
        w.1 ≤ 7 ∧ w.1 ≠ self.val ∧ (w.2.1 = 1 ∨ w.2.1 = 2) ∧ 1 ≤ w.2.2 ∧ w.2.2 ≤ 8000) := by
  have watch (w : Nat × Nat × Nat) : ¬badWatch self w = true ↔
      w.1 ≤ 7 ∧ w.1 ≠ self.val ∧ (w.2.1 = 1 ∨ w.2.1 = 2) ∧ 1 ≤ w.2.2 ∧ w.2.2 ≤ 8000 := by
    rw [badWatch_eq, decide_eq_true_iff]
    omega
  unfold StageOrder.firstFailure
  simp only [firstReason_none, List.any_eq_true, not_exists, not_and, decide_eq_true_eq, not_or, watch, not_lt,
    and_true, Nat.one_le_iff_ne_zero]

/-- Settles O23: the band by its boundaries, the tests one by one. -/
theorem loadTests : Obligations.LoadTests := by
  unfold Obligations.LoadTests
  intro o self u band boundary ceiling tests
  have ceilings : u.ceilingOf band = ceiling := u.ceilingOf_eq band
  refine ⟨u.bandOf_highest o.topDepth, ceilings, ?_, ?_⟩
  · simp only [tests, firstReason_cons, ← badWatch_eq, ← ceilings]
    simp only [StageOrder.firstFailure, Setup.siteCapDl, Bool.or_eq_true, decide_eq_true_iff]
    rfl
  · rw [StageOrder.firstFailure_none_iff, ← ceilings]
    rfl

/-! ### The staged image and LOAD in VACANT -/

theorem lowHalf_eq_bitsOf (w : Word) : lowHalf w = bitsOf w 15 0 := toNat_cut w 0 16 (by decide)

theorem highHalf_eq_bitsOf (w : Word) : highHalf w = bitsOf w 31 16 := toNat_cut w 16 16 (by decide)

/-- Some bits of a word are the number in them. -/
theorem extractLsb'_eq_bitsOf (w : Word) (lo n : Nat) (h : 0 < n) :
    w.extractLsb' lo n = BitVec.ofNat n (bitsOf w (lo + n - 1) lo) := by
  rw [← toNat_cut w lo n h, BitVec.ofNat_toNat, BitVec.setWidth_eq]

theorem toNat_eq_bitsOf (w : Word) : w.toNat = bitsOf w 31 0 := by
  rw [bitsOf, Nat.pow_zero, Nat.div_one, Nat.mod_eq_of_lt w.isLt]

/-- The stage order, each field by its place in the staged image (R53, 12.3). -/
theorem stageOrderOf_fields (big : Bool) (image : Vector Word 18) :
    let at_ (offset hi lo : Nat) : Nat := bitsOf (inOrder big ((image[(offset - 8) / 4]?).getD 0)) hi lo
    stageOrderOf big image =
      { hole := BitVec.ofNat 16 (at_ 0x08 15 0), stageNo := BitVec.ofNat 8 (at_ 0x08 23 16)
        rampSlot := BitVec.ofNat 2 (at_ 0x08 25 24), topDepth := at_ 0x0C 15 0, length := at_ 0x0C 31 16
        pmax := at_ 0x10 15 0, gin := at_ 0x10 31 16, cap := at_ 0x14 31 0, qref := at_ 0x18 15 0
        tref := at_ 0x18 31 16, upliftLimit := at_ 0x1C 15 0, gauge := at_ 0x1C 23 16, stepCount := at_ 0x1C 31 24
        steps := (List.range 6).map (fun k =>
          { pressure := at_ (0x20 + 4 * k) 15 0, hold := at_ (0x20 + 4 * k) 31 16 })
        watchCount := at_ 0x38 7 0
        watches := (List.range 4).map (fun k =>
          (at_ (0x3C + 4 * k) 23 16, at_ (0x3C + 4 * k) 31 24, at_ (0x3C + 4 * k) 15 0)) } := by
  simp only [stageOrderOf, stepOfWord, watchOfWord, lowHalf_eq_bitsOf, highHalf_eq_bitsOf, toNat_cut, Nat.ofNat_pos]
  simp only [toNat_eq_bitsOf, extractLsb'_eq_bitsOf, Nat.ofNat_pos]
  rfl

/-- LOAD in VACANT with every test passed: ARMED under the context of the order (R65, R66). -/
theorem Channel.cmdLoad_passed {ch : Channel} (vacant : ch.state = .vacant) {env : CommandEnv} {big : Bool}
    (passed : (stageOrderOf big ch.image).firstFailure env.id env.setup = none) (tag : Byte) :
    ch.cmdLoad env big tag =
      Verdict.accept { ch with state := .armed, ctx := (stageOrderOf big ch.image).context env.setup tag } [] := by
  rw [Channel.cmdLoad, if_pos vacant]
  simp only [passed]

/-- LOAD in VACANT with a test failed: refused for the first that fails (R63). -/
theorem Channel.cmdLoad_failed {ch : Channel} (vacant : ch.state = .vacant) {env : CommandEnv} {big : Bool}
    {why : Reason} (failed : (stageOrderOf big ch.image).firstFailure env.id env.setup = some why) (tag : Byte) :
    ch.cmdLoad env big tag = Verdict.refuse ch why := by
  rw [Channel.cmdLoad, if_pos vacant]
  simp only [failed]

/-- Settles O24: the fields by their places, and the two ends of the tests in VACANT. -/
theorem loadInVacant : Obligations.LoadInVacant := by
  unfold Obligations.LoadInVacant
  refine ⟨stageOrderOf_fields, fun s addr e c tag arg accepted vacant => ?_⟩
  intro u o
  refine ⟨fun passed => ?_, fun why failed => ?_⟩
  · exact exec_orderRow_taken accepted .load tag arg _ (Channel.cmdLoad_passed vacant passed tag) nofun rfl
  · exact exec_orderRow_refused accepted .load tag arg why (Channel.cmdLoad_failed vacant failed tag) rfl

end Sys2Proof.Machine
end

section
/-! SUPPORT. RETARGET and EXTEND of a loaded stage (R67 to R70), and RESUME in PARKED (R92, R93, R138). -/

namespace Sys2Proof.Machine

/-! ### RETARGET -/

/-- A RETARGET above the Pmax of a loaded stage is queued with Pmax (R68). -/
theorem Channel.disposal_retarget_above {ch : Channel} (loaded : ch.state ≠ .vacant) {arg : Half}
    (above : ch.ctx.pmax < arg.toNat) (v : Verdict) :
    ch.disposal .retarget arg v = .substituted ch.ctx.pmax := if_pos ⟨loaded, above⟩

/-- A RETARGET within Pmax is queued as written (R68). -/
theorem Channel.disposal_retarget_within {ch : Channel} {arg : Half} (within : ¬ch.ctx.pmax < arg.toNat) (v : Verdict) :
    ch.disposal .retarget arg v = .asWritten := if_neg fun h => within h.2

/-- RETARGET in RAMP, HOLD or PARKED: the current step takes the pressure held to Pmax, and HOLD goes back to RAMP where
it lies more than 20 kPa above the permitted setpoint (R67, R82; log entry 40). -/
theorem Channel.cmdRetarget_taken {ch : Channel} (running : ch.state = .ramp ∨ ch.state = .hold ∨ ch.state = .parked)
    (tag : Byte) (arg : Nat) :
    let pressure := min arg ch.ctx.pmax
    let back := ch.state = .hold ∧ ch.ctx.setpoint + 20 < pressure
    let x := { ch.ctx with
      steps := ch.ctx.steps.modify ch.ctx.stepIndex (fun p => { p with pressure := pressure })
      lastTag := tag }
    ch.cmdRetarget tag arg =
      { chan := { ch with
          state := if back then .ramp else ch.state
          ctx := if back then { x with ceiling := ch.readings.measured, refusalCount := 0 } else x }
        outcome := if ch.ctx.pmax < arg then .clamped else .accepted
        reason := .none
        out := [] } := by
  intro pressure back x
  by_cases hold : ch.state = .hold
  · have climbs : back ↔ ch.ctx.setpoint + 20 < pressure := and_iff_right hold
    simp only [climbs, Channel.cmdRetarget, hold]
    split_ifs <;> rfl
  · have stays : ¬back := fun h => hold h.1
    rw [if_neg stays, if_neg stays]
    rcases running with state | state | state
    · simp only [Channel.cmdRetarget, state]
      rfl
    · exact absurd state hold
    · simp only [Channel.cmdRetarget, state]
      rfl

/-- With room in the staging queue no record is dropped, so the flag of its event comes first (log entry 11). -/
theorem State.stageAndRaise_room {s : State} (room : s.ring.staging.length < 8) (r : Record) (f : Flag) (addr : Addr) :
    s.stageAndRaise r f addr = (s.raise f addr).stage r := by
  have kept : s.drops r = false := by simp [State.drops, room]
  rw [State.stageAndRaise, kept]
  rfl

/-- A RETARGET above Pmax that the state of a loaded stage refuses, its record not dropped: CLAMP, then the record, and
the word queued with Pmax (R61, R68). -/
theorem exec_retarget_refused_above {s : State} {addr : Addr} {e : CacheEntry} {c : ChanId}
    (accepted : s.acceptsWord addr e c) {arg : Half} {why : Reason}
    (refused : Command.refusedIn .retarget s.chans[c].state = some why) (loaded : s.chans[c].state ≠ .vacant)
    (above : s.chans[c].ctx.pmax < arg.toNat) (room : s.ring.staging.length < 8) (tag : Byte) :
    exec (.retarget addr tag arg) s = .next
      ((((({ s.used e with chans := s.chans.set c { s.chans[c] with
          result := { code := 3, tag := tag, outcome := .refused, reason := why } } } : State).raise .clamp addr).stage
        (s.chans[c].refusedRecord c s.status.clock 3 tag arg why)).enqueue
        (s.wordEntry addr e c 3 tag (half s.chans[c].ctx.pmax))).answer .completeWrite) := by
  have same : (s.used e).chan c = s.chans[c] := rfl
  have verdict := Channel.command_refusedIn refused ((s.used e).commandEnv c) (s.pageOrder e.attrs.swap) tag arg
  change exec (orderRow .retarget addr tag arg) s = _
  rw [exec_orderRow_accepted accepted]
  simp only [State.orderCommand, orderWriteOf, same, verdict, Channel.disposal_retarget_above loaded above,
    Verdict.refuse, if_true, State.stageAll, List.foldl, State.refusal, State.setChan_chan_self]
  rw [State.stageAndRaise_room]
  · rfl
  · exact room

/-- Settles O26: RETARGET is taken in RAMP, HOLD and PARKED and refused in every other state; the argument against Pmax
gives the disposal of its word. -/
theorem retargetOfALoadedStage : Obligations.RetargetOfALoadedStage := by
  unfold Obligations.RetargetOfALoadedStage
  intro s addr e c tag arg accepted ch running pressure above back x t held
  have notRefused : (if above then OrderOutcome.clamped else .accepted) ≠ .refused := by split_ifs <;> nofun
  refine ⟨fun runs within => ?_, fun runs clamps => ?_, fun refused clamps room => ?_⟩
  · exact exec_orderRow_taken accepted .retarget tag arg _ (Channel.cmdRetarget_taken runs tag arg.toNat) notRefused
      (Channel.disposal_retarget_within within _)
  · have loaded : ch.state ≠ .vacant := by rcases runs with state | state | state <;> simp [state]
    exact exec_retarget_substituted accepted tag arg _ (Channel.cmdRetarget_taken runs tag arg.toNat) notRefused rfl
      (Channel.disposal_retarget_above loaded clamps _)
  · have loaded : ch.state ≠ .vacant := by rcases refused with state | state | state <;> simp [state]
    have byState : Command.refusedIn .retarget ch.state = some .state := by
      rcases refused with state | state | state <;> rw [state] <;> rfl
    exact exec_retarget_refused_above accepted byState loaded clamps room tag

/-! ### EXTEND -/

/-- EXTEND of a loaded stage within the site cap ceiling (R69). -/
theorem Channel.cmdExtend_within {ch : Channel}
    (loaded : ch.state = .armed ∨ ch.state = .ramp ∨ ch.state = .hold ∨ ch.state = .parked) {env : CommandEnv}
    {arg : Nat} (within : ch.ctx.cap + arg * 10 ≤ env.setup.siteCapDl) (tag : Byte) :
    ch.cmdExtend env tag arg =
      Verdict.accept { ch with ctx := { ch.ctx with cap := ch.ctx.cap + arg * 10, lastTag := tag } } [] := by
  have fits : ¬env.setup.siteCapDl < ch.ctx.cap + arg * 10 := Nat.not_lt.2 within
  rcases loaded with state | state | state | state <;> simp only [Channel.cmdExtend, state, if_neg fits]

/-- EXTEND of a loaded stage above the site cap ceiling (R70). -/
theorem Channel.cmdExtend_above {ch : Channel}
    (loaded : ch.state = .armed ∨ ch.state = .ramp ∨ ch.state = .hold ∨ ch.state = .parked) {env : CommandEnv}
    {arg : Nat} (above : env.setup.siteCapDl < ch.ctx.cap + arg * 10) (tag : Byte) :
    ch.cmdExtend env tag arg = Verdict.refuse ch .capCeiling := by
  rcases loaded with state | state | state | state <;> simp only [Channel.cmdExtend, state, if_pos above]

/-- An EXTEND refused for the site cap ceiling is kept out: REFUSE, then the record (R70; log entry 31). -/
theorem exec_extend_keptOut {s : State} {addr : Addr} {e : CacheEntry} {c : ChanId}
    (accepted : s.acceptsWord addr e c) {tag : Byte} {arg : Half}
    (verdict : s.chans[c].cmdExtend ((s.used e).commandEnv c) tag arg.toNat = Verdict.refuse s.chans[c] .capCeiling) :
    exec (.extend addr tag arg) s = .next
      (((({ s.used e with chans := s.chans.set c { s.chans[c] with
          result := { code := 4, tag := tag, outcome := .refused, reason := .capCeiling } } } : State).raise
        .refuse addr).stage (s.chans[c].refusedRecord c s.status.clock 4 tag arg .capCeiling)).answer
        .completeWrite) := by
  have same : (s.used e).chan c = s.chans[c] := rfl
  have keptOut : s.chans[c].disposal .extend arg (Verdict.refuse s.chans[c] .capCeiling) = .keptOut := rfl
  change exec (orderRow .extend addr tag arg) s = _
  rw [exec_orderRow_accepted accepted]
  simp only [State.orderCommand, orderWriteOf, same, Channel.command, verdict, keptOut]
  simp only [Verdict.refuse, State.stageAll, List.foldl, State.refusal, State.setChan_chan_self]
  rfl

/-- Settles O27: the cap with the argument's litres against the site cap ceiling. -/
theorem extendOfALoadedStage : Obligations.ExtendOfALoadedStage := by
  unfold Obligations.ExtendOfALoadedStage
  intro s addr e c tag arg accepted loaded ch cap
  refine ⟨fun within => ?_, fun above => ?_⟩
  · have verdict := Channel.cmdExtend_within (env := (s.used e).commandEnv c) loaded within tag
    exact exec_orderRow_taken accepted .extend tag arg _ verdict nofun rfl
  · have verdict := Channel.cmdExtend_above (env := (s.used e).commandEnv c) loaded above tag
    exact exec_extend_keptOut accepted verdict

/-! ### RESUME -/

/-- The set of the four causes that the field can show, one mark each (R137). -/
def shownSet (a b p l : Bool) : Byte := 0#4 ++ BitVec.ofBool l ++ BitVec.ofBool p ++ BitVec.ofBool b ++ BitVec.ofBool a

/-- The causes that the field shows a channel (R92). -/
def Channel.shown (ch : Channel) (view : FieldView) : Byte :=
  shownSet view.stopA view.stopB (!view.permit) ch.readings.los

/-- The stage holds UPLIFT and its clearing test fails: the gauge not valid, or the uplift at the limit (R138). -/
def Channel.upliftPersists (ch : Channel) (view : FieldView) : Bool :=
  let g := view.gauges[ch.ctx.gauge]
  ch.ctx.parkSet.getLsbD 4 && !(g.valid && decide (g.reading.toNat - ch.ctx.baseline < ch.ctx.upliftLimit))

/-- The park cause set after the look of a RESUME: what the field shows, and UPLIFT where it persists (R92, R138). -/
def Channel.lookedSet (ch : Channel) (view : FieldView) : Byte :=
  ch.shown view ||| (if ch.upliftPersists view then 0x10 else 0)

/-- The PARKED records of the look, one for each cause the field shows that the clearing has not kept, in cause order
with the set so far (R90, R92). -/
def Channel.foundRecords (ch : Channel) (view : FieldView) (c : ChanId) (clock : Word) : List Record :=
  let kept := ch.ctx.parkSet &&& ch.lookedSet view
  [Cause.stopA, .stopB, .permit, .los].filterMap (fun k =>
    if ch.shown view &&& k.mark ≠ 0 ∧ kept &&& k.mark = 0 then
      some (ch.ctx.ownRecord c clock (.parked k (kept ||| (ch.shown view &&& (k.mark ||| (k.mark - 1))))))
    else none)

/-- The causes of the look, together, are what the field shows. -/
theorem orMarks_lookCauses (ch : Channel) (view : FieldView) : orMarks (ch.lookCauses view) = ch.shown view := by
  unfold Channel.lookCauses Channel.shown
  cases view.stopA <;> cases view.stopB <;> cases view.permit <;> cases ch.readings.los <;> rfl

/-- The set restricted by the clearing test of UPLIFT is UPLIFT where it persists. -/
theorem and_keepMark_uplift (set : Byte) (keep : Bool) :
    set &&& keepMark keep .uplift = if set.getLsbD 4 && keep then 0x10 else 0 := by
  cases keep
  · simp [keepMark]
  · revert set
    decide

theorem and_or_absorb (set shown other : Byte) : set &&& (shown ||| other) ||| shown = shown ||| (set &&& other) := by
  ext i hi
  simp only [BitVec.getElem_or, BitVec.getElem_and]
  cases set[i] <;> cases shown[i] <;> cases other[i] <;> rfl

theorem and_or_and_self (set shown other : Byte) :
    set &&& (shown ||| other) = set &&& (shown ||| (set &&& other)) := by
  ext i hi
  simp only [BitVec.getElem_or, BitVec.getElem_and]
  cases set[i] <;> cases shown[i] <;> cases other[i] <;> rfl

/-- The causes whose clearing test fails: those the field shows, and UPLIFT by its own test (R138). -/
theorem Channel.persisting_eq (ch : Channel) (view : FieldView) : ∃ uplift : Byte,
    ch.persisting view = ch.shown view ||| uplift ∧
      ch.ctx.parkSet &&& uplift = if ch.upliftPersists view then 0x10 else 0 := by
  have marks : ∀ a b p l : Bool, keepMark a .stopA ||| keepMark b .stopB ||| keepMark p .permit ||| keepMark l .los =
      shownSet a b p l := by decide
  refine ⟨_, ?_, and_keepMark_uplift _ _⟩
  rw [Channel.shown, ← marks]
  rfl

/-- The clearing keeps of the set what the set after the look has of it. -/
theorem Channel.kept_eq (ch : Channel) (view : FieldView) :
    ch.ctx.parkSet &&& ch.persisting view = ch.ctx.parkSet &&& ch.lookedSet view := by
  obtain ⟨uplift, persisting, persists⟩ := ch.persisting_eq view
  rw [persisting, Channel.lookedSet, ← persists, and_or_and_self]

/-- What the clearing keeps and what the look finds make up the set after the look. -/
theorem Channel.kept_or_shown (ch : Channel) (view : FieldView) :
    ch.ctx.parkSet &&& ch.persisting view ||| ch.shown view = ch.lookedSet view := by
  obtain ⟨uplift, persisting, persists⟩ := ch.persisting_eq view
  rw [persisting, Channel.lookedSet, ← persists, and_or_absorb]

/-- The first cause of the set after the look, in cause order (R92, R137). -/
theorem firstCauseReason_shownSet (a b p l : Bool) (u : Bool) :
    firstCauseReason (shownSet a b p l ||| (if u then 0x10 else 0)) =
      if a then .stopA else if b then .stopB else if p then .permit else if l then .los else .uplift := by
  revert a b p l u
  decide

section Look

variable {ch : Channel} (parked : ch.state = .parked) (view : FieldView)
include parked

/-- The stage after the clearing and the look (R92, R138). -/
theorem Channel.look_chan (c : ChanId) (clock : Word) :
    (({ ch with ctx := { ch.ctx with parkSet := ch.ctx.parkSet &&& ch.persisting view } } : Channel).parkEach c clock
      (ch.lookCauses view)).1 =
    { ch with ctx := { ch.ctx with
        parkSet := ch.lookedSet view
        causesSeen := ch.ctx.causesSeen ||| (ch.shown view &&& ~~~(ch.ctx.parkSet &&& ch.lookedSet view)) } } := by
  rw [Channel.parkEach_in_parked _ _ _ _ (by exact parked), orMarks_lookCauses]
  simp only [Channel.kept_or_shown]
  simp only [Channel.kept_eq]

/-- The records of the look. -/
theorem Channel.look_records (c : ChanId) (clock : Word) :
    (({ ch with ctx := { ch.ctx with parkSet := ch.ctx.parkSet &&& ch.persisting view } } : Channel).parkEach c clock
      (ch.lookCauses view)).2 = ch.foundRecords view c clock := by
  rw [Channel.lookCauses_records ch c clock view parked, Channel.kept_eq]
  rfl

end Look

/-- RESUME with no cause persisting: RAMP with an empty set (R93). -/
theorem Channel.cmdResume_clear {ch : Channel} (parked : ch.state = .parked) {env : CommandEnv}
    (clear : ch.lookedSet env.view = 0) (tag : Byte) :
    let x := { ch.ctx with
      parkSet := 0, ceiling := ch.readings.measured, demand := 0, refusalCount := 0, overRun := 0, losRun := 0
      lastTag := tag }
    ch.cmdResume env tag = Verdict.accept { ch with state := .ramp, ctx := x }
      [x.ownRecord env.id env.clock (.resumed ch.ctx.stepIndex ch.readings.measured)] := by
  intro x
  have shown : ch.shown env.view = 0 := (BitVec.or_eq_zero_iff.1 clear).1
  have noRecord : ch.foundRecords env.view env.id env.clock = [] := by simp [Channel.foundRecords, shown]
  have noneSeen : ch.ctx.causesSeen ||| ((0 : Byte) &&& ~~~(ch.ctx.parkSet &&& 0)) = ch.ctx.causesSeen := by simp
  rw [Channel.cmdResume, if_pos parked]
  simp only [Channel.look_chan parked, Channel.look_records parked, clear, if_true, noRecord, shown, noneSeen]
  rfl

/-- RESUME with a cause persisting: refused for the first cause of the set, the stage as the look leaves it (R92). -/
theorem Channel.cmdResume_persists {ch : Channel} (parked : ch.state = .parked) {env : CommandEnv}
    (persists : ch.lookedSet env.view ≠ 0) (tag : Byte) :
    ch.cmdResume env tag =
      { chan := { ch with ctx := { ch.ctx with
          parkSet := ch.lookedSet env.view
          causesSeen := ch.ctx.causesSeen ||| (ch.shown env.view &&& ~~~(ch.ctx.parkSet &&& ch.lookedSet env.view)) } }
        outcome := .refused
        reason := firstCauseReason (ch.lookedSet env.view)
        out := ch.foundRecords env.view env.id env.clock } := by
  rw [Channel.cmdResume, if_pos parked]
  simp only [Channel.look_chan parked, Channel.look_records parked, if_neg persists]

/-- Staging leaves the governor clock (R176). -/
theorem State.stageAll_clock (s : State) (rs : List Record) : (s.stageAll rs).status.clock = s.status.clock := by
  induction rs generalizing s with
  | nil => rfl
  | cons r rs ih =>
    have one : (s.stage r).status.clock = s.status.clock := by
      rcases s.stage_status r with same | raised
      · rw [same]
      · rw [raised]
        rfl
    exact (ih (s.stage r)).trans one

theorem State.stageAll_concat (s : State) (rs : List Record) (r : Record) :
    s.stageAll (rs ++ [r]) = (s.stageAll rs).stage r := by
  simp [State.stageAll]

/-- A command refused that has changed its channel and staged records: the ORDER_REFUSED record follows them, and the
word is queued as written (R61). -/
theorem exec_orderRow_refused_after {s : State} {addr : Addr} {e : CacheEntry} {c : ChanId}
    (accepted : s.acceptsWord addr e c) (cmd : Command) (tag : Byte) (arg : Half) (v : Verdict)
    (verdict : s.chans[c].command ((s.used e).commandEnv c) (s.pageOrder e.attrs.swap) cmd tag arg = v)
    (refused : v.outcome = .refused) (asWritten : s.chans[c].disposal cmd arg v = .asWritten) :
    exec (orderRow cmd addr tag arg) s = .next
      (((State.stageAll { s.used e with chans := s.chans.set c { v.chan with
          result := { code := cmd.code, tag := tag, outcome := .refused, reason := v.reason } } }
        (v.out ++ [v.chan.refusedRecord c s.status.clock cmd.code tag arg v.reason])).enqueue
        (s.wordEntry addr e c cmd.code tag arg)).answer .completeWrite) := by
  have same : (s.used e).chan c = s.chans[c] := rfl
  have chan (t : State) (rs : List Record) : (t.stageAll rs).chan c = t.chan c := by simp [State.chan]
  rw [exec_orderRow_accepted accepted]
  simp only [State.orderCommand, orderWriteOf, same, verdict, asWritten, refused, if_true, State.refusal, chan,
    State.stageAll_clock, State.setChan_chan_self]
  rw [State.stageAll_concat]
  rfl

/-- Settles O29: the look leaves the set empty or not. -/
theorem resumeInParked : Obligations.ResumeInParked := by
  unfold Obligations.ResumeInParked
  intro s addr e c tag arg accepted ch g a b p l u shown set kept found why x parked
  refine ⟨fun clear => ?_, fun persists => ?_⟩
  · have verdict := Channel.cmdResume_clear (env := (s.used e).commandEnv c) parked clear tag
    exact exec_orderRow_taken accepted .resume tag arg _ verdict nofun rfl
  · have verdict := Channel.cmdResume_persists (env := (s.used e).commandEnv c) parked persists tag
    have row := exec_orderRow_refused_after accepted .resume tag arg _ verdict rfl rfl
    have first : firstCauseReason set = why := firstCauseReason_shownSet a b p l u
    rw [← first]
    exact row

end Sys2Proof.Machine
end

section
/-! SUPPORT. The account of the close records (`State.CloseRecordsOk`), operation by operation: the ends of the memory port
stage no close record, the publication of one takes its channel out of CLOSING, and each event of a channel that enters
CLOSING stages exactly its own (R86, R88, R158). -/

namespace Sys2Proof.Machine

section Account

variable {s : State} (h : s.CloseRecordsOk)
include h

/-- The account looks at the staging queue, the held close records and the channels alone. -/
theorem State.CloseRecordsOk.sameRecords {t : State} (staging : t.ring.staging = s.ring.staging)
    (held : t.ring.held = s.ring.held) (chans : t.chans = s.chans) : t.CloseRecordsOk :=
  h.same (fun k => by simp only [Ring.closeCount, staging, held]) (fun k => by rw [chans])

/-! ### The setup loader -/

theorem State.CloseRecordsOk.enterRunning (u : Setup) : (s.enterRunning u).CloseRecordsOk :=
  h.sameRecords rfl rfl rfl

theorem State.CloseRecordsOk.releaseReset : s.releaseReset.CloseRecordsOk := by
  unfold State.releaseReset
  split_ifs
  · exact h.congr rfl rfl
  · exact h

theorem State.CloseRecordsOk.noAck : s.noAck.CloseRecordsOk := by
  unfold State.noAck
  split_ifs
  · exact h.congr rfl rfl
  · exact h.congr rfl rfl
  · exact h

theorem State.CloseRecordsOk.retryRead : s.retryRead.CloseRecordsOk := by
  unfold State.retryRead
  split_ifs
  · exact h.congr rfl rfl
  · exact h

theorem State.CloseRecordsOk.readDone (bytes : List Byte) : (s.readDone bytes).CloseRecordsOk := by
  unfold State.readDone
  dsimp only
  split_ifs
  · exact h.enterRunning _
  · exact h.congr rfl rfl
  · exact h

/-! ### The memory port -/

theorem State.CloseRecordsOk.grant : s.grant.CloseRecordsOk := by
  unfold State.grant
  split
  · rename_i r free _
    obtain ⟨_, _, _, staging, held, _⟩ := State.grantTo_frame free r
    obtain ⟨m, e, _⟩ | ⟨m, e, _⟩ := State.grantTo_cases free r <;> exact h.sameRecords staging held (by rw [e])
  · exact h

theorem State.CloseRecordsOk.memHeldDone (data : Word) : (s.memHeldDone data).CloseRecordsOk := by
  unfold State.memHeldDone
  split
  · exact h.congr (by simp) (by simp)
  · exact h

theorem State.CloseRecordsOk.memHeldFailed : s.memHeldFailed.CloseRecordsOk := by
  unfold State.memHeldFailed
  split
  · exact h.congr (by simp) (by simp)
  · exact h

theorem State.CloseRecordsOk.memDrainDone : s.memDrainDone.CloseRecordsOk := by
  unfold State.memDrainDone
  split
  · exact h.congr rfl rfl
  · exact h

/-- A lost write stages a MEMORY_ERROR record (R29). -/
theorem State.CloseRecordsOk.drainFailed : s.drainFailed.CloseRecordsOk := by
  unfold State.drainFailed
  split
  · exact h
  · refine State.CloseRecordsOk.stage (s := s.popQueue.raise _ _) h _ ?_
    rw [State.drainRecord_eq]
    split <;> rfl

theorem State.CloseRecordsOk.memDrainFailed : s.memDrainFailed.CloseRecordsOk := by
  unfold State.memDrainFailed
  split
  · exact State.CloseRecordsOk.drainFailed (s := s.portFree) h
  · exact h

theorem State.CloseRecordsOk.fetchStaleEnd (failed : Bool) : (s.fetchStaleEnd failed).CloseRecordsOk := by
  cases failed
  · exact h
  · exact .fetchError (s.fetchPhase .idle) h

theorem State.CloseRecordsOk.memFetchDone (first : Bool) (data : Word) :
    (s.memFetchDone first data).CloseRecordsOk := by
  unfold State.memFetchDone State.fetchRead
  split
  · split_ifs
    · exact State.CloseRecordsOk.fetchStaleEnd (s := s.portFree) h false
    · exact h.congr rfl rfl
    · exact h.congr (by simp) (by simp)
    · exact h
  · exact h

theorem State.CloseRecordsOk.memFetchFailed : s.memFetchFailed.CloseRecordsOk := by
  unfold State.memFetchFailed State.fetchReadFailed
  split
  · split_ifs
    · exact State.CloseRecordsOk.fetchStaleEnd (s := s.portFree) h true
    · exact State.CloseRecordsOk.fetchError (s.portFree.fetchPhase .idle) h
  · exact h

theorem State.CloseRecordsOk.memStaleEnd (failed : Bool) : (s.memStaleEnd failed).CloseRecordsOk := by
  unfold State.memStaleEnd
  split
  · split_ifs
    · exact State.CloseRecordsOk.fetchStaleEnd (s := s.portFree) h failed
    · exact h
  · exact h

theorem State.CloseRecordsOk.memSlotDone : s.memSlotDone.CloseRecordsOk := by
  unfold State.memSlotDone
  split
  · split_ifs
    · exact h
    · exact h.sameRecords rfl rfl rfl
  · exact h

theorem State.CloseRecordsOk.memProducerDone : s.memProducerDone.CloseRecordsOk := by
  unfold State.memProducerDone
  split
  · split_ifs
    · exact h
    · exact .publishDone s.portFree h
  · exact h

theorem State.CloseRecordsOk.memRewriteDone : s.memRewriteDone.CloseRecordsOk := by
  unfold State.memRewriteDone
  split
  · split_ifs
    · exact h
    · exact h.sameRecords rfl rfl rfl
  · exact h

/-- A failed access of the ring writer leaves the records where they are (R163, R164). -/
theorem State.CloseRecordsOk.ringFailed (a : RingAccess) (abandoned : Bool) (addr : Addr) :
    (s.ringFailed a abandoned addr).CloseRecordsOk := by
  unfold State.ringFailed
  split_ifs
  · exact h
  · obtain ⟨staging, held⟩ := a.undo_records s.ring
    exact h.sameRecords staging held rfl

theorem State.CloseRecordsOk.memRingFailed : s.memRingFailed.CloseRecordsOk := by
  unfold State.memRingFailed
  split
  · split
    · exact State.CloseRecordsOk.ringFailed (s := s.portFree) h _ _ _
    · exact h
  · exact h

theorem State.CloseRecordsOk.memTimeout : s.memTimeout.CloseRecordsOk := by
  unfold State.memTimeout
  split
  · exact h.memHeldFailed
  · exact h.memDrainFailed
  · exact h.memFetchFailed
  · exact h.memRingFailed
  · exact h

/-! ### The field -/

/-- A sample arrival stages the close record of its channel where it takes the stage to CLOSING; the reports and the
buffer touch neither records nor channels (R85, R101). -/
theorem State.CloseRecordsOk.sampled (c : ChanId) (smp : Sample) : (s.sampled c smp).CloseRecordsOk := by
  unfold State.sampled
  split_ifs with run
  · exact (h.setPerformAll run c _ _ ((s.chan c).sample_accounts (s.sampleEnv c smp) smp)).congr (by simp) (by simp)
  · exact h

/-- A neighbour report parks at most: its records are COMMUNICATION and PARKED (R134). -/
theorem State.CloseRecordsOk.reportTaken (watched watcher : ChanId) :
    (s.reportTaken watched watcher).CloseRecordsOk := by
  unfold State.reportTaken
  split
  · exact h
  · rename_i r _
    obtain ⟨noClose, closing⟩ := (s.chan watcher).takeReport_accounts watcher s.status.clock r
    have parked (f : Field) : (State.setChan { s with field := f } watcher
        ((s.chan watcher).takeReport watcher s.status.clock r).1).CloseRecordsOk := by
      refine h.same (fun _ => rfl) fun k => ?_
      simp only [State.setChan_chans, chans_set_get]
      split_ifs with own
      · rw [own]
        exact closing
      · rfl
    exact (parked _).stageAll _ noClose

/-- An event that every channel takes, after a change of the lines or gauges, and that neither closes a stage nor
publishes (R125, R127, R129, R131). -/
theorem State.CloseRecordsOk.eachEvent (f : Field) (others : List Record)
    (g : ChanId → Channel → Channel × List Record) (noClose : NoClose others)
    (parks : ∀ c ch, NoClose (g c ch).2 ∧ ((g c ch).1.state = .closing ↔ ch.state = .closing)) :
    (State.eachChan { s with field := f } others g).CloseRecordsOk := by
  have lines : State.CloseRecordsOk { s with field := f } := h
  exact lines.eachChan others g noClose fun c => parks c _

theorem State.CloseRecordsOk.gaugeSampled (g : GaugeId) (reading : Half) (valid : Bool) :
    (s.gaugeSampled g reading valid).CloseRecordsOk := by
  unfold State.gaugeSampled
  split_ifs
  · refine h.eachEvent _ _ _ .nil fun c ch => ?_
    split_ifs
    · exact ch.gaugeSample_accounts _ _ _
    · exact ⟨.nil, .rfl⟩
  · exact h

/-- An accepted change stages its own record, and parks the stages it concerns (R125, R126, R129). -/
theorem State.CloseRecordsOk.lineChanged (f : Field) (line : FieldLine) (level : Bool) :
    (State.lineChanged { s with field := f } line level).CloseRecordsOk := by
  have parks (p : Prop) [Decidable p] (clock : Word) (k : Cause) (c : ChanId) (ch : Channel) :
      NoClose (if p then ch.park c clock k else (ch, [])).2 ∧
        ((if p then ch.park c clock k else (ch, [])).1.state = .closing ↔ ch.state = .closing) := by
    split_ifs
    · exact ⟨ch.park_noClose c clock k, ch.park_closing c clock k⟩
    · exact ⟨.nil, .rfl⟩
  cases line with
  | stop l =>
    simp only [State.lineChanged, State.stopChanged]
    exact h.eachEvent f _ _ (.one rfl) fun c ch => parks _ _ _ c ch
  | permit p =>
    simp only [State.lineChanged, State.permitChanged]
    exact h.eachEvent f _ _ (.one rfl) fun c ch => parks _ _ _ c ch

theorem State.CloseRecordsOk.debounceExpired (line : FieldLine) : (s.debounceExpired line).CloseRecordsOk := by
  unfold State.debounceExpired
  dsimp only
  split_ifs
  · exact h.lineChanged _ line _
  · exact h.congr rfl rfl

/-! ### Every command -/

theorem State.CloseRecordsOk.exec {c : Instr} {t : State} (runs : exec c s = .next t) : t.CloseRecordsOk :=
  have same {t : State} (ring : t.ring = s.ring) (chans : t.chans = s.chans) : t.CloseRecordsOk := h.congr ring chans
  exec_cases (P := State.CloseRecordsOk) s
    (access := fun a => .access s a h)
    (assertReset := State.CloseRecordsOk.reset.congr rfl rfl) (releaseReset := h.releaseReset) (noAck := h.noAck)
    (retryRead := h.retryRead) (readDone := h.readDone) (tick := same (by simp) (by simp))
    (fillArmed := fun _ => same (by simp) (by simp)) (expire := fun _ => same (by simp) (by simp))
    (grant := h.grant) (timeout := h.memTimeout)
    (heldDone := h.memHeldDone) (heldFailed := h.memHeldFailed)
    (drainDone := h.memDrainDone) (drainFailed := h.memDrainFailed)
    (fetchDone := h.memFetchDone) (fetchFailed := h.memFetchFailed) (staleEnd := h.memStaleEnd)
    (slotDone := h.memSlotDone) (producerDone := h.memProducerDone) (ringFailed := h.memRingFailed)
    (rewriteDone := h.memRewriteDone)
    (sampled := h.sampled) (reportTaken := h.reportTaken) (gaugeSampled := h.gaugeSampled)
    (changeRaw := fun _ _ => same rfl rfl) (debounceExpired := h.debounceExpired) c t runs

end Account

/-- Settles O58, by the invariant `CloseRecordsOk` through each operation a command can come to. -/
theorem stepKeepsTheCloseRecords : Obligations.StepKeepsTheCloseRecords := by
  unfold Obligations.StepKeepsTheCloseRecords
  intro s t ok runs
  exact step_keeps (P := State.CloseRecordsOk) (ignores := fun s _ h => h.congr rfl rfl)
    (keeps := fun _ _ _ h e => h.exec e) s t ok runs

end Sys2Proof.Machine
end

section
/-! SUPPORT. START (R76, R77), PARK and the park causes (R90, R91), CLOSE (R86, R89) and RELEASE (R95, R96): the verdict of
each in the states that take it, and what becomes of its word. -/

namespace Sys2Proof.Machine

/-! ### A command that its channel's state refuses -/

/-- A command that the channel's state refuses changes the result word alone, and its word is queued as written (R61). -/
theorem exec_orderRow_refusedIn {s : State} {addr : Addr} {e : CacheEntry} {c : ChanId}
    (accepted : s.acceptsWord addr e c) {cmd : Command} {why : Reason}
    (refused : cmd.refusedIn s.chans[c].state = some why) (other : cmd ≠ .retarget) (tag : Byte) (arg : Half) :
    exec (orderRow cmd addr tag arg) s = .next
      (((({ s.used e with chans := s.chans.set c { s.chans[c] with
          result := { code := cmd.code, tag := tag, outcome := .refused, reason := why } } } : State).stage
        (s.chans[c].refusedRecord c s.status.clock cmd.code tag arg why)).enqueue
        (s.wordEntry addr e c cmd.code tag arg)).answer .completeWrite) := by
  have noCap : why ≠ .capCeiling := by rcases Command.refusedIn_reason refused with rfl | rfl <;> nofun
  exact exec_orderRow_refused accepted cmd tag arg why (Channel.command_refusedIn refused _ _ _ _)
    (Channel.disposal_refuse _ (fun retarget => absurd retarget other) noCap)

/-! ### START -/

/-- The tests of START in their order, on the field as a channel finds it (R76). -/
theorem State.startFailure_eq (s : State) (c : ChanId) (ch : Channel) :
    ch.startFailure (s.fieldView c) =
      if s.field.permits[c].accepted = false then some .permit
      else if s.field.stopA.accepted = true ∧ s.status.maskA.getLsbD c.val = false ∨
        s.field.stopB.accepted = true ∧ s.status.maskB.getLsbD c.val = false then some .stop
      else if ch.readings.los = true ∨ ch.readings.sampled = false then some .los
      else if s.field.gauges[ch.ctx.gauge].valid = false ∨ s.field.gauges[ch.ctx.gauge].sampled = false then some .gauge
      else none := by
  simp only [Channel.startFailure, State.fieldView, Bool.not_eq_true', Bool.or_eq_true, Bool.and_eq_true]

/-- START in ARMED with a failed test (R76). -/
theorem Channel.cmdStart_failed {ch : Channel} (armed : ch.state = .armed) {env : CommandEnv} {why : Reason}
    (fails : ch.startFailure env.view = some why) (tag : Byte) : ch.cmdStart env tag = Verdict.refuse ch why := by
  simp only [Channel.cmdStart, if_pos armed, fails]

/-- START in ARMED with every test passed (R77). -/
theorem Channel.cmdStart_passed {ch : Channel} (armed : ch.state = .armed) {env : CommandEnv}
    (passes : ch.startFailure env.view = none) (tag : Byte) :
    let g := env.view.gauges[ch.ctx.gauge]
    let x := { ch.ctx with
      baseline := g.reading.toNat, uplift := 0, ceiling := ch.readings.measured, stepIndex := 0, stepTime := 0
      demand := 0, elapsed := 0, refusalCount := 0, overRun := 0, losRun := 0, lastTag := tag }
    ch.cmdStart env tag = Verdict.accept { ch with state := .ramp, ctx := x }
      [x.ownRecord env.id env.clock (.stageStarted g.reading.toNat ch.readings.measured)] := by
  simp only [Channel.cmdStart, if_pos armed, passes]
  rfl

/-- Settles O25: START goes by the first of its tests that fails. -/
theorem startInArmed : Obligations.StartInArmed := by
  unfold Obligations.StartInArmed
  intro s addr e c tag arg accepted armed ch g stopped refuse blind ungauged x
  have tests := (s.used e).startFailure_eq c ch
  have failed {why : Reason} (fails : ch.startFailure ((s.used e).fieldView c) = some why) : refuse why :=
    exec_orderRow_refused accepted .start tag arg why
      (Channel.cmdStart_failed (env := (s.used e).commandEnv c) armed fails tag) rfl
  refine ⟨fun noPermit => failed ?_, fun permit stops => failed ?_, fun permit runs sees => failed ?_,
    fun permit runs sees gauge => failed ?_, fun permit runs sees gauge => ?_⟩
  · exact tests.trans (if_pos noPermit)
  all_goals replace tests := tests.trans (if_neg fun none => nomatch none.symm.trans permit)
  · exact tests.trans (if_pos stops)
  all_goals replace tests := tests.trans (if_neg runs)
  · exact tests.trans (if_pos sees)
  all_goals replace tests := tests.trans (if_neg sees)
  · exact tests.trans (if_pos gauge)
  · have passes := tests.trans (if_neg gauge)
    exact exec_orderRow_taken accepted .start tag arg _
      (Channel.cmdStart_passed (env := (s.used e).commandEnv c) armed passes tag) nofun rfl

/-! ### Park causes -/

section Causes

variable {ch : Channel} (c : ChanId) (clock : Word) (cause : Cause)

/-- A cause parks a stage in RAMP or HOLD, and its set is that one cause (R90). -/
theorem Channel.park_of_run (run : ch.state = .ramp ∨ ch.state = .hold) :
    let x := { ch.ctx with
      parkSet := cause.mark, causesSeen := ch.ctx.causesSeen ||| cause.mark, demand := 0, setpoint := 0 }
    ch.park c clock cause =
      ({ ch with state := .parked, ctx := x }, [x.ownRecord c clock (.parked cause cause.mark)]) := by
  rcases run with state | state <;> simp only [Channel.park, state] <;> rfl

/-- A cause that a parked stage does not hold joins its set (R90). -/
theorem Channel.park_joins (parked : ch.state = .parked) (new : ch.ctx.parkSet &&& cause.mark = 0) :
    let x := { ch.ctx with
      parkSet := ch.ctx.parkSet ||| cause.mark, causesSeen := ch.ctx.causesSeen ||| cause.mark }
    ch.park c clock cause = ({ ch with ctx := x }, [x.ownRecord c clock (.parked cause x.parkSet)]) :=
  (ch.park_in_parked c clock cause parked).trans (if_pos new)

/-- A cause that a parked stage holds does nothing (R90). -/
theorem Channel.park_held (parked : ch.state = .parked) (held : ¬ch.ctx.parkSet &&& cause.mark = 0) :
    ch.park c clock cause = (ch, []) :=
  (ch.park_in_parked c clock cause parked).trans (if_neg held)

/-- A cause does not act on a stage that is neither in RAMP or HOLD nor parked (R90). -/
theorem Channel.park_elsewhere (still : ¬(ch.state = .ramp ∨ ch.state = .hold)) (unparked : ch.state ≠ .parked) :
    ch.park c clock cause = (ch, []) := by
  unfold Channel.park
  split
  case h_1 ramp => exact absurd (.inl ramp) still
  case h_2 hold => exact absurd (.inr hold) still
  case h_3 parked => exact absurd parked unparked
  all_goals rfl

end Causes

/-- Settles O32: what a cause does by the state, and that causes in turn do it one after another. -/
theorem parkCauses : Obligations.ParkCauses := by
  unfold Obligations.ParkCauses
  intro ch c clock cause run first more new
  refine ⟨Channel.park_of_run c clock cause, fun runs => ?_, Channel.park_joins c clock cause,
    Channel.park_held c clock cause, Channel.park_elsewhere c clock cause, rfl, fun _ => rfl⟩
  rw [Channel.park_of_run c clock cause runs]
  exact ⟨rfl, rfl⟩

/-! ### PARK -/

/-- PARK in a state that takes it: the tag, then the cause OPERATOR (R91). -/
theorem Channel.cmdPark_taken {ch : Channel} (taken : ch.state = .ramp ∨ ch.state = .hold ∨ ch.state = .parked)
    (env : CommandEnv) (tag : Byte) :
    ch.cmdPark env tag = Verdict.accept ((ch.tagged tag).park env.id env.clock .operator).1
      ((ch.tagged tag).park env.id env.clock .operator).2 := by
  rcases taken with state | state | state <;> simp only [Channel.cmdPark, state]

/-- OPERATOR is the last bit of a park cause set (R137). -/
theorem and_operator_eq_zero_iff (set : Byte) : set &&& Cause.operator.mark = 0 ↔ set.getLsbD 7 = false := by
  revert set
  decide

/-- Settles O28: PARK is the cause OPERATOR on the stage with the word's tag. -/
theorem parkCommands : Obligations.ParkCommands := by
  unfold Obligations.ParkCommands
  intro s addr e c tag arg accepted ch result word parked first more
  have taken {x : Context} {news : List Record}
      (states : ch.state = .ramp ∨ ch.state = .hold ∨ ch.state = .parked)
      (parks : (ch.tagged tag).park c s.status.clock .operator = ({ ch with state := .parked, ctx := x }, news)) :
      exec (.park addr tag arg) s = .next ((((parked x).stageAll news).enqueue word).answer .completeWrite) := by
    have verdict := Channel.cmdPark_taken states ((s.used e).commandEnv c) tag
    have same : (ch.tagged tag).park ((s.used e).commandEnv c).id ((s.used e).commandEnv c).clock .operator =
        ({ ch with state := .parked, ctx := x }, news) := parks
    rw [same] at verdict
    exact exec_orderRow_taken accepted .park tag arg _ verdict nofun rfl
  have stays (state : ch.state = .parked) (x : Context) :
      { ch with state := .parked, ctx := x } = { ch with ctx := x } := by
    rw [← state]
  refine ⟨fun run => ?_, fun state new => ?_, fun state held => ?_, fun elsewhere => ?_⟩
  · exact taken (run.imp id .inl) (Channel.park_of_run c _ .operator run)
  · refine taken (x := more) (news := [_]) (.inr (.inr state)) ?_
    rw [stays state]
    exact Channel.park_joins c _ .operator state ((and_operator_eq_zero_iff _).2 new)
  · refine taken (x := { ch.ctx with lastTag := tag }) (news := []) (.inr (.inr state)) ?_
    rw [stays state]
    exact Channel.park_held c _ .operator state fun none =>
      nomatch ((and_operator_eq_zero_iff _).1 none).symm.trans held
  · have refused : Command.refusedIn .park ch.state = some .state := by
      rcases elsewhere with state | state | state | state <;> rw [state] <;> rfl
    exact exec_orderRow_refusedIn accepted refused nofun tag arg

/-! ### CLOSE and RELEASE -/

/-- CLOSE in a state that takes it: the tag, then the entry to CLOSING with reason OPERATOR (R86, R89). -/
theorem Channel.cmdClose_taken {ch : Channel} (taken : ch.state = .ramp ∨ ch.state = .hold ∨ ch.state = .parked)
    (env : CommandEnv) (tag : Byte) :
    let x := { ch.ctx with lastTag := tag, demand := 0, setpoint := 0, closeReason := some .operator }
    ch.cmdClose env tag = Verdict.accept { ch with state := .closing, ctx := x }
      [x.ownRecord env.id env.clock (.stageClosed .operator ch.ctx.causesSeen ch.ctx.take ch.ctx.peak
        ch.readings.measured ch.ctx.elapsed (ch.ctx.take * 10 / ch.ctx.length))] := by
  rcases taken with state | state | state <;> simp only [Channel.cmdClose, state] <;> rfl

/-- Settles O30: CLOSE in the states that take it, and the refusals of the others. -/
theorem closeCommands : Obligations.CloseCommands := by
  unfold Obligations.CloseCommands
  intro s addr e c tag arg accepted ch x word refuse
  have refused {why : Reason} (byState : Command.refusedIn .close ch.state = some why) : refuse why :=
    exec_orderRow_refusedIn accepted byState nofun tag arg
  refine ⟨fun taken => ?_, fun closing => refused ?_, fun elsewhere => refused ?_⟩
  · exact exec_orderRow_taken accepted .close tag arg _
      (Channel.cmdClose_taken taken ((s.used e).commandEnv c) tag) nofun rfl
  · rw [closing]
    rfl
  · rcases elsewhere with state | state | state <;> rw [state] <;> rfl

/-- RELEASE in ARMED: VACANT, and an ORDER_RELEASED record of the stage with the word's tag (R95). -/
theorem Channel.cmdRelease_armed {ch : Channel} (armed : ch.state = .armed) (env : CommandEnv) (tag : Byte) :
    ch.cmdRelease env tag = Verdict.accept ch.vacate [ch.recordWithTag env.id env.clock tag .orderReleased] := by
  simp only [Channel.cmdRelease, armed]

/-- RELEASE in CLOSED: VACANT and no record (R95). -/
theorem Channel.cmdRelease_closed {ch : Channel} (closed : ch.state = .closed) (env : CommandEnv) (tag : Byte) :
    ch.cmdRelease env tag = Verdict.accept ch.vacate [] := by
  simp only [Channel.cmdRelease, closed]

/-- Settles O31: RELEASE in the two states that take it, and the refusals of the others. -/
theorem releaseCommands : Obligations.ReleaseCommands := by
  unfold Obligations.ReleaseCommands
  intro s addr e c tag arg accepted ch word freed refuse
  have refused {why : Reason} (byState : Command.refusedIn .release ch.state = some why) : refuse why :=
    exec_orderRow_refusedIn accepted byState nofun tag arg
  refine ⟨fun armed => ?_, fun closed => ?_, fun closing => refused ?_, fun elsewhere => refused ?_⟩
  · exact exec_orderRow_taken accepted .release tag arg _
      (Channel.cmdRelease_armed armed ((s.used e).commandEnv c) tag) nofun rfl
  · exact exec_orderRow_taken accepted .release tag arg _
      (Channel.cmdRelease_closed closed ((s.used e).commandEnv c) tag) nofun rfl
  · rw [closing]
    rfl
  · rcases elsewhere with state | state | state | state <;> rw [state] <;> rfl

end Sys2Proof.Machine
end

section
/-! SUPPORT. What the part drives (R74, R117, R166), and how the accesses of the ring writer end (R158, R161 to R164). -/

namespace Sys2Proof.Machine

/-! ### The attention line -/

/-- The attention line by its three conditions (R166). -/
theorem State.attention_iff (s : State) :
    s.attention = true ↔ s.ring.producer ≠ s.ring.copy ∨ s.status.trap = true ∨ s.loader.mode = .safePass := by
  simp [State.attention, or_assoc]

/-- Only the ring writer, with no rewrite pending, is granted a producer word, and the producer then takes the next slot
(R161, R164). -/
theorem State.grantTo_producerWord {s : State} (free : s.mem = none) {r : Requester} {b : Nat}
    (writes : (s.grantTo r).initiator? = some (.ring (.producerWord b) false)) :
    r = .ringWriter ∧ s.ring.rewritePending = false ∧
      (s.grantTo r).ring = { s.ring with producer := (s.ring.producer + 1) % s.loader.setup.ringSlots } := by
  cases r with
  | fetcher => exact nomatch writes
  | queue =>
    simp only [State.grantTo, State.grantDrain] at writes
    split at writes <;> simp [State.initiator?, free] at writes
  | heldRead =>
    simp only [State.grantTo, State.grantHeld] at writes
    split at writes <;> simp [State.initiator?, free] at writes
  | ringWriter =>
    simp only [State.grantTo] at writes
    by_cases pending : s.ring.rewritePending = true
    · rw [State.grantRing_rewrite pending] at writes
      exact nomatch writes
    have noRewrite := Bool.eq_false_of_not_eq_true pending
    by_cases empty : s.ring.staging = []
    · simp [State.grantRing, noRewrite, empty, State.initiator?, free] at writes
    obtain ⟨x, rest, staged⟩ := List.exists_cons_of_ne_nil empty
    rcases Nat.lt_or_ge s.ring.next 8 with slot | last
    · rw [State.grantRing_slot noRewrite staged (k := ⟨_, slot⟩) rfl] at writes
      exact nomatch writes
    · exact ⟨rfl, noRewrite, congrArg State.ring (State.grantRing_producer noRewrite staged last)⟩

/-- The line rises at the grant of a producer word: a publish has room in the ring, so the producer does not come to the
consumer copy (R159, R161, R166). -/
theorem State.grant_attention {s : State} (free : s.mem = none) {b : Nat}
    (writes : s.grant.initiator? = some (.ring (.producerWord b) false)) : s.grant.attention = true := by
  cases asks : s.requester with
  | none => simp [State.grant, free, asks, State.initiator?] at writes
  | some r =>
    rw [State.grant_to free asks] at writes ⊢
    obtain ⟨rfl, noRewrite, ring⟩ := State.grantTo_producerWord free writes
    have wants : s.ringWants = true := by
      by_contra none
      simp only [State.requester, none] at asks
      split_ifs at asks <;> simp_all
    obtain ⟨_, rewrite | ⟨_, room⟩⟩ := s.ringWants_iff.1 wants
    · exact nomatch rewrite.symm.trans noRewrite
    · rw [State.attention_iff, ring]
      exact .inl room

/-- After a restart TRAP alone holds the line: the ring is empty and the part governs (R164, R166). -/
theorem State.restart_attention {s : State} (run : s.loader.mode = .running) : s.restart.attention = s.status.trap := by
  simp [State.attention, State.restart, Ring.restarted, run]

/-- Settles O7: the line by its conditions, after reset, at a grant and after a restart; the outputs by the state. -/
theorem outputs : Obligations.Outputs := by
  unfold Obligations.Outputs
  refine ⟨fun s => ⟨s.attention_iff, fun t runs => ?_, fun t free runs b writes => ?_,
    fun addr e t h role wp place runs => ?_⟩, fun ch => ⟨fun state => ?_, fun state => ?_, fun state => ?_⟩⟩
  · injection runs with after
    rw [← after]
    rfl
  · injection runs with after
    rw [← after] at writes ⊢
    exact State.grant_attention free writes
  · rw [restart_exec, State.accessValue_status h role wp, State.statusWrite_restart _ place] at runs
    injection runs with after
    rw [← after]
    exact State.restart_attention (s := s.used e) h.1.1
  · rcases state with state | state <;> simp [Channel.strokeDemand, Channel.valveShut, state]
  · rcases state with state | state | state <;> simp [Channel.strokeDemand, Channel.valveShut, state]
  · rcases state with state | state <;> simp [Channel.strokeDemand, Channel.valveShut, state]

/-! ### The end of an access of the ring writer -/

/-- The head leaves the staging queue, and the earliest held close record takes its place (R158, R162). -/
theorem Ring.removeHead_eq {r : Ring} {x : Record} {rest : List Record} (staged : r.staging = x :: rest) :
    r.removeHead = { r with staging := rest ++ r.held.take 1, held := r.held.drop 1 } := by
  unfold Ring.removeHead
  cases held : r.held with
  | nil => simp [staged]
  | cons h later => simp [staged]

/-- The publication of a close record takes its channel from CLOSING to CLOSED (R88, R106, R162). -/
theorem State.publishDone_close {s : State} {x : Record} {rest : List Record} {c : ChanId}
    (staged : s.ring.staging = x :: rest) (close : x.isClose = true) (names : x.channel = some c)
    (closing : s.chans[c].state = .closing) : s.publishDone =
      { s with
        ring := { s.ring with
          staging := rest ++ s.ring.held.take 1, held := s.ring.held.drop 1, sequence := s.ring.sequence + 1, next := 0 }
        chans := s.chans.set c { s.chans[c] with
          state := .closed, ctx := { s.chans[c].ctx with setpoint := 0 } } } := by
  have closed : Channel.published s.chans[c] =
      { s.chans[c] with state := .closed, ctx := { s.chans[c].ctx with setpoint := 0 } } := if_pos closing
  simp only [State.publishDone, staged, State.closePublished, close, names, Ring.removeHead_eq staged]
  rw [← closed]
  rfl

/-- The publication of any other record touches no channel (R162). -/
theorem State.publishDone_other {s : State} {x : Record} {rest : List Record} (staged : s.ring.staging = x :: rest)
    (other : x.isClose = false) : s.publishDone =
      { s with ring := { s.ring with
          staging := rest ++ s.ring.held.take 1, held := s.ring.held.drop 1, sequence := s.ring.sequence + 1
          next := 0 } } := by
  simp only [State.publishDone, staged, State.closePublished, other, Ring.removeHead_eq staged]

section RingEnds

variable {s : State} {m : MemAccess} (mem : s.mem = some m)
include mem

theorem State.memSlotDone_of {k : Nat} {abandoned : Bool} (writes : m.initiator = .ring (.slotWord k) abandoned) :
    s.memSlotDone = if abandoned then s.portFree else s.portFree.slotDone k := by
  simp only [State.memSlotDone, State.initiator?, mem, Option.map_some, writes]

theorem State.memProducerDone_of {b : Nat} {abandoned : Bool}
    (writes : m.initiator = .ring (.producerWord b) abandoned) :
    s.memProducerDone = if abandoned then s.portFree else s.portFree.publishDone := by
  simp only [State.memProducerDone, State.initiator?, mem, Option.map_some, writes]

theorem State.memRewriteDone_of {abandoned : Bool} (writes : m.initiator = .ring .rewrite abandoned) :
    s.memRewriteDone = if abandoned then s.portFree else s.portFree.rewriteDone := by
  simp only [State.memRewriteDone, State.initiator?, mem, Option.map_some, writes]

/-- An error and the timeout end a ring access alike (R2, R163, R164). -/
theorem State.memRingFailed_of {a : RingAccess} {abandoned : Bool} (writes : m.initiator = .ring a abandoned) :
    s.memRingFailed = s.portFree.ringFailed a abandoned m.addr ∧
      s.memTimeout = s.portFree.ringFailed a abandoned m.addr := by
  have failed : s.memRingFailed = s.portFree.ringFailed a abandoned m.addr := by
    simp only [State.memRingFailed, mem, writes]
  refine ⟨failed, ?_⟩
  simp only [State.memTimeout, State.initiator?, mem, Option.map_some, writes]
  exact failed

end RingEnds

/-- Settles O46, by the access that ends and whether a restart has abandoned it. -/
theorem ringAccessesEnd : Obligations.RingAccessesEnd := by
  unfold Obligations.RingAccessesEnd
  intro s m mem free
  refine ⟨fun k writes => ?_, fun b x rest writes staged => ?_, fun writes => ?_, fun a writes => ?_,
    fun a writes => ⟨?_, ?_⟩⟩
  · exact congrArg Host.Outcome.next (State.memSlotDone_of mem writes)
  · have done := State.memProducerDone_of mem writes
    refine ⟨fun c close names closing => ?_, fun other => ?_⟩
    · exact congrArg Host.Outcome.next
        (done.trans (State.publishDone_close (s := s.portFree) staged close names closing))
    · exact congrArg Host.Outcome.next (done.trans (State.publishDone_other (s := s.portFree) staged other))
  · exact congrArg Host.Outcome.next (State.memRewriteDone_of mem writes)
  · obtain ⟨failed, timeout⟩ := State.memRingFailed_of mem writes
    cases a <;> exact ⟨congrArg Host.Outcome.next failed, congrArg Host.Outcome.next timeout⟩
  · cases a with
    | slotWord => exact congrArg Host.Outcome.next (State.memSlotDone_of mem writes)
    | producerWord => exact congrArg Host.Outcome.next (State.memProducerDone_of mem writes)
    | rewrite => exact congrArg Host.Outcome.next (State.memRewriteDone_of mem writes)
  · obtain ⟨failed, timeout⟩ := State.memRingFailed_of mem writes
    exact ⟨congrArg Host.Outcome.next failed, congrArg Host.Outcome.next timeout⟩

end Sys2Proof.Machine
end

section
/-! SUPPORT. What a sample arrival comes to, said once: the context as the sample measures and judges it, the three turns
a stage in RAMP or HOLD can take (it closes, it parks, it is regulated) and the turns of a parked one (R85, R94). -/

namespace Sys2Proof.Machine

/-! ### The stage as the sample finds it -/

/-- The context of a stage with the measurements of a sample (R85, step 1). -/
def Channel.measured (ch : Channel) (env : SampleEnv) (smp : Sample) : Context :=
  ch.ctx.measure env.autoPark (isGood smp) (ch.readings.update smp).measured (countedPulses smp)

/-- The context of a stage in RAMP or HOLD with its setpoints and the counts of its hold (R85, steps 2 and 3). -/
def Channel.judged (ch : Channel) (env : SampleEnv) (smp : Sample) : Context :=
  (ch.measured env smp).judge (ch.state == .ramp) (isGood smp) env.rise (ch.readings.update smp).flow

/-- The close condition that a sample meets in RAMP or HOLD (R85, step 4). -/
def Channel.closeMet (ch : Channel) (env : SampleEnv) (smp : Sample) : Option CloseReason :=
  (ch.judged env smp).closeMet (!(ch.state == .ramp)) (isGood smp) (ch.readings.update smp).measured

/-- The park cause that a sample raises in RAMP, HOLD or PARKED (R85, step 5). -/
def Channel.causeMet (ch : Channel) (env : SampleEnv) (smp : Sample) : Option Cause :=
  parkMet env.autoPark (isGood smp) ch.ctx (ch.measured env smp)

/-- The take of a stage after a sample (R104). -/
def Channel.takeAt (ch : Channel) (smp : Sample) : Nat := min (ch.ctx.take + min smp.pulses 255) 4294967295

/-- The flow reading after a sample (R102). -/
def Channel.flowAt (ch : Channel) (smp : Sample) : Nat :=
  min (60 * (ch.readings.window.drop 1 ++ [min smp.pulses 255]).sum) 6000

section Loop

variable {smp : Sample}

theorem isGood_of_good {p : Nat} (good : smp.loop = .good p) : isGood smp = true := by simp [isGood, good]

theorem isGood_of_los (los : smp.loop = .los) : isGood smp = false := by simp [isGood, los]

/-- The readings after a good sample (R100). -/
theorem Readings.update_good (r : Readings) {p : Nat} (good : smp.loop = .good p) : r.update smp =
    { r with
      sampled := true
      window := r.window.drop 1 ++ [min smp.pulses 255]
      flow := min (60 * (r.window.drop 1 ++ [min smp.pulses 255]).sum) 6000
      sequence := r.sequence + 1
      measured := min p 8000
      los := false } := by
  simp only [Readings.update, good, countedPulses]

/-- The readings after a LOS sample (R100, R103). -/
theorem Readings.update_los (r : Readings) (los : smp.loop = .los) : r.update smp =
    { r with
      sampled := true
      window := r.window.drop 1 ++ [min smp.pulses 255]
      flow := min (60 * (r.window.drop 1 ++ [min smp.pulses 255]).sum) 6000
      sequence := r.sequence + 1
      los := true
      losCount := if r.los then min (r.losCount + 1) 65535 else 1 } := by
  simp only [Readings.update, los, countedPulses]

variable (ch : Channel) (env : SampleEnv)

/-- The measurements at a good sample (R104, R105, R118, R121). -/
theorem Channel.measured_good {p : Nat} (good : smp.loop = .good p) : ch.measured env smp =
    { ch.ctx with
      take := ch.takeAt smp
      specificTake := ch.takeAt smp * 10 / ch.ctx.length
      elapsed := min (ch.ctx.elapsed + 1) 4294967295
      peak := max ch.ctx.peak (min p 8000)
      overRun := if ch.ctx.pmax < min p 8000 then min (ch.ctx.overRun + 1) 3 else 0
      losRun := 0 } := by
  rw [Channel.measured, isGood_of_good good, Readings.update_good _ good]
  rfl

/-- The measurements at a LOS sample (R104, R122). -/
theorem Channel.measured_los (los : smp.loop = .los) : ch.measured env smp =
    { ch.ctx with
      take := ch.takeAt smp
      specificTake := ch.takeAt smp * 10 / ch.ctx.length
      elapsed := min (ch.ctx.elapsed + 1) 4294967295
      losRun := if env.autoPark then ch.ctx.losRun else min (ch.ctx.losRun + 1) 20 } := by
  rw [Channel.measured, isGood_of_los los]
  rfl

/-- A LOS sample judges nothing (R120). -/
theorem Channel.judged_los (los : smp.loop = .los) : ch.judged env smp = ch.measured env smp := by
  rw [Channel.judged, isGood_of_los los]
  rfl

end Loop

/-! ### The setpoints of a good sample -/

section Judged

variable (ch : Channel) (env : SampleEnv) (smp : Sample)

/-- The pressure of the current step. -/
def Context.stepPressure (x : Context) : Nat := ((x.steps[x.stepIndex]?).map (·.pressure)).getD 0

/-- The hold of the current step. -/
def Context.stepHold (x : Context) : Nat := ((x.steps[x.stepIndex]?).map (·.hold)).getD 0

theorem Context.currentStep_pressure (x : Context) : x.currentStep.pressure = x.stepPressure := by
  unfold Context.currentStep Context.stepPressure
  cases x.steps[x.stepIndex]? <;> rfl

theorem Context.currentStep_hold (x : Context) : x.currentStep.hold = x.stepHold := by
  unfold Context.currentStep Context.stepHold
  cases x.steps[x.stepIndex]? <;> rfl

/-- Pgin at the take after the sample (R107). -/
def Channel.pginAt : Nat := ch.ctx.gin * 100 * ch.ctx.length / ch.takeAt smp

/-- The hold target at a good sample (R78, R106). -/
def Channel.targetAt : Nat :=
  if 0 < ch.takeAt smp then min (min ch.ctx.stepPressure ch.ctx.pmax) (ch.pginAt smp)
  else min ch.ctx.stepPressure ch.ctx.pmax

/-- The ramp ceiling at a good sample, which rises in RAMP (R115). -/
def Channel.ceilingAt : Nat :=
  if ch.state = .ramp then
    (if ch.ctx.pmax ≤ ch.ctx.ceiling then ch.ctx.ceiling else min (ch.ctx.ceiling + env.rise) ch.ctx.pmax)
  else ch.ctx.ceiling

/-- Pgin governs the stage at a good sample (R108). -/
def Channel.governsAt : Prop :=
  0 < ch.takeAt smp ∧ ch.pginAt smp ≤ ch.ctx.pmax ∧ ch.pginAt smp < ch.ctx.stepPressure ∧
    (ch.state = .ramp → ch.pginAt smp ≤ ch.ceilingAt env)

/-- The step time after a good sample (R79). -/
def Channel.timeAt : Nat := if ch.state = .ramp then ch.ctx.stepTime else ch.ctx.stepTime + 1

/-- The refusal count after a good sample (R82). -/
def Channel.countAt : Nat :=
  if ch.state = .ramp ∨ ch.ctx.stepIndex + 1 < ch.ctx.steps.length then ch.ctx.refusalCount
  else if ch.flowAt smp ≤ ch.ctx.qref then ch.ctx.refusalCount + 1 else 0

/-- Steps 2 and 3 of R85 at a good sample, field by field. -/
theorem Context.judge_good (x : Context) (inRamp : Bool) (rise flow : Nat) : x.judge inRamp true rise flow =
    { x.setpoints inRamp rise with
      ginLimited := (x.judge inRamp true rise flow).ginLimited
      stepTime := if inRamp then x.stepTime else x.stepTime + 1
      refusalCount := if inRamp then x.refusalCount
        else if x.onLastStep then (if flow ≤ x.qref then x.refusalCount + 1 else 0) else x.refusalCount } := by
  cases inRamp <;> rfl

/-- The measurements of a sample leave the take counted and the schedule, the curve and the envelope as they are. -/
theorem Channel.measured_terms : (ch.measured env smp).take = ch.takeAt smp ∧
    (ch.measured env smp).pginNow = ch.pginAt smp ∧ (ch.measured env smp).targetNow = ch.targetAt smp ∧
    (ch.measured env smp).currentStep.pressure = ch.ctx.stepPressure ∧
    (if (ch.state == .ramp) = true then (ch.measured env smp).risenCeiling env.rise
      else (ch.measured env smp).ceiling) = ch.ceilingAt env := by
  unfold Channel.targetAt
  rw [← ch.ctx.currentStep_pressure]
  simp only [beq_iff_eq]
  cases loop : smp.loop with
  | good p =>
    rw [ch.measured_good env loop]
    exact ⟨rfl, rfl, rfl, rfl, rfl⟩
  | los =>
    rw [ch.measured_los env loop]
    exact ⟨rfl, rfl, rfl, rfl, rfl⟩

/-- The stage as a good sample judges it (R78, R79, R82, R106, R107, R115). -/
theorem Channel.judged_good {p : Nat} (good : smp.loop = .good p) : ch.judged env smp =
    { ch.measured env smp with
      ceiling := ch.ceilingAt env
      pgin := if 0 < ch.takeAt smp then ch.pginAt smp else ch.ctx.pgin
      holdTarget := ch.targetAt smp
      setpoint := if ch.state = .ramp then min (ch.targetAt smp) (ch.ceilingAt env) else ch.targetAt smp
      ginLimited := (ch.judged env smp).ginLimited
      stepTime := ch.timeAt
      refusalCount := ch.countAt smp } := by
  obtain ⟨take, pgin, target, _, ceiling⟩ := ch.measured_terms env smp
  have kept : (ch.measured env smp).pgin = ch.ctx.pgin ∧ (ch.measured env smp).stepTime = ch.ctx.stepTime ∧
      (ch.measured env smp).refusalCount = ch.ctx.refusalCount ∧ (ch.measured env smp).qref = ch.ctx.qref ∧
      (ch.measured env smp).onLastStep = ch.ctx.onLastStep := by
    rw [ch.measured_good env good]
    exact ⟨rfl, rfl, rfl, rfl, rfl⟩
  obtain ⟨oldPgin, time, count, qref, last⟩ := kept
  have flow : (ch.readings.update smp).flow = ch.flowAt smp := by
    rw [Readings.update_good _ good]
    rfl
  have counts : (if (ch.state == .ramp) = true then ch.ctx.refusalCount
      else if ch.ctx.onLastStep = true then
        (if ch.flowAt smp ≤ ch.ctx.qref then ch.ctx.refusalCount + 1 else 0)
      else ch.ctx.refusalCount) = ch.countAt smp := by
    by_cases ramp : ch.state = .ramp <;> by_cases more : ch.ctx.stepIndex + 1 < ch.ctx.steps.length <;>
      simp [Channel.countAt, Context.onLastStep, ramp, more]
  conv_lhs => rw [Channel.judged, isGood_of_good good, Context.judge_good]
  simp only [Context.setpoints, take, pgin, target, ceiling, oldPgin, time, count, qref, last, flow, counts]
  simp only [Channel.judged, isGood_of_good good, flow, Channel.timeAt, beq_iff_eq]

/-- The mark GIN-limited sets where Pgin governs (R108). -/
theorem Channel.judged_ginLimited {p : Nat} (good : smp.loop = .good p) :
    (ch.judged env smp).ginLimited = true ↔ ch.ctx.ginLimited = true ∨ ch.governsAt env smp := by
  obtain ⟨take, pgin, _, pressure, ceiling⟩ := ch.measured_terms env smp
  have kept : (ch.measured env smp).ginLimited = ch.ctx.ginLimited ∧ (ch.measured env smp).pmax = ch.ctx.pmax := by
    rw [ch.measured_good env good]
    exact ⟨rfl, rfl⟩
  rw [Channel.judged, isGood_of_good good, Context.judge_ginLimited, take, pgin, pressure, ceiling, kept.1, kept.2,
    beq_iff_eq]
  rfl

end Judged

/-! ### What the sample meets -/

section Met

variable (ch : Channel) (env : SampleEnv) {smp : Sample}

/-- The close conditions at a good sample in RAMP or HOLD, in their order (R81 to R84, R109, R110). -/
theorem Channel.closeMet_good (run : ch.state = .ramp ∨ ch.state = .hold) {p : Nat} (good : smp.loop = .good p) :
    ch.closeMet env smp =
      if ch.ctx.cap ≤ ch.takeAt smp then some .cap
      else if 0 < ch.takeAt smp ∧ ch.ctx.gin * 100 * ch.ctx.length ≤ min p 8000 * ch.takeAt smp then some .gin
      else if (ch.state = .hold ∧ ch.ctx.steps.length ≤ ch.ctx.stepIndex + 1) ∧
        ch.ctx.tref * 10 ≤ (if ch.flowAt smp ≤ ch.ctx.qref then ch.ctx.refusalCount + 1 else 0) then some .refusal
      else if (ch.state = .hold ∧ ch.ctx.steps.length ≤ ch.ctx.stepIndex + 1) ∧ 0 < ch.ctx.stepHold ∧
        ch.ctx.stepHold * 10 ≤ ch.ctx.stepTime + 1 then some .schedule
      else none := by
  have terms : (ch.judged env smp).cap = ch.ctx.cap ∧ (ch.judged env smp).take = ch.takeAt smp ∧
      (ch.judged env smp).curve = ch.ctx.gin * 100 * ch.ctx.length ∧
      (ch.judged env smp).steps.length = ch.ctx.steps.length ∧ (ch.judged env smp).stepIndex = ch.ctx.stepIndex ∧
      (ch.judged env smp).tref = ch.ctx.tref ∧ (ch.judged env smp).refusalCount = ch.countAt smp ∧
      (ch.judged env smp).currentStep.hold = ch.ctx.currentStep.hold ∧ (ch.judged env smp).stepTime = ch.timeAt := by
    rw [ch.judged_good env smp good, ch.measured_good env good]
    exact ⟨rfl, rfl, rfl, rfl, rfl, rfl, rfl, rfl, rfl⟩
  obtain ⟨cap, take, curve, steps, index, tref, count, hold, time⟩ := terms
  have pressure : (ch.readings.update smp).measured = min p 8000 := by rw [Readings.update_good _ good]
  rw [Channel.closeMet, Context.closeMet_eq, isGood_of_good good, cap, take, curve, steps, index, tref, count, hold,
    ch.ctx.currentStep_hold, time, pressure]
  rcases run with ramp | hold
  · simp [ramp]
  · by_cases last : ch.ctx.steps.length ≤ ch.ctx.stepIndex + 1
    · simp [hold, last, Channel.countAt, Channel.timeAt, Nat.not_lt.2 last]
    · simp [last]

/-- At a LOS sample CAP alone closes a stage (R81, R120). -/
theorem Channel.closeMet_los (los : smp.loop = .los) :
    ch.closeMet env smp = if ch.ctx.cap ≤ ch.takeAt smp then some .cap else none := by
  have terms : (ch.judged env smp).cap = ch.ctx.cap ∧ (ch.judged env smp).take = ch.takeAt smp := by
    rw [ch.judged_los env los, ch.measured_los env los]
    exact ⟨rfl, rfl⟩
  rw [Channel.closeMet, Context.closeMet_eq, isGood_of_los los, terms.1, terms.2]
  simp

/-- The overpressure run reaches 3 at a good sample above Pmax that finds it at 2 (R118; log entry 13). -/
theorem Channel.causeMet_good {p : Nat} (good : smp.loop = .good p) : ch.causeMet env smp =
    if ch.ctx.pmax < min p 8000 ∧ ch.ctx.overRun = 2 then some .overpressure else none := by
  have reaches : ch.ctx.overRun < 3 ∧ (ch.measured env smp).overRun = 3 ↔
      ch.ctx.pmax < min p 8000 ∧ ch.ctx.overRun = 2 := by
    rw [ch.measured_good env good]
    by_cases above : ch.ctx.pmax < min p 8000
    · simp only [above, if_true, true_and]
      omega
    · simp [above]
  simp only [Channel.causeMet, parkMet, isGood_of_good good, if_true, reaches]

/-- A LOS sample parks at once under auto-park, and else where the LOS run reaches 20 from 19 (R121, R122; log entry
13). -/
theorem Channel.causeMet_los (los : smp.loop = .los) : ch.causeMet env smp =
    if env.autoPark = true ∨ ch.ctx.losRun = 19 then some .los else none := by
  rw [Channel.causeMet, ch.measured_los env los, isGood_of_los los]
  cases env.autoPark with
  | true => simp [parkMet]
  | false =>
    have reaches : ch.ctx.losRun < 20 ∧ min (ch.ctx.losRun + 1) 20 = 20 ↔ ch.ctx.losRun = 19 := by omega
    simp only [parkMet, Bool.false_eq_true, if_false, reaches, false_or]

end Met

/-! ### The turns of a stage -/

section Turns

variable (ch : Channel) (env : SampleEnv) (smp : Sample)

/-- The channel with its readings brought up to date and its stage judged. -/
def Channel.atJudged : Channel := { ch with readings := ch.readings.update smp, ctx := ch.judged env smp }

/-- The channel with its readings brought up to date and its stage measured. -/
def Channel.atMeasured : Channel := { ch with readings := ch.readings.update smp, ctx := ch.measured env smp }

/-- The records of the readings and of the overpressure run (R119, R130). -/
def Channel.readingNews : List Effect :=
  ch.losNews env smp ++ ch.overNews env (ch.measured env smp) (ch.readings.update smp).measured

/-- The record of the GIN-limited mark (R108). -/
def Channel.markNews : List Effect := ch.ginNews env (ch.measured env smp) (ch.state == .ramp) (isGood smp)

/-- The turn of a stage in RAMP or HOLD by what it meets: it closes, it parks, or it is regulated (R85). -/
def Channel.turn (met : Option CloseReason) (cause : Option Cause) (good : Bool) : Channel × List Effect :=
  match met, cause with
  | some reason, _ => ch.closeNow env reason
  | none, some cause => ch.parkNow env cause
  | none, none => ch.regulate env good

/-- The turn of a parked stage: it closes on CAP, takes a cause, or stays as it is (R94). -/
def Channel.parkedTurn (capped : Bool) (cause : Option Cause) : Channel × List Effect :=
  match capped, cause with
  | true, _ => ch.closeNow env .cap
  | false, some cause => ch.parkNow env cause
  | false, none => (ch, [])

/-- The work of a sample in RAMP or HOLD is its records and its turn. -/
theorem Channel.runSample_eq :
    let x₁ := ch.ctx.measure env.autoPark (isGood smp) ch.readings.measured (countedPulses smp)
    let x₃ := x₁.judge (ch.state == .ramp) (isGood smp) env.rise ch.readings.flow
    let turn := ({ ch with ctx := x₃ } : Channel).turn env
      (x₃.closeMet (!(ch.state == .ramp)) (isGood smp) ch.readings.measured)
      (parkMet env.autoPark (isGood smp) ch.ctx x₃) (isGood smp)
    ch.runSample env smp = (turn.1, ch.overNews env x₁ ch.readings.measured ++
      ch.ginNews env x₁ (ch.state == .ramp) (isGood smp) ++ turn.2) := by
  intro x₁ x₃ turn
  unfold turn Channel.turn Channel.runSample
  dsimp only
  cases x₃.closeMet (!(ch.state == .ramp)) (isGood smp) ch.readings.measured with
  | some why => rfl
  | none => cases parkMet env.autoPark (isGood smp) ch.ctx x₃ <;> rfl

/-- A sample arrival in RAMP or HOLD. -/
theorem Channel.sample_of_run (run : ch.state = .ramp ∨ ch.state = .hold) :
    let turn := (ch.atJudged env smp).turn env (ch.closeMet env smp) (ch.causeMet env smp) (isGood smp)
    ch.sample env smp = (turn.1, ch.readingNews env smp ++ ch.markNews env smp ++ turn.2) := by
  have cause : parkMet env.autoPark (isGood smp) ch.ctx (ch.judged env smp) = ch.causeMet env smp := by
    obtain ⟨_, _, _, _, losRun, overRun⟩ := (ch.measured env smp).judge_measures (ch.state == .ramp) (isGood smp)
      env.rise (ch.readings.update smp).flow
    simp only [Channel.causeMet, parkMet, Channel.judged, losRun, overRun]
  have work : ({ ch with readings := ch.readings.update smp } : Channel).stageWork env smp =
      ({ ch with readings := ch.readings.update smp } : Channel).runSample env smp := by
    rcases run with state | state <;> simp only [Channel.stageWork, state]
  intro turn
  rw [Channel.sample, work, Channel.runSample_eq]
  simp only [turn, ← cause, Channel.readingNews, List.append_assoc]
  rfl

/-- The work of a sample in PARKED is its records and its turn. -/
theorem Channel.parkedSample_eq :
    let x₁ := ch.ctx.measure env.autoPark (isGood smp) ch.readings.measured (countedPulses smp)
    let turn := ({ ch with ctx := x₁ } : Channel).parkedTurn env (decide (x₁.cap ≤ x₁.take))
      (parkMet env.autoPark (isGood smp) ch.ctx x₁)
    ch.parkedSample env smp = (turn.1, ch.overNews env x₁ ch.readings.measured ++ turn.2) := by
  intro x₁ turn
  unfold turn Channel.parkedTurn Channel.parkedSample
  dsimp only
  by_cases full : x₁.cap ≤ x₁.take
  · rw [decide_eq_true full, if_pos full]
  · rw [decide_eq_false full, if_neg full]
    cases parkMet env.autoPark (isGood smp) ch.ctx x₁ <;> rfl

/-- A sample arrival in PARKED. -/
theorem Channel.sample_of_parked (parked : ch.state = .parked) :
    let turn := (ch.atMeasured env smp).parkedTurn env (decide (ch.ctx.cap ≤ ch.takeAt smp)) (ch.causeMet env smp)
    ch.sample env smp = (turn.1, ch.readingNews env smp ++ turn.2) := by
  have capped : decide ((ch.measured env smp).cap ≤ (ch.measured env smp).take) =
      decide (ch.ctx.cap ≤ ch.takeAt smp) := by
    obtain ⟨cap, _, _, _, _, take, _⟩ := ch.ctx.measure_keeps env.autoPark (isGood smp) (ch.readings.update smp).measured
      (countedPulses smp)
    simp only [Channel.measured, cap, take]
    rfl
  have work : ({ ch with readings := ch.readings.update smp } : Channel).stageWork env smp =
      ({ ch with readings := ch.readings.update smp } : Channel).parkedSample env smp := by
    simp only [Channel.stageWork, parked]
  intro turn
  rw [Channel.sample, work, Channel.parkedSample_eq]
  simp only [turn, ← capped, Channel.readingNews, List.append_assoc]
  rfl

end Turns

end Sys2Proof.Machine
end

section
/-! SUPPORT. The statements on the stage at a sample arrival: readings, close conditions, regulation and park conditions
(R78 to R90, R94, R100 to R122). -/

namespace Sys2Proof.Machine

/-! ### The rest of the part at a sample -/

/-- A sample arrival is the records and flags of its channel, then the reports and the fill of the buffer; nothing else of
the part changes (R85, R101, R146). -/
theorem State.sampled_parts {s : State} (run : s.loader.mode = .running) (c : ChanId) (smp : Sample) :
    let turn := s.chans[c].sample (s.sampleEnv c smp) smp
    s.sampled c smp = { s.performAll turn.2 with
      chans := s.chans.set c turn.1
      field := (s.sampled c smp).field
      pool := (s.sampled c smp).pool } := by
  intro turn
  have alone : s.sampledAlone c smp = { s.performAll turn.2 with chans := s.chans.set c turn.1 } :=
    State.performAll_withChans turn.2 s _
  have filled := State.fillArmed_kept ((s.sampledAlone c smp).handOn c) { channel := c, fresh := true } false
  rw [← State.sampled_eq run] at filled
  have parts : s.sampled c smp = { (s.sampledAlone c smp).handOn c with pool := (s.sampled c smp).pool } := by
    rw [← filled]
  rw [parts, State.handOn, alone]

/-- A report for every channel whose stage watches the one sampled joins the reports that wait (R101; log entry 19). -/
theorem State.sampled_field {s : State} (run : s.loader.mode = .running) (c : ChanId) (smp : Sample) :
    let t := s.sampled c smp
    t.field = { s.field with
      reports := s.field.reports ++
        ((List.finRange 8).filter (fun w => t.chans[w].ctx.watches.any (fun e => e.channel == c))).map (fun w =>
          { watched := c, watcher := w, state := t.chans[c].state, measured := t.chans[c].readings.measured
            los := t.chans[c].readings.los }) } := by
  have field : (s.sampledAlone c smp).field = s.field := (Kept.performAll _ _).field
  intro t
  simp only [t, State.sampled_eq run, State.fillArmed_field', State.fillArmed_chans', State.handOn, field]
  rfl

/-- Outside RUNNING no sample is taken (R100). -/
theorem State.sampled_off {s : State} (off : s.loader.mode ≠ .running) (c : ChanId) (smp : Sample) :
    s.sampled c smp = s := if_neg off

/-- The stage of a channel that loads none, or has closed, is left alone (R87, R101). -/
theorem Channel.sample_idle {ch : Channel} (idle : ch.state = .vacant ∨ ch.state = .armed ∨ ch.state = .closed)
    (env : SampleEnv) (smp : Sample) :
    ch.sample env smp = ({ ch with readings := ch.readings.update smp }, ch.losNews env smp) := by
  rcases idle with state | state | state <;> simp [Channel.sample, Channel.stageWork, state]

/-- A stage in CLOSING counts its take alone (R88, R104). -/
theorem Channel.sample_closing {ch : Channel} (closing : ch.state = .closing) (env : SampleEnv) (smp : Sample) :
    ch.sample env smp =
      ({ ch with
          readings := ch.readings.update smp
          ctx := { ch.ctx with
            take := ch.takeAt smp, specificTake := ch.takeAt smp * 10 / ch.ctx.length } },
        ch.losNews env smp) := by
  simp only [Channel.sample, Channel.stageWork, closing, List.append_nil]
  rfl

/-- Settles O48: the readings and the frame of a sample, and the stages that it leaves alone. -/
theorem readingsAtASample : Obligations.ReadingsAtASample := by
  unfold Obligations.ReadingsAtASample
  intro s c smp ch r window counted taken take
  refine ⟨fun off => congrArg Host.Outcome.next (State.sampled_off off c smp), fun run => ⟨s.sampled c smp, rfl, ?_⟩⟩
  have after : (s.sampled c smp).chans[c] = (ch.sample (s.sampleEnv c smp) smp).1 := State.sampled_chan run c smp
  have parts := State.sampled_parts run c smp
  have kept := Kept.performAll (ch.sample (s.sampleEnv c smp) smp).2 s
  obtain ⟨readings, image, result⟩ :=
    ({ ch with readings := ch.readings.update smp } : Channel).stageWork_readings (s.sampleEnv c smp) smp
  have update : r.update smp = taken := by
    cases loop : smp.loop with
    | good p => simp only [Readings.update_good _ loop, taken, loop]; rfl
    | los => simp only [Readings.update_los _ loop, taken, loop]; rfl
  rw [after]
  refine ⟨readings.trans update, fun k other => State.sampled_other run c smp k other, image, result, fun idle => ?_,
    fun closing => ?_, ?_⟩
  · rw [Channel.sample_idle idle]
    exact ⟨rfl, rfl⟩
  · rw [Channel.sample_closing closing]
    exact ⟨closing, rfl⟩
  · refine ⟨by simp, by simp, by simp, by simp, by simp, ?_, ?_, ?_, by simp⟩
    · rw [State.sampled_field run]
    · rw [parts]
      exact kept.ring
    · rw [parts]
      exact kept.status

/-! ### The turns of a stage, written out -/

section Kept

variable (ch : Channel) (env : SampleEnv) (smp : Sample)

/-- The measurements and the judgement of a sample leave the step, the park causes and what a record takes from the
stage. -/
theorem Channel.judged_keeps {x : Context} (h : x = ch.measured env smp ∨ x = ch.judged env smp) :
    x.stepIndex = ch.ctx.stepIndex ∧ x.parkSet = ch.ctx.parkSet ∧ x.causesSeen = ch.ctx.causesSeen ∧
      x.ownRecord = ch.ctx.ownRecord := by
  have measured : (ch.measured env smp).stepIndex = ch.ctx.stepIndex ∧ (ch.measured env smp).parkSet = ch.ctx.parkSet ∧
      (ch.measured env smp).causesSeen = ch.ctx.causesSeen ∧ (ch.measured env smp).ownRecord = ch.ctx.ownRecord := by
    cases loop : smp.loop with
    | good p =>
      rw [ch.measured_good env loop]
      exact ⟨rfl, rfl, rfl, rfl⟩
    | los =>
      rw [ch.measured_los env loop]
      exact ⟨rfl, rfl, rfl, rfl⟩
  rcases h with rfl | rfl
  · exact measured
  · cases loop : smp.loop with
    | good p =>
      rw [ch.judged_good env smp loop]
      exact measured
    | los =>
      rw [ch.judged_los env loop]
      exact measured

/-- The fields of a stage that a good sample has judged. -/
theorem Channel.judged_fields {p : Nat} (good : smp.loop = .good p) :
    let y := ch.judged env smp
    y.pgin = (if 0 < ch.takeAt smp then ch.pginAt smp else ch.ctx.pgin) ∧ y.holdTarget = ch.targetAt smp ∧
      y.ceiling = ch.ceilingAt env ∧
      y.setpoint = (if ch.state = .ramp then min (ch.targetAt smp) (ch.ceilingAt env) else ch.targetAt smp) ∧
      y.stepTime = ch.timeAt ∧ y.refusalCount = ch.countAt smp ∧ y.demand = ch.ctx.demand ∧ y.pmax = ch.ctx.pmax ∧
      y.steps = ch.ctx.steps ∧ y.watches = ch.ctx.watches ∧ y.stepHold = ch.ctx.stepHold := by
  intro y
  have judged := ch.judged_good env smp good
  rw [ch.measured_good env good] at judged
  unfold y
  rw [judged]
  exact ⟨rfl, rfl, rfl, rfl, rfl, rfl, rfl, rfl, rfl, rfl, rfl⟩

end Kept

/-- Steps 6 and 7 of R85 for a stage in RAMP or HOLD: the state and context it goes to (R78, R80). -/
theorem Context.move_run (x : Context) {st : ChState} (run : st = .ramp ∨ st = .hold) (measured : Nat) :
    let reaches := st = .ramp ∧ x.holdTarget ≤ measured + 20
    let advances := x.stepIndex + 1 < x.steps.length ∧ x.stepHold * 10 ≤ x.stepTime ∧ (reaches ∨ ¬st = .ramp)
    x.move st measured =
      { state := if advances then .ramp else if reaches ∨ ¬st = .ramp then .hold else .ramp
        ctx := if advances then x.advance measured else x
        advanced := decide advances
        reached := decide reaches } := by
  intro reaches advances
  have due : x.advanceDue = true ↔ x.stepIndex + 1 < x.steps.length ∧ x.stepHold * 10 ≤ x.stepTime := by
    simp [Context.advanceDue, Context.onLastStep, x.currentStep_hold]
  have advancesIff : advances ↔ x.advanceDue = true ∧ (reaches ∨ ¬st = .ramp) := by rw [due, and_assoc]
  simp only [advancesIff]
  unfold reaches Context.move
  rcases run with rfl | rfl
  · by_cases there : x.holdTarget ≤ measured + 20 <;> by_cases due : x.advanceDue = true <;> simp [there, due]
  · by_cases due : x.advanceDue = true <;> simp [due]

/-- A stage that a good sample regulates (R78, R80, R116, R118). -/
theorem Channel.regulate_good {ch : Channel} (run : ch.state = .ramp ∨ ch.state = .hold) (env : SampleEnv) :
    let x := ch.ctx
    let measured := ch.readings.measured
    let reaches := ch.state = .ramp ∧ x.holdTarget ≤ measured + 20
    let advances := x.stepIndex + 1 < x.steps.length ∧ x.stepHold * 10 ≤ x.stepTime ∧ (reaches ∨ ¬ch.state = .ramp)
    ch.regulate env true =
      ({ ch with
          state := if advances then .ramp else if reaches ∨ ¬ch.state = .ramp then .hold else .ramp
          ctx := { (if advances then x.advance measured else x) with
            demand := if x.pmax < measured then 0 else if advances then x.demand
              else steppedDemand x.demand measured x.setpoint } },
        if reaches then [.stage (x.ownRecord env.id env.clock (.stepReached x.stepIndex measured x.take))] else []) := by
  intro x measured reaches advances
  simp only [Channel.regulate, Context.move_run _ run, decide_eq_true_eq, if_true]
  rfl

section Turns

variable {ch : Channel} {env : SampleEnv} {smp : Sample}

section Run

variable (run : ch.state = .ramp ∨ ch.state = .hold)
include run

/-- A stage that the sample closes (R86). -/
theorem Channel.sample_closes {why : CloseReason} (met : ch.closeMet env smp = some why) :
    let y := { ch.judged env smp with demand := 0, setpoint := 0, closeReason := some why }
    ch.sample env smp =
      ({ ch with state := .closing, readings := ch.readings.update smp, ctx := y },
        ch.readingNews env smp ++ ch.markNews env smp ++ [.stage (y.ownRecord env.id env.clock
          (.stageClosed why y.causesSeen y.take y.peak (ch.readings.update smp).measured y.elapsed
            (y.take * 10 / y.length)))]) := by
  rw [Channel.sample_of_run _ _ _ run, met]
  rfl

/-- A stage that the sample parks (R90). -/
theorem Channel.sample_parks (unmet : ch.closeMet env smp = none) {cause : Cause}
    (met : ch.causeMet env smp = some cause) :
    let y := { ch.judged env smp with
      parkSet := cause.mark, causesSeen := (ch.judged env smp).causesSeen ||| cause.mark, demand := 0, setpoint := 0 }
    ch.sample env smp =
      ({ ch with state := .parked, readings := ch.readings.update smp, ctx := y },
        ch.readingNews env smp ++ ch.markNews env smp ++
          [.stage (y.ownRecord env.id env.clock (.parked cause cause.mark))]) := by
  have parks := Channel.park_of_run (ch := ch.atJudged env smp) env.id env.clock cause run
  rw [Channel.sample_of_run _ _ _ run, unmet, met]
  simp only [Channel.turn, Channel.parkNow, parks]
  rfl

/-- A stage that a good sample neither closes nor parks (R78, R80, R116, R118). -/
theorem Channel.sample_regulates (unmet : ch.closeMet env smp = none) (noCause : ch.causeMet env smp = none) {p : Nat}
    (good : smp.loop = .good p) :
    let y := ch.judged env smp
    let reaches := ch.state = .ramp ∧ ch.targetAt smp ≤ min p 8000 + 20
    let advances := ch.ctx.stepIndex + 1 < ch.ctx.steps.length ∧ ch.ctx.stepHold * 10 ≤ ch.timeAt ∧
      (reaches ∨ ¬ch.state = .ramp)
    ch.sample env smp =
      ({ ch with
          state := if advances then .ramp else if reaches ∨ ¬ch.state = .ramp then .hold else .ramp
          readings := ch.readings.update smp
          ctx := { (if advances then y.advance (min p 8000) else y) with
            demand := if ch.ctx.pmax < min p 8000 then 0 else if advances then ch.ctx.demand
              else steppedDemand ch.ctx.demand (min p 8000) y.setpoint } },
        ch.readingNews env smp ++ ch.markNews env smp ++
          if reaches then [.stage (y.ownRecord env.id env.clock (.stepReached ch.ctx.stepIndex (min p 8000) y.take))]
          else []) := by
  have regulated := Channel.regulate_good (ch := ch.atJudged env smp) run env
  have pressure : (ch.readings.update smp).measured = min p 8000 := by rw [Readings.update_good _ good]
  obtain ⟨_, target, _, _, time, _, demand, pmax, steps, _, hold⟩ := ch.judged_fields env smp good
  obtain ⟨index, _, _, _⟩ := ch.judged_keeps env smp (.inr rfl)
  rw [Channel.sample_of_run _ _ _ run, unmet, noCause, isGood_of_good good]
  simp only [Channel.turn, regulated]
  simp only [Channel.atJudged, pressure, target, time, demand, pmax, steps, index, hold]

/-- A stage whose step advances at a good sample: RAMP with the next step, the demand left unless above Pmax (R80, R116,
R118). -/
theorem Channel.sample_advances (unmet : ch.closeMet env smp = none) (noCause : ch.causeMet env smp = none) {p : Nat}
    (good : smp.loop = .good p)
    (advances : ch.ctx.stepIndex + 1 < ch.ctx.steps.length ∧ ch.ctx.stepHold * 10 ≤ ch.timeAt ∧
      (ch.state = .ramp ∧ ch.targetAt smp ≤ min p 8000 + 20 ∨ ¬ch.state = .ramp)) :
    (ch.sample env smp).1 =
      { ch with
        state := .ramp
        readings := ch.readings.update smp
        ctx := { (ch.judged env smp).advance (min p 8000) with
          demand := if ch.ctx.pmax < min p 8000 then 0 else ch.ctx.demand } } := by
  rw [Channel.sample_regulates run unmet noCause good]
  simp only [if_pos advances]

/-- A stage whose step does not advance at a good sample: HOLD where it holds or reaches its target (R78, R116, R118). -/
theorem Channel.sample_stays (unmet : ch.closeMet env smp = none) (noCause : ch.causeMet env smp = none) {p : Nat}
    (good : smp.loop = .good p)
    (stays : ¬(ch.ctx.stepIndex + 1 < ch.ctx.steps.length ∧ ch.ctx.stepHold * 10 ≤ ch.timeAt ∧
      (ch.state = .ramp ∧ ch.targetAt smp ≤ min p 8000 + 20 ∨ ¬ch.state = .ramp))) :
    (ch.sample env smp).1 =
      { ch with
        state := if ch.state = .ramp ∧ ch.targetAt smp ≤ min p 8000 + 20 ∨ ¬ch.state = .ramp then .hold else .ramp
        readings := ch.readings.update smp
        ctx := { ch.judged env smp with
          demand := if ch.ctx.pmax < min p 8000 then 0
            else steppedDemand ch.ctx.demand (min p 8000) (ch.judged env smp).setpoint } } := by
  rw [Channel.sample_regulates run unmet noCause good]
  simp only [if_neg stays]

/-- A stage that a LOS sample neither closes nor parks (R120). -/
theorem Channel.sample_idles (unmet : ch.closeMet env smp = none) (noCause : ch.causeMet env smp = none)
    (los : smp.loop = .los) :
    ch.sample env smp =
      ({ ch with readings := ch.readings.update smp, ctx := { ch.measured env smp with demand := 0 } },
        ch.readingNews env smp ++ ch.markNews env smp) := by
  rw [Channel.sample_of_run _ _ _ run, unmet, noCause, isGood_of_los los, ← ch.judged_los env los]
  simp only [Channel.turn, Channel.regulate, Bool.false_eq_true, if_false, List.append_nil]
  rfl

end Run

section Parked

variable (parked : ch.state = .parked)
include parked

/-- A parked stage that reaches its cap closes (R94). -/
theorem Channel.sample_parked_closes (full : ch.ctx.cap ≤ ch.takeAt smp) :
    let y := { ch.measured env smp with demand := 0, setpoint := 0, closeReason := some .cap }
    ch.sample env smp =
      ({ ch with state := .closing, readings := ch.readings.update smp, ctx := y },
        ch.readingNews env smp ++ [.stage (y.ownRecord env.id env.clock
          (.stageClosed .cap y.causesSeen y.take y.peak (ch.readings.update smp).measured y.elapsed
            (y.take * 10 / y.length)))]) := by
  rw [Channel.sample_of_parked _ _ _ parked, decide_eq_true full]
  rfl

/-- A parked stage below its cap that the sample gives a cause (R90, R94). -/
theorem Channel.sample_parked_takes (below : ¬ch.ctx.cap ≤ ch.takeAt smp) {cause : Cause}
    (met : ch.causeMet env smp = some cause) :
    ch.sample env smp = (((ch.atMeasured env smp).park env.id env.clock cause).1,
      ch.readingNews env smp ++ ((ch.atMeasured env smp).park env.id env.clock cause).2.map .stage) := by
  rw [Channel.sample_of_parked _ _ _ parked, decide_eq_false below, met]
  rfl

/-- A parked stage below its cap with no cause from the sample is measured and no more (R94). -/
theorem Channel.sample_parked_stays (below : ¬ch.ctx.cap ≤ ch.takeAt smp) (noCause : ch.causeMet env smp = none) :
    ch.sample env smp = (ch.atMeasured env smp, ch.readingNews env smp) := by
  rw [Channel.sample_of_parked _ _ _ parked, decide_eq_false below, noCause]
  simp only [Channel.parkedTurn, List.append_nil]

end Parked

end Turns

/-! ### Close conditions -/

section Close

variable {ch : Channel} {env : SampleEnv} {smp : Sample}

/-- A stage closed by a sample: CLOSING with the reason, demand and permitted setpoint 0, the step and the park causes
kept (R86). -/
def Channel.ClosesTo (ch ch' : Channel) (why : CloseReason) : Prop :=
  ch'.state = .closing ∧ ch'.ctx.closeReason = some why ∧ ch'.ctx.demand = 0 ∧ ch'.ctx.setpoint = 0 ∧
    ch'.ctx.stepIndex = ch.ctx.stepIndex ∧ ch'.ctx.parkSet = ch.ctx.parkSet ∧ ch'.ctx.causesSeen = ch.ctx.causesSeen

theorem Channel.closesTo_of_met (run : ch.state = .ramp ∨ ch.state = .hold) {why : CloseReason}
    (met : ch.closeMet env smp = some why) : ch.ClosesTo (ch.sample env smp).1 why := by
  obtain ⟨index, set, seen, _⟩ := ch.judged_keeps env smp (.inr rfl)
  rw [Channel.sample_closes run met]
  exact ⟨rfl, rfl, rfl, rfl, index, set, seen⟩

theorem Channel.closesTo_of_cap (parked : ch.state = .parked) (full : ch.ctx.cap ≤ ch.takeAt smp) :
    ch.ClosesTo (ch.sample env smp).1 .cap := by
  obtain ⟨index, set, seen, _⟩ := ch.judged_keeps env smp (.inl rfl)
  rw [Channel.sample_parked_closes parked full]
  exact ⟨rfl, rfl, rfl, rfl, index, set, seen⟩

/-- A stage in RAMP or HOLD that meets no close condition does not close. -/
theorem Channel.sample_open (run : ch.state = .ramp ∨ ch.state = .hold) (unmet : ch.closeMet env smp = none) :
    (ch.sample env smp).1.state ≠ .closing := by
  have unclosed : (ch.atJudged env smp).state ≠ .closing := by
    rcases run with state | state <;> simp [Channel.atJudged, state]
  rw [Channel.sample_of_run _ _ _ run, unmet]
  cases ch.causeMet env smp with
  | some cause => exact Channel.park_not_closing _ _ _ _ unclosed
  | none => exact Channel.regulate_not_closing _ _ _ unclosed

/-- A parked stage below its cap does not close. -/
theorem Channel.sample_parked_open (parked : ch.state = .parked) (below : ¬ch.ctx.cap ≤ ch.takeAt smp) :
    (ch.sample env smp).1.state ≠ .closing := by
  have unclosed : (ch.atMeasured env smp).state ≠ .closing := by simp [Channel.atMeasured, parked]
  rw [Channel.sample_of_parked _ _ _ parked, decide_eq_false below]
  cases ch.causeMet env smp with
  | some cause => exact Channel.park_not_closing _ _ _ _ unclosed
  | none => exact unclosed

end Close

/-- Settles O51: the first close condition that the sample meets, by the state and the loop of the sample. -/
theorem closeAtASample : Obligations.CloseAtASample := by
  unfold Obligations.CloseAtASample
  intro s c smp running states x runs lastHold take flow hold cap gin good refusal schedule
  refine ⟨s.sampled c smp, rfl, ?_⟩
  have after : (s.sampled c smp).chans[c] = (s.chans[c].sample (s.sampleEnv c smp) smp).1 :=
    State.sampled_chan running c smp
  rw [after]
  intro closed
  have closes {why : CloseReason} (run : runs) (met : s.chans[c].closeMet (s.sampleEnv c smp) smp = some why) :
      closed why := Channel.closesTo_of_met run met
  by_cases run : runs
  · cases loop : smp.loop with
    | good p =>
      have chain := s.chans[c].closeMet_good (s.sampleEnv c smp) run loop
      have isGood : good := ⟨p, loop⟩
      have ginIff : gin ↔ 0 < take ∧ x.gin * 100 * x.length ≤ min p 8000 * take := by
        simp [gin, run, loop]
      have refusalIff : refusal ↔ lastHold ∧ x.tref * 10 ≤ (if flow ≤ x.qref then x.refusalCount + 1 else 0) :=
        and_congr_right fun _ => and_iff_right isGood
      have scheduleIff : schedule ↔ lastHold ∧ 0 < hold ∧ hold * 10 ≤ x.stepTime + 1 :=
        and_congr_right fun _ => and_iff_right isGood
      refine ⟨fun full => closes run (chain.trans (if_pos full)), fun below meets => closes run ?_,
        fun below under meets => closes run ?_, fun below under takes meets => closes run ?_,
        fun below under takes stays => Channel.sample_open run ?_⟩
      all_goals refine (chain.trans (if_neg below)).trans ?_
      · exact if_pos (ginIff.1 meets)
      all_goals refine (if_neg (fun met => under (ginIff.2 met))).trans ?_
      · exact if_pos (refusalIff.1 meets)
      all_goals refine (if_neg (fun met => takes (refusalIff.2 met))).trans ?_
      · exact if_pos (scheduleIff.1 meets)
      · exact if_neg (fun met => stays (scheduleIff.2 met))
    | los =>
      have chain := s.chans[c].closeMet_los (s.sampleEnv c smp) loop
      have bad : ¬good := by simp [good, loop]
      have noGin : ¬gin := by simp [gin, loop]
      exact ⟨fun full => closes run (chain.trans (if_pos full)), fun _ meets => absurd meets noGin,
        fun _ _ meets => absurd meets.2.1 bad, fun _ _ _ meets => absurd meets.2.1 bad,
        fun below _ _ _ => Channel.sample_open run (chain.trans (if_neg below))⟩
  · have parked : s.chans[c].state = .parked := by
      rcases states with state | state | state
      · exact absurd (.inl state) run
      · exact absurd (.inr state) run
      · exact state
    have noHold : ¬lastHold := fun last => run (.inr last.1)
    exact ⟨fun full => Channel.closesTo_of_cap parked full, fun _ meets => absurd meets.1 run,
      fun _ _ meets => absurd meets.1 noHold, fun _ _ _ meets => absurd meets.1 noHold,
      fun below _ _ _ => Channel.sample_parked_open parked below⟩

/-! ### Regulation -/

/-- Settles O52: the stage is judged, and then closes, parks or is regulated. -/
theorem regulationAtASample : Obligations.RegulationAtASample := by
  unfold Obligations.RegulationAtASample
  intro s c smp p running good run x measured inRamp slot rise take flow step hold ceiling base pgin target setpoint
    governs time count reaches advances stepped
  refine ⟨s.sampled c smp, rfl, ?_⟩
  have after : (s.sampled c smp).chans[c] = (s.chans[c].sample (s.sampleEnv c smp) smp).1 :=
    State.sampled_chan running c smp
  have mark : (s.chans[c].judged (s.sampleEnv c smp) smp).ginLimited = true ↔ x.ginLimited = true ∨ governs :=
    s.chans[c].judged_ginLimited _ smp good
  obtain ⟨pginIs, targetIs, ceilingIs, setpointIs, timeIs, countIs, _, _, stepsIs, watchesIs, _⟩ :=
    s.chans[c].judged_fields (s.sampleEnv c smp) smp good
  obtain ⟨indexIs, setIs, seenIs, _⟩ := s.chans[c].judged_keeps (s.sampleEnv c smp) smp (.inr rfl)
  rw [after]
  cases met : s.chans[c].closeMet (s.sampleEnv c smp) smp with
  | some why =>
    rw [Channel.sample_closes run met]
    exact ⟨pginIs, targetIs, mark, fun _ => ⟨ceilingIs, indexIs, timeIs, countIs⟩, fun runs => by
      rcases runs with state | state <;> exact nomatch state⟩
  | none =>
    cases cause : s.chans[c].causeMet (s.sampleEnv c smp) smp with
    | some k =>
      rw [Channel.sample_parks run met cause]
      exact ⟨pginIs, targetIs, mark, fun _ => ⟨ceilingIs, indexIs, timeIs, countIs⟩, fun runs => by
        rcases runs with state | state <;> exact nomatch state⟩
    | none =>
      by_cases adv : advances
      · rw [Channel.sample_advances run met cause good adv]
        simp only [adv, if_true]
        refine ⟨pginIs, targetIs, mark, fun ends => ?_,
          fun _ => ⟨setpointIs, rfl, trivial, ?_, rfl, rfl, rfl, setIs, seenIs, stepsIs, watchesIs⟩⟩
        · rcases ends with state | state <;> exact nomatch state
        · exact congrArg (· + 1) indexIs
      · rw [Channel.sample_stays run met cause good adv, setpointIs]
        simp only [adv, if_false]
        refine ⟨pginIs, targetIs, mark, fun ends => ?_,
          fun _ => ⟨setpointIs, rfl, rfl, indexIs, timeIs, ceilingIs, countIs, setIs, seenIs, stepsIs, watchesIs⟩⟩
        exact absurd ends (by split_ifs <;> nofun)

end Sys2Proof.Machine
end

section
/-! SUPPORT. What a sample arrival parks (R90, R94, R118 to R122), and what it hands on: records, flags, neighbour reports
and the fill of the channel's buffer (R78, R86, R101, R108, R119, R130, R146). -/

namespace Sys2Proof.Machine

/-! ### Park conditions -/

/-- Causes that arise in PARKED, none among them (R90). -/
theorem Channel.parkedBy_in_parked {ch : Channel} (parked : ch.state = .parked) (causes : Byte) :
    ch.parkedBy causes = { ch with ctx := { ch.ctx with
      parkSet := ch.ctx.parkSet ||| causes, causesSeen := ch.ctx.causesSeen ||| (causes &&& ~~~ch.ctx.parkSet) } } := by
  unfold Channel.parkedBy
  split_ifs with none
  · simp [none]
  · simp only [parked]

/-- The mark of a cause that the sample raises, 0 with none. -/
def causeMark (cause : Option Cause) : Byte := (cause.map Cause.mark).getD 0

/-- A parked stage below its cap takes the cause that the sample raises (R90, R94). -/
theorem Channel.sample_in_parked {ch : Channel} {env : SampleEnv} {smp : Sample} (parked : ch.state = .parked)
    (below : ¬ch.ctx.cap ≤ ch.takeAt smp) :
    (ch.sample env smp).1 = { ch with
      readings := ch.readings.update smp
      ctx := { ch.measured env smp with
        parkSet := (ch.measured env smp).parkSet ||| causeMark (ch.causeMet env smp)
        causesSeen := (ch.measured env smp).causesSeen |||
          (causeMark (ch.causeMet env smp) &&& ~~~(ch.measured env smp).parkSet) } } := by
  have turned : (ch.sample env smp).1 = (ch.atMeasured env smp).parkedBy (causeMark (ch.causeMet env smp)) := by
    cases met : ch.causeMet env smp with
    | none =>
      rw [Channel.sample_parked_stays parked below met]
      exact (if_pos rfl).symm
    | some cause =>
      rw [Channel.sample_parked_takes parked below met]
      exact Channel.park_parkedBy _ _ _ _
  rw [turned, Channel.parkedBy_in_parked (ch := ch.atMeasured env smp) parked]
  rfl

/-- Settles O53: the cause that the sample raises, in RAMP and HOLD and in PARKED. -/
theorem parkAtASample : Obligations.ParkAtASample := by
  unfold Obligations.ParkAtASample
  intro s c smp running runs x auto
  refine ⟨s.sampled c smp, rfl, ?_⟩
  have after : (s.sampled c smp).chans[c] = (s.chans[c].sample (s.sampleEnv c smp) smp).1 :=
    State.sampled_chan running c smp
  rw [after]
  refine ⟨fun run stays => ?_, fun parked stays => ?_⟩
  · have unmet : s.chans[c].closeMet (s.sampleEnv c smp) smp = none := by
      cases met : s.chans[c].closeMet (s.sampleEnv c smp) smp with
      | none => rfl
      | some why => exact absurd (Channel.closesTo_of_met run met).1 stays
    obtain ⟨_, _, seen, _⟩ := s.chans[c].judged_keeps (s.sampleEnv c smp) smp (.inr rfl)
    intro y parked
    have parks {cause : Cause} (met : s.chans[c].causeMet (s.sampleEnv c smp) smp = some cause) :
        parked cause.mark := by
      unfold parked y
      rw [Channel.sample_parks run unmet met]
      exact ⟨rfl, rfl, congrArg (· ||| cause.mark) seen, rfl, rfl⟩
    refine ⟨fun p good above two => ?_, fun p good low => ?_, fun los on => ?_, fun los off last => ?_,
      fun los off short => ?_⟩
    · exact parks ((s.chans[c].causeMet_good _ good).trans (if_pos ⟨above, two⟩))
    · have noCause := (s.chans[c].causeMet_good (s.sampleEnv c smp) good).trans
        (if_neg fun met => low.elim (Nat.not_le.2 met.1) fun few => few.ne met.2)
      rw [Channel.sample_regulates run unmet noCause good]
      dsimp only
      split_ifs <;> nofun
    · exact parks ((s.chans[c].causeMet_los _ los).trans (if_pos (.inl on)))
    · exact parks ((s.chans[c].causeMet_los _ los).trans (if_pos (.inr last)))
    · have neither : ¬((s.sampleEnv c smp).autoPark = true ∨ x.losRun = 19) := by
        rintro (on | last)
        · exact nomatch on.symm.trans off
        · omega
      have noCause := (s.chans[c].causeMet_los (s.sampleEnv c smp) los).trans (if_neg neither)
      unfold y
      rw [Channel.sample_idles run unmet noCause los, s.chans[c].measured_los _ los]
      exact ⟨rfl, rfl, rfl, rfl, rfl, rfl, rfl, rfl, rfl, rfl⟩
  · have below : ¬x.cap ≤ s.chans[c].takeAt smp := fun full => stays (Channel.closesTo_of_cap parked full).1
    intro y added
    have mark : causeMark (s.chans[c].causeMet (s.sampleEnv c smp) smp) = added := by
      unfold added
      cases loop : smp.loop with
      | good p =>
        rw [s.chans[c].causeMet_good _ loop, apply_ite causeMark]
        rfl
      | los =>
        rw [s.chans[c].causeMet_los _ loop, apply_ite causeMark]
        rfl
    unfold y
    rw [Channel.sample_in_parked parked below, mark]
    refine ⟨parked, ?_⟩
    cases loop : smp.loop with
    | good p => simp only [s.chans[c].measured_good _ loop]; rfl
    | los => simp only [s.chans[c].measured_los _ loop]; rfl

/-! ### Records and flags -/

theorem fieldAddr_eq (c : ChanId) : fieldAddr c = BitVec.ofNat 24 (0xFFFF01 + 4 * c.val) := by
  rw [fieldAddr, BitVec.ofNat_add]

section News

variable (ch : Channel) (env : SampleEnv) (smp : Sample)

/-- LOS_BEGIN where the LOS mark sets, LOS_END where it clears (R130). -/
theorem Channel.losNews_eq : ch.losNews env smp =
    (if ¬smp.loop ≠ .los ∧ ch.readings.los = false then
      [.news (ch.ctx.ownRecord env.id env.clock (.losBegin ch.state ch.readings.measured)) .los (fieldAddr env.id)]
      else []) ++
    (if smp.loop ≠ .los ∧ ch.readings.los = true then
      [.stage (ch.ctx.ownRecord env.id env.clock
        (.losEnd ch.state (ch.readings.update smp).measured ch.readings.losCount))]
      else []) := by
  unfold Channel.losNews
  cases loop : smp.loop with
  | good p =>
    rw [Readings.update_good _ loop]
    cases ch.readings.los
    · simp
    · simp
      rfl
  | los =>
    rw [Readings.update_los _ loop]
    cases ch.readings.los
    · simp
      rfl
    · simp

/-- OVERPRESSURE at the first sample of a run (R119). -/
theorem Channel.overNews_eq : ch.overNews env (ch.measured env smp) (ch.readings.update smp).measured =
    if smp.loop ≠ .los ∧ ch.ctx.overRun = 0 ∧ ch.ctx.pmax < (ch.readings.update smp).measured then
      [.news (ch.ctx.ownRecord env.id env.clock
        (.overpressure (ch.readings.update smp).measured ch.ctx.pmax ch.state)) .overPress (fieldAddr env.id)]
    else [] := by
  have first : ch.ctx.overRun = 0 ∧ (ch.measured env smp).overRun = 1 ↔
      smp.loop ≠ .los ∧ ch.ctx.overRun = 0 ∧ ch.ctx.pmax < (ch.readings.update smp).measured := by
    cases loop : smp.loop with
    | good p =>
      rw [ch.measured_good env loop, Readings.update_good _ loop]
      by_cases above : ch.ctx.pmax < min p 8000 <;> simp [above]
      omega
    | los =>
      rw [ch.measured_los env loop]
      simp
      omega
  have pmax : (ch.measured env smp).pmax = ch.ctx.pmax := by
    cases loop : smp.loop with
    | good p => rw [ch.measured_good env loop]
    | los => rw [ch.measured_los env loop]
  unfold Channel.overNews
  simp only [first, pmax]
  rfl

/-- GIN_LIMIT_BEGIN where the sample sets the mark (R108). -/
theorem Channel.markNews_eq : ch.markNews env smp =
    if ch.ctx.ginLimited = false ∧ (ch.judged env smp).ginLimited = true then
      [.stage (ch.ctx.ownRecord env.id env.clock
        (.ginLimitBegin (ch.judged env smp).take (ch.judged env smp).pgin ch.ctx.stepIndex))]
    else [] := by
  cases loop : smp.loop with
  | los =>
    have unmarked : ¬(ch.ctx.ginLimited = false ∧ (ch.judged env smp).ginLimited = true) := by
      rw [ch.judged_los env loop, ch.measured_los env loop]
      rintro ⟨clear, set⟩
      exact nomatch clear.symm.trans set
    rw [if_neg unmarked, Channel.markNews, isGood_of_los loop]
    rfl
  | good p =>
    have index : (ch.measured env smp).stepIndex = ch.ctx.stepIndex := (ch.judged_keeps env smp (.inl rfl)).1
    have old : (ch.measured env smp).ginLimited = ch.ctx.ginLimited := by rw [ch.measured_good env loop]
    have terms : (ch.judged env smp).take = ((ch.measured env smp).setpoints (ch.state == .ramp) env.rise).take ∧
        (ch.judged env smp).pgin = ((ch.measured env smp).setpoints (ch.state == .ramp) env.rise).pgin := by
      rw [Channel.judged, isGood_of_good loop, Context.judge_good]
      exact ⟨rfl, rfl⟩
    have marks : (ch.judged env smp).ginLimited = (ch.ctx.ginLimited ||
        ((ch.measured env smp).setpoints (ch.state == .ramp) env.rise).ginBegins (ch.state == .ramp)) := by
      rw [← old, Channel.judged, isGood_of_good loop]
      unfold Context.judge
      cases ch.state == .ramp <;> rfl
    have begins : ((ch.measured env smp).setpoints (ch.state == .ramp) env.rise).ginBegins (ch.state == .ramp) = true ↔
        ch.ctx.ginLimited = false ∧ (ch.judged env smp).ginLimited = true := by
      rw [marks]
      have clear : ((ch.measured env smp).setpoints (ch.state == .ramp) env.rise).ginLimited = ch.ctx.ginLimited := old
      cases limited : ch.ctx.ginLimited <;> simp [Context.ginBegins, clear, limited]
    simp only [Channel.markNews, Channel.ginNews, isGood_of_good loop, Bool.true_and, begins, terms, ← index]
    rfl

/-- The record of the turn a stage takes, from the channel before the sample and after it: STAGE_CLOSED, PARKED or
STEP_REACHED (R78, R86, R90). -/
def Channel.turnNews (ch' : Channel) : List Effect :=
  let x := ch.ctx
  let y := ch'.ctx
  let runs := ch.state = .ramp ∨ ch.state = .hold
  let good := smp.loop ≠ .los
  let measured := ch'.readings.measured
  let own (p : Payload) : Record := x.ownRecord env.id env.clock p
  if (runs ∨ ch.state = .parked) ∧ ch'.state = .closing then
    y.closeReason.toList.map (fun why =>
      .stage (own (.stageClosed why x.causesSeen y.take y.peak measured y.elapsed (y.take * 10 / x.length))))
  else if runs ∧ ch'.state = .parked ∨ ch.state = .parked ∧ y.parkSet ≠ x.parkSet then
    [.stage (own (.parked (if good then .overpressure else .los) y.parkSet))]
  else if ch.state = .ramp ∧ (ch'.state = .hold ∨ y.stepIndex ≠ x.stepIndex) then
    [.stage (own (.stepReached x.stepIndex measured y.take))]
  else []

/-- The records and flags of a sample, from the channel before it and after it (R78, R86, R90, R108, R119, R130; log entry
24). -/
def Channel.handedOn (ch' : Channel) : List Effect :=
  let x := ch.ctx
  let y := ch'.ctx
  let runs := ch.state = .ramp ∨ ch.state = .hold
  let good := smp.loop ≠ .los
  let measured := ch'.readings.measured
  let own (p : Payload) : Record := x.ownRecord env.id env.clock p
  (if ¬good ∧ ch.readings.los = false then
    [.news (own (.losBegin ch.state ch.readings.measured)) .los (fieldAddr env.id)] else []) ++
  (if good ∧ ch.readings.los = true then
    [.stage (own (.losEnd ch.state measured ch.readings.losCount))] else []) ++
  (if (runs ∨ ch.state = .parked) ∧ good ∧ x.overRun = 0 ∧ x.pmax < measured then
    [.news (own (.overpressure measured x.pmax ch.state)) .overPress (fieldAddr env.id)] else []) ++
  (if runs ∧ x.ginLimited = false ∧ y.ginLimited = true then
    [.stage (own (.ginLimitBegin y.take y.pgin x.stepIndex))] else []) ++
  ch.turnNews env smp ch'

variable {ch env smp}

/-- A cause that the sample raises is OVERPRESSURE at a good sample and LOS at a LOS one (R118, R121, R122). -/
theorem Channel.causeMet_eq {cause : Cause} (met : ch.causeMet env smp = some cause) :
    cause = if smp.loop ≠ .los then .overpressure else .los := by
  cases loop : smp.loop with
  | good p =>
    rw [ch.causeMet_good env loop] at met
    split_ifs at met
    simpa using met.symm
  | los =>
    rw [ch.causeMet_los env loop] at met
    split_ifs at met
    simpa using met.symm

/-- The length of the hole stands while a sample is judged. -/
theorem Channel.judged_length (ch : Channel) (env : SampleEnv) (smp : Sample) :
    (ch.judged env smp).length = ch.ctx.length ∧ (ch.measured env smp).length = ch.ctx.length := by
  cases loop : smp.loop with
  | good p =>
    rw [ch.judged_good env smp loop, ch.measured_good env loop]
    exact ⟨rfl, rfl⟩
  | los =>
    rw [ch.judged_los env loop, ch.measured_los env loop]
    exact ⟨rfl, rfl⟩

/-- The records of a stage in RAMP or HOLD that goes on as the sample has judged it. -/
theorem Channel.handedOn_run (run : ch.state = .ramp ∨ ch.state = .hold) {ch' : Channel}
    (readings : ch'.readings = ch.readings.update smp) (mark : ch'.ctx.ginLimited = (ch.judged env smp).ginLimited)
    (take : ch'.ctx.take = (ch.judged env smp).take) (pgin : ch'.ctx.pgin = (ch.judged env smp).pgin) :
    ch.handedOn env smp ch' = ch.readingNews env smp ++ ch.markNews env smp ++ ch.turnNews env smp ch' := by
  unfold Channel.handedOn Channel.readingNews
  rw [ch.losNews_eq, ch.overNews_eq, ch.markNews_eq]
  simp only [readings, mark, take, pgin, run, true_or, true_and]

/-- The records of a parked stage. -/
theorem Channel.handedOn_parked (parked : ch.state = .parked) {ch' : Channel}
    (readings : ch'.readings = ch.readings.update smp) :
    ch.handedOn env smp ch' = ch.readingNews env smp ++ ch.turnNews env smp ch' := by
  unfold Channel.handedOn Channel.readingNews
  rw [ch.losNews_eq, ch.overNews_eq]
  simp [readings, parked]

/-- A channel that neither runs nor is parked hands on its LOS records alone. -/
theorem Channel.handedOn_still (still : ¬(ch.state = .ramp ∨ ch.state = .hold)) (unparked : ch.state ≠ .parked)
    {ch' : Channel} (readings : ch'.readings = ch.readings.update smp) :
    ch.handedOn env smp ch' = ch.losNews env smp := by
  obtain ⟨noRamp, noHold⟩ := not_or.1 still
  unfold Channel.handedOn Channel.turnNews
  rw [ch.losNews_eq]
  simp [readings, unparked, noRamp, noHold]

/-- The record of a stage that closes (R86). -/
theorem Channel.turnNews_closing (loaded : (ch.state = .ramp ∨ ch.state = .hold) ∨ ch.state = .parked) {ch' : Channel}
    (closing : ch'.state = .closing) {why : CloseReason} (reason : ch'.ctx.closeReason = some why) :
    ch.turnNews env smp ch' = [.stage (ch.ctx.ownRecord env.id env.clock (.stageClosed why ch.ctx.causesSeen ch'.ctx.take
      ch'.ctx.peak ch'.readings.measured ch'.ctx.elapsed (ch'.ctx.take * 10 / ch.ctx.length)))] := by
  unfold Channel.turnNews
  rw [if_pos ⟨loaded, closing⟩, reason]
  rfl

/-- The record of a stage that takes a cause (R90). -/
theorem Channel.turnNews_parked {ch' : Channel} (unclosed : ch'.state ≠ .closing)
    (parks : (ch.state = .ramp ∨ ch.state = .hold) ∧ ch'.state = .parked ∨
      ch.state = .parked ∧ ch'.ctx.parkSet ≠ ch.ctx.parkSet)
    {cause : Cause} (met : ch.causeMet env smp = some cause) :
    ch.turnNews env smp ch' =
      [.stage (ch.ctx.ownRecord env.id env.clock (.parked cause ch'.ctx.parkSet))] := by
  unfold Channel.turnNews
  rw [if_neg (fun closes => unclosed closes.2), if_pos parks, Channel.causeMet_eq met]

/-- The record of a stage that neither closes nor takes a cause: STEP_REACHED where it enters HOLD (R78). -/
theorem Channel.turnNews_goesOn {ch' : Channel} (unclosed : ch'.state ≠ .closing)
    (noCause : ¬((ch.state = .ramp ∨ ch.state = .hold) ∧ ch'.state = .parked ∨
      ch.state = .parked ∧ ch'.ctx.parkSet ≠ ch.ctx.parkSet))
    {reaches : Prop} [Decidable reaches]
    (enters : ch.state = .ramp ∧ (ch'.state = .hold ∨ ch'.ctx.stepIndex ≠ ch.ctx.stepIndex) ↔ reaches) :
    ch.turnNews env smp ch' =
      if reaches then
        [.stage (ch.ctx.ownRecord env.id env.clock
          (.stepReached ch.ctx.stepIndex ch'.readings.measured ch'.ctx.take))]
      else [] := by
  unfold Channel.turnNews
  rw [if_neg (fun closes => unclosed closes.2), if_neg noCause]
  exact if_congr enters rfl rfl

section Run

variable (run : ch.state = .ramp ∨ ch.state = .hold) (unmet : ch.closeMet env smp = none)
  (noCause : ch.causeMet env smp = none)
include run unmet noCause

/-- The records of a stage that a good sample regulates: STEP_REACHED exactly where RAMP reaches the target (R78). -/
theorem Channel.sample_effects_regulated {p : Nat} (good : smp.loop = .good p) :
    (ch.sample env smp).2 = ch.handedOn env smp (ch.sample env smp).1 := by
  obtain ⟨index, _, _, own⟩ := ch.judged_keeps env smp (.inr rfl)
  have unparked : ch.state ≠ .parked := by rcases run with state | state <;> simp [state]
  have pressure : (ch.readings.update smp).measured = min p 8000 := by rw [Readings.update_good _ good]
  have effects := congrArg Prod.snd (Channel.sample_regulates run unmet noCause good)
  rw [effects]
  by_cases adv : ch.ctx.stepIndex + 1 < ch.ctx.steps.length ∧ ch.ctx.stepHold * 10 ≤ ch.timeAt ∧
    (ch.state = .ramp ∧ ch.targetAt smp ≤ min p 8000 + 20 ∨ ¬ch.state = .ramp)
  · have enters :
        ch.state = .ramp ∧ (ChState.ramp = .hold ∨ (ch.judged env smp).stepIndex + 1 ≠ ch.ctx.stepIndex) ↔
          ch.state = .ramp ∧ ch.targetAt smp ≤ min p 8000 + 20 := by
      obtain ⟨_, _, reaches | hold⟩ := adv
      · simp [index, reaches]
      · simp [hold]
    rw [Channel.sample_advances run unmet noCause good adv, Channel.handedOn_run run rfl rfl rfl rfl,
      Channel.turnNews_goesOn (by nofun) (by simp [unparked]) enters]
    simp only [pressure, own]
    rfl
  · have enters : ch.state = .ramp ∧
        ((if ch.state = .ramp ∧ ch.targetAt smp ≤ min p 8000 + 20 ∨ ¬ch.state = .ramp then ChState.hold else .ramp) =
          .hold ∨ (ch.judged env smp).stepIndex ≠ ch.ctx.stepIndex) ↔
        ch.state = .ramp ∧ ch.targetAt smp ≤ min p 8000 + 20 :=
      and_congr_right fun ramp => by simp [index, ramp]
    rw [Channel.sample_stays run unmet noCause good adv, Channel.handedOn_run run rfl rfl rfl rfl,
      Channel.turnNews_goesOn (by dsimp only; split_ifs <;> nofun)
        (by simp only [unparked, false_and, or_false]; split_ifs <;> simp) enters]
    simp only [pressure, own]

/-- A stage that a LOS sample leaves hands on no record of a turn. -/
theorem Channel.sample_effects_idle (los : smp.loop = .los) :
    (ch.sample env smp).2 = ch.handedOn env smp (ch.sample env smp).1 := by
  have index : (ch.measured env smp).stepIndex = ch.ctx.stepIndex := (ch.judged_keeps env smp (.inl rfl)).1
  have judged := ch.judged_los env los
  have unparked : ch.state ≠ .parked := by rcases run with state | state <;> simp [state]
  have unclosed : ch.state ≠ .closing := by rcases run with state | state <;> simp [state]
  have enters : ch.state = .ramp ∧ (ch.state = .hold ∨ (ch.measured env smp).stepIndex ≠ ch.ctx.stepIndex) ↔ False := by
    rcases run with state | state <;> simp [state, index]
  rw [Channel.sample_idles run unmet noCause los,
    Channel.handedOn_run run rfl (by rw [judged]) (by rw [judged]) (by rw [judged]),
    Channel.turnNews_goesOn (by exact unclosed) (by simp [unparked]) enters, if_neg not_false, List.append_nil]

end Run

/-- The records of a stage in RAMP or HOLD are those of what becomes of it. -/
theorem Channel.sample_effects_run (run : ch.state = .ramp ∨ ch.state = .hold) :
    (ch.sample env smp).2 = ch.handedOn env smp (ch.sample env smp).1 := by
  obtain ⟨_, _, seen, own⟩ := ch.judged_keeps env smp (.inr rfl)
  cases met : ch.closeMet env smp with
  | some why =>
    rw [Channel.sample_closes run met, Channel.handedOn_run run rfl rfl rfl rfl,
      Channel.turnNews_closing (.inl run) rfl rfl, ← own, ← seen, ← (ch.judged_length env smp).1]
    rfl
  | none =>
    cases cause : ch.causeMet env smp with
    | some k =>
      rw [Channel.sample_parks run met cause, Channel.handedOn_run run rfl rfl rfl rfl,
        Channel.turnNews_parked (by nofun) (.inl ⟨run, rfl⟩) cause, ← own]
      rfl
    | none =>
      cases loop : smp.loop with
      | good p => exact Channel.sample_effects_regulated run met cause loop
      | los => exact Channel.sample_effects_idle run met cause loop

/-- A cause that a set does not hold changes it. -/
theorem or_mark_ne (k : Cause) (set : Byte) (new : set &&& k.mark = 0) : set ||| k.mark ≠ set := by
  cases k <;> revert set <;> decide

/-- The records of a parked stage are those of what becomes of it. -/
theorem Channel.sample_effects_parked (parked : ch.state = .parked) :
    (ch.sample env smp).2 = ch.handedOn env smp (ch.sample env smp).1 := by
  obtain ⟨index, set, seen, own⟩ := ch.judged_keeps env smp (.inl rfl)
  have still : ¬(ch.state = .ramp ∨ ch.state = .hold) := by simp [parked]
  have enters (ch' : Channel) : ch.state = .ramp ∧ (ch'.state = .hold ∨ ch'.ctx.stepIndex ≠ ch.ctx.stepIndex) ↔
      False := by simp [parked]
  have same (ch' : Channel) (kept : ch'.ctx.parkSet = ch.ctx.parkSet) :
      ¬((ch.state = .ramp ∨ ch.state = .hold) ∧ ch'.state = .parked ∨
        ch.state = .parked ∧ ch'.ctx.parkSet ≠ ch.ctx.parkSet) := by simp [still, kept]
  by_cases full : ch.ctx.cap ≤ ch.takeAt smp
  · rw [Channel.sample_parked_closes parked full, Channel.handedOn_parked parked rfl,
      Channel.turnNews_closing (.inr parked) rfl rfl, ← own, ← seen, ← (ch.judged_length env smp).2]
    rfl
  have unclosed : (ch.atMeasured env smp).state ≠ .closing := by simp [Channel.atMeasured, parked]
  cases cause : ch.causeMet env smp with
  | none =>
    rw [Channel.sample_parked_stays parked full cause, Channel.handedOn_parked parked rfl,
      Channel.turnNews_goesOn unclosed (same _ set) (enters _)]
    simp
  | some k =>
    rw [Channel.sample_parked_takes parked full cause]
    by_cases new : (ch.atMeasured env smp).ctx.parkSet &&& k.mark = 0
    · have joined : (ch.measured env smp).parkSet ||| k.mark ≠ ch.ctx.parkSet := by
        rw [← set]
        exact or_mark_ne k _ new
      rw [Channel.park_joins _ _ k (ch := ch.atMeasured env smp) parked new, Channel.handedOn_parked parked rfl,
        Channel.turnNews_parked (by exact unclosed) (.inr ⟨parked, joined⟩) cause, ← own]
      rfl
    · rw [Channel.park_held _ _ k (ch := ch.atMeasured env smp) parked new, Channel.handedOn_parked parked rfl,
        Channel.turnNews_goesOn unclosed (same _ set) (enters _)]
      simp

/-- The records and flags of a sample are those of what becomes of its channel. -/
theorem Channel.sample_effects (ch : Channel) (env : SampleEnv) (smp : Sample) :
    (ch.sample env smp).2 = ch.handedOn env smp (ch.sample env smp).1 := by
  by_cases run : ch.state = .ramp ∨ ch.state = .hold
  · exact Channel.sample_effects_run run
  by_cases parked : ch.state = .parked
  · exact Channel.sample_effects_parked parked
  by_cases closing : ch.state = .closing
  · rw [Channel.sample_closing closing, Channel.handedOn_still run parked rfl]
  · have idle : ch.state = .vacant ∨ ch.state = .armed ∨ ch.state = .closed := by
      cases state : ch.state <;> simp_all
    rw [Channel.sample_idle idle, Channel.handedOn_still run parked rfl]

end News

/-! ### The fill of an ARMED buffer -/

/-- An ARMED buffer of the key is filled from its channel and joins the fill order at the newest end (R145, R146). -/
theorem State.fillArmed_armed {s : State} (ok : PoolOk s.pool) {i : Fin 6} {k : BufKey}
    (armed : s.pool.bufs[i] = .armed k) (stale : Bool) : (s.fillArmed k stale).pool =
      { bufs := s.pool.bufs.set i (.filled k stale (s.chans[k.channel].snapshot stale s.status.clock))
        fillOrder := s.pool.fillOrder ++ [i] } := by
  have holder : s.pool.holder k = some i := Pool.holder_of_key ok (by rw [armed]; rfl)
  have outside : i ∉ s.pool.fillOrder := fun listed => by
    have filled := (ok.filled i).1 listed
    rw [armed] at filled
    exact nomatch filled
  have order : s.pool.fillOrder.filter (· != i) = s.pool.fillOrder :=
    List.filter_eq_self.2 fun j listed => by simpa using fun same : j = i => outside (same ▸ listed)
  simp only [State.fillArmed, holder]
  rw [if_pos armed]
  simp only [State.mapPool, Pool.fill, order]
  rfl

/-- With no ARMED buffer of the key nothing is filled (R146). -/
theorem State.fillArmed_unarmed {s : State} {k : BufKey} (unarmed : ∀ i : Fin 6, s.pool.bufs[i] ≠ .armed k)
    (stale : Bool) : s.fillArmed k stale = s := by
  unfold State.fillArmed
  split
  · exact if_neg (unarmed _)
  · rfl

/-- Settles O49: the records of the turn the stage takes, then the reports and the fill. -/
theorem handedOnAtASample : Obligations.HandedOnAtASample := by
  unfold Obligations.HandedOnAtASample
  intro s c smp run ok k ch x runs good field own
  have after : (s.sampled c smp).chans[c] = (ch.sample (s.sampleEnv c smp) smp).1 := State.sampled_chan run c smp
  have alone := Kept.performAll (ch.sample (s.sampleEnv c smp) smp).2
    (s.setChan c (ch.sample (s.sampleEnv c smp) smp).1)
  have pool : ((s.sampledAlone c smp).handOn c).pool = s.pool := alone.pool
  have clock : ((s.sampledAlone c smp).handOn c).status.clock = s.status.clock :=
    (congrArg Status.clock alone.status :)
  have chans : ((s.sampledAlone c smp).handOn c).chans = (s.sampled c smp).chans := by
    rw [State.sampled_eq run, State.fillArmed_chans']
  refine ⟨s.sampled c smp, (ch.sample (s.sampleEnv c smp) smp).2, rfl, ⟨?_, ?_⟩, fun i armed => ?_,
    fun unarmed => ?_⟩
  · have news := ch.sample_effects (s.sampleEnv c smp) smp
    rw [← after, Channel.handedOn, Channel.turnNews, fieldAddr_eq] at news
    exact news
  · have parts := State.sampled_parts run c smp
    dsimp only at parts
    rw [← after, State.sampled_field run] at parts
    exact parts
  · have filled := State.fillArmed_armed (s := (s.sampledAlone c smp).handOn c) (by rwa [pool]) (k := k) (i := i)
      (by simpa only [pool] using armed) false
    rw [← State.sampled_eq run, clock] at filled
    simp only [pool, chans] at filled
    exact filled
  · have same := State.fillArmed_unarmed (s := (s.sampledAlone c smp).handOn c) (k := k)
      (by simpa only [pool] using unarmed) false
    rw [State.sampled_eq run, same, pool]

end Sys2Proof.Machine
end

section
/-! SUPPORT. Flags and records at the shared operations (R119, R130, R156 to R158, R169 to R172), the measurements of a
stage at a sample (R104, R105, R118, R121, R122), and what a watching stage does with a neighbour report (R101,
R134). -/

namespace Sys2Proof.Machine

/-! ### Flags and records -/

section Offers

variable {s : State} {r : Record}

/-- In RUNNING a record is lost without trace exactly where the filter masks its kind (R156). -/
theorem State.silent_iff (run : s.loader.mode = .running) (r : Record) : s.silent r = true ↔
    r.payload.maskable = true ∧ s.status.filterMask.getLsbD (r.payload.kind.toNat - 1) = true := by
  simp [State.silent, run]

/-- A record is dropped where it is not silent, finds the staging queue full and is no close record (R157, R158). -/
theorem State.drops_iff : s.drops r = true ↔ ¬s.silent r = true ∧ 8 ≤ s.ring.staging.length ∧ r.isClose = false := by
  simp [State.drops, and_assoc]

theorem State.stage_silent (silent : s.silent r = true) : s.stage r = s := if_pos silent

/-- A record joins the staging queue at its newest end (R156). -/
theorem State.stage_joins (heard : ¬s.silent r = true) (room : s.ring.staging.length < 8) :
    s.stage r = { s with ring := { s.ring with staging := s.ring.staging ++ [r] } } := by
  rw [State.stage, if_neg heard, if_pos room]

/-- A close record that finds the staging queue full is held (R158). -/
theorem State.stage_holds (heard : ¬s.silent r = true) (full : 8 ≤ s.ring.staging.length) (close : r.isClose = true) :
    s.stage r = { s with ring := { s.ring with held := s.ring.held ++ [r] } } := by
  rw [State.stage, if_neg heard, if_neg (Nat.not_lt.2 full), if_pos close]

/-- A dropped record leaves RINGDROP with the address of the producer word (R157). -/
theorem State.stage_drops (drops : s.drops r = true) : s.stage r = s.raise .ringDrop s.loader.setup.ringBase := by
  obtain ⟨heard, full, other⟩ := State.drops_iff.1 drops
  rw [State.stage, if_neg heard, if_neg (Nat.not_lt.2 full), if_neg (by simp [other])]
  rfl

/-- Of a record that is not dropped and the flag of its event the raise comes first (R119, R130). -/
theorem State.stageAndRaise_kept (kept : ¬s.drops r = true) (f : Flag) (addr : Addr) :
    s.stageAndRaise r f addr = (s.raise f addr).stage r := if_neg kept

/-- Of a dropped record and the flag of its event either comes first, by a free value (log entry 11). -/
theorem State.stageAndRaise_dropped (drops : s.drops r = true) (f : Flag) (addr : Addr) :
    let u := { s with choices := s.choices + 1 }
    s.stageAndRaise r f addr = (u.raise f addr).stage r ∨ s.stageAndRaise r f addr = (u.stage r).raise f addr := by
  intro u
  rw [State.stageAndRaise, if_pos drops]
  dsimp only
  by_cases recordFirst : Config.recordFirst s.choices = true
  · exact .inr (if_pos recordFirst)
  · exact .inl (if_neg recordFirst)

end Offers

/-- Settles O8: a raise by its equation, and a staging by its four ends: lost, queued, held, dropped. -/
theorem flagsAndRecords : Obligations.FlagsAndRecords := by
  unfold Obligations.FlagsAndRecords
  refine ⟨fun s f addr => ⟨s.status.raise_eq f addr, rfl⟩, fun s r off => State.stage_off off r,
    fun s r run => ?_⟩
  intro masked
  have silent : s.silent r = true ↔ masked := State.silent_iff run r
  have drops : s.drops r = true ↔ ¬masked ∧ 8 ≤ s.ring.staging.length ∧ r.isClose = false :=
    State.drops_iff.trans (and_congr_left' (not_congr silent))
  refine ⟨fun lost => State.stage_silent (silent.2 lost), fun heard room => State.stage_joins (mt silent.1 heard) room,
    fun heard full close => State.stage_holds (mt silent.1 heard) full close,
    fun heard full other => State.stage_drops (drops.2 ⟨heard, full, other⟩), rfl, fun f addr => ?_⟩
  intro dropped u
  constructor
  · exact fun kept => State.stageAndRaise_kept (mt drops.1 kept) f addr
  · exact fun lost => State.stageAndRaise_dropped (drops.2 lost) f addr

/-! ### Measurements at a sample -/

/-- Settles O50: whatever turn the stage takes, it keeps the measurements of step 1 of R85. -/
theorem measurementsOfAStage : Obligations.MeasurementsOfAStage := by
  unfold Obligations.MeasurementsOfAStage
  intro s c smp running loaded x take
  refine ⟨s.sampled c smp, rfl, ?_⟩
  have after : (s.sampled c smp).chans[c] = (s.chans[c].sample (s.sampleEnv c smp) smp).1 :=
    State.sampled_chan running c smp
  have kept : Context.SameMeasures (s.sampled c smp).chans[c].ctx (s.chans[c].measured (s.sampleEnv c smp) smp) := by
    rw [after]
    exact s.chans[c].sample_measures _ smp loaded
  intro y
  cases loop : smp.loop with
  | good p =>
    rw [s.chans[c].measured_good _ loop] at kept
    obtain ⟨takeIs, specific, elapsed, peak, losRun, overRun⟩ := kept
    refine ⟨takeIs, specific, elapsed, fun q same => ?_, nofun⟩
    cases same
    exact ⟨peak, losRun, overRun⟩
  | los =>
    rw [s.chans[c].measured_los _ loop] at kept
    obtain ⟨takeIs, specific, elapsed, peak, losRun, overRun⟩ := kept
    exact ⟨takeIs, specific, elapsed, nofun, fun _ => ⟨peak, overRun, losRun⟩⟩

/-- Settles O47: the table of R111, read at each index. -/
theorem rampRates : Obligations.RampRates := by
  unfold Obligations.RampRates
  decide

/-! ### Neighbour reports -/

theorem Report.between_iff (r : Report) (watched watcher : ChanId) :
    r.between watched watcher = true ↔ r.watched = watched ∧ r.watcher = watcher := by
  simp [Report.between]

/-- A report trips where it is good and its channel VACANT or ARMED (R134). -/
theorem Report.judged_iff (r : Report) : r.judged = true ↔ r.los = false ∧ (r.state = .vacant ∨ r.state = .armed) := by
  simp [Report.judged]

section Reports

variable {ch : Channel} {r : Report}

/-- The channel with the entries that a report trips marked (R134). -/
def Channel.tripped (ch : Channel) (r : Report) : Channel :=
  { ch with ctx := { ch.ctx with
    watches := ch.ctx.watches.map (fun w => if w.trips r then { w with tripped := true } else w) } }

/-- The report trips an entry with action PARK (R134). -/
def Channel.parkTripped (ch : Channel) (r : Report) : Bool :=
  ch.ctx.watches.any (fun w => w.trips r && w.action == .park)

/-- A report that finds the stage neither in RAMP nor in HOLD, or that cannot trip, changes nothing (R134). -/
theorem Channel.takeReport_unjudged (unjudged : ¬((ch.state = .ramp ∨ ch.state = .hold) ∧ r.judged = true))
    (c : ChanId) (clock : Word) : ch.takeReport c clock r = (ch, []) := by
  cases state : ch.state with
  | ramp | hold =>
    have fails : ¬r.judged = true := fun judged => unjudged ⟨by simp [state], judged⟩
    simp only [Channel.takeReport, state, if_neg fails]
  | vacant | armed | parked | closing | closed => simp only [Channel.takeReport, state]

/-- A report that can trip, in RAMP or HOLD: the marks, the COMMUNICATION records, and the park with its record where an
entry of action PARK trips (R90, R134). -/
theorem Channel.takeReport_judged (run : ch.state = .ramp ∨ ch.state = .hold) (judged : r.judged = true)
    (c : ChanId) (clock : Word) : ch.takeReport c clock r =
      ((ch.tripped r).parkedBy (if ch.parkTripped r then 0x40 else 0),
        ch.tripRecords c clock r 1 ch.ctx.watches ++
          if ch.parkTripped r then [(ch.tripped r).ctx.ownRecord c clock (.parked .communication 0x40)] else []) := by
  have taken : ch.takeReport c clock r =
      if ch.parkTripped r then
        (((ch.tripped r).park c clock .communication).1,
          ch.tripRecords c clock r 1 ch.ctx.watches ++ ((ch.tripped r).park c clock .communication).2)
      else (ch.tripped r, ch.tripRecords c clock r 1 ch.ctx.watches) := by
    unfold Channel.takeReport
    split
    case h_1 | h_2 => exact if_pos judged
    case h_3 other | h_4 other | h_5 other | h_6 other | h_7 other => exact absurd run (by simp [other])
  rw [taken]
  by_cases parks : ch.parkTripped r = true
  · have record := congrArg Prod.snd (Channel.park_of_run (ch := ch.tripped r) c clock .communication run)
    simp only [if_pos parks, Channel.park_parkedBy, record]
    rfl
  · simp only [if_neg parks, List.append_nil]
    rfl

/-- With no report on its way between the two channels nothing happens (log entry 3). -/
theorem State.reportTaken_none {s : State} {watched watcher : ChanId}
    (noneWaits : ∀ r ∈ s.field.reports, r.watched = watched → r.watcher ≠ watcher) :
    s.reportTaken watched watcher = s := by
  have unfound : s.field.reports.find? (·.between watched watcher) = none :=
    List.find?_eq_none.2 fun q waits found =>
      noneWaits q waits ((q.between_iff _ _).1 found).1 ((q.between_iff _ _).1 found).2
  simp only [State.reportTaken, unfound]

/-- The oldest report between its two channels is taken out of the list and given to the channel that watches (R134; log
entry 19). -/
theorem State.reportTaken_oldest {s : State} {before rest : List Report} (waits : s.field.reports = before ++ r :: rest)
    (oldest : ∀ q ∈ before, q.watched = r.watched → q.watcher ≠ r.watcher) :
    let taken := s.chans[r.watcher].takeReport r.watcher s.status.clock r
    s.reportTaken r.watched r.watcher = State.stageAll
      { s with
        field := { s.field with reports := before ++ rest }
        chans := s.chans.set r.watcher taken.1 } taken.2 := by
  have passed : ∀ q ∈ before, ¬q.between r.watched r.watcher = true := fun q earlier found =>
    oldest q earlier ((q.between_iff _ _).1 found).1 ((q.between_iff _ _).1 found).2
  have own : r.between r.watched r.watcher = true := (r.between_iff _ _).2 ⟨rfl, rfl⟩
  have found : s.field.reports.find? (·.between r.watched r.watcher) = some r := by
    rw [waits, List.find?_append, List.find?_eq_none.2 passed, Option.none_or]
    simp only [List.find?_cons, own]
  have left : s.field.reports.eraseP (·.between r.watched r.watcher) = before ++ rest := by
    rw [waits, List.eraseP_append_right _ passed]
    simp only [List.eraseP_cons, own, cond_true]
  simp only [State.reportTaken, found, left]
  rfl

end Reports

/-- Settles O54: the oldest report between the two channels is taken, and what its channel does with it is a matter of
whether it is judged. -/
theorem neighbourReports : Obligations.NeighbourReports := by
  unfold Obligations.NeighbourReports
  refine ⟨fun s watched watcher noneWaits => congrArg Host.Outcome.next (State.reportTaken_none noneWaits), ?_⟩
  intro s r before rest waits oldest c ch gone judged trips x parks told after
  have judgedIff : judged ↔ (ch.state = .ramp ∨ ch.state = .hold) ∧ r.judged = true :=
    and_congr_right' r.judged_iff.symm
  have taken := State.reportTaken_oldest waits oldest
  refine ⟨fun unjudged => congrArg Host.Outcome.next ?_, fun meets => congrArg Host.Outcome.next ?_⟩
  · rw [taken, Channel.takeReport_unjudged (mt judgedIff.2 unjudged)]
    have same : s.chans.set c ch = s.chans := Vector.set_getElem_self _
    exact congrArg (fun chans => ({ gone with chans := chans } : State)) same
  · obtain ⟨run, can⟩ := judgedIff.1 meets
    rw [taken, Channel.takeReport_judged run can, Channel.tripRecords_eq]
    rfl

end Sys2Proof.Machine
end

section
/-! SUPPORT. The setup loader and the governor clock (R124, R165, R176, R178, R179, R183, R184), and what the field
hands to the channels: an event that parks some of them, the writes of the stop masks (R127, R173), the gauge samples
(R131 to R133) and the debounced lines (R123 to R126, R129). -/

namespace Sys2Proof.Machine

/-! ### The setup loader and the clock -/

theorem Loader.loadingIn_of {l : Loader} {p : ReadPhase} (loading : l.mode = .loading) (phase : l.phase = p) :
    l.loadingIn p = true := by
  simp [Loader.loadingIn, loading, phase]

/-- At the release of reset each timer runs where the raw level differs from the accepted one (R124). -/
theorem Field.released_eq (f : Field) : f.released = { f with
    stopA := { f.stopA with timer := f.stopA.raw != f.stopA.accepted }
    stopB := { f.stopB with timer := f.stopB.raw != f.stopB.accepted }
    permits := f.permits.map (fun l => { l with timer := l.raw != l.accepted }) } := by
  rw [Field.released, mapVector_eq]
  rfl

section Attempts

variable {s : State} (loading : s.loader.mode = .loading)
include loading

/-- The first and the second attempt without an acknowledge are followed by a wait (R179). -/
theorem State.noAck_waits (reading : s.loader.phase = .reading) (more : s.loader.attempts < 3) :
    s.noAck = { s with loader := { s.loader with phase := .waiting } } := by
  rw [State.noAck, if_pos (Loader.loadingIn_of loading reading), if_neg (Nat.not_le.2 more)]

/-- The third attempt without an acknowledge is the last (R179, R184). -/
theorem State.noAck_gives_up (reading : s.loader.phase = .reading) (last : 3 ≤ s.loader.attempts) :
    s.noAck = s.enterSafePass := by
  rw [State.noAck, if_pos (Loader.loadingIn_of loading reading), if_pos last]

/-- The end of the wait begins the next attempt (R179). -/
theorem State.retryRead_waited (waiting : s.loader.phase = .waiting) :
    s.retryRead = { s with loader := { s.loader with phase := .reading, attempts := s.loader.attempts + 1 } } := by
  rw [State.retryRead, if_pos (Loader.loadingIn_of loading waiting)]

/-- A completed read goes by the tests of its stream (R179, R183, R184). -/
theorem State.readDone_read (reading : s.loader.phase = .reading) (bytes : List Byte) :
    s.readDone bytes =
      if streamOk (streamBytes bytes) = true then s.enterRunning (setupOf (streamBytes bytes))
      else s.enterSafePass := by
  rw [State.readDone, if_pos (Loader.loadingIn_of loading reading)]

end Attempts

/-- Settles O4: the release, the two ends of an attempt, the two ends of a completed read, and the tick. -/
theorem setupLoaderAndClock : Obligations.SetupLoaderAndClock := by
  unfold Obligations.SetupLoaderAndClock
  refine ⟨fun s asserted => congrArg Host.Outcome.next ?_, fun s loading =>
    ⟨fun reading more => congrArg Host.Outcome.next (State.noAck_waits loading reading more),
      fun reading last => congrArg Host.Outcome.next (State.noAck_gives_up loading reading last),
      fun waiting => congrArg Host.Outcome.next (State.retryRead_waited loading waiting)⟩,
    fun s bytes loading reading => ?_, fun s => rfl⟩
  · rw [State.releaseReset, if_pos asserted, Field.released_eq]
  · intro b
    have done := State.readDone_read loading reading bytes
    exact ⟨fun passes => congrArg Host.Outcome.next (done.trans (if_pos passes)),
      fun fails => congrArg Host.Outcome.next (done.trans (if_neg (Bool.eq_false_iff.1 fails)))⟩

/-! ### Events that every channel takes -/

section Events

variable {s t : State} {others : List Record} {f : ChanId → Channel → Channel × List Record}
  (event : t = s.eachChan others f)
include event

/-- What becomes of each channel and the records it offers, written in another way. -/
theorem State.eachChan_offers {after : ChanId → Channel} {news : ChanId → List Record}
    (turn : ∀ k, f k s.chans[k] = (after k, news k)) :
    State.OffersIn { s with chans := Vector.ofFn after } t (others ++ (List.finRange 8).flatMap news) := by
  have offers := s.eachChan_offersIn others f
  simp only [turn] at offers
  exact event ▸ offers

/-- An event that raises one cause in some of the channels (R125, R129, R132). -/
theorem State.eachChan_parks {parks : ChanId → Prop} [DecidablePred parks] {seen : ChanId → Channel} {cause : Cause}
    (turn : ∀ k, f k s.chans[k] = if parks k then (seen k).park k s.status.clock cause else (seen k, [])) :
    State.OffersIn
      { s with chans := Vector.ofFn (fun k => if parks k then (seen k).parkedBy cause.mark else seen k) } t
      (others ++ (List.finRange 8).flatMap (fun k =>
        if parks k then ((seen k).park k s.status.clock cause).2 else [])) := by
  refine State.eachChan_offers event fun k => ?_
  rw [turn k]
  by_cases parked : parks k
  · simp only [if_pos parked, ← Channel.park_parkedBy (seen k) k s.status.clock cause]
  · simp only [if_neg parked]

end Events

/-! ### Writes of the stop word -/

/-- A field of a word written under its byte enables takes the bits of the enabled lanes (R173, R185). -/
theorem mergeBits_field (big : Bool) (be : Lanes) (data : Word) {w : Nat} (lo : Nat) (old : BitVec w) {i : Nat}
    (inField : i < w) (inWord : lo + w ≤ 32) :
    (mergeBits ((valueMask big be).extractLsb' lo w) old ((inOrder big data).extractLsb' lo w)).getLsbD i =
      if be.getLsbD (if big then 3 - (lo + i) / 8 else (lo + i) / 8) then (inOrder big data).getLsbD (lo + i)
      else old.getLsbD i := by
  rw [mergeBits_bit _ _ _ i inField, BitVec.getLsbD_extractLsb', BitVec.getLsbD_extractLsb',
    valueMask_bit big be _ (by omega)]
  simp only [inField, decide_true, Bool.true_and]

/-- The mark of channel `k` goes from set to clear while the line is accepted as asserted (R127). -/
def unmasks (asserted : Bool) (old new : Byte) (k : ChanId) : Bool :=
  asserted && old.getLsbD k.val && !new.getLsbD k.val

theorem clearedMarks_bit (asserted : Bool) (old new : Byte) (k : ChanId) :
    (if asserted then clearedMarks old new else 0).getLsbD k.val = unmasks asserted old new k := by
  cases asserted
  · simp [unmasks]
  · simp [unmasks, clearedMarks]

/-- The masks a write leaves, and the park causes it raises in the channels that it unmasks (R127; log entry 12). -/
theorem State.writeStopMasks_offers (s : State) (mask value : Word) :
    let a := mergeBits (mask.extractLsb' 0 8) s.status.maskA (value.extractLsb' 0 8)
    let b := mergeBits (mask.extractLsb' 8 8) s.status.maskB (value.extractLsb' 8 8)
    let goneA := unmasks s.field.stopA.accepted s.status.maskA a
    let goneB := unmasks s.field.stopB.accepted s.status.maskB b
    let causes (k : ChanId) := stopCauses (Config.stopBFirst s.choices k) (goneA k) (goneB k)
    State.OffersIn
      { s with
        status := { s.status with maskA := a, maskB := b }
        chans := Vector.ofFn (fun k =>
          s.chans[k].parkedBy ((if goneA k then 1 else 0) ||| (if goneB k then 2 else 0))) }
      (s.writeStopMasks mask value)
      ((List.finRange 8).flatMap (fun k => (s.chans[k].parkEach k s.status.clock (causes k)).2)) := by
  intro a b goneA goneB causes
  have event : s.writeStopMasks mask value =
      State.eachChan { s with status := { s.status with maskA := a, maskB := b } } []
        (fun k ch => ch.parkEach k s.status.clock (causes k)) := by
    simp only [State.writeStopMasks, clearedMarks_bit]
    rfl
  have turn (k : ChanId) : s.chans[k].parkEach k s.status.clock (causes k) =
      (s.chans[k].parkedBy ((if goneA k then 1 else 0) ||| (if goneB k then 2 else 0)),
        (s.chans[k].parkEach k s.status.clock (causes k)).2) := by
    rw [stopCauses_marks (Config.stopBFirst s.choices k), ← Channel.parkEach_parkedBy _ s.chans[k] k s.status.clock]
  exact State.eachChan_offers event turn

/-- Settles O41: the masks bit by bit, and in each channel that the write unmasks the causes in the order that the free
value gives. -/
theorem stopMaskWrites : Obligations.StopMaskWrites := by
  unfold Obligations.StopMaskWrites
  intro s addr be data e enabled h role wp place big bit on
  have written : (s.used e).statusWrite addr be data big =
      (s.used e).writeStopMasks (valueMask big be) (inOrder big data) := by
    simp only [State.statusWrite, place]
  refine ⟨(s.used e).writeStopMasks (valueMask big be) (inOrder big data), _, _, ?_,
    fun i inMask => ?_, fun i inMask => ?_,
    fun k => stopCauses (Config.stopBFirst s.choices k) _ _, fun k => stopCauses_perm _ _ _,
    (s.used e).writeStopMasks_offers _ _⟩
  · rw [accessOf_exec rfl, State.access_status_write h role wp enabled, written]
  · have bits := mergeBits_field big be data 0 s.status.maskA inMask (by decide)
    rwa [Nat.zero_add] at bits
  · exact mergeBits_field big be data 8 s.status.maskB inMask (by decide)

/-! ### Gauge samples -/

/-- A stage with the uplift that a valid sample of its gauge gives (R132). -/
def Channel.uplifted (ch : Channel) (gauge : Gauge) : Channel :=
  if gauge.valid = true then { ch with ctx := { ch.ctx with uplift := ch.ctx.upliftOf gauge.reading.toNat } } else ch

/-- A stage in RAMP, HOLD or PARKED parks at a sample that is invalid or shows the limit reached (R132, R133). -/
theorem Channel.gaugeSample_taken {ch : Channel} (taken : ch.state = .ramp ∨ ch.state = .hold ∨ ch.state = .parked)
    (c : ChanId) (clock : Word) (gauge : Gauge) :
    ch.gaugeSample c clock gauge =
      if gauge.valid = true → ch.ctx.upliftLimit ≤ ch.ctx.upliftOf gauge.reading.toNat then
        (ch.uplifted gauge).park c clock .uplift
      else (ch.uplifted gauge, []) := by
  rcases taken with state | state | state <;>
    by_cases valid : gauge.valid = true <;> simp [Channel.gaugeSample, Channel.uplifted, state, valid]

/-- A stage in any other state does not look at its gauge (R132, R133). -/
theorem Channel.gaugeSample_untaken {ch : Channel}
    (untaken : ¬(ch.state = .ramp ∨ ch.state = .hold ∨ ch.state = .parked)) (c : ChanId) (clock : Word)
    (gauge : Gauge) : ch.gaugeSample c clock gauge = (ch, []) := by
  unfold Channel.gaugeSample
  split
  case h_1 ramp => exact absurd (.inl ramp) untaken
  case h_2 hold => exact absurd (.inr (.inl hold)) untaken
  case h_3 parked => exact absurd (.inr (.inr parked)) untaken
  all_goals rfl

/-- In RUNNING a sample is taken by its gauge, and each channel whose stage names the gauge looks at it (R131, R132). -/
theorem State.gaugeSampled_running {s : State} (run : s.loader.mode = .running) (g : GaugeId) (reading : Half)
    (valid : Bool) :
    let gauge := s.field.gauges[g].sample reading valid
    s.gaugeSampled g reading valid =
      State.eachChan { s with field := { s.field with gauges := s.field.gauges.set g gauge } } []
        (fun k ch => if ch.ctx.gauge = g then ch.gaugeSample k s.status.clock gauge else (ch, [])) :=
  if_pos run

/-- Settles O55: each channel takes the sample or not, and parks or not. -/
theorem gaugeSamples : Obligations.GaugeSamples := by
  unfold Obligations.GaugeSamples
  intro s g reading valid
  refine ⟨fun off => congrArg Host.Outcome.next (if_neg off), fun run => ?_⟩
  intro up takes parks seen
  have turn (k : ChanId) :
      (if s.chans[k].ctx.gauge = g then
        s.chans[k].gaugeSample k s.status.clock (s.field.gauges[g].sample reading valid) else (s.chans[k], [])) =
      if parks k then (seen k).park k s.status.clock .uplift else (seen k, []) := by
    by_cases taken : takes k
    · have lifts : seen k = s.chans[k].uplifted (s.field.gauges[g].sample reading valid) := by
        cases valid
        · exact if_neg fun both => nomatch both.2
        · exact if_pos ⟨taken, rfl⟩
      have tests : parks k ↔ ((s.field.gauges[g].sample reading valid).valid = true → s.chans[k].ctx.upliftLimit ≤
          s.chans[k].ctx.upliftOf (s.field.gauges[g].sample reading valid).reading.toNat) := by
        cases valid
        · exact ⟨fun _ => nofun, fun _ => ⟨taken, nofun⟩⟩
        · exact and_iff_right taken
      rw [if_pos taken.1, Channel.gaugeSample_taken taken.2, lifts]
      exact if_congr tests.symm rfl rfl
    · have idle : seen k = s.chans[k] := if_neg fun both => taken both.1
      rw [if_neg fun parked : parks k => taken parked.1, idle]
      by_cases named : s.chans[k].ctx.gauge = g
      · rw [if_pos named, Channel.gaugeSample_untaken fun loaded => taken ⟨named, loaded⟩]
      · exact if_neg named
  have offers := State.eachChan_parks (State.gaugeSampled_running run g reading valid) (parks := parks) (seen := seen)
    (cause := .uplift) turn
  exact ⟨s.gaugeSampled g reading valid, rfl, offers⟩

/-! ### The debounced lines -/

theorem Field.setLine_line (f : Field) (line : FieldLine) : f.setLine line (f.line line) = f := by
  rcases line with (_ | _) | c
  · rfl
  · rfl
  · have same : f.permits.set c f.permits[c] = f.permits := Vector.set_getElem_self _
    exact congrArg (fun permits => { f with permits := permits }) same

section Lines

variable {s : State} {line : FieldLine}

/-- A new raw level starts or stops the timer of its line (R124). -/
theorem State.changeRaw_new {level : Bool} (new : level ≠ (s.field.line line).raw) : s.changeRaw line level =
    { s with
      field := s.field.setLine line
        { raw := level, accepted := (s.field.line line).accepted
          timer := !s.loader.resetLine && (level != (s.field.line line).accepted) } } := by
  rw [State.changeRaw, Line.changeRaw, if_neg (Ne.symm new)]

/-- A raw level that is not new is no change (log entry 36). -/
theorem State.changeRaw_same : s.changeRaw line (s.field.line line).raw = s := by
  rw [State.changeRaw, Line.changeRaw, if_pos rfl, Field.setLine_line]

/-- A timer that runs out leaves its line with the raw level accepted (R124). -/
theorem Line.expired_of_timer {l : Line} (runsOut : l.timer = true) :
    l.expired = { raw := l.raw, accepted := l.raw, timer := false } := by
  rw [Line.expired, if_pos runsOut]

variable (runsOut : (s.field.line line).timer = true)
include runsOut

/-- A timer that runs out with nothing to accept only stops. -/
theorem State.debounceExpired_stops (same : (s.field.line line).raw = (s.field.line line).accepted) :
    s.debounceExpired line =
      { s with
        field := s.field.setLine line
          { raw := (s.field.line line).raw, accepted := (s.field.line line).accepted, timer := false } } := by
  have nothing : (s.field.line line).accepts = false := by simp [Line.accepts, same]
  simp only [State.debounceExpired, nothing, Bool.false_and, Bool.false_eq_true, if_false,
    Line.expired_of_timer runsOut, same]

/-- In RUNNING an accepted change is handed on (R125, R126, R129). -/
theorem State.debounceExpired_accepts (run : s.loader.mode = .running)
    (differs : (s.field.line line).raw ≠ (s.field.line line).accepted) :
    s.debounceExpired line =
      State.lineChanged
        { s with
          field := s.field.setLine line
            { raw := (s.field.line line).raw, accepted := (s.field.line line).raw, timer := false } }
        line (s.field.line line).raw := by
  have accepted : (s.field.line line).accepts = true := by simp [Line.accepts, runsOut, differs]
  simp only [State.debounceExpired, accepted, run, beq_self_eq_true, Bool.and_self, if_true,
    Line.expired_of_timer runsOut]

end Lines

/-- The records and the parks of an accepted change of a stop line (R125, R126). -/
theorem State.stopChanged_offers (s : State) (l : StopLine) (level : Bool) :
    State.OffersIn
      { s with chans := Vector.ofFn (fun k => if level = true ∧ (s.status.stopMask l).getLsbD k.val = false
          then s.chans[k].parkedBy (stopCause l).mark else s.chans[k]) }
      (s.stopChanged l level)
      (plainRecord s.status.clock (.stopChange l level (s.status.stopMask l)) ::
        (List.finRange 8).flatMap (fun k => if level = true ∧ (s.status.stopMask l).getLsbD k.val = false
          then (s.chans[k].park k s.status.clock (stopCause l)).2 else [])) := by
  have event : s.stopChanged l level =
      s.eachChan [plainRecord s.status.clock (.stopChange l level (s.status.stopMask l))] (fun k ch =>
        if level = true ∧ (s.status.stopMask l).getLsbD k.val = false then ch.park k s.status.clock (stopCause l)
        else (ch, [])) := by
    simp only [State.stopChanged, Bool.and_eq_true, Bool.not_eq_true']
    rfl
  exact State.eachChan_parks event fun _ => rfl

/-- The records of an event in which one channel alone takes part. -/
theorem flatMap_finRange_single {n : Nat} {α : Type} (c : Fin n) (news : Fin n → List α) :
    (List.finRange n).flatMap (fun k => if k = c then news k else []) = news c := by
  obtain ⟨before, rest, split⟩ := List.append_of_mem (List.mem_finRange c)
  have once := List.nodup_finRange n
  rw [split, List.nodup_middle, List.nodup_cons, List.mem_append, not_or] at once
  obtain ⟨⟨notBefore, notAfter⟩, -⟩ := once
  have others {l : List (Fin n)} (apart : c ∉ l) : l.flatMap (fun k => if k = c then news k else []) = [] :=
    List.flatMap_eq_nil_iff.2 fun k member => if_neg (ne_of_mem_of_not_mem member apart)
  rw [split, List.flatMap_append, List.flatMap_cons, if_pos rfl, others notBefore, others notAfter, List.nil_append,
    List.append_nil]

/-- The channels after an event in which one of them alone takes part. -/
theorem ofFn_single (v : Vector Channel 8) (c : ChanId) (after : ChanId → Channel) :
    Vector.ofFn (fun k : ChanId => if k = c then after k else v[k]) = v.set c (after c) := by
  ext k inRange
  rw [Vector.getElem_ofFn]
  have other := chans_set_get v c ⟨k, inRange⟩ (after c)
  refine Eq.trans ?_ other.symm
  by_cases own : (⟨k, inRange⟩ : ChanId) = c
  · rw [if_pos own, if_pos own, own]
  · rw [if_neg own, if_neg own]

/-- The record and the park of an accepted change of a permit line (R129). -/
theorem State.permitChanged_offers (s : State) (c : ChanId) (level : Bool) :
    State.OffersIn
      { s with chans := if level = true then s.chans else s.chans.set c (s.chans[c].parkedBy Cause.permit.mark) }
      (s.permitChanged c level)
      (s.chanRecord c (.permitChange level) ::
        if level = true then [] else (s.chans[c].park c s.status.clock .permit).2) := by
  have event : s.permitChanged c level = s.eachChan [s.chanRecord c (.permitChange level)] (fun k ch =>
      if k = c then if level = true then (ch, []) else ch.park k s.status.clock .permit else (ch, [])) := by
    cases level <;> simp [State.permitChanged]
  have turn (k : ChanId) :
      (if k = c then if level = true then (s.chans[k], []) else s.chans[k].park k s.status.clock .permit
        else (s.chans[k], [])) =
      (if k = c then if level = true then s.chans[k] else s.chans[k].parkedBy Cause.permit.mark else s.chans[k],
        if k = c then if level = true then [] else (s.chans[k].park k s.status.clock .permit).2 else []) := by
    rw [← Channel.park_parkedBy s.chans[k] k s.status.clock]
    split_ifs <;> rfl
  have offers := State.eachChan_offers event turn
  rw [flatMap_finRange_single, ofFn_single] at offers
  cases level
  · exact offers
  · have same : s.chans.set c s.chans[c] = s.chans := Vector.set_getElem_self _
    simp only [if_true, same] at offers
    exact offers

/-- Settles O56: a raw change, an expiry with nothing to hand on, and the accepted changes line by line. -/
theorem debouncedLines : Obligations.DebouncedLines := by
  unfold Obligations.DebouncedLines
  refine ⟨fun s line level => ?_, fun s run => ⟨fun l => ?_, fun c => ?_⟩⟩
  · intro l
    refine ⟨fun new => congrArg Host.Outcome.next (State.changeRaw_new new), fun same => ?_,
      fun runsOut same => congrArg Host.Outcome.next (State.debounceExpired_stops runsOut same),
      fun runsOut _ off => congrArg Host.Outcome.next ?_⟩
    · exact congrArg Host.Outcome.next (same ▸ State.changeRaw_same)
    · rw [State.debounceExpired_off off, Line.expired_of_timer runsOut]
  · intro line mask cause runsOut differs
    refine ⟨s.debounceExpired (.stop l), rfl, ?_⟩
    rw [State.debounceExpired_accepts runsOut run differs]
    have offers := State.stopChanged_offers
      { s with field := s.field.setLine (.stop l) { raw := line.raw, accepted := line.raw, timer := false } } l line.raw
    cases l <;> exact offers
  · intro line runsOut differs
    refine ⟨s.debounceExpired (.permit c), rfl, ?_⟩
    rw [State.debounceExpired_accepts (line := .permit c) runsOut run differs]
    exact State.permitChanged_offers
      { s with field := s.field.setLine (.permit c) { raw := line.raw, accepted := line.raw, timer := false } } c
      line.raw

end Sys2Proof.Machine
end

section
/-! SUPPORT. The capture buffers: a read that obtains a buffer, the flush, the two timers, and the words of a snapshot by
their fields. -/

namespace Sys2Proof.Machine

/-! ### Reads that obtain a buffer -/

/-- A read of a word whose key no buffer holds goes on to obtain one (R144). -/
theorem State.snapRead_unheld {s : State} {r : SnapRead} (unheld : ∀ i : Fin 6, s.pool.bufs[i].key? ≠ some r.key)
    (word : r.offset < 0x30) : s.snapRead r = s.snapObtain r := by
  rw [State.snapRead_word word, State.snapWord, Pool.holder_of_no_key unheld]

/-- With no buffer to be had the read waits (R144). -/
theorem State.snapObtain_none {s : State} (nobody : s.pool.obtain = none) (r : SnapRead) :
    s.snapObtain r = s.answer .retry := by
  rw [State.snapObtain, nobody]

/-- A read through the fresh address arms the buffer it obtains (R146). -/
theorem State.snapObtain_fresh {s : State} {r : SnapRead} {i : Fin 6} (picked : s.pool.obtain = some i)
    (fresh : r.key.fresh = true) : s.snapObtain r = (s.mapPool (·.arm i r.key)).answer .retry := by
  rw [State.snapObtain, picked]
  exact if_pos fresh

/-- A read through the current address fills the buffer it obtains and is served by it (R145). -/
theorem State.snapObtain_current {s : State} {r : SnapRead} {i : Fin 6} (picked : s.pool.obtain = some i)
    (current : r.key.fresh = false) : s.snapObtain r =
      (s.mapPool (·.fill i r.key false (s.snapshot r.key.channel false))).serve r i
        (s.snapshot r.key.channel false) := by
  rw [State.snapObtain, picked]
  exact if_neg (Bool.eq_false_iff.1 current)

/-- A buffer filled and freed at once is just freed. -/
theorem Pool.release_fill (p : Pool) (i : Fin 6) (k : BufKey) (stale : Bool) (snap : Vector Word 12) :
    (p.fill i k stale snap).release i = p.release i := by
  simp [Pool.release, Pool.fill]

/-- The end word of a buffer just filled is the governor clock, and its read leaves the buffer FREE (R145, R148). -/
theorem State.snapObtain_current_end {s : State} {r : SnapRead} {i : Fin 6} (picked : s.pool.obtain = some i)
    (current : r.key.fresh = false) (place : r.offset = endOffset) : s.snapObtain r =
      (s.mapPool (·.release i)).answer (.completeRead (presented r.big r.be s.status.clock)) := by
  rw [State.snapObtain_current picked current, State.serve_end place]
  exact congrArg (fun p : Pool => ({ s with pool := p } : State).answer
    (.completeRead (presented r.big r.be s.status.clock))) (Pool.release_fill s.pool i r.key false _)

/-- Settles O34: `Pool.obtain` picks the buffer, and the address of the read says whether it is armed or filled. -/
theorem snapReadsThatObtain : Obligations.SnapReadsThatObtain := by
  unfold Obligations.SnapReadsThatObtain
  intro s addr be e c enabled h role ok k big snap others unheld
  have obtains (word : offsetOf addr < 0x30) : s.access { addr := addr, be := be, write := none } =
      (s.used e).snapObtain { key := k, offset := offsetOf addr, be := be, big := big } := by
    rw [State.access_snap_read h role enabled]
    exact State.snapRead_unheld (s := s.used e) unheld word
  obtain ⟨noneIff, picks⟩ := Pool.obtain_cases s.pool ok
  refine ⟨fun allArmed word => ?_, fun notAll => ?_⟩
  · have retry := (obtains word).trans (State.snapObtain_none (s := s.used e) (noneIff.2 allArmed) _)
    exact ⟨by rw [accessOf_exec rfl, retry], by rw [accessOf_exec rfl, retry]⟩
  · obtain ⟨i, picked⟩ := Option.ne_none_iff_exists'.1 (mt noneIff.1 notAll)
    refine ⟨i, picks i picked, fun fresh word => ?_, fun current w place notEnd => ?_, fun current place => ?_⟩
    · have armed := (obtains word).trans (State.snapObtain_fresh (s := s.used e) picked fresh)
      exact ⟨congrArg Host.Outcome.next armed, congrArg Host.Outcome.next armed⟩
    · have notEndOffset : offsetOf addr ≠ endOffset := fun atEnd => notEnd (Fin.ext (by
        have same : 4 * w.val = 0x2C := place ▸ atEnd
        show w.val = 11
        omega))
      rw [accessOf_exec rfl, obtains (by omega), State.snapObtain_current (s := s.used e) picked current,
        State.serve_word place notEndOffset]
      rfl
    · rw [accessOf_exec rfl, obtains (by omega), State.snapObtain_current_end (s := s.used e) picked current place]
      rfl

/-! ### The flush -/

/-- A read of the flush offset frees the buffers of the channel and reads 0 (R149). -/
theorem State.snapRead_flush {s : State} {r : SnapRead} (flush : r.offset = flushOffset) :
    s.snapRead r = (s.mapPool (·.releaseChan r.key.channel)).answer (.completeRead 0) := by
  rw [State.snapRead, if_pos flush]

theorem Pool.releaseChan_eq (p : Pool) (c : ChanId) : p.releaseChan c =
    { bufs := p.bufs.map (fun b => if b.isOf c then .free else b)
      fillOrder := p.fillOrder.filter (fun i => !p.bufs[i].isOf c) } := by
  rw [Pool.releaseChan, mapVector_eq]

/-- Settles O35: the buffers a flush frees are those whose key names the channel, whatever they hold. -/
theorem snapFlush : Obligations.SnapFlush := by
  unfold Obligations.SnapFlush
  intro s addr be e c enabled h role place names
  have isOf : names = fun b => b.isOf c := by
    funext b
    cases b with
    | free => rfl
    | armed k => rfl
    | filled k stale snap => rfl
  rw [accessOf_exec rfl, State.access_snap_read h role enabled, State.snapRead_flush place, isOf]
  exact congrArg (fun p : Pool => Host.Outcome.next (({ s.used e with pool := p } : State).answer (.completeRead 0)))
    (s.pool.releaseChan_eq c)

/-! ### The timers -/

/-- The fill of an ARMED buffer changes the pool alone. -/
theorem State.fillArmed_eq (s : State) (k : BufKey) (stale : Bool) :
    s.fillArmed k stale = { s with pool := (s.fillArmed k stale).pool } := by
  unfold State.fillArmed
  split
  · split_ifs <;> rfl
  · rfl

/-- The expiry frees the FILLED buffer of its key (R150). -/
theorem State.expire_filled {s : State} (ok : PoolOk s.pool) {i : Fin 6} {k : BufKey} {stale : Bool}
    {snap : Vector Word 12} (filled : s.pool.bufs[i] = .filled k stale snap) :
    s.expire k = s.mapPool (·.release i) := by
  rw [State.expire, Pool.holder_of_key ok (i := i) (by rw [filled]; rfl)]
  exact if_pos (by rw [filled]; rfl)

/-- With no FILLED buffer of its key an expiry frees nothing: an ARMED one has no expiry (R150). -/
theorem State.expire_unfilled {s : State} {k : BufKey}
    (unfilled : ∀ (i : Fin 6) stale snap, s.pool.bufs[i] ≠ .filled k stale snap) : s.expire k = s := by
  unfold State.expire
  split
  next i holder =>
    have key := Pool.holder_key holder
    have notFilled : ¬s.pool.bufs[i].isFilled = true := by
      cases buffer : s.pool.bufs[i] with
      | free => exact nofun
      | armed held => exact nofun
      | filled held stale snap =>
        rw [buffer] at key
        exact absurd (Option.some.inj key ▸ buffer) (unfilled i stale snap)
    exact if_neg notFilled
  next => rfl

/-- Settles O36: each timer acts on the buffer that holds its key in the state it is for, and on no other. -/
theorem bufferTimers : Obligations.BufferTimers := by
  unfold Obligations.BufferTimers
  intro s c fresh ok k k'
  refine ⟨fun i armed => ?_, fun unarmed => ?_, fun i stale snap filled => ?_, fun unfilled => ?_⟩
  · show Host.Outcome.next (s.fillArmed k true) = _
    rw [State.fillArmed_eq, State.fillArmed_armed ok armed]
  · exact congrArg Host.Outcome.next (State.fillArmed_unarmed unarmed true)
  · exact congrArg Host.Outcome.next (State.expire_filled ok filled)
  · exact congrArg Host.Outcome.next (State.expire_unfilled unfilled)

/-! ### The words of a snapshot -/

/-- A whole word is its one field. -/
theorem ofNat_wordOf (n : Nat) : BitVec.ofNat 32 n = wordOf [(31, 0, n)] := by
  simp [wordOf_cons, wordOf_nil]

/-- A word of two numbers of 16 bits. -/
theorem halves_wordOf (m n : Nat) : (half n ++ half m : Word) = wordOf [(15, 0, m), (31, 16, n)] := by
  rw [word_at_zero (half n ++ half m : Word), append_at]
  simp [wordOf_cons, wordOf_nil, half]

theorem snapshotState_wordOf (step : Nat) (gin stale los : Bool) (state : BitVec 3) :
    (0#16 ++ byte step ++ 0#1 ++ BitVec.ofBool gin ++ BitVec.ofBool stale ++ BitVec.ofBool los ++ 0#1 ++ state : Word) =
      wordOf [(2, 0, state.toNat), (4, 4, los.toNat), (5, 5, stale.toNat), (6, 6, gin.toNat), (15, 8, step)] := by
  rw [word_at_zero (_ ++ state : Word)]
  iterate rw [append_at]
  simp [wordOf_cons, wordOf_nil, byte]

theorem snapshotFlow_wordOf (flow demand : Nat) :
    (0#10 ++ BitVec.ofNat 6 demand ++ half flow : Word) = wordOf [(15, 0, flow), (21, 16, demand)] := by
  rw [word_at_zero (_ ++ half flow : Word), append_at, append_at]
  simp [wordOf_cons, wordOf_nil, half]

theorem snapshotUplift_wordOf (set seen : Byte) (uplift : Nat) :
    (half uplift ++ seen ++ set : Word) = wordOf [(7, 0, set.toNat), (15, 8, seen.toNat), (31, 16, uplift)] := by
  rw [word_at_zero (_ ++ set : Word), append_at, append_at]
  simp [wordOf_cons, wordOf_nil, half]

theorem snapshotStage_wordOf (hole : Half) (stage : Byte) (band : Fin 4) (slot : BitVec 2) :
    (0#4 ++ slot ++ BitVec.ofNat 2 band.val ++ stage ++ hole : Word) =
      wordOf [(15, 0, hole.toNat), (23, 16, stage.toNat), (25, 24, band.val), (27, 26, slot.toNat)] := by
  rw [word_at_zero (_ ++ hole : Word)]
  iterate rw [append_at]
  simp [wordOf_cons, wordOf_nil]

/-- The close reason is the low three bits of its code (12.4, 12.5). -/
theorem snapshotClose_wordOf (tag reason : Byte) (ceiling : Nat) :
    (half ceiling ++ 0#5 ++ reason.extractLsb' 0 3 ++ tag : Word) =
      wordOf [(7, 0, tag.toNat), (10, 8, reason.toNat), (31, 16, ceiling)] := by
  rw [word_at_zero (_ ++ tag : Word), append_at, append_at, append_at]
  simp [wordOf_cons, wordOf_nil, half, ← BitVec.setWidth_eq_extractLsb']

/-- Settles O37, word by word. -/
theorem snapshotWords : Obligations.SnapshotWords := by
  unfold Obligations.SnapshotWords
  intro ch stale clock x r
  rw [← snapshotState_wordOf, ← halves_wordOf, ← snapshotFlow_wordOf, ← ofNat_wordOf, ← halves_wordOf, ← ofNat_wordOf,
    ← halves_wordOf, ← snapshotUplift_wordOf, ← snapshotStage_wordOf, ← snapshotClose_wordOf]
  rfl

end Sys2Proof.Machine
end

section
/-! SUPPORT. The ring record (12.7): the command codes both ways, and the words of a record and of its payload as the words
of their fields (`wordOf`). -/

namespace Sys2Proof.Machine

/-! ### The command codes -/

/-- The codes 1 to 8 are all commands (R57). -/
theorem Command.exists_code {code : Byte} (known : ¬(code = 0 ∨ 8 < code.toNat)) : ∃ cmd : Command, cmd.code = code := by
  obtain ⟨n, bound⟩ : ∃ n, code.toNat = n := ⟨_, rfl⟩
  have value : code = BitVec.ofNat 8 n := by rw [← bound, BitVec.ofNat_toNat, BitVec.setWidth_eq]
  have positive : n ≠ 0 := fun zero => known (.inl (by rw [value, zero]; rfl))
  have top : n ≤ 8 := by omega
  subst value
  clear known bound
  interval_cases n
  exacts [absurd rfl positive, ⟨.load, rfl⟩, ⟨.start, rfl⟩, ⟨.retarget, rfl⟩, ⟨.extend, rfl⟩, ⟨.park, rfl⟩,
    ⟨.resume, rfl⟩, ⟨.close, rfl⟩, ⟨.release, rfl⟩]

/-- `Command.ofCode` reads back the code of a command, and nothing else as that command (R57, 12.4). -/
theorem Command.ofCode_eq_some_iff (cmd : Command) (code : Byte) : Command.ofCode code = some cmd ↔ cmd.code = code := by
  constructor
  · intro found
    by_cases unknown : code = 0 ∨ 8 < code.toNat
    · rw [Command.ofCode_unknown unknown] at found
      exact absurd found nofun
    · obtain ⟨k, rfl⟩ := Command.exists_code unknown
      rw [Command.ofCode_code] at found
      exact congrArg Command.code (Option.some.inj found).symm
  · rintro rfl
    exact Command.ofCode_code cmd

/-! ### Words of bytes, half words and codes -/

theorem fourBytes_wordOf (a b c d : Byte) :
    (d ++ c ++ b ++ a : Word) = wordOf [(7, 0, a.toNat), (15, 8, b.toNat), (23, 16, c.toNat), (31, 24, d.toNat)] := by
  rw [word_at_zero (_ ++ a : Word), append_at, append_at, append_at]
  simp [wordOf_cons, wordOf_nil]

theorem twoBytes_wordOf (a b : Byte) : (0#16 ++ b ++ a : Word) = wordOf [(7, 0, a.toNat), (15, 8, b.toNat)] := by
  rw [word_at_zero (_ ++ a : Word), append_at, append_at]
  simp [wordOf_cons, wordOf_nil]

/-- A number of 8 bits, and one of 16 bits in the upper half. -/
theorem byteHalf_wordOf (m n : Nat) : (half n ++ 0#8 ++ byte m : Word) = wordOf [(7, 0, m), (31, 16, n)] := by
  rw [word_at_zero (_ ++ byte m : Word), append_at, append_at]
  simp [wordOf_cons, wordOf_nil, half, byte]

/-- A number of 16 bits alone. -/
theorem lowNumber_wordOf (n : Nat) : (0#16 ++ half n : Word) = wordOf [(15, 0, n)] := by
  rw [word_at_zero (_ ++ half n : Word), append_at]
  simp [wordOf_cons, wordOf_nil, half]

/-- A code of fewer bits than its field is the value of the field. -/
theorem ofNat_code {w : Nat} (code : BitVec w) (field : Nat) (narrow : w ≤ field) :
    (BitVec.ofNat field code.toNat).setWidth 32 = code.setWidth 32 := by
  rw [BitVec.ofNat_toNat, BitVec.setWidth_setWidth (by omega)]

theorem stateCode_wordOf (code : BitVec 3) : (0#29 ++ code : Word) = wordOf [(7, 0, code.toNat)] := by
  rw [word_at_zero (_ ++ code : Word), append_at, wordOf_cons, ofNat_code code _ (by decide)]
  simp [wordOf_nil]

theorem stateHalf_wordOf (code : BitVec 3) (n : Nat) :
    (half n ++ 0#13 ++ code : Word) = wordOf [(7, 0, code.toNat), (31, 16, n)] := by
  rw [word_at_zero (_ ++ code : Word), append_at, append_at, wordOf_cons, ofNat_code code _ (by decide)]
  simp [wordOf_cons, wordOf_nil, half]

/-- A level stands in the lowest bit of its byte (12.7). -/
theorem stopChange_wordOf (line mask : Byte) (level : Bool) :
    (0#8 ++ mask ++ 0#7 ++ BitVec.ofBool level ++ line : Word) =
      wordOf [(7, 0, line.toNat), (15, 8, level.toNat), (23, 16, mask.toNat)] := by
  rw [word_at_zero (_ ++ line : Word)]
  iterate rw [append_at]
  simp [wordOf_cons, wordOf_nil, ofNat_mark]

theorem communication_wordOf (place watched : Nat) (action : Byte) :
    (0#8 ++ action ++ byte watched ++ byte place : Word) =
      wordOf [(7, 0, place), (15, 8, watched), (23, 16, action.toNat)] := by
  rw [word_at_zero (_ ++ byte place : Word), append_at, append_at, append_at]
  simp [wordOf_cons, wordOf_nil, byte]

theorem level_wordOf (level : Bool) : (0#31 ++ BitVec.ofBool level : Word) = wordOf [(7, 0, level.toNat)] := by
  rw [word_at_zero (_ ++ BitVec.ofBool level : Word), append_at]
  simp [wordOf_cons, wordOf_nil, ofNat_mark]

theorem mapFault_wordOf (addr : Addr) (write : Bool) :
    (0#7 ++ BitVec.ofBool write ++ addr : Word) = wordOf [(23, 0, addr.toNat), (24, 24, write.toNat)] := by
  rw [word_at_zero (_ ++ addr : Word), append_at, append_at]
  simp [wordOf_cons, wordOf_nil]

/-! ### The words of a record -/

/-- The header of a record by its fields: no channel shows as 0xFF (R154, R186). -/
theorem Record.words_header (r : Record) (sequence : Half) :
    (r.words sequence)[0] = wordOf [(7, 0, r.payload.kind.toNat), (15, 8, (channelByte r.channel).toNat),
      (23, 16, r.tag.toNat), (31, 24, r.stageNo.toNat)] ∧
    (r.words sequence)[1] = wordOf [(15, 0, sequence.toNat), (31, 16, r.hole.toNat)] ∧
    (r.words sequence)[2] = r.clock := by
  rw [← fourBytes_wordOf, ← twoHalves_wordOf]
  exact ⟨rfl, rfl, rfl⟩

/-- The payload follows the three header words (R154). -/
theorem Record.words_payload (r : Record) (sequence : Half) (k : Fin 5) :
    (r.words sequence)[3 + k.val] = r.payload.words[k] := by
  fin_cases k <;> rfl

/-- The channel byte holds the number of the channel, or 0xFF (R186). -/
theorem channelByte_some_toNat (c : ChanId) : (channelByte (some c)).toNat = c.val := by
  rw [channelByte, byte, BitVec.toNat_ofNat, Nat.mod_eq_of_lt (by omega)]

/-! ### The payloads whose fields are chosen by a case -/

theorem WatchAction.code_toNat (action : WatchAction) : action.code.toNat = if action = .report then 1 else 2 := by
  cases action <;> rfl

theorem Payload.words_stopChange (line : StopLine) (level : Bool) (mask : Byte) :
    (Payload.stopChange line level mask).words =
      #v[wordOf [(7, 0, if line = .stopA then 0 else 1), (15, 8, level.toNat), (23, 16, mask.toNat)], 0, 0, 0, 0] := by
  cases line with
  | stopA => exact congrArg (fun w : Word => #v[w, 0, 0, 0, 0]) (stopChange_wordOf 0 mask level)
  | stopB => exact congrArg (fun w : Word => #v[w, 0, 0, 0, 0]) (stopChange_wordOf 1 mask level)

/-- The map fetcher is path 2 and names no origin class (12.7). -/
theorem Payload.words_memoryError_fetcher (addr : Addr) : (Payload.memoryError addr none).words =
    #v[wordOf [(23, 0, addr.toNat)], wordOf [(7, 0, 2), (15, 8, 0xFF)], 0, 0, 0] :=
  congrArg₂ (fun v w : Word => #v[v, w, 0, 0, 0]) (addrWord_wordOf addr) (twoBytes_wordOf 2 0xFF)

/-- A queued write is path 1 and names its origin class (12.7). -/
theorem Payload.words_memoryError_queue (addr : Addr) (o : Origin) : (Payload.memoryError addr (some o)).words =
    #v[wordOf [(23, 0, addr.toNat)], wordOf [(7, 0, 1), (15, 8, o.code.toNat)], 0, 0, 0] :=
  congrArg₂ (fun v w : Word => #v[v, w, 0, 0, 0]) (addrWord_wordOf addr) (twoBytes_wordOf 1 o.code)

/-- Settles O16: the tables by evaluation, and the words of a record and of each kind of payload by their fields. -/
theorem codesAndRecordWords : Obligations.CodesAndRecordWords := by
  unfold Obligations.CodesAndRecordWords
  refine ⟨rfl, rfl, rfl, rfl, rfl, rfl, Command.ofCode_eq_some_iff, rfl, fun r sequence => ?_,
    fun code arg reason => ⟨rfl, rfl, ?orderRefused⟩, ⟨rfl, rfl, rfl⟩,
    fun baseline ceiling => ⟨rfl, rfl, ?stageStarted⟩, fun step measured take => ⟨rfl, rfl, ?stepReached⟩,
    fun take pgin step => ⟨rfl, rfl, ?ginLimitBegin⟩, fun cause set => ⟨rfl, rfl, ?parked⟩,
    fun step ceiling => ⟨rfl, rfl, ?resumed⟩,
    fun place watched threshold kPa action => ⟨rfl, rfl, ?communication⟩,
    fun measured pmax state => ⟨rfl, rfl, ?overpressure⟩, fun state kPa => ⟨rfl, rfl, ?losBegin⟩,
    fun state kPa run => ⟨rfl, rfl, ?losEnd⟩, fun line level mask => ⟨rfl, rfl, ?stopChange⟩,
    fun level => ⟨rfl, rfl, ?permitChange⟩,
    fun reason seen take peak final elapsed specific => ⟨rfl, rfl, ?stageClosed⟩,
    fun addr write => ⟨rfl, rfl, ?mapFault⟩, fun addr origin => ⟨rfl, rfl, ?memoryError⟩⟩
  · obtain ⟨header, sequenceAndHole, clock⟩ := r.words_header sequence
    refine ⟨?_, sequenceAndHole, clock, r.words_payload sequence⟩
    cases named : r.channel with
    | none => rw [header, named]; rfl
    | some c => rw [header, named, channelByte_some_toNat]
  case orderRefused => rw [← orderValue_wordOf]; rfl
  case stageStarted => rw [← halves_wordOf]; rfl
  case stepReached => rw [← byteHalf_wordOf, ← ofNat_wordOf]; rfl
  case ginLimitBegin => rw [← byteHalf_wordOf, ← ofNat_wordOf]; rfl
  case parked => rw [← twoBytes_wordOf]; rfl
  case resumed => rw [← byteHalf_wordOf]; rfl
  case communication => rw [← WatchAction.code_toNat, ← communication_wordOf, ← halves_wordOf]; rfl
  case overpressure => rw [← stateCode_wordOf, ← halves_wordOf]; rfl
  case losBegin => rw [← stateHalf_wordOf]; rfl
  case losEnd => rw [← stateHalf_wordOf, ← lowNumber_wordOf]; rfl
  case stopChange => exact congrArg Vector.toList (Payload.words_stopChange line level mask)
  case permitChange => rw [← level_wordOf]; rfl
  case stageClosed => rw [← twoBytes_wordOf, ← ofNat_wordOf, ← halves_wordOf, ← ofNat_wordOf, ← ofNat_wordOf]; rfl
  case mapFault => rw [← mapFault_wordOf]; rfl
  case memoryError =>
    cases origin with
    | none => exact congrArg Vector.toList (Payload.words_memoryError_fetcher addr)
    | some o => cases o <;> exact congrArg Vector.toList (Payload.words_memoryError_queue addr _)

end Sys2Proof.Machine
end

section
/-! SUPPORT. The words of a STATUS page that a write changes bit by bit under its byte enables (R171, R173, R185): the
governor status word, the event filter mask and the ramp option table. -/

namespace Sys2Proof.Machine

/-! ### The governor status word -/

/-- A flag stays unless the write holds 1 at its bit under the mask (R171). -/
theorem Status.writeFlags_flag (u : Status) (mask value : Word) {i : Nat} (flag : i < 9) :
    (u.writeFlags mask value).flags.getLsbD i =
      (u.flags.getLsbD i && !(mask.getLsbD i && value.getLsbD i)) := by
  simp only [Status.writeFlags, BitVec.getLsbD_and, BitVec.getLsbD_not, BitVec.getLsbD_extractLsb', flag,
    decide_true, Bool.true_and, Nat.zero_add]
  rw [Bool.and_comm (value.getLsbD i)]

/-- TRAP stays unless the write holds 1 at its bit under the mask (R171). -/
theorem Status.writeFlags_trap (u : Status) (mask value : Word) :
    (u.writeFlags mask value).trap = (u.trap && !(mask.getLsbD 25 && value.getLsbD 25)) := by
  simp only [Status.writeFlags, BitVec.getLsbD_and]
  rw [Bool.and_comm (value.getLsbD 25)]

/-- A write of the governor status word changes the flags, TRAP, TE and the fault address only. -/
theorem Status.writeFlags_frame (u : Status) (mask value : Word) :
    { u.writeFlags mask value with flags := u.flags, trap := u.trap, te := u.te, faultAddr := u.faultAddr } = u := rfl

/-! ### A write goes to the word at its offset -/

section Words

variable {s : State} {addr : Addr} {be : Lanes} {data : Word} {big : Bool}

theorem State.statusWrite_governor (place : offsetOf addr = 0) :
    s.statusWrite addr be data big =
      { s with status := s.status.writeFlags (valueMask big be) (inOrder big data) } := by
  simp only [State.statusWrite, place, State.writeStatusWord]

theorem State.statusWrite_filterMask (place : offsetOf addr = 0xC) :
    s.statusWrite addr be data big = { s with status := { s.status with
      filterMask := mergeBits ((valueMask big be).extractLsb' 0 16) s.status.filterMask
        ((inOrder big data).extractLsb' 0 16) } } := by
  simp only [State.statusWrite, place, State.writeFilterMask]

theorem State.statusWrite_rampTable (place : offsetOf addr = 0x14) :
    s.statusWrite addr be data big = { s with status := { s.status with
      rampTable := mergeBits ((valueMask big be).extractLsb' 0 16) s.status.rampTable
        ((inOrder big data).extractLsb' 0 16) } } := by
  simp only [State.statusWrite, place, State.writeRampTable]

end Words

/-! ### The statement -/

/-- Settles O40: each row goes to its word, and the word is written bit by bit under the lanes of the page's byte
order. -/
theorem statusWordWrites : Obligations.StatusWordWrites := by
  unfold Obligations.StatusWordWrites
  intro s addr be data e enabled h role wp big u bit on
  have taken : s.access { addr := addr, be := be, write := some data } =
      ((s.used e).statusWrite addr be data big).answer .completeWrite := State.access_status_write h role wp enabled data
  have lane {i : Nat} (inWord : i < 32) : (valueMask big be).getLsbD i = on i := valueMask_bit big be i inWord
  have written (old : Half) {i : Nat} (inHalf : i < 16) :
      (mergeBits ((valueMask big be).extractLsb' 0 16) old ((inOrder big data).extractLsb' 0 16)).getLsbD i =
        if on i then bit i else old.getLsbD i := by
    have merged := mergeBits_field big be data 0 old inHalf (by decide)
    rwa [Nat.zero_add] at merged
  refine ⟨fun place => ?governor, fun place => ?filterMask, fun place => ?rampTable⟩
  case governor =>
    refine ⟨u.writeFlags (valueMask big be) (inOrder big data), ?_, fun i flag => ?_, ?_, ?_, rfl,
      u.writeFlags_frame _ _⟩
    · rw [accessOf_exec rfl, taken, State.statusWrite_governor place]
      rfl
    · rw [Status.writeFlags_flag _ _ _ flag, lane (by omega)]
    · rw [Status.writeFlags_trap, lane (by decide)]
    · rw [← lane (show 24 < 32 by decide)]
      rfl
  case filterMask =>
    refine ⟨_, ?_, fun i inMask => written u.filterMask inMask⟩
    rw [accessOf_exec rfl, taken, State.statusWrite_filterMask place]
    rfl
  case rampTable =>
    refine ⟨_, ?_, fun i inTable => written u.rampTable inTable⟩
    rw [accessOf_exec rfl, taken, State.statusWrite_rampTable place]
    rfl

end Sys2Proof.Machine
end

section
/-! SUPPORT. The setup stream: the places of its fields, its remainder taken bit by bit, and the tests that a stream
passes (R180, R181, R182, 12.8). -/

namespace Sys2Proof.Machine

/-! ### Fields of the stream by their values -/

/-- Two words side by side, by their values. -/
theorem append_eq_ofNat {m n : Nat} (x : BitVec m) (y : BitVec n) :
    x ++ y = BitVec.ofNat (m + n) (x.toNat * 2 ^ n + y.toNat) := by
  rw [← BitVec.toNat_inj, BitVec.toNat_append, ← Nat.shiftLeft_eq, Nat.shiftLeft_add_eq_or_of_lt y.isLt,
    ← BitVec.toNat_append, BitVec.toNat_ofNat, Nat.mod_eq_of_lt (x ++ y).isLt]

/-- The low bits of a word, by its value. -/
theorem extractLsb'_zero_eq_ofNat {m : Nat} (x : BitVec m) (n : Nat) :
    x.extractLsb' 0 n = BitVec.ofNat n (x.toNat % 2 ^ n) := by
  apply BitVec.eq_of_toNat_eq
  simp

section Fields

variable (b : Vector Byte 32) (k : Nat) (inStream : k < 31)
include inStream

/-- A two-byte field holds its first byte in its high half (11.3). -/
theorem streamHalf_eq_ofNat :
    streamHalf b.toList k = BitVec.ofNat 16 (b[k].toNat * 256 + b[k + 1].toNat) := by
  rw [streamHalf, streamByte_get b k (by omega), streamByte_get b (k + 1) (by omega)]
  exact append_eq_ofNat _ _

/-- A base address is the low 14 bits of its field, in units of 1024 bytes (12.8). -/
theorem streamBase_eq_ofNat :
    (streamHalf b.toList k).extractLsb' 0 14 ++ 0#10 =
      BitVec.ofNat 24 ((b[k].toNat % 64 * 256 + b[k + 1].toNat) * 1024) := by
  have high := b[k].isLt
  have low := b[k + 1].isLt
  have value : ((streamHalf b.toList k).extractLsb' 0 14).toNat = b[k].toNat % 64 * 256 + b[k + 1].toNat := by
    rw [streamHalf_eq_ofNat b k inStream, BitVec.extractLsb'_toNat, BitVec.toNat_ofNat, Nat.shiftRight_zero]
    omega
  rw [append_eq_ofNat, value]
  exact congrArg (BitVec.ofNat 24) (Nat.add_zero _)

end Fields

/-- The ramp slots, lowest first: the high half of the first byte, its low half, and the same of the second (12.8). -/
theorem nibbles_eq_ofNat (x y : Byte) :
    y.extractLsb' 0 4 ++ y.extractLsb' 4 4 ++ x.extractLsb' 0 4 ++ x.extractLsb' 4 4 =
      BitVec.ofNat 16 (x.toNat / 16 + x.toNat % 16 * 16 + y.toNat / 16 * 256 + y.toNat % 16 * 4096) := by
  have first := x.isLt
  have second := y.isLt
  have low (z : Byte) : (z.extractLsb' 0 4).toNat = z.toNat % 16 := by simp
  have high (z : Byte) : (z.extractLsb' 4 4).toNat = z.toNat / 16 := by
    rw [BitVec.extractLsb'_toNat, Nat.shiftRight_eq_div_pow]
    omega
  apply BitVec.eq_of_toNat_eq
  simp only [append_eq_ofNat, BitVec.toNat_ofNat, low, high]
  omega

/-! ### The remainder, bit by bit -/

/-- The remainder over a list of bytes is the remainder over their bits, most significant first (R181). -/
theorem crcOf_eq_foldl_bits (bytes : List Byte) : crcOf bytes =
    (bytes.flatMap (fun x => (List.range 8).map (fun k => x.getLsbD (7 - k)))).foldl crcBit 0xFFFF#16 := by
  rw [List.foldl_flatMap]
  rfl

/-- A bit equal to the top bit only shifts the remainder; any other also combines it with 0x1021 (R181). -/
theorem crcBit_eq (r : Half) (bit : Bool) :
    crcBit r bit = if r.getLsbD 15 = bit then r <<< 1 else (r <<< 1) ^^^ 0x1021#16 := by
  rw [crcBit]
  cases r.getLsbD 15 <;> cases bit <;> rfl

/-! ### The tests of a stream -/

/-- The remainder stands in bytes 30 and 31, high byte first (R181). -/
theorem streamCrcOk_iff (b : Vector Byte 32) :
    streamCrcOk b.toList = true ↔ crcOf (b.toList.take 30) = b[30] ++ b[31] := by
  rw [streamCrcOk, beq_iff_eq, streamHalf_crc]

/-- The three groups of tests (R180, R181, R182). -/
theorem streamOk_iff (b : List Byte) : streamOk b = true ↔
    streamFieldsOk b = true ∧ streamCrcOk b = true ∧ (setupOf b).placementOk = true := by
  rw [streamOk, Bool.and_eq_true, Bool.and_eq_true, and_assoc]

/-! ### The statement -/

/-- Settles O6: each value by its field of the stream, and the streams that pass test by test. -/
theorem acceptedStreams : Obligations.AcceptedStreams := by
  unfold Obligations.AcceptedStreams
  intro b u w m r n half base bits crc
  have remainder : crcOf (b.toList.take 30) = crc := by
    rw [crcOf_eq_foldl_bits, show crcBit = _ from funext₂ crcBit_eq]
  refine ⟨?values, ?passes⟩
  case values =>
    have value (k : Nat) (inStream : k < 32) := streamByte_get b k inStream
    have field (k : Fin 31) : streamHalf b.toList k = half k := streamHalf_eq_ofNat b k k.isLt
    have area (k : Fin 31) : (streamHalf b.toList k).extractLsb' 0 14 ++ 0#10 = base k :=
      streamBase_eq_ofNat b k k.isLt
    show setupOf b.toList = _
    rw [setupOf, value 1 (by decide), value 2 (by decide), value 3 (by decide), value 8 (by decide),
      value 9 (by decide), value 10 (by decide), value 11 (by decide), value 12 (by decide), value 13 (by decide),
      extractLsb'_zero_eq_ofNat b[2], extractLsb'_zero_eq_ofNat b[8], nibbles_eq_ofNat, ← area 4, ← area 6,
      ← field 14, ← field 16, ← field 18, ← field 20, ← field 22]
    rfl
  case passes =>
    rw [streamOk_iff, streamFieldsOk_iff, streamCrcOk_iff, remainder, Setup.placementOk_iff]

end Sys2Proof.Machine
end
